-- ==== Sys2Proof/Word.lean ====
section
/-! DEFINITION. The word and byte types of the FS-6400 (00_scope R3, 01_hart R7) and their plainest arithmetic. -/

namespace Sys2Proof

/-- A scalar register, an address as it is computed, a special register (R7, R11). -/
abbrev Word := BitVec 64

/-- One byte of memory (R3). -/
abbrev Byte := BitVec 8

/-- A vector register, 2,048 bits (R7). -/
abbrev VWord := BitVec 2048

/-- A predicate register, 512 bits (R7). -/
abbrev PWord := BitVec 512

/-- A scalar register number, 0 to 31 (R54). -/
abbrev SReg := BitVec 5

/-- A vector register number, 0 to 63 (R54). -/
abbrev VReg := BitVec 6

/-- A predicate register number; 0 to 47 are registers (R54). -/
abbrev PReg := BitVec 6

end Sys2Proof
end

