-- ==== Sys2Proof/Packets.lean ====
section
/-! DEFINITION. What crosses the package's boundary, as data: collective messages (19_collectives, 20_repartition_rotation) and host
accesses (22_host_platform). -/

namespace Sys2Proof

/-- What a message between packages is (R364, R373, R380, R382, R388, R395, R399, R403). -/
inductive MsgKind
  /-- A part sent by SEND, RRS or XCHG. -/
  | data
  /-- A contribution to a Square slot, and the slot's result. -/
  | contribution | result
  /-- The engine's acknowledgement of a message. -/
  | ack
  | abortNotice | joinNotice | joinAck | joinFetch | joinData | noRoute
  /-- A fault that the root's Square finds in a contribution (R381). -/
  | squareFault
  /-- Repartition: boxes, histograms, counts, quotas and records. -/
  | box | histogram | counts | quota | records
  /-- Rotation: a block, a reservation credit, the counts of R403. -/
  | block | credit | progress
  /-- The number of a message that a forwarding package has dropped (R379). -/
  | skip
  deriving DecidableEq, Repr

/-- A 4 KiB chunk, or a shorter last one, with its mark and its exclusion list: group rank, and whether poisoned (R384). -/
structure Chunk where
  bytes : List Byte
  poison : Bool := false
  excl : List (Nat × Bool) := []
  deriving DecidableEq, Repr

/-- A message between packages (R364, R379). -/
structure Msg where
  kind : MsgKind
  /-- Package RANKs. -/
  src : Nat
  dst : Nat
  hops : Nat := 64
  /-- The sender's number for this destination (R379). -/
  seq : Nat := 0
  gid : Nat := 0
  gen : Nat := 0
  inst : Nat := 0
  /-- Group ranks of the sender and of the receiver. -/
  fromRank : Nat := 0
  toRank : Nat := 0
  /-- Step word index, Square chunk index, reduction, and the scope: its first member's group rank, stride and size (R380). -/
  step : Nat := 0
  chunk : Nat := 0
  red : Nat := 0
  base : Nat := 0
  stride : Nat := 1
  span : Nat := 0
  chunks : List Chunk := []
  /-- Numbers of the other kinds: boxes, counts, quotas, masks. -/
  args : List Nat := []
  deriving DecidableEq, Repr

/-- A host access to BAR0 or BAR2: bytes wide, and the value of a write; none for a read (R414). -/
structure HostAccess where
  width : Nat
  write : Option Nat
  deriving DecidableEq, Repr

/-- What the host does with BAR2: an access at an offset, or a new size of 2^k bytes (R414). -/
inductive Bar2Access
  | memory (offset : Nat) (a : HostAccess)
  | resize (k : Nat)
  deriving DecidableEq, Repr

end Sys2Proof
end

