-- ==== Sys2Proof/Syntax.lean ====
section
/-! DEFINITION. The instruction set of the FS-6400: one constructor for each row of the opcode table. The first 223 are the
instruction words of 03_encoding R64; the others are the steps of the package's own agents and of the outside, which have no
encoding (95_what_each_step_holds). Operands are typed as R54 gives their register file. -/

namespace Sys2Proof

/-- A rounding mode of MODE.RND and of the convoy header (R15, R29). -/
inductive Rnd
  | rne | rtz | rdn | rup | rna
  deriving DecidableEq, Repr

/-- The size field of `ld` (R81). -/
inductive LdSize
  | b | h | w | d | bu | hu | wu
  deriving DecidableEq, Repr

/-- The size field of `st` (R81). -/
inductive StSize
  | b | h | w | d
  deriving DecidableEq, Repr

/-- The condition of `br` (R83). -/
inductive BrCond
  | eq | ne | lt | ge | ltu | geu
  deriving DecidableEq, Repr

/-- The scope of a fence (R95). -/
inductive Scope
  | hart | core | die | pkg | sys
  deriving DecidableEq, Repr

/-- The relation of `vcmp` (R114). -/
inductive CmpOp
  | eq | ne | lt | le | gt | ge | unord | ord
  deriving DecidableEq, Repr

/-- The order suffix of `amo` and `cas` (R162). -/
inductive AmoOrder
  | rlx | acq | rel | ar
  deriving DecidableEq, Repr

/-- The last operand of a vector operation: fn[7] says which file it names (R64). -/
inductive VOrS
  | v (r : VReg)
  | s (r : SReg)
  deriving DecidableEq, Repr

/-- One row of the opcode table. -/
inductive Instr
  /-- Convoy header: checks the following 1-16 words under R62, then writes MODE from its guard, polarity, rounding, sat and ftz fields. (R59) -/
  | cvy (n : BitVec 4) (g : PReg) (p : Bool) (r : Rnd) (s : Bool) (f : Bool)
  /-- s[d] := s[a] + s[b] modulo 2^64. (R73) -/
  | add (d : SReg) (a : SReg) (b : SReg)
  /-- s[d] := s[a] - s[b] modulo 2^64. (R73) -/
  | sub (d : SReg) (a : SReg) (b : SReg)
  /-- Bitwise AND of two scalar registers. (R73) -/
  | and (d : SReg) (a : SReg) (b : SReg)
  /-- Bitwise OR of two scalar registers. (R73) -/
  | or (d : SReg) (a : SReg) (b : SReg)
  /-- Bitwise XOR of two scalar registers. (R73) -/
  | xor (d : SReg) (a : SReg) (b : SReg)
  /-- Shift left logical by s[b][5:0]. (R73) -/
  | sll (d : SReg) (a : SReg) (b : SReg)
  /-- Shift right logical by s[b][5:0]. (R73) -/
  | srl (d : SReg) (a : SReg) (b : SReg)
  /-- Shift right arithmetic by s[b][5:0]. (R73) -/
  | sra (d : SReg) (a : SReg) (b : SReg)
  /-- 1 if s[a] < s[b] signed, else 0. (R73) -/
  | slt (d : SReg) (a : SReg) (b : SReg)
  /-- 1 if s[a] < s[b] unsigned, else 0. (R73) -/
  | sltu (d : SReg) (a : SReg) (b : SReg)
  /-- Signed minimum. (R73) -/
  | min (d : SReg) (a : SReg) (b : SReg)
  /-- Signed maximum. (R73) -/
  | max (d : SReg) (a : SReg) (b : SReg)
  /-- Unsigned minimum. (R73) -/
  | minu (d : SReg) (a : SReg) (b : SReg)
  /-- Unsigned maximum. (R73) -/
  | maxu (d : SReg) (a : SReg) (b : SReg)
  /-- Low 64 bits of the product. (R73) -/
  | mul (d : SReg) (a : SReg) (b : SReg)
  /-- High 64 bits of the signed product. (R73) -/
  | mulh (d : SReg) (a : SReg) (b : SReg)
  /-- High 64 bits of the unsigned product. (R73) -/
  | mulhu (d : SReg) (a : SReg) (b : SReg)
  /-- Signed quotient under the division rules. (R31) -/
  | div (d : SReg) (a : SReg) (b : SReg)
  /-- Unsigned quotient under the division rules. (R31) -/
  | divu (d : SReg) (a : SReg) (b : SReg)
  /-- Signed remainder under the division rules. (R31) -/
  | rem (d : SReg) (a : SReg) (b : SReg)
  /-- Unsigned remainder under the division rules. (R31) -/
  | remu (d : SReg) (a : SReg) (b : SReg)
  /-- Count of leading zero bits. (R73) -/
  | clz (d : SReg) (a : SReg)
  /-- Count of trailing zero bits. (R73) -/
  | ctz (d : SReg) (a : SReg)
  /-- Count of one bits. (R73) -/
  | popc (d : SReg) (a : SReg)
  /-- Sign-extend byte. (R73) -/
  | sextb (d : SReg) (a : SReg)
  /-- Sign-extend halfword. (R73) -/
  | sexth (d : SReg) (a : SReg)
  /-- Sign-extend word. (R73) -/
  | sextw (d : SReg) (a : SReg)
  /-- Bit reverse. (R73) -/
  | brev (d : SReg) (a : SReg)
  /-- Byte swap. (R73) -/
  | bswap (d : SReg) (a : SReg)
  /-- s[d] := s[a] + sext(imm14). (R74) -/
  | addi (d : SReg) (a : SReg) (i : BitVec 14)
  /-- AND with sign-extended immediate. (R74) -/
  | andi (d : SReg) (a : SReg) (i : BitVec 14)
  /-- OR with sign-extended immediate. (R74) -/
  | ori (d : SReg) (a : SReg) (i : BitVec 14)
  /-- XOR with sign-extended immediate. (R74) -/
  | xori (d : SReg) (a : SReg) (i : BitVec 14)
  /-- Signed compare with immediate. (R74) -/
  | slti (d : SReg) (a : SReg) (i : BitVec 14)
  /-- Unsigned compare with sign-extended immediate. (R74) -/
  | sltiu (d : SReg) (a : SReg) (i : BitVec 14)
  /-- Shift left logical by a constant. (R75) -/
  | slli (d : SReg) (a : SReg) (k : BitVec 6)
  /-- Shift right logical by a constant. (R75) -/
  | srli (d : SReg) (a : SReg) (k : BitVec 6)
  /-- Shift right arithmetic by a constant. (R75) -/
  | srai (d : SReg) (a : SReg) (k : BitVec 6)
  /-- s[d] := sext(imm20) << 14. (R76) -/
  | lui (d : SReg) (i : BitVec 20)
  /-- s[d] := PC + (sext(imm20) << 14). (R76) -/
  | addpc (d : SReg) (i : BitVec 20)
  /-- Floating add, .s or .d by the width bit. (R78) -/
  | fadd (d : SReg) (a : SReg) (b : SReg) (w : Bool)
  /-- Floating subtract. (R78) -/
  | fsub (d : SReg) (a : SReg) (b : SReg) (w : Bool)
  /-- Floating multiply. (R78) -/
  | fmul (d : SReg) (a : SReg) (b : SReg) (w : Bool)
  /-- Floating divide. (R78) -/
  | fdiv (d : SReg) (a : SReg) (b : SReg) (w : Bool)
  /-- Floating square root. (R78) -/
  | fsqrt (d : SReg) (a : SReg) (w : Bool)
  /-- minimumNumber. (R78) -/
  | fmin (d : SReg) (a : SReg) (b : SReg) (w : Bool)
  /-- maximumNumber. (R78) -/
  | fmax (d : SReg) (a : SReg) (b : SReg) (w : Bool)
  /-- Floating equality compare. (R78) -/
  | feq (d : SReg) (a : SReg) (b : SReg) (w : Bool)
  /-- Floating less-than compare. (R78) -/
  | flt (d : SReg) (a : SReg) (b : SReg) (w : Bool)
  /-- Floating less-or-equal compare. (R78) -/
  | fle (d : SReg) (a : SReg) (b : SReg) (w : Bool)
  /-- 1 if either operand is NaN. (R78) -/
  | funord (d : SReg) (a : SReg) (b : SReg) (w : Bool)
  /-- Floating to signed 64-bit integer. (R78) -/
  | fcvti (d : SReg) (a : SReg) (w : Bool)
  /-- Floating to unsigned 64-bit integer. (R78) -/
  | fcvtu (d : SReg) (a : SReg) (w : Bool)
  /-- Signed integer to floating. (R78) -/
  | fcvtf (d : SReg) (a : SReg) (w : Bool)
  /-- Unsigned integer to floating. (R78) -/
  | fcvtfu (d : SReg) (a : SReg) (w : Bool)
  /-- Width change between fp32 and fp64. (R78) -/
  | fcvtw (d : SReg) (a : SReg) (w : Bool)
  /-- Writes the one-hot class mask of the operand. (R80) -/
  | fclass (d : SReg) (a : SReg) (w : Bool)
  /-- Fused a*b+c rounded once. (R79) -/
  | fma (d : SReg) (a : SReg) (b : SReg) (w : Bool) (c : SReg)
  /-- Fused a*b-c rounded once. (R79) -/
  | fms (d : SReg) (a : SReg) (b : SReg) (w : Bool) (c : SReg)
  /-- Fused -(a*b)+c rounded once. (R79) -/
  | fnma (d : SReg) (a : SReg) (b : SReg) (w : Bool) (c : SReg)
  /-- Fused -(a*b)-c rounded once. (R79) -/
  | fnms (d : SReg) (a : SReg) (b : SReg) (w : Bool) (c : SReg)
  /-- Scalar load of the selected size and extension at s[a]+imm11. (R81) -/
  | ld (d : SReg) (a : SReg) (z : LdSize) (i : BitVec 11)
  /-- Scalar store of the low bytes of s[d] at s[a]+imm11. (R81) -/
  | st (d : SReg) (a : SReg) (z : StSize) (i : BitVec 11)
  /-- Conditional branch comparing s[a] with s[b]. (R83) -/
  | br (a : SReg) (b : SReg) (c : BrCond) (o : BitVec 11)
  /-- Jump by a 26-bit word offset. (R84) -/
  | jmp (o : BitVec 26)
  /-- Writes s1 := PC+4 and jumps by a 26-bit word offset. (R84) -/
  | call (o : BitVec 26)
  /-- Checks and jumps to s[a]+imm14, linking into s[d]. (R85) -/
  | jr (d : SReg) (a : SReg) (i : BitVec 14)
  /-- Ends one strip-mined row: advances count, pointers and indices, loops or closes. (R89) -/
  | strip (c : SReg) (p : SReg) (q : SReg) (r : SReg) (t : SReg)
  /-- Opens a strip-mined loop context. (R88) -/
  | sloop (w : BitVec 2) (z : BitVec 12)
  /-- Reads a special register into s[d]. (R91) -/
  | mfs (d : SReg) (n : BitVec 12)
  /-- Writes s[a] to a special register after the checks of R12. (R91) -/
  | mts (a : SReg) (n : BitVec 12)
  /-- ORs s[a] into a special register. (R91) -/
  | mset (a : SReg) (n : BitVec 12)
  /-- Clears the bits of s[a] in a special register. (R91) -/
  | mclr (a : SReg) (n : BitVec 12)
  /-- Traps SYSCALL. (R92) -/
  | sysc
  /-- Returns from a trap, restoring SUP and IE and resuming a convoy if recorded. (R93) -/
  | eret
  /-- Traps BREAKPOINT. (R92) -/
  | brk
  /-- Suspends the hart until an interrupt is pending. (R94) -/
  | wfi
  /-- Holds later accesses until earlier loads are performed at the scope. (R95) -/
  | fenceAcq (s : Scope)
  /-- Holds later stores until earlier loads and stores are performed at the scope. (R95) -/
  | fenceRel (s : Scope)
  /-- Full fence at the scope, ordered with mutually in-scope full fences. (R202) -/
  | fenceFull (s : Scope)
  /-- Invalidates selected translations in every TLB of the package. (R96) -/
  | tlbinv (a : SReg) (b : SReg)
  /-- Writes back and invalidates a scalar-cache line or the whole cache. (R97) -/
  | cflush (a : SReg)
  /-- Invalidates a scalar-cache line without write-back. (R97) -/
  | cinval (a : SReg)
  /-- p[d] := p[a] AND p[b]. (R115) -/
  | pand (d : PReg) (a : PReg) (b : PReg)
  /-- p[d] := p[a] OR p[b]. (R115) -/
  | por (d : PReg) (a : PReg) (b : PReg)
  /-- p[d] := p[a] XOR p[b]. (R115) -/
  | pxor (d : PReg) (a : PReg) (b : PReg)
  /-- p[d] := p[a] AND NOT p[b]. (R115) -/
  | pandn (d : PReg) (a : PReg) (b : PReg)
  /-- p[d] := NOT p[a]. (R115) -/
  | pnot (d : PReg) (a : PReg)
  /-- Inserts a run of ones into a copy of p[b]. (R116) -/
  | pset (d : PReg) (a : SReg) (b : PReg)
  /-- Counts set bits of p[a] AND p[b] into s[d]. (R115) -/
  | pcnt (d : SReg) (a : PReg) (b : PReg)
  /-- Lowest set bit of p[a] AND p[b], or 512. (R115) -/
  | pfirst (d : SReg) (a : PReg) (b : PReg)
  /-- Moves selected predicate bits into a scalar. (R117) -/
  | pmvs (d : SReg) (a : PReg) (b : PReg)
  /-- Moves scalar bits to selected predicate positions. (R117) -/
  | pmvp (d : PReg) (a : SReg) (b : PReg)
  /-- Sets a vector register's tag, with pairing. (R103) -/
  | vtag (d : VReg) (t : BitVec 6)
  /-- Sets VW and VL and returns VL. (R104) -/
  | vsetl (d : SReg) (a : SReg) (w : BitVec 2)
  /-- Sets HWM from s[a]. (R105) -/
  | vhwm (a : SReg)
  /-- Element-wise add; x selects a scalar b. (R106) -/
  | vadd (d : VReg) (a : VReg) (b : VOrS)
  /-- Element-wise subtract. (R106) -/
  | vsub (d : VReg) (a : VReg) (b : VOrS)
  /-- Element-wise multiply. (R106) -/
  | vmul (d : VReg) (a : VReg) (b : VOrS)
  /-- High half of the element product. (R106) -/
  | vmulh (d : VReg) (a : VReg) (b : VOrS)
  /-- Element-wise divide. (R106) -/
  | vdiv (d : VReg) (a : VReg) (b : VOrS)
  /-- Element-wise integer remainder. (R106) -/
  | vrem (d : VReg) (a : VReg) (b : VOrS)
  /-- Element-wise minimum. (R106) -/
  | vmin (d : VReg) (a : VReg) (b : VOrS)
  /-- Element-wise maximum. (R106) -/
  | vmax (d : VReg) (a : VReg) (b : VOrS)
  /-- Element-wise bitwise AND. (R108) -/
  | vand (d : VReg) (a : VReg) (b : VOrS)
  /-- Element-wise bitwise OR. (R108) -/
  | vor (d : VReg) (a : VReg) (b : VOrS)
  /-- Element-wise bitwise XOR. (R108) -/
  | vxor (d : VReg) (a : VReg) (b : VOrS)
  /-- Element-wise shift left. (R106) -/
  | vshl (d : VReg) (a : VReg) (b : VOrS)
  /-- Element-wise shift right. (R106) -/
  | vshr (d : VReg) (a : VReg) (b : VOrS)
  /-- Element-wise absolute difference. (R106) -/
  | vabsd (d : VReg) (a : VReg) (b : VOrS)
  /-- Selects a or b per element by the guard. (R107) -/
  | vsel (d : VReg) (a : VReg) (b : VOrS)
  /-- Copies element patterns. (R110) -/
  | vmov (d : VReg) (a : VReg)
  /-- Element-wise negate. (R109) -/
  | vneg (d : VReg) (a : VReg)
  /-- Element-wise absolute value. (R109) -/
  | vabs (d : VReg) (a : VReg)
  /-- Element-wise bitwise NOT. (R108) -/
  | vnot (d : VReg) (a : VReg)
  /-- Converts elements into the destination tag. (R110) -/
  | vcvt (d : VReg) (a : VReg)
  /-- Element-wise reciprocal. (R111) -/
  | vrcp (d : VReg) (a : VReg)
  /-- Element-wise reciprocal square root. (R111) -/
  | vrsq (d : VReg) (a : VReg)
  /-- Element-wise 2^a. (R111) -/
  | vexp2 (d : VReg) (a : VReg)
  /-- Element-wise log2. (R111) -/
  | vlog2 (d : VReg) (a : VReg)
  /-- Element-wise population count. (R109) -/
  | vpopc (d : VReg) (a : VReg)
  /-- Element-wise leading-zero count. (R109) -/
  | vclz (d : VReg) (a : VReg)
  /-- Renormalises bfp16 blocks. (R112) -/
  | vmred (d : VReg) (a : VReg)
  /-- Element-wise fused a*b+c. (R113) -/
  | vfma (d : VReg) (a : VReg) (b : VReg) (c : VReg)
  /-- Element-wise fused a*b-c. (R113) -/
  | vfms (d : VReg) (a : VReg) (b : VReg) (c : VReg)
  /-- Element-wise fused -(a*b)+c. (R113) -/
  | vfnma (d : VReg) (a : VReg) (b : VReg) (c : VReg)
  /-- Element-wise fused -(a*b)-c. (R113) -/
  | vfnms (d : VReg) (a : VReg) (b : VReg) (c : VReg)
  /-- Element-wise compare into predicate bits. (R114) -/
  | vcmp (d : PReg) (a : VReg) (b : VOrS) (c : CmpOp)
  /-- Broadcasts a scalar pattern to active elements. (R118) -/
  | vbcast (d : VReg) (a : SReg)
  /-- Extracts one element into a scalar. (R118) -/
  | vext (d : SReg) (a : VReg) (b : SReg)
  /-- Inserts a scalar pattern into one element. (R118) -/
  | vins (d : VReg) (a : SReg) (b : SReg)
  /-- Permutes elements by an index vector. (R119) -/
  | vperm (d : VReg) (a : VReg) (b : VReg)
  /-- Slides elements up by s[b]. (R120) -/
  | vslup (d : VReg) (a : VReg) (b : SReg)
  /-- Slides elements down by s[b]. (R120) -/
  | vsldn (d : VReg) (a : VReg) (b : SReg)
  /-- Packs selected elements. (R121) -/
  | vcomp (d : VReg) (a : VReg) (b : PReg)
  /-- Unpacks elements to selected positions. (R121) -/
  | vexpd (d : VReg) (a : VReg) (b : PReg)
  /-- Pairwise-tree sum reduction into element 0. (R122) -/
  | vredSum (d : VReg) (a : VReg)
  /-- Minimum reduction. (R122) -/
  | vredMin (d : VReg) (a : VReg)
  /-- Maximum reduction. (R122) -/
  | vredMax (d : VReg) (a : VReg)
  /-- Absolute-maximum reduction. (R122) -/
  | vredAmax (d : VReg) (a : VReg)
  /-- Bitwise AND reduction. (R122) -/
  | vredAnd (d : VReg) (a : VReg)
  /-- Bitwise OR reduction. (R122) -/
  | vredOr (d : VReg) (a : VReg)
  /-- Bitwise XOR reduction. (R122) -/
  | vredXor (d : VReg) (a : VReg)
  /-- Inclusive sequential prefix sum. (R123) -/
  | vscanIsum (d : VReg) (a : VReg)
  /-- Exclusive sequential prefix sum. (R123) -/
  | vscanEsum (d : VReg) (a : VReg)
  /-- Inclusive prefix maximum. (R123) -/
  | vscanImax (d : VReg) (a : VReg)
  /-- Unit-stride vector load. (R125) -/
  | vld (d : VReg) (a : SReg) (i : BitVec 11)
  /-- Strided vector load. (R125) -/
  | vlds (d : VReg) (a : SReg) (b : SReg)
  /-- Indexed vector load. (R125) -/
  | vldx (d : VReg) (a : SReg) (b : VReg)
  /-- Unit-stride vector store. (R125) -/
  | vst (d : VReg) (a : SReg) (i : BitVec 11)
  /-- Strided vector store. (R125) -/
  | vsts (d : VReg) (a : SReg) (b : SReg)
  /-- Indexed vector store. (R125) -/
  | vstx (d : VReg) (a : SReg) (b : VReg)
  /-- Vector atomic add grouped by address; r returns old values. (R166) -/
  | vamoAdd (d : VReg) (a : SReg) (b : VReg) (r : Bool)
  /-- Vector atomic minimum. (R166) -/
  | vamoMin (d : VReg) (a : SReg) (b : VReg) (r : Bool)
  /-- Vector atomic maximum. (R166) -/
  | vamoMax (d : VReg) (a : SReg) (b : VReg) (r : Bool)
  /-- Vector atomic AND. (R166) -/
  | vamoAnd (d : VReg) (a : SReg) (b : VReg) (r : Bool)
  /-- Vector atomic OR. (R166) -/
  | vamoOr (d : VReg) (a : SReg) (b : VReg) (r : Bool)
  /-- Vector atomic XOR. (R166) -/
  | vamoXor (d : VReg) (a : SReg) (b : VReg) (r : Bool)
  /-- Vector atomic swap. (R166) -/
  | vamoSwap (d : VReg) (a : SReg) (b : VReg) (r : Bool)
  /-- Vector atomic fp32 add. (R166) -/
  | vamoFadd (d : VReg) (a : SReg) (b : VReg) (r : Bool)
  /-- Vector atomic fp32 maximum. (R166) -/
  | vamoFmax (d : VReg) (a : SReg) (b : VReg) (r : Bool)
  /-- Scalar atomic add at the home; z size, oo order. (R163) -/
  | amoAdd (d : SReg) (a : SReg) (b : SReg) (o : AmoOrder) (z : Bool)
  /-- Scalar atomic AND. (R163) -/
  | amoAnd (d : SReg) (a : SReg) (b : SReg) (o : AmoOrder) (z : Bool)
  /-- Scalar atomic OR. (R163) -/
  | amoOr (d : SReg) (a : SReg) (b : SReg) (o : AmoOrder) (z : Bool)
  /-- Scalar atomic XOR. (R163) -/
  | amoXor (d : SReg) (a : SReg) (b : SReg) (o : AmoOrder) (z : Bool)
  /-- Scalar atomic signed minimum. (R163) -/
  | amoMin (d : SReg) (a : SReg) (b : SReg) (o : AmoOrder) (z : Bool)
  /-- Scalar atomic signed maximum. (R163) -/
  | amoMax (d : SReg) (a : SReg) (b : SReg) (o : AmoOrder) (z : Bool)
  /-- Scalar atomic unsigned minimum. (R163) -/
  | amoMinu (d : SReg) (a : SReg) (b : SReg) (o : AmoOrder) (z : Bool)
  /-- Scalar atomic unsigned maximum. (R163) -/
  | amoMaxu (d : SReg) (a : SReg) (b : SReg) (o : AmoOrder) (z : Bool)
  /-- Scalar atomic swap. (R163) -/
  | amoSwap (d : SReg) (a : SReg) (b : SReg) (o : AmoOrder) (z : Bool)
  /-- Scalar compare-and-swap. (R163) -/
  | cas (d : SReg) (a : SReg) (b : SReg) (o : AmoOrder) (z : Bool)
  /-- Waits for the barrier to be idle, then resets it with a new expected count. (R155) -/
  | binit (a : SReg) (b : SReg)
  /-- Release, then one arrival at the barrier. (R156) -/
  | barrive (d : SReg) (a : SReg)
  /-- Adds expected bytes to PEND and evaluates the barrier. (R157) -/
  | bexpect (a : SReg) (b : SReg)
  /-- Waits until the barrier's phase differs from s[b]. (R158) -/
  | bwait (a : SReg) (b : SReg)
  /-- Reads the barrier status word or PEND. (R159) -/
  | btest (d : SReg) (a : SReg) (b : SReg)
  /-- Superstep arrival and wait, resumable through STEPARR. (R160) -/
  | step (d : SReg) (a : SReg)
  /-- Reads, validates and posts a continuation record. (R142) -/
  | spawn (d : SReg) (a : SReg)
  /-- Waits for the hart's accesses and tile commands, then retires the hart. (R138) -/
  | texit
  /-- Starts a replay of a task graph in a free replay slot. (R144) -/
  | tgraph (d : SReg) (a : SReg) (b : SReg)
  /-- Issues a tile load of a tensor-map box into slots. (R225) -/
  | tld (d : SReg) (a : SReg) (b : VReg)
  /-- Issues a tile store of slots into a tensor-map box. (R225) -/
  | tst (d : SReg) (a : SReg) (b : VReg)
  /-- Issues a slot-to-slot copy, optionally transposing. (R226) -/
  | tcpy (d : SReg) (a : SReg)
  /-- Issues a fill of slots with an 8-byte pattern. (R227) -/
  | tfill (d : SReg) (a : SReg)
  /-- Issues a re-layout of slots under a new layout tag. (R227) -/
  | ttag (d : SReg)
  /-- Issues a dense-to-CSR conversion. (R228) -/
  | tpack (d : SReg) (a : SReg) (b : SReg)
  /-- Issues a CSR-to-dense conversion. (R229) -/
  | tunpk (d : SReg) (a : SReg)
  /-- Waits for selected tile commands and returns their failure count. (R230) -/
  | twait (d : SReg) (a : SReg)
  /-- Vector load from a tile range. (R231) -/
  | vldt (d : VReg) (a : SReg) (b : SReg)
  /-- Vector store into a tile range. (R231) -/
  | vstt (d : VReg) (a : SReg) (b : SReg)
  /-- Issues up to 32 copy command records from vector registers. (R232) -/
  | xbatchCopy (d : PReg) (a : BitVec 3)
  /-- Issues up to 32 fabric command records. (R284) -/
  | xbatchFabric (d : PReg) (a : BitVec 3)
  /-- Issues up to 32 collective cstart or cabort records. (R369) -/
  | xbatchColl (d : PReg) (a : BitVec 3)
  /-- Checks and sets the hart's matrix shape. (R239) -/
  | mshape (a : SReg)
  /-- Posts a clear of an accumulator. (R248) -/
  | mzero (d : SReg)
  /-- Posts a conversion of accumulator entries into slots. (R250) -/
  | mread (d : SReg) (a : SReg) (b : SReg)
  /-- Posts a load of accumulator entries from slots. (R249) -/
  | mload (d : SReg) (a : SReg)
  /-- Waits for the hart's posted matrix instructions. (R253) -/
  | mfence
  /-- Posts a dense matrix multiply-accumulate. (R251) -/
  | mma (d : SReg) (a : SReg) (b : SReg)
  /-- Posts a block-sparse multiply-accumulate. (R252) -/
  | mmab (d : SReg) (a : SReg) (b : SReg)
  /-- Posts a decomposition of B into N:M terms and a remainder list. (R254) -/
  | mdec (d : SReg) (a : SReg)
  /-- Posts a multiply by decomposed N:M terms. (R256) -/
  | mmanm (d : SReg) (a : SReg) (b : SReg)
  /-- Posts an application of the remainder list. (R256) -/
  | mrem (d : SReg) (a : SReg) (b : SReg)
  /-- Posts a recurrent scan through the accumulator. (R257) -/
  | mscan (d : SReg) (a : SReg) (b : SReg)
  /-- Reads and validates a stream program and queues its configuration. (R278) -/
  | scfg (a : SReg)
  /-- Launches a count of fabric invocations. (R279) -/
  | sgo (d : SReg) (a : SReg) (b : SReg)
  /-- Waits until an invocation commits or is cancelled. (R280) -/
  | smark (d : SReg) (a : SReg)
  /-- Drains the fabric, or flushes it and clears HALT. (R281) -/
  | sdrain (a : SReg)
  /-- Reads selected fabric state. (R282) -/
  | sstat (d : SReg) (a : SReg)
  /-- Queues a coefficient-table load for a node. (R283) -/
  | stwld (a : SReg) (b : SReg)
  /-- Registers or releases a collective group. (R359) -/
  | cgrp (d : SReg) (a : SReg)
  /-- Loads step words into the collective program store. (R366) -/
  | cprg (d : SReg) (a : SReg) (b : SReg)
  /-- Starts a collective instance from a call block. (R369) -/
  | cstart (d : SReg) (a : SReg)
  /-- Waits for a collective instance and returns its status. (R372) -/
  | cwait (d : SReg) (a : SReg)
  /-- Returns a collective instance's status without waiting. (R372) -/
  | cpoll (d : SReg) (a : SReg)
  /-- Aborts the running collective instance. (R373) -/
  | cabort (d : SReg) (a : SReg)
  /-- Starts a repartition instance. (R392) -/
  | crepart (d : SReg) (a : SReg)
  /-- Starts a rotation instance. (R398) -/
  | crot (d : SReg) (a : SReg)
  /-- Fetches from a donor or enters a group as a spare. (R388) -/
  | cjoin (d : SReg) (a : SReg) (b : SReg)
  /-- Acknowledges a pending membership change and rebuilds the rank table. (R385) -/
  | cshrink (d : SReg) (a : SReg)
  /-- Reads a test register in test mode. (R424) -/
  | dgrd (d : SReg) (a : SReg)
  /-- Writes a test register in test mode, injecting parity or poison. (R424) -/
  | dgwr (a : SReg) (b : SReg)
  /-- A hart reaches a word that the opcode map does not define, or that has a non-zero reserved or unused field, and traps ILLEGAL_INSN with the word in TRAPVAL. (R56) -/
  | illegalInsn (word : Word)
  /-- Host write of WR, checked against RD, possibly stopping the ring; before it the host's writes to its own memory, by host bus
  address, are visible. (R418) -/
  | doorbell (ring : Nat) (wr : Nat) (mem : List (Nat × BitVec 8))
  /-- Ring register bit restarting a stopped ring. (R417) -/
  | rst (ring : Nat)
  /-- Host sets or supervisor clears host-interrupt bits per die. (R416) -/
  | svdb (value : Word)
  /-- A host access through BAR2 to device memory. (R414) -/
  | hostBar2Access (access : Bar2Access)
  /-- Write-only register appending a save area to the save-area ring. (R325) -/
  | saveadd (die : Nat) (value : Word)
  /-- Write to a device register with no behaviour of its own; the host's accesses through BAR0, its reads among them. (R4, R414) -/
  | registerWrite (offset : Nat) (access : HostAccess)
  /-- A unit passes bring-up and sets its READY bit. (R416) -/
  | unitReady (unit : Nat)
  /-- Fences a die, drops its clock entry, elects a master and reissues its work. (R353) -/
  | dieFence (die : Nat) (cause : Nat)
  /-- A collective message arrives and is matched or buffered in the early area. (R364) -/
  | messageArrival (msg : Msg)
  /-- A message for another RANK is forwarded through the Square's crossbar. (R379) -/
  | messageForward (msg : Msg)
  /-- A contribution arrives at a Square slot and is combined or dropped. (R381) -/
  | squareContribution (msg : Msg)
  /-- An abort notice completes matching steps as if the rank were lost. (R373) -/
  | abortNoticeArrival (msg : Msg)
  /-- A spare's join notice makes a membership change pending. (R388) -/
  | joinNoticeArrival (msg : Msg)
  /-- A rotated block lands into a released set and credits the barrier. (R399) -/
  | rotationLanding (msg : Msg)
  /-- Declares a package lost; in-flight steps complete without it. (R383) -/
  | lose (rank : Nat)
  /-- A bad-CRC flit on a die link triggers replay and counts LINKERR. (R349) -/
  | linkCrcReplay (link : Nat)
  /-- After 16 failed replays a die link is declared down and rerouted. (R349) -/
  | linkDown (link : Nat)
  /-- A bad-CRC flit on a Relzil port triggers replay and counts PORTERR. (R376) -/
  | portCrcReplay (port : Nat)
  /-- After 16 failed replays a port goes down and PORTUP clears. (R376) -/
  | portDown (port : Nat)
  /-- Resumes the command that posted record SEQ. (R330) -/
  | frctlRetry (core : Nat) (seq : Nat)
  /-- Aborts the command that posted record SEQ, crediting in full. (R330) -/
  | frctlAbort (core : Nat) (seq : Nat)
  /-- Takes a pending fault-record or host interrupt between convoys. (R322) -/
  | interruptEntry
  /-- Master distributor chooses a queue and binds its head record or chunk. (R133) -/
  | queueServe
  /-- QAGE expiry promotes a waiting queue by one level. (R133) -/
  | queuePromotion (q : Nat)
  /-- A priority-0 head unbound for QAGE triggers pre-emption of a lower-priority gang. (R140) -/
  | distributorPreempt (q : Nat)
  /-- A held post enters its ring once an entry frees. (R132) -/
  | heldPostEntry (die : Nat)
  /-- After the last hart retires and engine work ends, releases the grant and completes the record. (R138) -/
  | gangComplete (core : Nat) (gang : Nat)
  /-- An engine subtracts credited bytes from a barrier's PEND and evaluates it. (R150) -/
  | engineCredit (core : Nat)
  /-- A hart blocked longer than BARAGE traps BARRIER_AGE. (R152) -/
  | barrierAgeExpiry (hart : Nat)
  /-- A 4 KiB chunk of a copy command is done and credits 4,096 bytes. (R221) -/
  | copyChunkDone (core : Nat) (hart : Nat)
  /-- A copy command meets a page fault, withholds its credit and posts a kind 1 record. (R328) -/
  | transferPage (core : Nat) (hart : Nat)
  /-- A non-hart master's protection violation freezes that master and posts a kind 2 record. (R332) -/
  | protect (core : Nat) (hart : Nat)
  /-- A posted matrix instruction takes effect once its dependences allow. (R242) -/
  | matrixExecute (core : Nat) (index : Nat)
  /-- When quiescent, applies queued scfg and stwld commands. (R274) -/
  | configPeriod (core : Nat)
  /-- A fabric context fires, reading and appending tokens. (R261) -/
  | contextFire (core : Nat) (ctx : Nat)
  /-- An input port emits marker, data rows and end of an invocation. (R264) -/
  | inputPortEmit (core : Nat) (port : Nat)
  /-- On end(n) an output port writes its held rows as one slot operation. (R265) -/
  | outputPortCommit (core : Nat) (port : Nat)
  /-- Every 1,024 cycles a node recomputes its context weights. (R263) -/
  | reweight (core : Nat) (node : Nat)
  /-- A channel head's age reaches AGELIM and faults the invocation. (R268) -/
  | blockedEdge (core : Nat) (chan : Nat)
  /-- A fault record enters the die's fault ring when it is enabled and has room. (R326) -/
  | faultRecordEntry (die : Nat) (queue : Nat)
  /-- HARTCTL op retiring a frozen hart as texit does. (R336) -/
  | retire (hart : Nat)
  /-- HARTCTL op stopping the frozen hart's gang and releasing its grant. (R336) -/
  | abandon (hart : Nat)
  /-- Supervisor write to PREEMPT requests pre-emption of a gang. (R337) -/
  | preemptRequest (core : Nat) (value : Word)
  /-- Stops and saves a gang to a save area once its work is settled and an area is available. (R337) -/
  | preemptSave (core : Nat) (gang : Nat)
  /-- Restores a saved gang on its core and returns its save area. (R343) -/
  | gangRestore (core : Nat) (gang : Nat)
  /-- Expiry of a tracker window restarts counts and examines candidates. (R193) -/
  | hotpageWindow (die : Nat)
  /-- Copies a hot page to a new frame and rewrites its entry. (R194) -/
  | pageMigration (die : Nat)
  /-- A home applies a cross-die write once its clock covers the carried clock. (R200) -/
  | crossDieWriteApply (die : Nat)
  /-- The engine executes one step word of an instance. (R363) -/
  | collectiveStep (reg : Nat)
  /-- SQTIME expiry completes a slot PARTIAL. (R382) -/
  | squareTimeout (slot : Nat)
  /-- Once the histogram is agreed, records move to owners by quota. (R395) -/
  | repartitionExchange (reg : Nat)
  /-- A set's consumers complete and its credit returns upstream. (R400) -/
  | setRelease (set : Nat)
  /-- Submission entry posting a continuation record. (R419) -/
  | post (ring : Nat)
  /-- Submission entry moving bytes between host and device. (R420) -/
  | copy (ring : Nat)
  /-- A host DMA page fault posts a kind 1 record and withholds completion. (R420) -/
  | hostDmaFault (cmd : Nat)
  /-- Resumes a faulted host DMA command. (R420) -/
  | hdfrctlRetry (seq : Nat)
  /-- Aborts a faulted host DMA command. (R420) -/
  | hdfrctlAbort (seq : Nat)
  /-- Returns identity and capability counts. (R421) -/
  | ident (ring : Nat)
  /-- Sets RANK on every hart. (R421) -/
  | setrank (ring : Nat)
  /-- Management command fencing a die. (R421) -/
  | mgmtFence (ring : Nat)
  /-- Management command performing and recording a soft repair. (R421) -/
  | mgmtRepair (ring : Nat)
  /-- Returns a stack's repair list. (R421) -/
  | replist (ring : Nat)
  /-- Returns a signed attestation report. (R423) -/
  | attest (ring : Nat)
  /-- Verifies and stages a firmware image. (R422) -/
  | fwstage (ring : Nat)
  /-- Sets the module power cap. (R421) -/
  | powercap (ring : Nat)
  /-- Enters or leaves test mode. (R424) -/
  | test (ring : Nat)
  /-- Resets the package after the completion word. (R421) -/
  | mgmtReset (ring : Nat)
  /-- Returns power and temperature telemetry. (R421) -/
  | telem (ring : Nat)
  /-- Reset: ROM verifies firmware, brings units up and replays repairs. (R422) -/
  | packageReset
  /-- Power cap or 105 °C lowers the arithmetic clock. (R425) -/
  | thermalThrottle
  /-- At 115 °C the package shuts down. (R425) -/
  | thermalShutdown
  /-- An instruction fetch at the PC finds no translation, lacks permission or reads poisoned data, and traps PAGE_FAULT, PROTECTION or MACHINE_CHECK at the fetch address, or freezes the hart at a trap entry point. (R86) -/
  | fetchFault
  /-- A host DMA COPY finishes moving its bytes, then writes its completion word, sends MSI-X when IRQ is set and posts POSTREC. (R420) -/
  | hostDmaComplete (cmd : Nat)
  deriving DecidableEq, Repr

end Sys2Proof
end

