-- ==== Sys2Proof/Decode.lean ====
section
/-! DEFINITION. The decoder of instruction words (03_encoding R52 to R56, R64, R65), total on every word and rejecting by name, and
after it the encoder, written from the same tables. Words are natural numbers below 2^32. -/

namespace Sys2Proof

/-- Why a word is no instruction (R54, R56). -/
inductive Reject
  /-- A major opcode that the map reserves. -/
  | major (op : Nat)
  /-- A function code that the map does not list. -/
  | function (op fn : Nat)
  /-- A scalar register field with its top bit set. -/
  | scalarField (x : Nat)
  /-- A predicate register field above 47. -/
  | predicateField (x : Nat)
  /-- An unused or reserved field that is not zero. -/
  | unusedField (x : Nat)
  /-- A branch condition 6 or 7. -/
  | condition (x : Nat)
  /-- A size or width code that the map does not list. -/
  | size (x : Nat)
  /-- A kind or immediate that the map does not list. -/
  | kind (x : Nat)
  /-- A fence scope 5 to 7. -/
  | scope (x : Nat)
  /-- A convoy guard 48 to 62. -/
  | guard (x : Nat)
  /-- A rounding code 5 to 7. -/
  | rounding (x : Nat)
  /-- A register group that does not start at a multiple of 8. -/
  | group (x : Nat)
  deriving DecidableEq, Repr

/-- A field that names a scalar register (R54). -/
def scalarF (x : Nat) : Except Reject SReg := if x < 32 then .ok (.ofNat 5 x) else .error (.scalarField x)

/-- A field that names a predicate register (R54). -/
def predF (x : Nat) : Except Reject PReg := if x < 48 then .ok (.ofNat 6 x) else .error (.predicateField x)

/-- A field that names a vector register (R54). -/
def vecF (x : Nat) : Except Reject VReg := .ok (.ofNat 6 x)

/-- A field the instruction does not use (R54). -/
def unusedF (x : Nat) : Except Reject Unit := if x = 0 then .ok () else .error (.unusedField x)

/-- The b field of a vector operation: fn[7] selects the file (R64). -/
def vOrSF (x : Bool) (b : Nat) : Except Reject VOrS :=
  if x then (scalarF b).map .s else (vecF b).map .v

/-- Rounding codes of the convoy header (R15, R56). -/
def rndF : Nat → Except Reject Rnd
  | 0 => .ok .rne | 1 => .ok .rtz | 2 => .ok .rdn | 3 => .ok .rup | 4 => .ok .rna
  | x => .error (.rounding x)

/-- The guard of a convoy header: p0 to p47 or 63 (R56). -/
def guardF (x : Nat) : Except Reject PReg := if x < 48 || x = 63 then .ok (.ofNat 6 x) else .error (.guard x)

/-- Sizes of `ld` (R81). -/
def ldSizeF : Nat → Except Reject LdSize
  | 0 => .ok .b | 1 => .ok .h | 2 => .ok .w | 3 => .ok .d | 4 => .ok .bu | 5 => .ok .hu | 6 => .ok .wu
  | x => .error (.size x)

/-- Sizes of `st` (R81). -/
def stSizeF : Nat → Except Reject StSize
  | 0 => .ok .b | 1 => .ok .h | 2 => .ok .w | 3 => .ok .d
  | x => .error (.size x)

/-- Conditions of `br` (R83). -/
def condF : Nat → Except Reject BrCond
  | 0 => .ok .eq | 1 => .ok .ne | 2 => .ok .lt | 3 => .ok .ge | 4 => .ok .ltu | 5 => .ok .geu
  | x => .error (.condition x)

/-- Scopes of a fence (R95). -/
def scopeF : Nat → Except Reject Scope
  | 0 => .ok .hart | 1 => .ok .core | 2 => .ok .die | 3 => .ok .pkg | 4 => .ok .sys
  | x => .error (.scope x)

/-- Relations of `vcmp` (R64). -/
def cmpF : Nat → Except Reject CmpOp
  | 0 => .ok .eq | 1 => .ok .ne | 2 => .ok .lt | 3 => .ok .le
  | 4 => .ok .gt | 5 => .ok .ge | 6 => .ok .unord | 7 => .ok .ord
  | x => .error (.kind x)

/-- fn[7:6] of an atomic (R64). -/
def orderF (x : Nat) : AmoOrder := match x with
  | 0 => .rlx | 1 => .acq | 2 => .rel | _ => .ar

/-- Major 0x02 of the opcode map (R64). -/
def decodeAlu (d a b fn : Nat) : Except Reject Instr :=
  match fn with
  | 0 => do return .add (← scalarF d) (← scalarF a) (← scalarF b)
  | 1 => do return .sub (← scalarF d) (← scalarF a) (← scalarF b)
  | 2 => do return .and (← scalarF d) (← scalarF a) (← scalarF b)
  | 3 => do return .or (← scalarF d) (← scalarF a) (← scalarF b)
  | 4 => do return .xor (← scalarF d) (← scalarF a) (← scalarF b)
  | 5 => do return .sll (← scalarF d) (← scalarF a) (← scalarF b)
  | 6 => do return .srl (← scalarF d) (← scalarF a) (← scalarF b)
  | 7 => do return .sra (← scalarF d) (← scalarF a) (← scalarF b)
  | 8 => do return .slt (← scalarF d) (← scalarF a) (← scalarF b)
  | 9 => do return .sltu (← scalarF d) (← scalarF a) (← scalarF b)
  | 10 => do return .min (← scalarF d) (← scalarF a) (← scalarF b)
  | 11 => do return .max (← scalarF d) (← scalarF a) (← scalarF b)
  | 12 => do return .minu (← scalarF d) (← scalarF a) (← scalarF b)
  | 13 => do return .maxu (← scalarF d) (← scalarF a) (← scalarF b)
  | 16 => do return .mul (← scalarF d) (← scalarF a) (← scalarF b)
  | 17 => do return .mulh (← scalarF d) (← scalarF a) (← scalarF b)
  | 18 => do return .mulhu (← scalarF d) (← scalarF a) (← scalarF b)
  | 19 => do return .div (← scalarF d) (← scalarF a) (← scalarF b)
  | 20 => do return .divu (← scalarF d) (← scalarF a) (← scalarF b)
  | 21 => do return .rem (← scalarF d) (← scalarF a) (← scalarF b)
  | 22 => do return .remu (← scalarF d) (← scalarF a) (← scalarF b)
  | 24 => do unusedF b; return .clz (← scalarF d) (← scalarF a)
  | 25 => do unusedF b; return .ctz (← scalarF d) (← scalarF a)
  | 26 => do unusedF b; return .popc (← scalarF d) (← scalarF a)
  | 27 => do unusedF b; return .sextb (← scalarF d) (← scalarF a)
  | 28 => do unusedF b; return .sexth (← scalarF d) (← scalarF a)
  | 29 => do unusedF b; return .sextw (← scalarF d) (← scalarF a)
  | 30 => do unusedF b; return .brev (← scalarF d) (← scalarF a)
  | 31 => do unusedF b; return .bswap (← scalarF d) (← scalarF a)
  | _ => .error (.function 0x02 fn)

/-- Major 0x0D of the opcode map (R64). -/
def decodeFloat (d a b fn : Nat) : Except Reject Instr :=
  let w := fn / 128 == 1
  match fn % 128 with
  | 0 => do return .fadd (← scalarF d) (← scalarF a) (← scalarF b) w
  | 1 => do return .fsub (← scalarF d) (← scalarF a) (← scalarF b) w
  | 2 => do return .fmul (← scalarF d) (← scalarF a) (← scalarF b) w
  | 3 => do return .fdiv (← scalarF d) (← scalarF a) (← scalarF b) w
  | 4 => do unusedF b; return .fsqrt (← scalarF d) (← scalarF a) w
  | 5 => do return .fmin (← scalarF d) (← scalarF a) (← scalarF b) w
  | 6 => do return .fmax (← scalarF d) (← scalarF a) (← scalarF b) w
  | 8 => do return .feq (← scalarF d) (← scalarF a) (← scalarF b) w
  | 9 => do return .flt (← scalarF d) (← scalarF a) (← scalarF b) w
  | 10 => do return .fle (← scalarF d) (← scalarF a) (← scalarF b) w
  | 11 => do return .funord (← scalarF d) (← scalarF a) (← scalarF b) w
  | 16 => do unusedF b; return .fcvti (← scalarF d) (← scalarF a) w
  | 17 => do unusedF b; return .fcvtu (← scalarF d) (← scalarF a) w
  | 18 => do unusedF b; return .fcvtf (← scalarF d) (← scalarF a) w
  | 19 => do unusedF b; return .fcvtfu (← scalarF d) (← scalarF a) w
  | 20 => do unusedF b; return .fcvtw (← scalarF d) (← scalarF a) w
  | 24 => do unusedF b; return .fclass (← scalarF d) (← scalarF a) w
  | _ => .error (.function 0x0D fn)

/-- Major 0x18 of the opcode map (R64). -/
def decodeSystem (d a b fn : Nat) : Except Reject Instr :=
  match fn with
  | 0 => do unusedF d; unusedF a; unusedF b; return .sysc
  | 1 => do unusedF d; unusedF a; unusedF b; return .eret
  | 2 => do unusedF d; unusedF a; unusedF b; return .brk
  | 3 => do unusedF d; unusedF a; unusedF b; return .wfi
  | 16 => do unusedF d; return .tlbinv (← scalarF a) (← scalarF b)
  | 17 => do unusedF d; unusedF b; return .cflush (← scalarF a)
  | 18 => do unusedF d; unusedF b; return .cinval (← scalarF a)
  | 8 => do
    unusedF d; unusedF b
    let sc ← scopeF (a % 8)
    match a / 8 with
    | 1 => return .fenceAcq sc
    | 2 => return .fenceRel sc
    | 3 => return .fenceFull sc
    | k => .error (.kind k)
  | _ => .error (.function 0x18 fn)

/-- Major 0x19 of the opcode map (R64). -/
def decodePred (d a b fn : Nat) : Except Reject Instr :=
  match fn with
  | 0 => do return .pand (← predF d) (← predF a) (← predF b)
  | 1 => do return .por (← predF d) (← predF a) (← predF b)
  | 2 => do return .pxor (← predF d) (← predF a) (← predF b)
  | 3 => do return .pandn (← predF d) (← predF a) (← predF b)
  | 4 => do unusedF b; return .pnot (← predF d) (← predF a)
  | 5 => do return .pset (← predF d) (← scalarF a) (← predF b)
  | 6 => do return .pcnt (← scalarF d) (← predF a) (← predF b)
  | 7 => do return .pfirst (← scalarF d) (← predF a) (← predF b)
  | 8 => do return .pmvs (← scalarF d) (← predF a) (← predF b)
  | 9 => do return .pmvp (← predF d) (← scalarF a) (← predF b)
  | _ => .error (.function 0x19 fn)

/-- Major 0x1A of the opcode map (R64). -/
def decodeVecConfig (d a b fn : Nat) : Except Reject Instr :=
  match fn with
  | 0 => do unusedF a; return .vtag (← vecF d) (.ofNat 6 b)
  | 1 => do
    if b < 4 then return .vsetl (← scalarF d) (← scalarF a) (.ofNat 2 b) else .error (.size b)
  | 2 => do unusedF d; unusedF b; return .vhwm (← scalarF a)
  | _ => .error (.function 0x1A fn)

/-- Major 0x1B of the opcode map (R64). -/
def decodeVecArith (d a b fn : Nat) : Except Reject Instr :=
  let x := fn / 128 == 1
  match fn % 128 with
  | 0 => do return .vadd (← vecF d) (← vecF a) (← vOrSF x b)
  | 1 => do return .vsub (← vecF d) (← vecF a) (← vOrSF x b)
  | 2 => do return .vmul (← vecF d) (← vecF a) (← vOrSF x b)
  | 3 => do return .vmulh (← vecF d) (← vecF a) (← vOrSF x b)
  | 4 => do return .vdiv (← vecF d) (← vecF a) (← vOrSF x b)
  | 5 => do return .vrem (← vecF d) (← vecF a) (← vOrSF x b)
  | 6 => do return .vmin (← vecF d) (← vecF a) (← vOrSF x b)
  | 7 => do return .vmax (← vecF d) (← vecF a) (← vOrSF x b)
  | 8 => do return .vand (← vecF d) (← vecF a) (← vOrSF x b)
  | 9 => do return .vor (← vecF d) (← vecF a) (← vOrSF x b)
  | 10 => do return .vxor (← vecF d) (← vecF a) (← vOrSF x b)
  | 11 => do return .vshl (← vecF d) (← vecF a) (← vOrSF x b)
  | 12 => do return .vshr (← vecF d) (← vecF a) (← vOrSF x b)
  | 13 => do return .vabsd (← vecF d) (← vecF a) (← vOrSF x b)
  | 14 => do return .vsel (← vecF d) (← vecF a) (← vOrSF x b)
  | _ => .error (.function 0x1B fn)

/-- Major 0x1C of the opcode map (R64). -/
def decodeVecUnary (d a b fn : Nat) : Except Reject Instr :=
  match fn with
  | 0 => do unusedF b; return .vmov (← vecF d) (← vecF a)
  | 1 => do unusedF b; return .vneg (← vecF d) (← vecF a)
  | 2 => do unusedF b; return .vabs (← vecF d) (← vecF a)
  | 3 => do unusedF b; return .vnot (← vecF d) (← vecF a)
  | 4 => do unusedF b; return .vcvt (← vecF d) (← vecF a)
  | 5 => do unusedF b; return .vrcp (← vecF d) (← vecF a)
  | 6 => do unusedF b; return .vrsq (← vecF d) (← vecF a)
  | 7 => do unusedF b; return .vexp2 (← vecF d) (← vecF a)
  | 8 => do unusedF b; return .vlog2 (← vecF d) (← vecF a)
  | 9 => do unusedF b; return .vpopc (← vecF d) (← vecF a)
  | 10 => do unusedF b; return .vclz (← vecF d) (← vecF a)
  | 11 => do unusedF b; return .vmred (← vecF d) (← vecF a)
  | _ => .error (.function 0x1C fn)

/-- Major 0x1E of the opcode map (R64). -/
def decodeVecCmp (d a b fn : Nat) : Except Reject Instr := do
  let c ← cmpF (fn % 8)
  let x := fn / 128 == 1
  if fn / 8 % 16 = 0 then return .vcmp (← predF d) (← vecF a) (← vOrSF x b) c else .error (.function 0x1E fn)

/-- Major 0x1F of the opcode map (R64). -/
def decodePermute (d a b fn : Nat) : Except Reject Instr :=
  match fn with
  | 0 => do unusedF b; return .vbcast (← vecF d) (← scalarF a)
  | 1 => do return .vext (← scalarF d) (← vecF a) (← scalarF b)
  | 2 => do return .vins (← vecF d) (← scalarF a) (← scalarF b)
  | 3 => do return .vperm (← vecF d) (← vecF a) (← vecF b)
  | 4 => do return .vslup (← vecF d) (← vecF a) (← scalarF b)
  | 5 => do return .vsldn (← vecF d) (← vecF a) (← scalarF b)
  | 6 => do return .vcomp (← vecF d) (← vecF a) (← predF b)
  | 7 => do return .vexpd (← vecF d) (← vecF a) (← predF b)
  | 8 =>
    match b with
    | 0 => do return .vredSum (← vecF d) (← vecF a)
    | 1 => do return .vredMin (← vecF d) (← vecF a)
    | 2 => do return .vredMax (← vecF d) (← vecF a)
    | 3 => do return .vredAmax (← vecF d) (← vecF a)
    | 4 => do return .vredAnd (← vecF d) (← vecF a)
    | 5 => do return .vredOr (← vecF d) (← vecF a)
    | 6 => do return .vredXor (← vecF d) (← vecF a)
    | _ => .error (.kind b)
  | 9 =>
    match b with
    | 0 => do return .vscanIsum (← vecF d) (← vecF a)
    | 1 => do return .vscanEsum (← vecF d) (← vecF a)
    | 2 => do return .vscanImax (← vecF d) (← vecF a)
    | _ => .error (.kind b)
  | _ => .error (.function 0x1F fn)

/-- Major 0x21 of the opcode map (R64). -/
def decodeVecLoad (d a b fn : Nat) : Except Reject Instr :=
  match fn with
  | 0 => do return .vlds (← vecF d) (← scalarF a) (← scalarF b)
  | 1 => do return .vldx (← vecF d) (← scalarF a) (← vecF b)
  | _ => .error (.function 0x21 fn)

/-- Major 0x23 of the opcode map (R64). -/
def decodeVecStore (d a b fn : Nat) : Except Reject Instr :=
  match fn with
  | 0 => do return .vsts (← vecF d) (← scalarF a) (← scalarF b)
  | 1 => do return .vstx (← vecF d) (← scalarF a) (← vecF b)
  | _ => .error (.function 0x23 fn)

/-- Major 0x24 of the opcode map (R64). -/
def decodeVamo (d a b fn : Nat) : Except Reject Instr :=
  let r := fn / 16 % 2 == 1
  if fn / 32 = 0 then
    match fn % 16 with
    | 0 => do return .vamoAdd (← vecF d) (← scalarF a) (← vecF b) r
    | 1 => do return .vamoMin (← vecF d) (← scalarF a) (← vecF b) r
    | 2 => do return .vamoMax (← vecF d) (← scalarF a) (← vecF b) r
    | 3 => do return .vamoAnd (← vecF d) (← scalarF a) (← vecF b) r
    | 4 => do return .vamoOr (← vecF d) (← scalarF a) (← vecF b) r
    | 5 => do return .vamoXor (← vecF d) (← scalarF a) (← vecF b) r
    | 6 => do return .vamoSwap (← vecF d) (← scalarF a) (← vecF b) r
    | 7 => do return .vamoFadd (← vecF d) (← scalarF a) (← vecF b) r
    | 8 => do return .vamoFmax (← vecF d) (← scalarF a) (← vecF b) r
    | _ => .error (.function 0x24 fn)
  else .error (.function 0x24 fn)

/-- Major 0x25 of the opcode map (R64). -/
def decodeAmo (d a b fn : Nat) : Except Reject Instr :=
  let z := fn / 16 % 2 == 1
  let o := orderF (fn / 64)
  if fn / 32 % 2 = 0 then
    match fn % 16 with
    | 0 => do return .amoAdd (← scalarF d) (← scalarF a) (← scalarF b) o z
    | 1 => do return .amoAnd (← scalarF d) (← scalarF a) (← scalarF b) o z
    | 2 => do return .amoOr (← scalarF d) (← scalarF a) (← scalarF b) o z
    | 3 => do return .amoXor (← scalarF d) (← scalarF a) (← scalarF b) o z
    | 4 => do return .amoMin (← scalarF d) (← scalarF a) (← scalarF b) o z
    | 5 => do return .amoMax (← scalarF d) (← scalarF a) (← scalarF b) o z
    | 6 => do return .amoMinu (← scalarF d) (← scalarF a) (← scalarF b) o z
    | 7 => do return .amoMaxu (← scalarF d) (← scalarF a) (← scalarF b) o z
    | 8 => do return .amoSwap (← scalarF d) (← scalarF a) (← scalarF b) o z
    | 9 => do return .cas (← scalarF d) (← scalarF a) (← scalarF b) o z
    | _ => .error (.function 0x25 fn)
  else .error (.function 0x25 fn)

/-- Major 0x26 of the opcode map (R64). -/
def decodeBarrier (d a b fn : Nat) : Except Reject Instr :=
  match fn with
  | 0 => do unusedF d; return .binit (← scalarF a) (← scalarF b)
  | 1 => do unusedF b; return .barrive (← scalarF d) (← scalarF a)
  | 2 => do unusedF d; return .bexpect (← scalarF a) (← scalarF b)
  | 3 => do unusedF d; return .bwait (← scalarF a) (← scalarF b)
  | 4 => do return .btest (← scalarF d) (← scalarF a) (← scalarF b)
  | 5 => do unusedF b; return .step (← scalarF d) (← scalarF a)
  | _ => .error (.function 0x26 fn)

/-- Major 0x27 of the opcode map (R64). -/
def decodeTask (d a b fn : Nat) : Except Reject Instr :=
  match fn with
  | 0 => do unusedF b; return .spawn (← scalarF d) (← scalarF a)
  | 1 => do unusedF d; unusedF a; unusedF b; return .texit
  | 2 => do return .tgraph (← scalarF d) (← scalarF a) (← scalarF b)
  | _ => .error (.function 0x27 fn)

/-- Major 0x28 of the opcode map (R64). -/
def decodeTile (d a b fn : Nat) : Except Reject Instr :=
  match fn with
  | 0 => do return .tld (← scalarF d) (← scalarF a) (← vecF b)
  | 1 => do return .tst (← scalarF d) (← scalarF a) (← vecF b)
  | 2 => do unusedF b; return .tcpy (← scalarF d) (← scalarF a)
  | 3 => do unusedF b; return .tfill (← scalarF d) (← scalarF a)
  | 4 => do unusedF a; unusedF b; return .ttag (← scalarF d)
  | 5 => do return .tpack (← scalarF d) (← scalarF a) (← scalarF b)
  | 6 => do unusedF b; return .tunpk (← scalarF d) (← scalarF a)
  | 7 => do unusedF b; return .twait (← scalarF d) (← scalarF a)
  | _ => .error (.function 0x28 fn)

/-- Major 0x29 of the opcode map (R64). -/
def decodeVecTile (d a b fn : Nat) : Except Reject Instr :=
  match fn with
  | 0 => do return .vldt (← vecF d) (← scalarF a) (← scalarF b)
  | 1 => do return .vstt (← vecF d) (← scalarF a) (← scalarF b)
  | _ => .error (.function 0x29 fn)

/-- Major 0x2A of the opcode map (R64). -/
def decodeBatch (d a b fn : Nat) : Except Reject Instr := do
  unusedF b
  if a % 8 = 0 then
    match fn with
    | 0 => return .xbatchCopy (← predF d) (.ofNat 3 (a / 8))
    | 2 => return .xbatchFabric (← predF d) (.ofNat 3 (a / 8))
    | 3 => return .xbatchColl (← predF d) (.ofNat 3 (a / 8))
    | _ => .error (.function 0x2A fn)
  else .error (.group a)

/-- Major 0x2B of the opcode map (R64). -/
def decodeMatrix (d a b fn : Nat) : Except Reject Instr :=
  match fn with
  | 0 => do unusedF d; unusedF b; return .mshape (← scalarF a)
  | 1 => do unusedF a; unusedF b; return .mzero (← scalarF d)
  | 2 => do return .mread (← scalarF d) (← scalarF a) (← scalarF b)
  | 3 => do unusedF b; return .mload (← scalarF d) (← scalarF a)
  | 4 => do unusedF d; unusedF a; unusedF b; return .mfence
  | _ => .error (.function 0x2B fn)

/-- Major 0x2C of the opcode map (R64). -/
def decodeMatrixOp (d a b fn : Nat) : Except Reject Instr :=
  match fn with
  | 0 => do return .mma (← scalarF d) (← scalarF a) (← scalarF b)
  | 1 => do return .mmab (← scalarF d) (← scalarF a) (← scalarF b)
  | 2 => do unusedF b; return .mdec (← scalarF d) (← scalarF a)
  | 3 => do return .mmanm (← scalarF d) (← scalarF a) (← scalarF b)
  | 4 => do return .mrem (← scalarF d) (← scalarF a) (← scalarF b)
  | 5 => do return .mscan (← scalarF d) (← scalarF a) (← scalarF b)
  | _ => .error (.function 0x2C fn)

/-- Major 0x2D of the opcode map (R64). -/
def decodeFabric (d a b fn : Nat) : Except Reject Instr :=
  match fn with
  | 0 => do unusedF d; unusedF b; return .scfg (← scalarF a)
  | 1 => do return .sgo (← scalarF d) (← scalarF a) (← scalarF b)
  | 2 => do unusedF b; return .smark (← scalarF d) (← scalarF a)
  | 3 => do unusedF d; unusedF b; return .sdrain (← scalarF a)
  | 4 => do unusedF b; return .sstat (← scalarF d) (← scalarF a)
  | 5 => do unusedF d; return .stwld (← scalarF a) (← scalarF b)
  | _ => .error (.function 0x2D fn)

/-- Major 0x2E of the opcode map (R64). -/
def decodeCollective (d a b fn : Nat) : Except Reject Instr :=
  match fn with
  | 0 => do unusedF b; return .cgrp (← scalarF d) (← scalarF a)
  | 1 => do return .cprg (← scalarF d) (← scalarF a) (← scalarF b)
  | 2 => do unusedF b; return .cstart (← scalarF d) (← scalarF a)
  | 3 => do unusedF b; return .cwait (← scalarF d) (← scalarF a)
  | 4 => do unusedF b; return .cpoll (← scalarF d) (← scalarF a)
  | 5 => do unusedF b; return .cabort (← scalarF d) (← scalarF a)
  | 6 => do unusedF b; return .crepart (← scalarF d) (← scalarF a)
  | 7 => do unusedF b; return .crot (← scalarF d) (← scalarF a)
  | 8 => do return .cjoin (← scalarF d) (← scalarF a) (← scalarF b)
  | 9 => do unusedF b; return .cshrink (← scalarF d) (← scalarF a)
  | _ => .error (.function 0x2E fn)

/-- Major 0x3F of the opcode map (R64). -/
def decodeDiag (d a b fn : Nat) : Except Reject Instr :=
  match fn with
  | 0 => do unusedF b; return .dgrd (← scalarF d) (← scalarF a)
  | 1 => do unusedF d; return .dgwr (← scalarF a) (← scalarF b)
  | _ => .error (.function 0x3F fn)

/-- A word of major opcode `op` read as an instruction (R53, R64). -/
def decodeMajor (op w : Nat) : Except Reject Instr :=
  let d := w / 1048576 % 64
  let a := w / 16384 % 64
  let b := w / 256 % 64
  let fn := w % 256
  let c := w / 4 % 64
  let i := w % 16384
  match op with
  | 0x01 => do
    unusedF (w % 1024)
    return .cvy (.ofNat 4 (w / 4194304)) (← guardF (w / 65536 % 64)) (w / 32768 % 2 == 1) (← rndF (w / 4096 % 8))
      (w / 2048 % 2 == 1) (w / 1024 % 2 == 1)
  | 0x02 => decodeAlu d a b fn
  | 0x03 => do return .addi (← scalarF d) (← scalarF a) (.ofNat 14 i)
  | 0x04 => do return .andi (← scalarF d) (← scalarF a) (.ofNat 14 i)
  | 0x05 => do return .ori (← scalarF d) (← scalarF a) (.ofNat 14 i)
  | 0x06 => do return .xori (← scalarF d) (← scalarF a) (.ofNat 14 i)
  | 0x07 => do return .slti (← scalarF d) (← scalarF a) (.ofNat 14 i)
  | 0x08 => do return .sltiu (← scalarF d) (← scalarF a) (.ofNat 14 i)
  | 0x09 => do
    unusedF (i / 64 % 64)
    match i / 4096 with
    | 0 => return .slli (← scalarF d) (← scalarF a) (.ofNat 6 i)
    | 1 => return .srli (← scalarF d) (← scalarF a) (.ofNat 6 i)
    | 2 => return .srai (← scalarF d) (← scalarF a) (.ofNat 6 i)
    | k => .error (.kind k)
  | 0x0A => do return .lui (← scalarF d) (.ofNat 20 w)
  | 0x0B => do return .addpc (← scalarF d) (.ofNat 20 w)
  | 0x0D => decodeFloat d a b fn
  | 0x0E => do
    let d ← scalarF d; let a ← scalarF a; let b ← scalarF b
    let wide := c / 32 == 1
    let c : SReg := .ofNat 5 c
    match w % 4 with
    | 0 => return .fma d a b wide c
    | 1 => return .fms d a b wide c
    | 2 => return .fnma d a b wide c
    | _ => return .fnms d a b wide c
  | 0x0F => do return .ld (← scalarF d) (← scalarF a) (← ldSizeF (i / 2048)) (.ofNat 11 i)
  | 0x10 => do return .st (← scalarF d) (← scalarF a) (← stSizeF (i / 2048)) (.ofNat 11 i)
  | 0x11 => do return .br (← scalarF d) (← scalarF a) (← condF (i / 2048)) (.ofNat 11 i)
  | 0x12 => .ok (.jmp (.ofNat 26 w))
  | 0x13 => .ok (.call (.ofNat 26 w))
  | 0x14 => do return .jr (← scalarF d) (← scalarF a) (.ofNat 14 i)
  | 0x15 => do
    unusedF (w % 2)
    return .strip (.ofNat 5 (w / 2097152)) (.ofNat 5 (w / 65536)) (.ofNat 5 (w / 2048)) (.ofNat 5 (w / 64)) (.ofNat 5 (w / 2))
  | 0x16 => do
    unusedF d; unusedF a
    return .sloop (.ofNat 2 (i / 4096)) (.ofNat 12 i)
  | 0x17 =>
    let n : BitVec 12 := .ofNat 12 (w / 256)
    match fn with
    | 0 => do return .mfs (← scalarF d) n
    | 1 => do return .mts (← scalarF d) n
    | 2 => do return .mset (← scalarF d) n
    | 3 => do return .mclr (← scalarF d) n
    | _ => .error (.function 0x17 fn)
  | 0x18 => decodeSystem d a b fn
  | 0x19 => decodePred d a b fn
  | 0x1A => decodeVecConfig d a b fn
  | 0x1B => decodeVecArith d a b fn
  | 0x1C => decodeVecUnary d a b fn
  | 0x1D => do
    let d ← vecF d; let a ← vecF a; let b ← vecF b; let c ← vecF c
    match w % 4 with
    | 0 => return .vfma d a b c
    | 1 => return .vfms d a b c
    | 2 => return .vfnma d a b c
    | _ => return .vfnms d a b c
  | 0x1E => decodeVecCmp d a b fn
  | 0x1F => decodePermute d a b fn
  | 0x20 => do unusedF (i / 2048); return .vld (← vecF d) (← scalarF a) (.ofNat 11 i)
  | 0x21 => decodeVecLoad d a b fn
  | 0x22 => do unusedF (i / 2048); return .vst (← vecF d) (← scalarF a) (.ofNat 11 i)
  | 0x23 => decodeVecStore d a b fn
  | 0x24 => decodeVamo d a b fn
  | 0x25 => decodeAmo d a b fn
  | 0x26 => decodeBarrier d a b fn
  | 0x27 => decodeTask d a b fn
  | 0x28 => decodeTile d a b fn
  | 0x29 => decodeVecTile d a b fn
  | 0x2A => decodeBatch d a b fn
  | 0x2B => decodeMatrix d a b fn
  | 0x2C => decodeMatrixOp d a b fn
  | 0x2D => decodeFabric d a b fn
  | 0x2E => decodeCollective d a b fn
  | 0x3F => decodeDiag d a b fn
  | op => .error (.major op)

/-- The word read as an instruction (R52, R53), or the name of what is wrong with it. -/
def decodeWord (w : Nat) : Except Reject Instr := decodeMajor (w / 67108864 % 64) w

/-- The instruction in a list of bytes, the first at the lowest address, and the bytes after it (R3, R52). -/
def decodeBytes : List Byte → Option (Except Reject Instr × List Byte)
  | b0 :: b1 :: b2 :: b3 :: rest =>
    some (decodeWord (b0.toNat + b1.toNat * 256 + b2.toNat * 65536 + b3.toNat * 16777216), rest)
  | _ => none

/-- What the decoder reads from a word numbered as the opcode table numbers its bits. -/
def decodeTableWord (nbits w : Nat) : Option Instr :=
  match decodeWord (w % 2 ^ nbits % 4294967296) with
  | .ok i => some i
  | .error _ => none

/-! The encoder. -/

def Rnd.code : Rnd → Nat
  | .rne => 0 | .rtz => 1 | .rdn => 2 | .rup => 3 | .rna => 4
def LdSize.code : LdSize → Nat
  | .b => 0 | .h => 1 | .w => 2 | .d => 3 | .bu => 4 | .hu => 5 | .wu => 6
def StSize.code : StSize → Nat
  | .b => 0 | .h => 1 | .w => 2 | .d => 3
def BrCond.code : BrCond → Nat
  | .eq => 0 | .ne => 1 | .lt => 2 | .ge => 3 | .ltu => 4 | .geu => 5
def Scope.code : Scope → Nat
  | .hart => 0 | .core => 1 | .die => 2 | .pkg => 3 | .sys => 4
def CmpOp.code : CmpOp → Nat
  | .eq => 0 | .ne => 1 | .lt => 2 | .le => 3 | .gt => 4 | .ge => 5 | .unord => 6 | .ord => 7
def AmoOrder.code : AmoOrder → Nat
  | .rlx => 0 | .acq => 1 | .rel => 2 | .ar => 3
def VOrS.field : VOrS → Nat
  | .v r => r.toNat | .s r => r.toNat
def VOrS.x : VOrS → Nat
  | .v _ => 0 | .s _ => 1

/-- Format C (R53). -/
def encC (op n g p r s f z : Nat) : Nat :=
  op * 67108864 + n * 4194304 + g * 65536 + p * 32768 + r * 4096 + s * 2048 + f * 1024 + z
/-- Format R (R53). -/
def encR (op d a b fn : Nat) : Nat := op * 67108864 + d * 1048576 + a * 16384 + b * 256 + fn
/-- Format Q (R53). -/
def encQ (op d a b c fn : Nat) : Nat := op * 67108864 + d * 1048576 + a * 16384 + b * 256 + c * 4 + fn
/-- Format I (R53). -/
def encI (op d a imm : Nat) : Nat := op * 67108864 + d * 1048576 + a * 16384 + imm
/-- Format U (R53). -/
def encU (op d imm : Nat) : Nat := op * 67108864 + d * 1048576 + imm
/-- Format B (R53). -/
def encB (op a b c o : Nat) : Nat := op * 67108864 + a * 1048576 + b * 16384 + c * 2048 + o
/-- Format J (R53). -/
def encJ (op o : Nat) : Nat := op * 67108864 + o
/-- Format S (R53). -/
def encS (op d n fn : Nat) : Nat := op * 67108864 + d * 1048576 + n * 256 + fn
/-- Format L (R53). -/
def encL (op c p q r t z : Nat) : Nat := op * 67108864 + c * 2097152 + p * 65536 + q * 2048 + r * 64 + t * 2 + z

/-- The word of an instruction; a step of an agent has none (R53, R64). -/
def encode (i : Instr) : Option Nat :=
  match i with
  | .cvy n g p r s f => some (encC 0x01 n.toNat g.toNat p.toNat r.code s.toNat f.toNat 0)
  | .add d a b => some (encR 0x02 d.toNat a.toNat b.toNat 0)
  | .sub d a b => some (encR 0x02 d.toNat a.toNat b.toNat 1)
  | .and d a b => some (encR 0x02 d.toNat a.toNat b.toNat 2)
  | .or d a b => some (encR 0x02 d.toNat a.toNat b.toNat 3)
  | .xor d a b => some (encR 0x02 d.toNat a.toNat b.toNat 4)
  | .sll d a b => some (encR 0x02 d.toNat a.toNat b.toNat 5)
  | .srl d a b => some (encR 0x02 d.toNat a.toNat b.toNat 6)
  | .sra d a b => some (encR 0x02 d.toNat a.toNat b.toNat 7)
  | .slt d a b => some (encR 0x02 d.toNat a.toNat b.toNat 8)
  | .sltu d a b => some (encR 0x02 d.toNat a.toNat b.toNat 9)
  | .min d a b => some (encR 0x02 d.toNat a.toNat b.toNat 0xa)
  | .max d a b => some (encR 0x02 d.toNat a.toNat b.toNat 0xb)
  | .minu d a b => some (encR 0x02 d.toNat a.toNat b.toNat 0xc)
  | .maxu d a b => some (encR 0x02 d.toNat a.toNat b.toNat 0xd)
  | .mul d a b => some (encR 0x02 d.toNat a.toNat b.toNat 0x10)
  | .mulh d a b => some (encR 0x02 d.toNat a.toNat b.toNat 0x11)
  | .mulhu d a b => some (encR 0x02 d.toNat a.toNat b.toNat 0x12)
  | .div d a b => some (encR 0x02 d.toNat a.toNat b.toNat 0x13)
  | .divu d a b => some (encR 0x02 d.toNat a.toNat b.toNat 0x14)
  | .rem d a b => some (encR 0x02 d.toNat a.toNat b.toNat 0x15)
  | .remu d a b => some (encR 0x02 d.toNat a.toNat b.toNat 0x16)
  | .clz d a => some (encR 0x02 d.toNat a.toNat 0 0x18)
  | .ctz d a => some (encR 0x02 d.toNat a.toNat 0 0x19)
  | .popc d a => some (encR 0x02 d.toNat a.toNat 0 0x1a)
  | .sextb d a => some (encR 0x02 d.toNat a.toNat 0 0x1b)
  | .sexth d a => some (encR 0x02 d.toNat a.toNat 0 0x1c)
  | .sextw d a => some (encR 0x02 d.toNat a.toNat 0 0x1d)
  | .brev d a => some (encR 0x02 d.toNat a.toNat 0 0x1e)
  | .bswap d a => some (encR 0x02 d.toNat a.toNat 0 0x1f)
  | .addi d a i => some (encI 0x03 d.toNat a.toNat i.toNat)
  | .andi d a i => some (encI 0x04 d.toNat a.toNat i.toNat)
  | .ori d a i => some (encI 0x05 d.toNat a.toNat i.toNat)
  | .xori d a i => some (encI 0x06 d.toNat a.toNat i.toNat)
  | .slti d a i => some (encI 0x07 d.toNat a.toNat i.toNat)
  | .sltiu d a i => some (encI 0x08 d.toNat a.toNat i.toNat)
  | .slli d a k => some (encI 0x09 d.toNat a.toNat k.toNat)
  | .srli d a k => some (encI 0x09 d.toNat a.toNat (k.toNat + 0x1000))
  | .srai d a k => some (encI 0x09 d.toNat a.toNat (k.toNat + 0x2000))
  | .lui d i => some (encU 0x0A d.toNat i.toNat)
  | .addpc d i => some (encU 0x0B d.toNat i.toNat)
  | .fadd d a b w => some (encR 0x0D d.toNat a.toNat b.toNat (w.toNat * 128))
  | .fsub d a b w => some (encR 0x0D d.toNat a.toNat b.toNat (w.toNat * 128 + 1))
  | .fmul d a b w => some (encR 0x0D d.toNat a.toNat b.toNat (w.toNat * 128 + 2))
  | .fdiv d a b w => some (encR 0x0D d.toNat a.toNat b.toNat (w.toNat * 128 + 3))
  | .fsqrt d a w => some (encR 0x0D d.toNat a.toNat 0 (w.toNat * 128 + 4))
  | .fmin d a b w => some (encR 0x0D d.toNat a.toNat b.toNat (w.toNat * 128 + 5))
  | .fmax d a b w => some (encR 0x0D d.toNat a.toNat b.toNat (w.toNat * 128 + 6))
  | .feq d a b w => some (encR 0x0D d.toNat a.toNat b.toNat (w.toNat * 128 + 8))
  | .flt d a b w => some (encR 0x0D d.toNat a.toNat b.toNat (w.toNat * 128 + 9))
  | .fle d a b w => some (encR 0x0D d.toNat a.toNat b.toNat (w.toNat * 128 + 0xa))
  | .funord d a b w => some (encR 0x0D d.toNat a.toNat b.toNat (w.toNat * 128 + 0xb))
  | .fcvti d a w => some (encR 0x0D d.toNat a.toNat 0 (w.toNat * 128 + 0x10))
  | .fcvtu d a w => some (encR 0x0D d.toNat a.toNat 0 (w.toNat * 128 + 0x11))
  | .fcvtf d a w => some (encR 0x0D d.toNat a.toNat 0 (w.toNat * 128 + 0x12))
  | .fcvtfu d a w => some (encR 0x0D d.toNat a.toNat 0 (w.toNat * 128 + 0x13))
  | .fcvtw d a w => some (encR 0x0D d.toNat a.toNat 0 (w.toNat * 128 + 0x14))
  | .fclass d a w => some (encR 0x0D d.toNat a.toNat 0 (w.toNat * 128 + 0x18))
  | .fma d a b w c => some (encQ 0x0E d.toNat a.toNat b.toNat (w.toNat * 32 + c.toNat) 0)
  | .fms d a b w c => some (encQ 0x0E d.toNat a.toNat b.toNat (w.toNat * 32 + c.toNat) 1)
  | .fnma d a b w c => some (encQ 0x0E d.toNat a.toNat b.toNat (w.toNat * 32 + c.toNat) 2)
  | .fnms d a b w c => some (encQ 0x0E d.toNat a.toNat b.toNat (w.toNat * 32 + c.toNat) 3)
  | .ld d a z i => some (encI 0x0F d.toNat a.toNat (z.code * 2048 + i.toNat))
  | .st d a z i => some (encI 0x10 d.toNat a.toNat (z.code * 2048 + i.toNat))
  | .br a b c o => some (encB 0x11 a.toNat b.toNat c.code o.toNat)
  | .jmp o => some (encJ 0x12 o.toNat)
  | .call o => some (encJ 0x13 o.toNat)
  | .jr d a i => some (encI 0x14 d.toNat a.toNat i.toNat)
  | .strip c p q r t => some (encL 0x15 c.toNat p.toNat q.toNat r.toNat t.toNat 0)
  | .sloop w z => some (encI 0x16 0 0 (w.toNat * 4096 + z.toNat))
  | .mfs d n => some (encS 0x17 d.toNat n.toNat 0)
  | .mts a n => some (encS 0x17 a.toNat n.toNat 1)
  | .mset a n => some (encS 0x17 a.toNat n.toNat 2)
  | .mclr a n => some (encS 0x17 a.toNat n.toNat 3)
  | .sysc => some (encR 0x18 0 0 0 0)
  | .eret => some (encR 0x18 0 0 0 1)
  | .brk => some (encR 0x18 0 0 0 2)
  | .wfi => some (encR 0x18 0 0 0 3)
  | .fenceAcq s => some (encR 0x18 0 (s.code + 8) 0 8)
  | .fenceRel s => some (encR 0x18 0 (s.code + 0x10) 0 8)
  | .fenceFull s => some (encR 0x18 0 (s.code + 0x18) 0 8)
  | .tlbinv a b => some (encR 0x18 0 a.toNat b.toNat 0x10)
  | .cflush a => some (encR 0x18 0 a.toNat 0 0x11)
  | .cinval a => some (encR 0x18 0 a.toNat 0 0x12)
  | .pand d a b => some (encR 0x19 d.toNat a.toNat b.toNat 0)
  | .por d a b => some (encR 0x19 d.toNat a.toNat b.toNat 1)
  | .pxor d a b => some (encR 0x19 d.toNat a.toNat b.toNat 2)
  | .pandn d a b => some (encR 0x19 d.toNat a.toNat b.toNat 3)
  | .pnot d a => some (encR 0x19 d.toNat a.toNat 0 4)
  | .pset d a b => some (encR 0x19 d.toNat a.toNat b.toNat 5)
  | .pcnt d a b => some (encR 0x19 d.toNat a.toNat b.toNat 6)
  | .pfirst d a b => some (encR 0x19 d.toNat a.toNat b.toNat 7)
  | .pmvs d a b => some (encR 0x19 d.toNat a.toNat b.toNat 8)
  | .pmvp d a b => some (encR 0x19 d.toNat a.toNat b.toNat 9)
  | .vtag d t => some (encR 0x1A d.toNat 0 t.toNat 0)
  | .vsetl d a w => some (encR 0x1A d.toNat a.toNat w.toNat 1)
  | .vhwm a => some (encR 0x1A 0 a.toNat 0 2)
  | .vadd d a b => some (encR 0x1B d.toNat a.toNat b.field (b.x * 128))
  | .vsub d a b => some (encR 0x1B d.toNat a.toNat b.field (b.x * 128 + 1))
  | .vmul d a b => some (encR 0x1B d.toNat a.toNat b.field (b.x * 128 + 2))
  | .vmulh d a b => some (encR 0x1B d.toNat a.toNat b.field (b.x * 128 + 3))
  | .vdiv d a b => some (encR 0x1B d.toNat a.toNat b.field (b.x * 128 + 4))
  | .vrem d a b => some (encR 0x1B d.toNat a.toNat b.field (b.x * 128 + 5))
  | .vmin d a b => some (encR 0x1B d.toNat a.toNat b.field (b.x * 128 + 6))
  | .vmax d a b => some (encR 0x1B d.toNat a.toNat b.field (b.x * 128 + 7))
  | .vand d a b => some (encR 0x1B d.toNat a.toNat b.field (b.x * 128 + 8))
  | .vor d a b => some (encR 0x1B d.toNat a.toNat b.field (b.x * 128 + 9))
  | .vxor d a b => some (encR 0x1B d.toNat a.toNat b.field (b.x * 128 + 0xa))
  | .vshl d a b => some (encR 0x1B d.toNat a.toNat b.field (b.x * 128 + 0xb))
  | .vshr d a b => some (encR 0x1B d.toNat a.toNat b.field (b.x * 128 + 0xc))
  | .vabsd d a b => some (encR 0x1B d.toNat a.toNat b.field (b.x * 128 + 0xd))
  | .vsel d a b => some (encR 0x1B d.toNat a.toNat b.field (b.x * 128 + 0xe))
  | .vmov d a => some (encR 0x1C d.toNat a.toNat 0 0)
  | .vneg d a => some (encR 0x1C d.toNat a.toNat 0 1)
  | .vabs d a => some (encR 0x1C d.toNat a.toNat 0 2)
  | .vnot d a => some (encR 0x1C d.toNat a.toNat 0 3)
  | .vcvt d a => some (encR 0x1C d.toNat a.toNat 0 4)
  | .vrcp d a => some (encR 0x1C d.toNat a.toNat 0 5)
  | .vrsq d a => some (encR 0x1C d.toNat a.toNat 0 6)
  | .vexp2 d a => some (encR 0x1C d.toNat a.toNat 0 7)
  | .vlog2 d a => some (encR 0x1C d.toNat a.toNat 0 8)
  | .vpopc d a => some (encR 0x1C d.toNat a.toNat 0 9)
  | .vclz d a => some (encR 0x1C d.toNat a.toNat 0 0xa)
  | .vmred d a => some (encR 0x1C d.toNat a.toNat 0 0xb)
  | .vfma d a b c => some (encQ 0x1D d.toNat a.toNat b.toNat c.toNat 0)
  | .vfms d a b c => some (encQ 0x1D d.toNat a.toNat b.toNat c.toNat 1)
  | .vfnma d a b c => some (encQ 0x1D d.toNat a.toNat b.toNat c.toNat 2)
  | .vfnms d a b c => some (encQ 0x1D d.toNat a.toNat b.toNat c.toNat 3)
  | .vcmp d a b c => some (encR 0x1E d.toNat a.toNat b.field (c.code + b.x * 128))
  | .vbcast d a => some (encR 0x1F d.toNat a.toNat 0 0)
  | .vext d a b => some (encR 0x1F d.toNat a.toNat b.toNat 1)
  | .vins d a b => some (encR 0x1F d.toNat a.toNat b.toNat 2)
  | .vperm d a b => some (encR 0x1F d.toNat a.toNat b.toNat 3)
  | .vslup d a b => some (encR 0x1F d.toNat a.toNat b.toNat 4)
  | .vsldn d a b => some (encR 0x1F d.toNat a.toNat b.toNat 5)
  | .vcomp d a b => some (encR 0x1F d.toNat a.toNat b.toNat 6)
  | .vexpd d a b => some (encR 0x1F d.toNat a.toNat b.toNat 7)
  | .vredSum d a => some (encR 0x1F d.toNat a.toNat 0 8)
  | .vredMin d a => some (encR 0x1F d.toNat a.toNat 1 8)
  | .vredMax d a => some (encR 0x1F d.toNat a.toNat 2 8)
  | .vredAmax d a => some (encR 0x1F d.toNat a.toNat 3 8)
  | .vredAnd d a => some (encR 0x1F d.toNat a.toNat 4 8)
  | .vredOr d a => some (encR 0x1F d.toNat a.toNat 5 8)
  | .vredXor d a => some (encR 0x1F d.toNat a.toNat 6 8)
  | .vscanIsum d a => some (encR 0x1F d.toNat a.toNat 0 9)
  | .vscanEsum d a => some (encR 0x1F d.toNat a.toNat 1 9)
  | .vscanImax d a => some (encR 0x1F d.toNat a.toNat 2 9)
  | .vld d a i => some (encI 0x20 d.toNat a.toNat i.toNat)
  | .vlds d a b => some (encR 0x21 d.toNat a.toNat b.toNat 0)
  | .vldx d a b => some (encR 0x21 d.toNat a.toNat b.toNat 1)
  | .vst d a i => some (encI 0x22 d.toNat a.toNat i.toNat)
  | .vsts d a b => some (encR 0x23 d.toNat a.toNat b.toNat 0)
  | .vstx d a b => some (encR 0x23 d.toNat a.toNat b.toNat 1)
  | .vamoAdd d a b r => some (encR 0x24 d.toNat a.toNat b.toNat (r.toNat * 16))
  | .vamoMin d a b r => some (encR 0x24 d.toNat a.toNat b.toNat (r.toNat * 16 + 1))
  | .vamoMax d a b r => some (encR 0x24 d.toNat a.toNat b.toNat (r.toNat * 16 + 2))
  | .vamoAnd d a b r => some (encR 0x24 d.toNat a.toNat b.toNat (r.toNat * 16 + 3))
  | .vamoOr d a b r => some (encR 0x24 d.toNat a.toNat b.toNat (r.toNat * 16 + 4))
  | .vamoXor d a b r => some (encR 0x24 d.toNat a.toNat b.toNat (r.toNat * 16 + 5))
  | .vamoSwap d a b r => some (encR 0x24 d.toNat a.toNat b.toNat (r.toNat * 16 + 6))
  | .vamoFadd d a b r => some (encR 0x24 d.toNat a.toNat b.toNat (r.toNat * 16 + 7))
  | .vamoFmax d a b r => some (encR 0x24 d.toNat a.toNat b.toNat (r.toNat * 16 + 8))
  | .amoAdd d a b o z => some (encR 0x25 d.toNat a.toNat b.toNat (o.code * 64 + z.toNat * 16))
  | .amoAnd d a b o z => some (encR 0x25 d.toNat a.toNat b.toNat (o.code * 64 + z.toNat * 16 + 1))
  | .amoOr d a b o z => some (encR 0x25 d.toNat a.toNat b.toNat (o.code * 64 + z.toNat * 16 + 2))
  | .amoXor d a b o z => some (encR 0x25 d.toNat a.toNat b.toNat (o.code * 64 + z.toNat * 16 + 3))
  | .amoMin d a b o z => some (encR 0x25 d.toNat a.toNat b.toNat (o.code * 64 + z.toNat * 16 + 4))
  | .amoMax d a b o z => some (encR 0x25 d.toNat a.toNat b.toNat (o.code * 64 + z.toNat * 16 + 5))
  | .amoMinu d a b o z => some (encR 0x25 d.toNat a.toNat b.toNat (o.code * 64 + z.toNat * 16 + 6))
  | .amoMaxu d a b o z => some (encR 0x25 d.toNat a.toNat b.toNat (o.code * 64 + z.toNat * 16 + 7))
  | .amoSwap d a b o z => some (encR 0x25 d.toNat a.toNat b.toNat (o.code * 64 + z.toNat * 16 + 8))
  | .cas d a b o z => some (encR 0x25 d.toNat a.toNat b.toNat (o.code * 64 + z.toNat * 16 + 9))
  | .binit a b => some (encR 0x26 0 a.toNat b.toNat 0)
  | .barrive d a => some (encR 0x26 d.toNat a.toNat 0 1)
  | .bexpect a b => some (encR 0x26 0 a.toNat b.toNat 2)
  | .bwait a b => some (encR 0x26 0 a.toNat b.toNat 3)
  | .btest d a b => some (encR 0x26 d.toNat a.toNat b.toNat 4)
  | .step d a => some (encR 0x26 d.toNat a.toNat 0 5)
  | .spawn d a => some (encR 0x27 d.toNat a.toNat 0 0)
  | .texit => some (encR 0x27 0 0 0 1)
  | .tgraph d a b => some (encR 0x27 d.toNat a.toNat b.toNat 2)
  | .tld d a b => some (encR 0x28 d.toNat a.toNat b.toNat 0)
  | .tst d a b => some (encR 0x28 d.toNat a.toNat b.toNat 1)
  | .tcpy d a => some (encR 0x28 d.toNat a.toNat 0 2)
  | .tfill d a => some (encR 0x28 d.toNat a.toNat 0 3)
  | .ttag d => some (encR 0x28 d.toNat 0 0 4)
  | .tpack d a b => some (encR 0x28 d.toNat a.toNat b.toNat 5)
  | .tunpk d a => some (encR 0x28 d.toNat a.toNat 0 6)
  | .twait d a => some (encR 0x28 d.toNat a.toNat 0 7)
  | .vldt d a b => some (encR 0x29 d.toNat a.toNat b.toNat 0)
  | .vstt d a b => some (encR 0x29 d.toNat a.toNat b.toNat 1)
  | .xbatchCopy d a => some (encR 0x2A d.toNat (a.toNat * 8) 0 0)
  | .xbatchFabric d a => some (encR 0x2A d.toNat (a.toNat * 8) 0 2)
  | .xbatchColl d a => some (encR 0x2A d.toNat (a.toNat * 8) 0 3)
  | .mshape a => some (encR 0x2B 0 a.toNat 0 0)
  | .mzero d => some (encR 0x2B d.toNat 0 0 1)
  | .mread d a b => some (encR 0x2B d.toNat a.toNat b.toNat 2)
  | .mload d a => some (encR 0x2B d.toNat a.toNat 0 3)
  | .mfence => some (encR 0x2B 0 0 0 4)
  | .mma d a b => some (encR 0x2C d.toNat a.toNat b.toNat 0)
  | .mmab d a b => some (encR 0x2C d.toNat a.toNat b.toNat 1)
  | .mdec d a => some (encR 0x2C d.toNat a.toNat 0 2)
  | .mmanm d a b => some (encR 0x2C d.toNat a.toNat b.toNat 3)
  | .mrem d a b => some (encR 0x2C d.toNat a.toNat b.toNat 4)
  | .mscan d a b => some (encR 0x2C d.toNat a.toNat b.toNat 5)
  | .scfg a => some (encR 0x2D 0 a.toNat 0 0)
  | .sgo d a b => some (encR 0x2D d.toNat a.toNat b.toNat 1)
  | .smark d a => some (encR 0x2D d.toNat a.toNat 0 2)
  | .sdrain a => some (encR 0x2D 0 a.toNat 0 3)
  | .sstat d a => some (encR 0x2D d.toNat a.toNat 0 4)
  | .stwld a b => some (encR 0x2D 0 a.toNat b.toNat 5)
  | .cgrp d a => some (encR 0x2E d.toNat a.toNat 0 0)
  | .cprg d a b => some (encR 0x2E d.toNat a.toNat b.toNat 1)
  | .cstart d a => some (encR 0x2E d.toNat a.toNat 0 2)
  | .cwait d a => some (encR 0x2E d.toNat a.toNat 0 3)
  | .cpoll d a => some (encR 0x2E d.toNat a.toNat 0 4)
  | .cabort d a => some (encR 0x2E d.toNat a.toNat 0 5)
  | .crepart d a => some (encR 0x2E d.toNat a.toNat 0 6)
  | .crot d a => some (encR 0x2E d.toNat a.toNat 0 7)
  | .cjoin d a b => some (encR 0x2E d.toNat a.toNat b.toNat 8)
  | .cshrink d a => some (encR 0x2E d.toNat a.toNat 0 9)
  | .dgrd d a => some (encR 0x3F d.toNat a.toNat 0 0)
  | .dgwr a b => some (encR 0x3F 0 a.toNat b.toNat 1)
  | .illegalInsn _ => none
  | .doorbell _ _ _ => none
  | .rst _ => none
  | .svdb _ => none
  | .hostBar2Access _ => none
  | .registerWrite _ _ => none
  | .unitReady _ => none
  | .dieFence _ _ => none
  | .messageArrival _ => none
  | .messageForward _ => none
  | .squareContribution _ => none
  | .abortNoticeArrival _ => none
  | .joinNoticeArrival _ => none
  | .rotationLanding _ => none
  | .lose _ => none
  | .linkCrcReplay _ => none
  | .linkDown _ => none
  | .portCrcReplay _ => none
  | .portDown _ => none
  | .frctlRetry _ _ => none
  | .frctlAbort _ _ => none
  | .interruptEntry => none
  | .queueServe => none
  | .queuePromotion _ => none
  | .distributorPreempt _ => none
  | .heldPostEntry _ => none
  | .gangComplete _ _ => none
  | .engineCredit _ => none
  | .barrierAgeExpiry _ => none
  | .copyChunkDone _ _ => none
  | .transferPage _ _ => none
  | .protect _ _ => none
  | .matrixExecute _ _ => none
  | .configPeriod _ => none
  | .contextFire _ _ => none
  | .inputPortEmit _ _ => none
  | .outputPortCommit _ _ => none
  | .reweight _ _ => none
  | .blockedEdge _ _ => none
  | .faultRecordEntry _ _ => none
  | .retire _ => none
  | .abandon _ => none
  | .preemptRequest _ _ => none
  | .preemptSave _ _ => none
  | .gangRestore _ _ => none
  | .saveadd _ _ => none
  | .hotpageWindow _ => none
  | .pageMigration _ => none
  | .crossDieWriteApply _ => none
  | .collectiveStep _ => none
  | .squareTimeout _ => none
  | .repartitionExchange _ => none
  | .setRelease _ => none
  | .post _ => none
  | .copy _ => none
  | .hostDmaFault _ => none
  | .hdfrctlRetry _ => none
  | .hdfrctlAbort _ => none
  | .ident _ => none
  | .setrank _ => none
  | .mgmtFence _ => none
  | .mgmtRepair _ => none
  | .replist _ => none
  | .attest _ => none
  | .fwstage _ => none
  | .powercap _ => none
  | .test _ => none
  | .mgmtReset _ => none
  | .telem _ => none
  | .packageReset => none
  | .thermalThrottle => none
  | .thermalShutdown => none
  | .fetchFault => none
  | .hostDmaComplete _ => none

end Sys2Proof
end

