-- ==== Sys2Proof/Config.lean ====
section
/-! DEFINITION. What the FS-6400's manual leaves open: the free values. Each is a constant without a body, so no proof
and no evaluation can learn a value of it; a claim is true whatever it is. `tick` arguments come from the State field of that name,
which every step advances, so that each use draws afresh. -/

namespace Sys2Proof.Config

/-- Which of the allowed moves comes next (log 8). -/
opaque schedule : Nat → Nat

/-- Arithmetic-clock cycles that pass in one step (log 2, 9): the manual gives rates only. -/
opaque cycles : Nat → Nat

/-- Nanoseconds that pass in one step (R14, R425; log 9). -/
opaque nanos : Nat → Nat

/-- A free yes or no for an outcome the manual allows either way: a stale translation or line, a byte already moved in a faulting chunk,
whether a replayed flit comes through, when a supervisor hart begins (log 10 to 13, 18, 23, 24, 33, 46, 51). The second argument tells uses of one
step apart. -/
opaque coin : Nat → Nat → Bool

/-- A free choice among several: the order in which the engine combines contributions (R390, R394; log 14), the cached entry that a walk
uses (R182; log 10), the line that a scalar cache evicts (R82; log 11). -/
opaque order : Nat → Nat → Nat

/-- A word that the manual leaves undefined, by tick and use (log 26, 41, 42): what an atomic on a fenced die's bytes returns, details of a
host DMA record, what a write-only register reads as. -/
opaque freeWord : Nat → Nat → BitVec 64

/-- The fused serial of the module (R421, R423, R424; log 15). -/
opaque serial : BitVec 128

/-- The hash of part number and serial that test register 0x000 reads (R424; log 15). -/
opaque serialHash : BitVec 64

/-- Telemetry word k at a tick: power, inlet, junction (R421, R425; log 15). -/
opaque telemetry : Nat → Nat → BitVec 32

/-- Whether an image's SM2 signature verifies under the fused key (R422; log 15). -/
opaque imageSigned : List (BitVec 8) → Bool

/-- The security version that an image states (R421, R422; log 15). -/
opaque imageVersion : List (BitVec 8) → BitVec 64

/-- The SM3 digest of bytes (R422, R423; log 15). -/
opaque sm3 : List (BitVec 8) → BitVec 256

/-- The SM3 digest of the device microcode (R423; log 15). -/
opaque microcode : BitVec 256

/-- The module's SM2 public key (R423; log 15). -/
opaque publicKey : BitVec 512

/-- The SM2 signature over a digest (R423; log 15). -/
opaque signature : BitVec 256 → BitVec 512

/-- Bytes of the private parts of a save area as the save engine writes them, by tick and offset (R428; log 16). -/
opaque privateByte : Nat → Nat → BitVec 8

/-- A byte that the manual leaves unstated, by tick and place: the early area of a landing region, whose layout is not given (R358, R370), and
a combination without a reduction (R363; log 37). -/
opaque freeByte : Nat → Nat → BitVec 8

end Sys2Proof.Config
end

