-- ==== Sys2Proof/Machine/Number.lean ====
section
/-! DEFINITION. Number formats and arithmetic (02_number_formats): exact values, the rounding of R29, the formats of R24, their
conversions R26 to R38, and the functions of R111. -/

namespace Sys2Proof.Machine

/-- Element-type tags (R24). -/
inductive Tag
  | untyped | int8 | uint8 | int16 | uint16 | int32 | uint32 | int64 | uint64
  | fp32 | fp16 | bf16 | e4m3 | e5m2 | e2m1x | bfp16 | mod32 | e2m1s | bfps
  deriving DecidableEq, Repr

/-- The code of a tag (R24). -/
def Tag.code : Tag → Nat
  | .untyped => 0x00 | .int8 => 0x01 | .uint8 => 0x02 | .int16 => 0x03 | .uint16 => 0x04 | .int32 => 0x05 | .uint32 => 0x06
  | .int64 => 0x07 | .uint64 => 0x08 | .fp32 => 0x10 | .fp16 => 0x11 | .bf16 => 0x12 | .e4m3 => 0x13 | .e5m2 => 0x14
  | .e2m1x => 0x15 | .bfp16 => 0x18 | .mod32 => 0x20 | .e2m1s => 0x21 | .bfps => 0x22

/-- The tag of a code; every other code is reserved (R24). -/
def Tag.ofCode? : Nat → Option Tag
  | 0x00 => some .untyped | 0x01 => some .int8 | 0x02 => some .uint8 | 0x03 => some .int16 | 0x04 => some .uint16
  | 0x05 => some .int32 | 0x06 => some .uint32 | 0x07 => some .int64 | 0x08 => some .uint64 | 0x10 => some .fp32
  | 0x11 => some .fp16 | 0x12 => some .bf16 | 0x13 => some .e4m3 | 0x14 => some .e5m2 | 0x15 => some .e2m1x
  | 0x18 => some .bfp16 | 0x20 => some .mod32 | 0x21 => some .e2m1s | 0x22 => some .bfps
  | _ => none

/-- The element width of a tag; an untyped register takes that of VW, given here (R24, R98). -/
def Tag.width (vw : Nat) : Tag → Nat
  | .untyped => vw
  | .int8 | .uint8 | .e4m3 | .e5m2 | .e2m1s | .bfps => 8
  | .int16 | .uint16 | .fp16 | .bf16 | .bfp16 => 16
  | .int32 | .uint32 | .fp32 | .mod32 => 32
  | .int64 | .uint64 => 64
  | .e2m1x => 4

/-- Integer tags (R24). -/
def Tag.isInt : Tag → Bool
  | .int8 | .uint8 | .int16 | .uint16 | .int32 | .uint32 | .int64 | .uint64 => true
  | _ => false

/-- Signed integer tags (R24). -/
def Tag.signed : Tag → Bool
  | .int8 | .int16 | .int32 | .int64 => true
  | _ => false

/-- Floating tags, the block formats among them (R24, R25). -/
def Tag.isFloat : Tag → Bool
  | .fp32 | .fp16 | .bf16 | .e4m3 | .e5m2 | .e2m1x | .bfp16 => true
  | _ => false

/-- Side-register tags (R10). -/
def Tag.isSide : Tag → Bool
  | .e2m1s | .bfps => true
  | _ => false

/-- Tags of a main register with a side register (R10). -/
def Tag.paired : Tag → Bool
  | .e2m1x | .bfp16 => true
  | _ => false

/-- The tag of the side register of a paired tag (R10). -/
def Tag.side : Tag → Tag
  | .e2m1x => .e2m1s
  | .bfp16 => .bfps
  | _ => .untyped

/-- Elements of a block of a paired tag in a register (R35, R37). -/
def Tag.block : Tag → Nat
  | .e2m1x => 32
  | .bfp16 => 64
  | _ => 1

/-- The rank of a floating tag in the order of precision of R25. -/
def Tag.precision : Tag → Nat
  | .e2m1x => 1 | .e5m2 => 2 | .e4m3 => 3 | .bf16 => 4 | .fp16 => 5 | _ => 6

/-- The integer tag of a width and signedness. -/
def Tag.ofInt (width : Nat) (signed : Bool) : Tag :=
  match width, signed with
  | 8, true => .int8 | 8, false => .uint8 | 16, true => .int16 | 16, false => .uint16
  | 32, true => .int32 | 32, false => .uint32 | _, true => .int64 | _, false => .uint64

/-- The operation type of two source tags; none traps OPERAND_TAG (R25). -/
def Tag.join (a b : Tag) : Option Tag :=
  if a.isInt && b.isInt then
    some (.ofInt (max (a.width 0) (b.width 0)) (a.signed || b.signed))
  else if a.isFloat && b.isFloat then
    if a = .bfp16 || b = .bfp16 then (if a = b then some .bfp16 else some .fp32)
    else some (if a.precision < b.precision then b else a)
  else if a = .mod32 && b = .mod32 then some .mod32
  else none

/-- Sticky arithmetic events, in the layout of FFLAGS (R21). -/
abbrev FFlags := BitVec 8

def fNX : FFlags := 0x01#8
def fUF : FFlags := 0x02#8
def fOF : FFlags := 0x04#8
def fDZ : FFlags := 0x08#8
def fNV : FFlags := 0x10#8
def fBFPOVF : FFlags := 0x20#8
def fMODOVF : FFlags := 0x40#8
def fMODRNG : FFlags := 0x80#8

/-- The arithmetic settings of MODE (R15). -/
structure Arith where
  rnd : Rnd
  sat : Bool
  ftz : Bool
  deriving DecidableEq, Repr

/-- The settings of every rne-only unit. -/
def Arith.plain : Arith := ⟨.rne, false, false⟩

/-! Integers of a width. -/

/-- The value of a pattern of `w` bits as a signed number. -/
def toSigned (w n : Nat) : Int := if n < 2 ^ (w - 1) then (n : Int) else (n : Int) - 2 ^ w

/-- The pattern of a number in `w` bits, modulo 2^w. -/
def wrap (w : Nat) (z : Int) : Nat := (z % (2 ^ w : Int)).toNat

/-- The value of a pattern of an integer tag. -/
def Tag.intVal (t : Tag) (n : Nat) : Int := if t.signed then toSigned (t.width 0) n else (n : Int)

/-- The least value of an integer tag. -/
def Tag.minInt (t : Tag) : Int := if t.signed then -(2 ^ (t.width 0 - 1) : Int) else 0

/-- The greatest value of an integer tag. -/
def Tag.maxInt (t : Tag) : Int := if t.signed then (2 ^ (t.width 0 - 1) : Int) - 1 else (2 ^ t.width 0 : Int) - 1

/-- An exact integer result of operation type `op` into destination `t` (R26). A result that SAT = 0 reduces modulo 2^w of the
operation type keeps that type's signedness when the destination is wider (log 20). -/
def intToInt (sat : Bool) (op t : Tag) (z : Int) : Nat :=
  if sat then wrap (t.width 0) (max t.minInt (min t.maxInt z))
  else wrap (t.width 0) (op.intVal (wrap (op.width 0) z))

/-- Truncated quotient (R31); a zero divisor is the caller's. -/
def quotTrunc (a b : Int) : Int := Int.tdiv a b

/-- Remainder with the sign of the dividend (R31). -/
def remTrunc (a b : Int) : Int := Int.tmod a b

/-- Integer quotient of the operands' values for operation type `op` (R31, R106). -/
def intQuot (op : Tag) (a b : Int) : Int := if b = 0 then (if op.signed then -1 else op.maxInt) else quotTrunc a b

/-- Integer remainder (R31, R106). -/
def intRem (a b : Int) : Int := if b = 0 then a else remTrunc a b

/-! Exact values. -/

/-- An exact value: a NaN, an infinity, or (−1)^neg × m × 2^e. A zero keeps its sign. -/
inductive Num
  | nan (signalling : Bool)
  | inf (neg : Bool)
  | fin (neg : Bool) (m : Nat) (e : Int)
  deriving DecidableEq, Repr

def Num.zero : Num := .fin false 0 0

def Num.isNaN : Num → Bool
  | .nan _ => true
  | _ => false

/-- NV of a signalling NaN input (R28). -/
def Num.snan : Num → FFlags
  | .nan true => fNV
  | _ => 0

def Num.ofInt (z : Int) : Num := .fin (z < 0) z.natAbs 0

def Num.neg : Num → Num
  | .nan q => .nan q
  | .inf n => .inf (!n)
  | .fin n m e => .fin (!n) m e

def Num.abs : Num → Num
  | .nan q => .nan q
  | .inf _ => .inf false
  | .fin _ m e => .fin false m e

/-- The signed mantissa of a finite value. -/
def sm (n : Bool) (m : Nat) : Int := if n then -(m : Int) else (m : Int)

/-- A finite value scaled to exponent `q`, which is at most its own. -/
def scaleTo (n : Bool) (m : Nat) (e q : Int) : Int := sm n (m * 2 ^ (e - q).toNat)

/-- Sign of an exact zero sum: the common sign of two zeros, else −0 under rdn and +0 otherwise (R29). -/
def zeroSign (rnd : Rnd) (na nb : Bool) : Bool := if na = nb then na else rnd = .rdn

/-- Exact sum (R28, R29). -/
def Num.add (rnd : Rnd) (a b : Num) : Num × FFlags :=
  match a, b with
  | .nan p, .nan q => (.nan false, if p || q then fNV else 0)
  | .nan p, _ => (.nan false, if p then fNV else 0)
  | _, .nan q => (.nan false, if q then fNV else 0)
  | .inf p, .inf q => if p = q then (.inf p, 0) else (.nan false, fNV)
  | .inf p, _ => (.inf p, 0)
  | _, .inf q => (.inf q, 0)
  | .fin na ma ea, .fin nb mb eb =>
    if ma = 0 && mb = 0 then (.fin (zeroSign rnd na nb) 0 0, 0)
    else if ma = 0 then (.fin nb mb eb, 0)
    else if mb = 0 then (.fin na ma ea, 0)
    else
      let q := min ea eb
      let z := scaleTo na ma ea q + scaleTo nb mb eb q
      if z = 0 then (.fin (rnd = .rdn) 0 0, 0) else (.fin (z < 0) z.natAbs q, 0)

/-- Exact product (R28). -/
def Num.mul (a b : Num) : Num × FFlags :=
  match a, b with
  | .nan p, .nan q => (.nan false, if p || q then fNV else 0)
  | .nan p, _ => (.nan false, if p then fNV else 0)
  | _, .nan q => (.nan false, if q then fNV else 0)
  | .inf p, .inf q => (.inf (p != q), 0)
  | .inf p, .fin q m _ => if m = 0 then (.nan false, fNV) else (.inf (p != q), 0)
  | .fin p m _, .inf q => if m = 0 then (.nan false, fNV) else (.inf (p != q), 0)
  | .fin p ma ea, .fin q mb eb => (.fin (p != q) (ma * mb) (ea + eb), 0)

/-- Exact a × b + c; an invalid product gives the default NaN whatever c is (R79). -/
def Num.fma (rnd : Rnd) (a b c : Num) : Num × FFlags :=
  let p := Num.mul a b
  let r := Num.add rnd p.1 c
  (r.1, p.2 ||| r.2)

/-- Bits kept of a quotient, a root or a function before the sticky bit (log 21). -/
def precisionBits : Nat := 320

/-- A value known to lie in [q, q+1) × 2^e, with a sticky last bit that is set when it is not q × 2^e itself. -/
def sticky (neg : Bool) (q : Nat) (inexact : Bool) (e : Int) : Num :=
  .fin neg (2 * q + (if inexact then 1 else 0)) (e - 1)

/-- Quotient, exact but for the sticky bit (R28, R30). -/
def Num.div (a b : Num) : Num × FFlags :=
  match a, b with
  | .nan p, .nan q => (.nan false, if p || q then fNV else 0)
  | .nan p, _ => (.nan false, if p then fNV else 0)
  | _, .nan q => (.nan false, if q then fNV else 0)
  | .inf _, .inf _ => (.nan false, fNV)
  | .inf p, .fin q _ _ => (.inf (p != q), 0)
  | .fin p _ _, .inf q => (.fin (p != q) 0 0, 0)
  | .fin p ma ea, .fin q mb eb =>
    if mb = 0 then (if ma = 0 then (.nan false, fNV) else (.inf (p != q), fDZ))
    else if ma = 0 then (.fin (p != q) 0 0, 0)
    else
      let k := precisionBits + Nat.log2 mb
      let n := ma * 2 ^ k
      (sticky (p != q) (n / mb) (n % mb != 0) (ea - eb - k), 0)

/-- Newton's descent to the integer square root, from above. -/
def isqrtFrom : Nat → Nat → Nat → Nat
  | 0, _, x => x
  | k + 1, n, x =>
    let y := (x + n / x) / 2
    if y < x then isqrtFrom k n y else x

/-- Floor of the square root. -/
def isqrt (n : Nat) : Nat := if n = 0 then 0 else isqrtFrom (Nat.log2 n + 8) n (2 ^ (Nat.log2 n / 2 + 1))

/-- The root of m × 2^e as mantissa, sticky and exponent. -/
def rootParts (m : Nat) (e : Int) : Nat × Bool × Int :=
  let k : Nat := 2 * precisionBits + (if (e % 2 : Int) = 0 then 0 else 1)
  let n := m * 2 ^ k
  let r := isqrt n
  (r, r * r != n, (e - k) / 2)

/-- Square root (R78). -/
def Num.sqrt (a : Num) : Num × FFlags :=
  match a with
  | .nan p => (.nan false, if p then fNV else 0)
  | .inf n => if n then (.nan false, fNV) else (.inf false, 0)
  | .fin n m e =>
    if m = 0 then (.fin n 0 0, 0)
    else if n then (.nan false, fNV)
    else
      let (r, x, e') := rootParts m e
      (sticky false r x e', 0)

/-- 1 / a (R111). -/
def Num.rcp (a : Num) : Num × FFlags := Num.div (.fin false 1 0) a

/-- 1 / √a (R111). -/
def Num.rsqrt (a : Num) : Num × FFlags :=
  match a with
  | .nan p => (.nan false, if p then fNV else 0)
  | .inf n => if n then (.nan false, fNV) else (.fin false 0 0, 0)
  | .fin n m e =>
    if m = 0 then (.inf n, fDZ)
    else if n then (.nan false, fNV)
    else
      -- 1/√(m 2^e) = √(m 2^(2k) / 2^e) / (m 2^k): the root of an integer quotient of 2^(2K) by m
      let k : Nat := 2 * precisionBits + 2 * Nat.log2 m + (if (e % 2 : Int) = 0 then 0 else 1)
      let q := 2 ^ k / m
      let x := 2 ^ k % m != 0
      let r := isqrt q
      (sticky false r (x || r * r != q) ((-e - k) / 2), 0)

/-- Order of two values that are not NaN; −0 equals +0. -/
def Num.lt (a b : Num) : Bool :=
  match a, b with
  | .nan _, _ | _, .nan _ => false
  | .inf p, .inf q => p && !q
  | .inf p, .fin .. => p
  | .fin .., .inf q => !q
  | .fin na ma ea, .fin nb mb eb =>
    let q := min ea eb
    scaleTo na ma ea q < scaleTo nb mb eb q

/-- Equality of two values that are not NaN. -/
def Num.eq (a b : Num) : Bool := !a.isNaN && !b.isNaN && !a.lt b && !b.lt a

/-- Order with −0 below +0, for minimum and maximum (R28). -/
def Num.below (a b : Num) : Bool :=
  a.lt b || (match a, b with
    | .fin true 0 _, .fin false 0 _ => true
    | _, _ => false)

/-- minimumNumber (R28). -/
def Num.min (a b : Num) : Num × FFlags :=
  let f := a.snan ||| b.snan
  if a.isNaN then (if b.isNaN then (.nan false, f) else (b, f))
  else if b.isNaN then (a, f)
  else (if b.below a then b else a, f)

/-- maximumNumber (R28). -/
def Num.max (a b : Num) : Num × FFlags :=
  let f := a.snan ||| b.snan
  if a.isNaN then (if b.isNaN then (.nan false, f) else (b, f))
  else if b.isNaN then (a, f)
  else (if a.below b then b else a, f)

/-- Exponent of the leading bit of a non-zero magnitude. -/
def leadExp (m : Nat) (e : Int) : Int := (Nat.log2 m : Int) + e

/-- The powers 2^(2^-k), k = 1, 2, …, multiplied where a bit of the fraction is set: the bits of `f` below bit `n`, highest first.
`c` is the present root and `acc` the product, both scaled by 2^w. -/
def exp2Loop : Nat → Nat → Nat → Nat → Nat → Nat
  | 0, _, _, _, acc => acc
  | n + 1, w, f, c, acc =>
    let c' := isqrt (c * 2 ^ w)
    exp2Loop n w f c' (if f / 2 ^ n % 2 = 1 then acc * c' / 2 ^ w else acc)

/-- 2^a (R111). An argument so large that the result leaves every format is cut at ±2^20. -/
def Num.exp2 (a : Num) : Num × FFlags :=
  match a with
  | .nan p => (.nan false, if p then fNV else 0)
  | .inf n => if n then (.fin false 0 0, 0) else (.inf false, 0)
  | .fin n m e =>
    if m = 0 then (.fin false 1 0, 0)
    else if leadExp m e ≥ 20 then
      (if n then sticky false 1 true (-1048576) else .fin false 1 1048576, 0)
    else if 0 ≤ e then
      let k : Int := sm n (m * 2 ^ e.toNat)
      (.fin false 1 k, 0)
    else
      let d := (-e).toNat
      let z := sm n m
      let whole : Int := z / 2 ^ d
      let frac := (z % 2 ^ d).toNat
      if frac = 0 then (.fin false 1 whole, 0)
      else
        let w := 2 * precisionBits
        let r := exp2Loop d w frac (2 * 2 ^ w) (2 ^ w)
        (sticky false (r / 2 ^ precisionBits) true (whole - precisionBits), 0)

/-- Bits of log2 of x / 2^w in [1, 2), highest first: square, and take a bit where the square reaches 2. -/
def log2Loop : Nat → Nat → Nat → Nat → Nat
  | 0, _, _, acc => acc
  | n + 1, w, x, acc =>
    let y := x * x / 2 ^ w
    if y ≥ 2 * 2 ^ w then log2Loop n w (y / 2) (2 * acc + 1) else log2Loop n w y (2 * acc)

/-- log2 a (R111). -/
def Num.log2 (a : Num) : Num × FFlags :=
  match a with
  | .nan p => (.nan false, if p then fNV else 0)
  | .inf n => if n then (.nan false, fNV) else (.inf false, 0)
  | .fin n m e =>
    if m = 0 then (.inf true, fDZ)
    else if n then (.nan false, fNV)
    else
      let l := Nat.log2 m
      let whole : Int := l + e
      if m = 2 ^ l then (Num.ofInt whole, 0)
      else
        let w := 3 * precisionBits
        let frac := log2Loop precisionBits w (m * 2 ^ w / 2 ^ l) 0
        let z : Int := whole * 2 ^ precisionBits + frac
        -- the exact value lies in (z, z + 1) × 2^-precision
        if z < 0 then (sticky true (z + 1).natAbs true (-precisionBits), 0)
        else (sticky false z.toNat true (-precisionBits), 0)

/-! Rounding. -/

/-- Whether the magnitude is rounded away from zero: low bit, remainder below, at or above half (R29). -/
def roundUp (rnd : Rnd) (neg : Bool) (odd : Bool) (rem half : Nat) : Bool :=
  match rnd with
  | .rne => rem > half || (rem = half && odd && rem != 0)
  | .rna => rem ≥ half && rem != 0
  | .rtz => false
  | .rdn => neg && rem != 0
  | .rup => !neg && rem != 0

/-- m × 2^e rounded to a multiple of 2^q: the multiple and whether it is inexact. -/
def roundAt (rnd : Rnd) (neg : Bool) (m : Nat) (e q : Int) : Nat × Bool :=
  if q ≤ e then (m * 2 ^ (e - q).toNat, false)
  else
    let d := (q - e).toNat
    let n := m / 2 ^ d
    let r := m % 2 ^ d
    -- doubled remainder against 2^d, so that half is exact
    (if roundUp rnd neg (n % 2 = 1) (2 * r) (2 ^ d) then n + 1 else n, r != 0)

/-- round_half_even of m × 2^e as an integer (R26). -/
def roundHalfEven (z : Int) (e : Int) : Int :=
  let r := roundAt .rne (z < 0) z.natAbs e 0
  sm (z < 0) r.1

/-- The field widths of an IEEE format (R27). -/
structure Ieee where
  exp : Nat
  frac : Nat
  flush : Bool
  deriving DecidableEq, Repr

def Ieee.fp64 : Ieee := ⟨11, 52, true⟩
def Ieee.fp32 : Ieee := ⟨8, 23, true⟩
def Ieee.fp16 : Ieee := ⟨5, 10, true⟩
def Ieee.bf16 : Ieee := ⟨8, 7, false⟩

def Ieee.bias (f : Ieee) : Int := 2 ^ (f.exp - 1) - 1
def Ieee.emin (f : Ieee) : Int := 1 - f.bias
def Ieee.width (f : Ieee) : Nat := 1 + f.exp + f.frac
def Ieee.signBit (f : Ieee) (neg : Bool) : Nat := if neg then 2 ^ (f.exp + f.frac) else 0
def Ieee.infBits (f : Ieee) (neg : Bool) : Nat := f.signBit neg + (2 ^ f.exp - 1) * 2 ^ f.frac
def Ieee.maxBits (f : Ieee) (neg : Bool) : Nat := f.infBits neg - 1
/-- The positive default quiet NaN (R28). -/
def Ieee.nanBits (f : Ieee) : Nat := f.infBits false + 2 ^ (f.frac - 1)

/-- The value of a pattern (R27, R28); FTZ reads a subnormal as zero. -/
def Ieee.decode (f : Ieee) (ftz : Bool) (b : Nat) : Num :=
  let neg := b / 2 ^ (f.exp + f.frac) % 2 = 1
  let e := b / 2 ^ f.frac % 2 ^ f.exp
  let m := b % 2 ^ f.frac
  if e = 2 ^ f.exp - 1 then
    if m = 0 then .inf neg else .nan (m < 2 ^ (f.frac - 1))
  else if e = 0 then
    if ftz && f.flush then .fin neg 0 0 else .fin neg m (f.emin - f.frac)
  else .fin neg (2 ^ f.frac + m) ((e : Int) - f.bias - f.frac)

/-- Whether a mode gives the largest finite magnitude on overflow (R29). -/
def overflowToMax (rnd : Rnd) (neg : Bool) : Bool :=
  match rnd with
  | .rtz => true
  | .rdn => !neg
  | .rup => neg
  | .rne | .rna => false

/-- A value rounded once into an IEEE format, with its flags (R27 to R30). -/
def Ieee.round (f : Ieee) (rnd : Rnd) (ftz : Bool) (x : Num) : Nat × FFlags :=
  match x with
  | .nan p => (f.nanBits, if p then fNV else 0)
  | .inf n => (f.infBits n, 0)
  | .fin n m e =>
    if m = 0 then (f.signBit n, 0)
    else
      let l := leadExp m e
      let free := roundAt rnd n m e (l - f.frac)
      let tiny := l < f.emin && !(l = f.emin - 1 && free.1 = 2 ^ (f.frac + 1))
      let q := max l f.emin - f.frac
      let r := roundAt rnd n m e q
      let ovf := l > f.bias || (l = f.bias && free.1 = 2 ^ (f.frac + 1))
      if ovf then
        (if overflowToMax rnd n then f.maxBits n else f.infBits n, fOF ||| fNX)
      else if ftz && f.flush && r.1 < 2 ^ f.frac && r.1 != 0 then
        (f.signBit n, fUF ||| fNX)
      else
        (f.signBit n + (q - (f.emin - f.frac)).toNat * 2 ^ f.frac + r.1,
          (if r.2 then fNX else 0) ||| (if tiny && r.2 then fUF else 0))

/-! FP8. -/

/-- e4m3 (R32). -/
def decodeE4m3 (b : Nat) : Num :=
  let neg := b / 128 % 2 = 1
  let e := b / 8 % 16
  let m := b % 8
  if e = 15 && m = 7 then .nan false
  else if e = 0 then .fin neg m (-9)
  else .fin neg (8 + m) ((e : Int) - 10)

/-- e5m2 (R33). -/
def decodeE5m2 (b : Nat) : Num :=
  let neg := b / 128 % 2 = 1
  let e := b / 4 % 32
  let m := b % 4
  if e = 31 then (if m = 0 then .fin neg 7 13 else .nan false)
  else if e = 0 then .fin neg m (-16)
  else .fin neg (4 + m) ((e : Int) - 17)

/-- A non-zero magnitude rounded into a format of `frac` fraction bits and least exponent `emin`, with unbounded exponent above: the
code without sign, inexactness, and whether it is tiny (R30, R34). -/
def roundSmall (rnd : Rnd) (neg : Bool) (m : Nat) (e : Int) (frac : Nat) (emin : Int) : Nat × Bool × Bool :=
  let l := leadExp m e
  let q := max l emin - frac
  let r := roundAt rnd neg m e q
  let free := roundAt rnd neg m e (l - frac)
  let tiny := l < emin && !(l = emin - 1 && free.1 = 2 ^ (frac + 1))
  ((q - (emin - frac)).toNat * 2 ^ frac + r.1, r.2, tiny)

/-- A value rounded into e4m3 (R34). -/
def roundE4m3 (a : Arith) (x : Num) : Nat × FFlags :=
  match x with
  | .nan p => (0x7F, if p then fNV else 0)
  | .inf n => if a.sat then (if n then 0xFE else 0x7E, fOF ||| fNX) else (0x7F, fNV)
  | .fin n m e =>
    let sign := if n then 0x80 else 0
    if m = 0 then (sign, 0)
    else
      let (c, x, tiny) := roundSmall a.rnd n m e 3 (-6)
      if c > 0x7E then
        (if a.sat || overflowToMax a.rnd n then sign + 0x7E else 0x7F, fOF ||| fNX)
      else (sign + c, (if x then fNX else 0) ||| (if tiny && x then fUF else 0))

/-- A value rounded into e5m2 (R34). -/
def roundE5m2 (a : Arith) (x : Num) : Nat × FFlags :=
  match x with
  | .nan p => (0x7F, if p then fNV else 0)
  | .inf n => (if n then 0xFB else 0x7B, 0)
  | .fin n m e =>
    let sign := if n then 0x80 else 0
    if m = 0 then (sign, 0)
    else
      let (c, x, tiny) := roundSmall a.rnd n m e 2 (-14)
      if c > 0x7B then (sign + 0x7B, fOF ||| fNX)
      else (sign + c, (if x then fNX else 0) ||| (if tiny && x then fUF else 0))

/-! Blocks. -/

/-- Twice the value of an e2m1x code over its scale, code 1000 apart (R35). -/
def e2m1Twice (c : Nat) : Int :=
  let v : Int := match c % 8 with
    | 0 => 0 | 1 => 1 | 2 => 2 | 3 => 3 | 4 => 4 | 5 => 6 | 6 => 8 | _ => 12
  if c ≥ 8 then -v else v

/-- The value of an e2m1x code under scale byte `s` and extra byte `x` (R35). -/
def decodeE2m1x (s x c : Nat) : Num :=
  if s = 255 then .nan false
  else if c % 16 = 8 then
    match decodeE4m3 x with
    | .fin n m e => .fin n m (e + ((s : Int) - 127))
    | y => y
  else
    let v := e2m1Twice (c % 16)
    .fin (v < 0) v.natAbs ((s : Int) - 128)

/-- The value of a bfp16 mantissa pattern under block exponent `e` (R37). -/
def decodeBfp16 (e m : Nat) : Num :=
  if e = 0 then .zero
  else if e = 255 then .nan false
  else
    let z := toSigned 16 (m % 65536)
    let z := if z = -32768 then -32767 else z
    .fin (z < 0) z.natAbs ((e : Int) - 141)

/-- Whether a value is finite. -/
def Num.finite : Num → Bool
  | .fin .. => true
  | _ => false

/-- The larger of two finite magnitudes. -/
def maxMag (a b : Num) : Num := if a.lt b.abs then b.abs else a

/-- The largest magnitude of a block of finite values. -/
def blockMax (xs : List Num) : Num := xs.foldl maxMag .zero

/-- floor(log2) of a non-zero finite magnitude. -/
def Num.expOf : Num → Int
  | .fin _ m e => leadExp m e
  | _ => 0

def Num.isZero : Num → Bool
  | .fin _ 0 _ => true
  | _ => false

/-- A finite value over 2^k. -/
def Num.shift (x : Num) (k : Int) : Num :=
  match x with
  | .fin n m e => .fin n m (e - k)
  | y => y

/-- |u − v| of two finite values, as a value. -/
def Num.dist (u v : Num) : Num := (Num.add .rne u v.neg).1.abs

/-- The nearer of the code found and the next code, a tie going to the even code (R36). -/
def e2m1Better (u : Num) (best c : Nat) : Nat :=
  let v := fun k => let t := e2m1Twice k; Num.fin (t < 0) t.natAbs (-1)
  let db := u.dist (v best)
  let dc := u.dist (v c)
  if dc.lt db then c else if db.lt dc then best else if best % 2 = 0 then best else c

/-- The code of one element of quotient `u`, with the extra value `x` as code 1000 (R36). -/
def e2m1Code (x u : Num) : Nat :=
  let best := [1, 2, 3, 4, 5, 6, 7, 9, 10, 11, 12, 13, 14, 15].foldl (e2m1Better u) 0
  let t := e2m1Twice best
  if (u.dist x).lt (u.dist (.fin (t < 0) t.natAbs (-1))) then 8 else best

/-- A converted e2m1x block: codes, scale, extra value, flags. -/
structure E2m1Block where
  codes : List Nat
  s : Nat
  x : Nat
  flags : FFlags
  deriving DecidableEq, Repr

/-- The converter into e2m1x, on one block (R36). -/
def encodeE2m1x (xs : List Num) : E2m1Block :=
  if xs.any (fun v => !v.finite) then ⟨xs.map (fun _ => 0), 0xFF, 0, fNV⟩
  else
    let amax := blockMax xs
    if amax.isZero then ⟨xs.map (fun _ => 0), 0x7F, 0, 0⟩
    else
      let k := amax.expOf - 2
      let s := (max 0 (min 254 (k + 127))).toNat
      let scale : Int := (s : Int) - 127
      let big := (xs.find? (fun v => v.abs.eq amax)).getD .zero
      let x := (roundE4m3 ⟨.rne, true, false⟩ (big.shift scale)).1
      let xv := decodeE4m3 x
      let codes := xs.map (fun v => e2m1Code xv (v.shift scale))
      let changed := (List.zip xs codes).any (fun p => !(decodeE2m1x s x p.2).eq p.1)
      ⟨codes, s, x, if changed then fNX else 0⟩

/-- A converted bfp16 block: mantissas, exponent, flags. -/
structure BfpBlock where
  ms : List Int
  e : Nat
  flags : FFlags
  deriving DecidableEq, Repr

/-- The mantissa of a value under block exponent `e` (R38 step 3). -/
def bfpMant (rnd : Rnd) (e : Int) (x : Num) : Int :=
  match x with
  | .fin n m ex => sm n (roundAt rnd n m (ex + 141 - e) 0).1
  | _ => 0

/-- Conversion of a block into bfp16 (R38). -/
def encodeBfp16 (rnd : Rnd) (xs : List Num) : BfpBlock :=
  if xs.any (fun v => !v.finite) then ⟨xs.map (fun _ => 0), 255, fNV⟩
  else
    let amax := blockMax xs
    if amax.isZero then ⟨xs.map (fun _ => 0), 0, 0⟩
    else
      let e0 := max 1 (amax.expOf + 127)
      let m0 := xs.map (bfpMant rnd e0)
      let e1 := if m0.any (fun m => m.natAbs ≥ 32768) then e0 + 1 else e0
      let ovf := e1 > 254
      let e2 := if ovf then 254 else e1
      let m2 := (xs.map (bfpMant rnd e2)).map (fun m => if ovf then max (-32767) (min 32767 m) else m)
      let zero := m2.all (· = 0)
      let e3 : Nat := if zero then 0 else e2.toNat
      let changed := (List.zip xs m2).any (fun p => !(Num.fin (p.2 < 0) p.2.natAbs (e2 - 141)).eq p.1)
      ⟨m2, e3, (if ovf then fBFPOVF ||| fOF else 0) ||| (if changed then fNX else 0)⟩

/-- A mantissa as it enters an operation (R37). -/
def mantissa (m : Nat) : Int := let z := toSigned 16 m; if z = -32768 then -32767 else z

/-- NORM on a block of mantissas (R42). A block with E 1 to 254 whose mantissas are all zero has no k that reaches the range and is no zero
block: it passes unchanged, the model's choice (log 52). -/
def normBlock (ms : List Int) (e : Nat) : List Int × Nat :=
  if e = 0 || e = 255 then (ms, e)
  else
    let top := ms.foldl (fun t m => max t m.natAbs) 0
    if top = 0 then (ms, e)
    else
      let k := min (14 - Nat.log2 top) (e - 1)
      (ms.map (fun m => m * 2 ^ k), e - k)

/-! Elements and results by tag. -/

/-- The value of a pattern of a floating tag that needs no side register (R27, R32, R33). -/
def decodeFloat (t : Tag) (ftz : Bool) (b : Nat) : Num :=
  match t with
  | .fp32 => Ieee.fp32.decode ftz b
  | .fp16 => Ieee.fp16.decode ftz b
  | .bf16 => Ieee.bf16.decode ftz b
  | .e4m3 => decodeE4m3 b
  | .e5m2 => decodeE5m2 b
  | _ => .nan false

/-- A value rounded into a floating tag that needs no side register (R26). -/
def roundFloat (t : Tag) (a : Arith) (x : Num) : Nat × FFlags :=
  match t with
  | .fp32 => Ieee.fp32.round a.rnd a.ftz x
  | .fp16 => Ieee.fp16.round a.rnd a.ftz x
  | .bf16 => Ieee.bf16.round a.rnd a.ftz x
  | .e4m3 => roundE4m3 a x
  | .e5m2 => roundE5m2 a x
  | _ => (0, 0)

/-- A floating value into a range of integers (R26): NaN gives 0, a value outside the nearest bound, either with NV. -/
def roundToInt (rnd : Rnd) (lo hi : Int) (x : Num) : Int × FFlags :=
  match x with
  | .nan _ => (0, fNV)
  | .inf n => (if n then lo else hi, fNV)
  | .fin n m e =>
    let r := roundAt rnd n m e 0
    let z := sm n r.1
    if z < lo then (lo, fNV) else if z > hi then (hi, fNV) else (z, if r.2 then fNX else 0)

/-- An exact result before conversion. -/
inductive Val
  | int (z : Int)
  | num (x : Num)
  deriving DecidableEq, Repr

/-- The value as a floating quantity. -/
def Val.toNum : Val → Num
  | .int z => .ofInt z
  | .num x => x

/-- A result of operation type `op` converted once into the tag `t` of an unpaired destination (R26, R44). -/
def roundTo (a : Arith) (p : Nat) (op t : Tag) (v : Val) : Nat × FFlags :=
  match v with
  | .int z =>
    if t = .mod32 then (if p = 0 then 0 else (z % (p : Int)).toNat, 0)
    else if t.isInt then
      (if op = .mod32 then wrap (t.width 0) z else intToInt a.sat op t z, 0)
    else roundFloat t a (.ofInt z)
  | .num x =>
    if t.isInt then
      let r := roundToInt a.rnd t.minInt t.maxInt x
      (wrap (t.width 0) r.1, r.2)
    else roundFloat t a x

end Sys2Proof.Machine
end

