-- ==== Sys2Proof/Machine/Store.lean ====
section
/-! DEFINITION. Sparse maps in one canonical form: pairs of key and value, keys strictly rising, no entry equal to what an unlisted
key reads as. Register files, per-hart and per-core records and memory are held this way, so that equal states are equal data. -/

namespace Sys2Proof.Machine

/-- A sparse map from numbers. -/
abbrev SMap (α : Type) := List (Nat × α)

/-- The value of a key; `d` is what an unlisted key reads as. -/
def SMap.get {α : Type} (d : α) : SMap α → Nat → α
  | [], _ => d
  | (j, x) :: m, k => if j = k then x else SMap.get d m k

/-- The map without a key. -/
def SMap.erase {α : Type} : SMap α → Nat → SMap α
  | [], _ => []
  | (j, x) :: m, k => if j = k then SMap.erase m k else (j, x) :: SMap.erase m k

/-- The map with a key put in its place. -/
def SMap.insert {α : Type} : SMap α → Nat → α → SMap α
  | [], k, x => [(k, x)]
  | (j, y) :: m, k, x => if k < j then (k, x) :: (j, y) :: m else (j, y) :: SMap.insert m k x

/-- A key set to a value; setting it to what an unlisted key reads as removes the entry. -/
def SMap.set {α : Type} [DecidableEq α] (d : α) (m : SMap α) (k : Nat) (x : α) : SMap α :=
  if x = d then SMap.erase m k else SMap.insert (SMap.erase m k) k x

/-- Keys strictly rising from `lo`, and no entry equal to the default. -/
def SMap.wfFrom {α : Type} [DecidableEq α] (d : α) : Nat → SMap α → Bool
  | _, [] => true
  | lo, (k, x) :: m => lo ≤ k && x ≠ d && SMap.wfFrom d (k + 1) m

/-- The canonical form. -/
def SMap.wf {α : Type} [DecidableEq α] (d : α) (m : SMap α) : Bool := SMap.wfFrom d 0 m

/-! Memory: one byte map over canonical physical addresses (08_memory R168 to R171). -/

/-- Memory as the list of its written bytes. -/
abbrev Memory := List Host.Cell

/-- What a byte that nothing has written reads as (log 4). -/
def Memory.blank : Byte := 0

/-- One byte. -/
def Memory.read (m : Memory) (a : Nat) : Byte := SMap.get Memory.blank m a

/-- One byte written. -/
def Memory.write (m : Memory) (a : Nat) (b : Byte) : Memory := SMap.set Memory.blank m a b

/-- Every byte from `lo` to below `hi` unwritten. -/
def Memory.clear (m : Memory) (lo hi : Nat) : Memory := m.filter (fun p => !(lo ≤ p.1 && p.1 < hi))

/-- The canonical form of memory. -/
def Memory.wf (m : Memory) : Bool := SMap.wf Memory.blank m

/-- `n` bytes from `a` upwards as one little-endian number (R3). -/
def Memory.readN (m : Memory) (a : Nat) : Nat → Nat
  | 0 => 0
  | n + 1 => (m.read a).toNat + 256 * Memory.readN m (a + 1) n

/-- The low `n` bytes of a number written from `a` upwards (R3). -/
def Memory.writeN (m : Memory) (a : Nat) : Nat → Nat → Memory
  | 0, _ => m
  | n + 1, x => Memory.writeN (m.write a (BitVec.ofNat 8 x)) (a + 1) n (x / 256)

/-- `n` bytes from `a` upwards. -/
def Memory.bytes (m : Memory) (a : Nat) : Nat → List Byte
  | 0 => []
  | n + 1 => m.read a :: Memory.bytes m (a + 1) n

/-- A list of bytes written from `a` upwards. -/
def Memory.writeBytes (m : Memory) (a : Nat) : List Byte → Memory
  | [] => m
  | b :: bs => Memory.writeBytes (m.write a b) (a + 1) bs

/-- Bytes as one little-endian number. -/
def bytesToNat : List Byte → Nat
  | [] => 0
  | b :: bs => b.toNat + 256 * bytesToNat bs

/-- The low `n` bytes of a number, lowest first. -/
def natToBytes : Nat → Nat → List Byte
  | 0, _ => []
  | n + 1, x => BitVec.ofNat 8 x :: natToBytes n (x / 256)

/-- Bits [hi:lo] of a number (R5). -/
def bits (x hi lo : Nat) : Nat := x / 2 ^ lo % 2 ^ (hi + 1 - lo)

end Sys2Proof.Machine
end

