-- ==== Sys2Proof/Machine/State.lean ====
section
/-! DEFINITION. The state of one FS-6400 package: every piece of state the manual names, as plain data. Harts are numbered
die × 512 + core × 8 + hart, cores die × 64 + core. -/

namespace Sys2Proof.Machine

/-! ## One hart (01_hart) -/

/-- What HARTCTL.STATE reports (R329). -/
inductive RunState
  | free | running | frozen | stopped
  deriving DecidableEq, Repr

/-- The rest of a convoy in execution: instructions left, position of the next, and the words the header read. No words: they are
fetched afresh, after `eret` (R59, R63). -/
structure Convoy where
  rem : Nat
  pos : Nat
  words : List Nat
  deriving DecidableEq, Repr

/-- What a hart waits in (R152, R160, R230, R253, R280, R281, R372, R94). -/
inductive Wait
  /-- `bwait`, or `step` after its arrival: the barrier and the phase. -/
  | phase (bar : Nat) (ph : Nat) (step : Bool)
  /-- An arrival held by a full phase; `d` receives the phase, and a `step` waits on. -/
  | held (bar : Nat) (d : SReg) (step : Bool)
  /-- `binit`. -/
  | init (bar : Nat)
  /-- `twait`, `mfence`, `smark`, `sdrain`, `cwait`: the value BARRIER_AGE reports. -/
  | engine (val : Nat)
  /-- The full matrix queue, without an age (R241). -/
  | matrix
  /-- `wfi`, without an age (R94). -/
  | wfi
  /-- `step` before its arrival, behind a credit that a full record queue holds: the barrier (R326). -/
  | arrival (bar : Nat)
  /-- A wait without an age: a full queue, the scoreboard, `texit`. -/
  | other
  deriving DecidableEq, Repr

/-- A blocked hart: what in, the cycle count when it began, and the instruction, which is fetched but once (R94, R152). -/
structure Block where
  wait : Wait
  since : Nat
  instr : Option Instr := none
  deriving DecidableEq, Repr

/-- The report that waits for a hart's next matrix instruction, and the status of its latest `mdec`, with that one's place in program
order (R245, R246). -/
structure MatFail where
  fail : Bool := false
  fcause : Nat := 0
  cancel : Nat := 0
  addr : Word := 0
  lext : Bool := false
  ldrop : Bool := false
  last : Nat := 0
  deriving DecidableEq, Repr

/-- The place of a graph instance: what `tgraph` read of the header, the replay slot, the node index, and the record notified at the end
(R143, R144). -/
structure GraphRef where
  nodes : Word
  area : Word
  ncount : Nat
  psize : Nat
  slot : Nat
  node : Nat
  notify : Word
  deriving DecidableEq, Repr

/-- What a ring entry or reissue stands for beside the record's address (R135, R141, R144). -/
structure Post where
  addr : Word
  graph : Option GraphRef := none
  /-- The chunks of a ranged record, as its post split it (R135). -/
  chunks : Option Nat := none
  /-- One chunk only, by its index (a reissue). -/
  chunk : Option Nat := none
  /-- A binding of the record found it invalid, so every later one is dropped (R130). -/
  void : Bool := false
  deriving DecidableEq, Repr

/-- What a completion or a `tgraph` has still to do. -/
inductive Deed
  /-- A root of a replay posted, with its record as the hart read it and the physical address it was read at (R144). -/
  | root (p : Post) (record pa : Nat)
  /-- A record or an instance is complete: its parent or its successors are to be notified (R139, R145). -/
  | complete (p : Post) (parent : Word)
  /-- The join counter of a record decremented; the instance where the record is a node (R139). -/
  | join (target : Word) (graph : Option GraphRef)
  /-- Counter j of a replay decremented for the node at an address that is complete (R145). -/
  | succ (node : Word) (g : GraphRef) (j : Nat)
  /-- One more instance of a replay is complete (R145). -/
  | retired (node : Word) (g : GraphRef)
  /-- A record posted whose counter has reached zero (R139, R145). -/
  | post (p : Post)
  deriving DecidableEq, Repr

/-- A deed, with the die whose agent does it and the context in which it translates (R426, R427). -/
structure Act where
  die : Nat
  ctx : Nat
  deed : Deed
  deriving DecidableEq, Repr

/-- The architectural state of one hart (R7, R11), and what the manual implies beside it. -/
structure Hart where
  s : SMap Word := []
  v : SMap VWord := []
  tags : SMap Tag := []
  p : SMap PWord := []
  pc : Word := 0
  mode : Word := 0x3F#64
  vl : Word := 0
  tl : Word := 1
  tc : Word := 1
  loopHead : Word := 0
  loopSz : Word := 0
  rowIdx : Word := 0
  tileIdx : Word := 0
  convoy : Word := 0
  hwm : Word := 0
  vstart : Word := 0
  stepArr : Word := 0
  fflags : Word := 0
  modulus : Word := 0x78000001#64
  lossBnd : Word := 0
  tlive0 : Word := 0
  tlive1 : Word := 0
  tlive2 : Word := 0
  tlive3 : Word := 0
  gangId : Word := 0
  gangSize : Word := 1
  taskFp : Word := 0
  status : Word := 1
  trapBase : Word := 0
  trapCause : Word := 0
  trapPc : Word := 0
  trapVal : Word := 0
  trapVec : Word := 0
  rfCorr : Word := 0
  /-- The context of the hart's accesses (R168). -/
  ctx : Nat := 0
  run : RunState := .free
  conv : Option Convoy := none
  /-- The next instruction is the first after a trap or interrupt entry (R321). -/
  atEntry : Bool := false
  block : Option Block := none
  /-- The resident gang the hart runs (R136). -/
  gang : Option Nat := none
  /-- The hart has executed `texit` and is retired (R138). -/
  retired : Bool := false
  /-- An HARTCTL OP written for the frozen hart that waits: 1 RETIRE, 2 ABANDON (R336). -/
  op : Nat := 0
  /-- The shape `mshape` holds (R238). -/
  mshape : Word := 0
  mfail : MatFail := {}
  /-- Planted parity errors: lane slices of vector registers, scalar registers, predicate registers (R335, R424). -/
  vParity : List (Nat × Nat) := []
  sParity : List Nat := []
  pParity : List Nat := []
  /-- Program order of slot operations (R222). -/
  stamp : Nat := 0
  /-- An `xbatch` that waits with some of its commands taken: the next command, and those accepted (R232). -/
  batch : Option (Nat × List Nat) := none
  /-- What the post of a `spawn` or `tgraph` that waits has set off and is not done (R132, R144, R145). -/
  acts : List Act := []
  deriving DecidableEq, Repr

/-- A hart after reset (R7, R11). -/
def Hart.reset : Hart := {}

/-! ## Faults (16_traps_preemption) -/

/-- Who must learn a record's SEQ when it enters the ring, so that FRCTL finds the stopped work (R330, R332, R420). -/
inductive Owner
  | none
  /-- The copy command of this identity on a core. -/
  | copy (core uid : Nat)
  /-- A host DMA command. -/
  | dma (cmd : Nat)
  deriving DecidableEq, Repr

/-- A fault record before SEQ is known (R326, R327). -/
structure FaultRec where
  core : Nat
  hart : Nat := 0
  master : Nat
  cause : Nat
  kind : Nat
  addr : Word := 0
  frozen : Bool := false
  withheld : Bool := false
  bar : Option Nat := none
  ctx : Nat := 0
  pc : Word := 0
  d0 : Word := 0
  d1 : Word := 0
  d2 : Word := 0
  time : Nat := 0
  owner : Owner := .none
  deriving DecidableEq, Repr

/-- Work stopped by a fault: its record's SEQ once known, and what FRCTL decided meanwhile (R328, R341). -/
structure Stop where
  seq : Option Nat := none
  protect : Bool := false
  /-- An FRCTL write recorded while the gang is saved: abort or retry. -/
  decided : Option Bool := none
  deriving DecidableEq, Repr

/-! ## Barriers (07_barriers_atomics) -/

/-- One arrival that a full phase holds (R149). -/
structure Held where
  hart : Nat
  d : SReg
  step : Bool
  deriving DecidableEq, Repr

/-- A named barrier (R147). Whether a hart waits on it is read from the harts. -/
structure Barrier where
  broken : Bool := false
  exp : Nat := 0
  arr : Nat := 0
  phase : Nat := 0
  pend : Int := 0
  held : List Held := []
  deriving DecidableEq, Repr

/-- Bytes an engine has delivered and the barrier has not yet counted (R150). -/
structure Credit where
  bar : Nat
  bytes : Nat
  deriving DecidableEq, Repr

/-! ## Tile movement (10_tile_movement) -/

/-- A tile descriptor (R212). -/
structure Desc where
  slot : Nat
  cnt : Nat
  lay : Nat
  bar : Nat
  nb : Bool
  tr : Bool
  te : Nat
  deriving DecidableEq, Repr

/-- A tensor map as read at issue (R213). -/
structure TMap where
  base : Word
  win : Bool
  trans : Bool
  cmp : Bool
  rank : Nat
  tag : Tag
  dims : List Nat
  strides : List Int
  boxes : List Nat
  kx : Nat
  ky : Nat
  sx : Nat
  sy : Nat
  dx : Nat
  dy : Nat
  plx : Nat
  phx : Nat
  ply : Nat
  phy : Nat
  side : Word
  fill : Nat
  deriving DecidableEq, Repr

/-- What a compressed-region entry gives an access: its storage's base and its metadata (R189). -/
structure Crt where
  base : Nat
  info : Nat
  deriving DecidableEq, Repr

/-- A page of a transfer as translated: physical address, target type, and the compressed-region entry that served it (R183, R189). -/
structure CopyPage where
  pa : Nat
  tt : Nat
  crt : Option Crt
  /-- Bytes that its leaf translates; 0 without a leaf (R96). -/
  size : Nat := 0
  /-- A range entry translates it (R181); else its leaf: level, physical address and value (R193). -/
  ranged : Bool := false
  level : Nat := 0
  entry : Nat := 0
  leaf : Nat := 0
  deriving DecidableEq, Repr

inductive CopyOp
  | tld | tst | tcpy | tfill | ttag | tpack | tunpk
  deriving DecidableEq, Repr

/-- One command of a hart's copy-engine queue (R220, R221). -/
structure CopyCmd where
  op : CopyOp
  uid : Nat
  hart : Nat
  gang : Option Nat
  ctx : Nat
  user : Bool
  careful : Bool
  stamp : Nat
  pc : Word
  /-- Destination range; source range of a `tst`. -/
  dst : Desc
  src : Option Desc := none
  map : Option TMap := none
  origin : List Int := []
  pattern : Word := 0
  params : Word := 0
  descWord : Word
  argWord : Word := 0
  /-- Next chunk (R221). -/
  next : Nat := 0
  /-- Pages translated before anything moved, under the careful regime, by number (R183). -/
  pages : List (Nat × CopyPage) := []
  /-- The whole source of a `tcpy`, read before its first chunk is written (R226). -/
  image : Option (List Byte) := none
  /-- Marks that go with the image, one per 16 bytes (R334). -/
  imagePoison : List Bool := []
  stop : Option Stop := none
  /-- The one kind 7 record of the command is posted (R334). -/
  poisoned : Bool := false
  /-- LAYMIS counts it no more (R186). -/
  counted : Bool := false
  deriving DecidableEq, Repr

/-- A completed tile command that failed, with its ranges, until a `twait` counts it (R230). -/
structure TileFail where
  hart : Nat
  ranges : List (Nat × Nat)
  deriving DecidableEq, Repr

/-! ## The matrix engine (11_matrix_engine) -/

inductive MatOp
  | mzero | mload | mread | mma | mmab | mdec | mmanm | mrem | mscan
  deriving DecidableEq, Repr

/-- One posted matrix instruction (R241), with the shape it captured (R238). -/
structure MatCmd where
  op : MatOp
  uid : Nat := 0
  hart : Nat
  gang : Option Nat
  stamp : Nat
  pc : Word
  shape : Word
  acc : Nat := 0
  /-- A, G, the source of `mload`, or B of `mdec`. -/
  a : Option Desc := none
  /-- B, U or the term range. -/
  b : Option Desc := none
  /-- Destination of `mread` and `mdec`. -/
  out : Option Desc := none
  param : Word := 0
  lossBnd : Word := 0
  /-- Slot chunks it reads and writes (R243). -/
  reads : List Nat := []
  writes : List Nat := []
  deriving DecidableEq, Repr

/-! ## The stage fabric (12_stage_fabric, 13_stage_nodes) -/

/-- A context of a stream program (R271). -/
structure FabCtx where
  node : Nat
  ctx : Nat
  op : Nat
  weight : Nat
  ins : List (Option Nat)
  outs : List (Option Nat)
  /-- The five parameter words at 0x0C to 0x1C. -/
  par : List Nat
  deriving DecidableEq, Repr

/-- A stream program in effect, with the MODULUS and SAT that `scfg` captured (R278). -/
structure FabProg where
  blk : Nat
  ctxs : List FabCtx
  modulus : Nat
  sat : Bool
  deriving DecidableEq, Repr

inductive TokKind
  | data | marker | fin
  deriving DecidableEq, Repr

/-- A token (R260). -/
structure Token where
  kind : TokKind
  data : VWord
  side : Nat
  deriving DecidableEq, Repr

/-- The per-invocation and arbiter state of a context (R262, R263, R288). -/
structure CtxState where
  weight : Nat := 1
  credit : Nat := 0
  /-- Token-cycles resident in the window (R263). -/
  occ : Nat := 0
  /-- The current or latest invocation. -/
  inv : Nat := 0
  /-- Data firings since the marker. -/
  f : Nat := 0
  /-- Data tokens read in the current invocation (R270). -/
  read : Nat := 0
  acc : Nat := 0
  maxA : Nat := 0
  maxB : Nat := 0
  offA : Nat := 0
  offB : Nat := 0
  /-- Positions of the first lanes held of each value stream (R303). -/
  baseA : Nat := 0
  baseB : Nat := 0
  keyA : Option Nat := none
  keyB : Option Nat := none
  /-- Lanes read and not yet used, by input. -/
  q : List (List Nat) := []
  /-- Results packed and not yet formed into a token, by output. -/
  pack : List (List Nat) := []
  /-- Tokens of a frame being gathered. -/
  frame : List Token := []
  /-- Tokens formed and not yet appended, by output. -/
  outbox : List (List Token) := []
  /-- The results of the end have been formed (R262). -/
  flushed : Bool := false
  deriving DecidableEq, Repr

/-- An input port: the invocation it serves and the token it emits next, 0 the marker, TK + 1 the end (R264). -/
structure InPort where
  inv : Nat := 0
  pos : Nat := 0
  deriving DecidableEq, Repr

/-- An output port: the open invocation, and its held tokens (R265). -/
structure OutPort where
  inv : Option Nat := none
  held : List (VWord × Nat) := []
  /-- Its end has arrived. -/
  ready : Bool := false
  deriving DecidableEq, Repr

/-- RM0: the open invocation, the elements it has modified by byte offset, and the values it has placed (R305). -/
structure RmState where
  inv : Option Nat := none
  /-- The range as the invocation found it, and the offsets of its elements that were marked then. -/
  old : List Byte := []
  marks : List Nat := []
  held : SMap (Option Nat) := []
  count : Nat := 0
  ready : Bool := false
  deriving DecidableEq, Repr

/-- One `sgo`: its invocations, where its credit goes, and its place in the order of slot operations (R267, R279). -/
structure Launch where
  first : Nat
  count : Nat
  bar : Option Nat
  /-- What each of its invocations credits (R266). -/
  bytes : Nat
  hart : Nat
  stamp : Nat
  /-- Slot chunks that its invocations have still to read and to write (R267). -/
  reads : List Nat := []
  writes : List Nat := []
  /-- LAYMIS counts it no more (R186). -/
  counted : Bool := false
  deriving DecidableEq, Repr

/-- A command of the fabric queue (R277). -/
inductive FabCmd
  | scfg (p : FabProg)
  | sgo (l : Launch)
  | stwld (node : Nat) (d : Desc) (hart stamp : Nat)
  deriving DecidableEq, Repr

/-- A core's stage fabric (R259 to R283). -/
structure Fabric where
  gang : Option Nat := none
  prog : Option FabProg := none
  /-- An `scfg` has been issued since the grant (R279). -/
  configured : Bool := false
  /-- A command has been issued since the grant: QUIET follows the quiescence tree from then on (R275, R276; log 27). -/
  issued : Bool := false
  cmds : List FabCmd := []
  next : Nat := 0
  /-- Admitted launches not wholly resolved and read, oldest first. -/
  launches : List Launch := []
  /-- Every invocation below this is committed or cancelled. -/
  resolved : Nat := 0
  lastCommit : Option Nat := none
  cancelled : List (Nat × Nat) := []
  chans : SMap (List Token) := []
  /-- Cycle at which each channel's head became the head (R268). -/
  headAt : SMap Nat := []
  /-- Contexts by node × 4 + context. -/
  ctxs : SMap CtxState := []
  /-- The context of each node that fired last (R263). -/
  last : SMap Nat := []
  /-- Start of each node's window, and the cycle up to which occupancies are counted (R263). -/
  windowAt : SMap Nat := []
  since : Nat := 0
  inPorts : SMap InPort := []
  outPorts : SMap OutPort := []
  rm : RmState := {}
  /-- Coefficient tables: byte k of node x at x × 16,384 + k (R283). -/
  tables : Memory := []
  flags : FFlags := 0
  halt : Bool := false
  fail : Bool := false
  fcause : Nat := 0
  failWord : Word := 0
  failCounts : List Nat := []
  /-- Pre-emption stops the input ports at their next marker (R275). -/
  stopping : Bool := false
  deriving DecidableEq, Repr

/-! ## Gangs (06_tasks) -/

inductive GangState
  | running | stopping | saved
  deriving DecidableEq, Repr

/-- What the save engine keeps of one hart beside its part of the save area (R339, R340). -/
structure SavedHart where
  run : RunState
  retired : Bool
  op : Nat
  atEntry : Bool
  /-- The resume point lies in a convoy (R63). -/
  inConvoy : Bool
  mshape : Word
  mfail : MatFail
  stamp : Nat
  batch : Option (Nat × List Nat)
  acts : List Act
  deriving DecidableEq, Repr

/-- What the save engine keeps of a saved gang in its private parts (R339, R428). -/
structure SavedWork where
  harts : List SavedHart := []
  copies : List CopyCmd := []
  fails : List TileFail := []
  mats : List MatCmd := []
  fabric : Option Fabric := none
  /-- When the private bytes were written: what they were written with is drawn from it (log 16). -/
  tick : Nat := 0
  deriving DecidableEq, Repr, Inhabited

end Sys2Proof.Machine

namespace Sys2Proof.Config

/-- The undefined state that a restore takes up from private parts that were changed (R428; log 16), by the tick of the restore. -/
opaque privateWork : Nat → Machine.SavedWork

end Sys2Proof.Config

namespace Sys2Proof.Machine

/-- A gang with its grant (R134 to R137), and the record, chunk or instance it runs. -/
structure Gang where
  id : Nat
  post : Post
  chunkLo : Nat := 0
  chunkHi : Nat := 0
  ctx : Nat
  queue : Nat
  prio : Nat
  size : Nat
  first : Nat
  slot0 : Nat
  slots : Nat
  bar0 : Nat
  bars : Nat
  acc0 : Nat
  accs : Nat
  fab : Bool
  parent : Word
  ranged : Bool
  /-- When it was bound; the oldest has the least (R140). -/
  order : Nat
  state : GangState := .running
  saveArea : Nat := 0
  saved : SavedWork := {}
  /-- The gang has ended and its grant is released: what its completion has still to do, its harts occupied till then (R132, R138). -/
  ending : Option (List Act) := none
  deriving DecidableEq, Repr

/-! ## One core -/

/-- A dirty line of the scalar data cache: what its home held before the core's stores (R82, R97). -/
structure DirtyLine where
  core : Nat
  line : Nat
  home : List Byte
  deriving DecidableEq, Repr

/-- A line of type 3 or 5 that a scalar cache holds, with the bytes its core has stored (R82, R210, R211). -/
structure HeldLine where
  core : Nat
  line : Nat
  /-- The line belongs to the decompressing aperture. -/
  aperture : Bool
  bytes : List Byte
  dirty : List Bool
  deriving DecidableEq, Repr

structure Core where
  barAge : Word := 0x01000000#64
  ageLim : Word := 0xFFFFF#64
  bars : SMap Barrier := []
  credits : List Credit := []
  /-- a0 to a7: entry (m, n) of accumulator k at k × 8,192 + 64 m + n (R235). -/
  acc : SMap (BitVec 32) := []
  /-- Layout tag of each slot (R185). -/
  lay : SMap Nat := []
  slotCtx : SMap (Option Nat) := []
  accCtx : SMap (Option Nat) := []
  copies : List CopyCmd := []
  tileFails : List TileFail := []
  mats : List MatCmd := []
  /-- Harts stalled on the full matrix queue, in the order in which they stalled (R241). -/
  matStall : List Nat := []
  fab : Fabric := {}
  /-- The 64 range entries, four words each (R180). -/
  ranges : SMap Word := []
  layMis : Word := 0
  /-- PREEMPT.HART as last written (R329). -/
  preHart : Nat := 0
  /-- Records posted and not yet in the ring: the queue of 16 (R326). -/
  records : List FaultRec := []
  /-- Records of masters that wait for a free entry of it (R326). -/
  unposted : List FaultRec := []
  gangs : SMap (Option Gang) := []
  deriving DecidableEq, Repr

def Core.reset : Core := {}

/-! ## Queues and the scheduler (06_tasks R131 to R141) -/

/-- A hardware queue: its registers, what stands behind each ring entry, and its place in selection. -/
structure Queue where
  qbase : Word := 0
  en : Bool := false
  careful : Bool := false
  ctx : Nat := 0
  size : Nat := 6
  reserve : Nat := 0
  qwr : Nat := 0
  qrd : Nat := 0
  /-- Posts behind the ring entries, by entry number (R144). -/
  info : SMap (Option Post) := []
  /-- Reissued records and chunks, ahead of the ring (R141). -/
  front : List Post := []
  /-- Next chunk of the ring's head, where it is ranged (R135). -/
  chunk : Nat := 0
  promoted : Nat := 0
  lastServe : Nat := 0
  headSince : Nat := 0
  deriving DecidableEq, Repr

/-- A post held because its ring is full, with its place in the order in which posts were held (R132). -/
structure HeldPost where
  queue : Nat
  post : Post
  order : Nat
  deriving DecidableEq, Repr

structure Sched where
  queues : SMap Queue := []
  /-- Queue last served at each level (R133). -/
  lastAt : SMap Nat := []
  qage : Word := 100
  /-- When the master was last elected: promotions restarted (R141). -/
  elected : Nat := 0
  deriving DecidableEq, Repr

/-! ## One die (06 R131, 08 R193, 16 R325, 18 R350) -/

/-- An access count of the hot-page tracker: 2 MiB region, accessing die, accesses, and the leaf last recorded (R193). -/
structure HotCount where
  region : Nat
  die : Nat
  count : Nat
  level : Nat
  entry : Nat
  leaf : Word
  deriving DecidableEq, Repr

/-- A page the tracker has chosen for migration (R194). -/
structure HotPage where
  entry : Nat
  leaf : Word
  toward : Nat
  deriving DecidableEq, Repr

/-- A hart's write that waits at a home on another die, with the clock of the die it left (18, Vector clocks). -/
structure CrossWrite where
  key : Nat
  bytes : List Byte
  hart : Nat
  clock : List Nat
  deriving DecidableEq, Repr

structure Die where
  sven : Bool := true
  svcore : Nat := 0
  svhart : Nat := 0
  held : List HeldPost := []
  frbase : Word := 0
  fren : Bool := false
  frsize : Nat := 6
  frwr : Nat := 0
  frrd : Word := 0
  saveb : Word := 0
  savewr : Nat := 0
  saverd : Nat := 0
  win : Nat := 1000
  thr : Nat := 4096
  trackEn : Bool := false
  freeb : Word := 0
  freewr : Word := 0
  freerd : Nat := 0
  doneb : Word := 0
  donewr : Nat := 0
  donerd : Word := 0
  windowAt : Nat := 0
  counts : List HotCount := []
  candidates : List HotPage := []
  hpskip : Word := 0
  fenced : Bool := false
  fcause : Nat := 0
  linkErr : Word := 0
  /-- Failed replays of the flit under way on the links to die d + 1, d + 3 and the I/O die (R349). -/
  linkFails : List Nat := [0, 0, 0]
  /-- Links declared down since reset. -/
  linkDown : List Bool := [false, false, false]
  /-- Cross-die writes of each die known to be performed; writes this die has sent; writes that wait at its homes. -/
  clock : List Nat := [0, 0, 0, 0]
  sent : Nat := 0
  pending : List CrossWrite := []
  /-- Records of agents outside the cores: the queue of 16, and those that wait for it (R326). -/
  records : List FaultRec := []
  unposted : List FaultRec := []
  deriving DecidableEq, Repr

def Die.reset : Die := {}

/-! ## Collectives (19, 20) -/

/-- A buffer of an instance, translated at acceptance (R368, R369). -/
structure Buf where
  land : Bool
  core : Nat := 0
  slot : Nat := 0
  cnt : Nat := 0
  lay : Nat := 0
  /-- First byte within its page, and the pages' physical addresses. -/
  offset : Nat := 0
  pages : List Nat := []
  parts : Nat
  bytes : Nat
  deriving DecidableEq, Repr

inductive InstKind
  | program | repartition | rotation
  deriving DecidableEq, Repr

/-- One open loop of a program: the word after LOOP, the count, and L (R361, R362). -/
structure Loop where
  start : Nat
  count : Nat
  l : Nat
  deriving DecidableEq, Repr

/-- A step of a derived schedule: its word, L, and the region of buffer 0 it acts in (R389). -/
structure DStep where
  word : Nat
  l : Nat
  off : Nat
  len : Nat
  deriving DecidableEq, Repr

/-- A reserved set of a rotation (R399, R400). -/
structure RotSet where
  /-- The step whose block the set holds; none while released. -/
  block : Option Nat := none
  reads : Nat := 0
  /-- The command number at the landing, below which matrix instructions do not count. -/
  since : Nat := 0
  forwarded : Bool := false
  deriving DecidableEq, Repr

/-- A rotation at this rank (R398 to R403). -/
structure Rotation where
  core : Nat
  gang : Option Nat
  inst : Nat
  /-- Group ranks of the ring by relative rank, and ME's relative rank. -/
  ring : List Nat
  rho : Nat
  bcnt : Nat
  readsN : Nat
  own : Buf
  rslot : Nat
  seen : List Nat
  res : Buf
  sets : List RotSet
  /-- Steps landed or passed on by SEEN; blocks sent; credits held from downstream. -/
  landed : Nat := 0
  sent : Nat := 0
  credits : Nat := 0
  /-- Blocks to forward that were not landed, by step (R402). -/
  pass : List (Nat × List Chunk) := []
  /-- A member of the ring was lost (R403). -/
  ended : Bool := false
  /-- Counts of R403 by relative rank. -/
  progress : SMap (Option Nat) := []
  told : Bool := false
  deriving DecidableEq, Repr

/-- A repartition at this rank (R392 to R397). Lists of members are group ranks in ascending order. -/
structure Repart where
  rsz : Nat
  offs : List Nat
  input : Buf
  out : Buf
  ovf : Buf
  res : Buf
  /-- G, as it stands. -/
  members : List Nat
  /-- Contributions gathered while this rank is the root of the agreement, by group rank. -/
  boxes : SMap (List Nat) := []
  hists : SMap (List Nat) := []
  /-- The root that this rank's box and histogram went to. -/
  boxTo : Option Nat := none
  histTo : Option Nat := none
  /-- The agreed box: lo and hi of x, y and z. -/
  box : Option (List Nat) := none
  hist : Option (List Nat) := none
  counts : SMap (Option Nat) := []
  quotas : SMap (Option Nat) := []
  recv : SMap (Option (List Chunk)) := []
  /-- The root under which this rank, holding the box or the histogram, has passed it on (R397). -/
  boxSent : Option Nat := none
  histSent : Option Nat := none
  countsSent : Bool := false
  quotasSent : Bool := false
  /-- Owners that have been sent their records. -/
  recsTo : List Nat := []
  /-- IN, as the engine reads it once when the exchange begins (R395, log 39). -/
  read : Option (List Chunk) := none
  deriving DecidableEq, Repr

/-- A running instance at this rank (R368 to R374). -/
structure Inst where
  num : Nat
  kind : InstKind
  /-- The call block, and the instruction that started it. -/
  call : Word
  hart : Nat
  pc : Word
  /-- The gang whose grant it names (R138). -/
  gang : Option Nat
  bar : Option Nat
  log : Bool := false
  entry : Nat := 0
  derived : Option (List DStep) := none
  /-- The next step word. -/
  next : Nat := 0
  loops : List Loop := []
  bufs : List (Option Buf) := []
  peers : List Nat := []
  /-- Receivers of messages not yet acknowledged (R363 WAIT). -/
  unacked : List Nat := []
  /-- The step under way has begun; what an XCHG or SQRED has still to send and to receive. -/
  begun : Bool := false
  /-- Its fault for a buffer on a fenced die is posted (R386). -/
  fencedStep : Bool := false
  todo : List Nat := []
  waiting : List Nat := []
  partial' : Bool := false
  excl : Bool := false
  poison : Bool := false
  nan : Option Nat := none
  memb : Bool := false
  aborted : Bool := false
  fault : Bool := false
  logFull : Bool := false
  /-- DETAIL0 of a step fault not yet trapped (R374). -/
  report : Option Word := none
  /-- Group ranks whose contributor bit clears and whose poison bit sets at completion (R382, R384). -/
  gone : List Nat := []
  poisoned : List Nat := []
  /-- Peers told of an abort (R373). -/
  toldPeers : List Nat := []
  /-- The root that the contributions of the SQRED under way went to (R380, R383). -/
  sqRoot : Option Nat := none
  rep : Option Repart := none
  deriving DecidableEq, Repr

/-- The last completed instance: its status word and an unreported step fault (R372, R374). -/
structure Done where
  num : Nat
  status : Word
  report : Option Word
  deriving DecidableEq, Repr

/-- A join of this package as a spare (R388). -/
structure Join where
  ctx : Nat
  gid : Nat
  /-- The registration context kept for it. -/
  slot : Nat
  donor : Nat
  enter : Bool
  log : Bool
  lsz : Nat
  pages : List Nat
  hart : Nat
  /-- The donor's table has come; the notices are sent. -/
  fetched : Bool := false
  /-- RANKs whose acknowledgement is still to come. -/
  waiting : List Nat := []
  /-- The donor's values after its `cshrink`: SIZE, GEN, NEXT, and the table. -/
  final : Option (List Nat) := none
  table : List (Nat × Bool) := []
  fault : Bool := false
  done : Bool := false
  deriving DecidableEq, Repr

/-- A `cshrink`: GEN, ME and NEXT before it, and the old ranks that stayed, in order (R385). -/
structure Shrink where
  gen : Nat
  me : Nat
  next : Nat
  kept : List Nat
  deriving DecidableEq, Repr

/-- A rotation that has come to its end at this rank: its ring and the count of landed blocks (R403). -/
structure RotEnd where
  inst : Nat
  ring : List Nat
  landed : Nat
  deriving DecidableEq, Repr

/-- A group registered in a context (R357 to R359). -/
structure Reg where
  ctx : Nat
  gid : Nat
  log : Bool
  size : Nat
  me : Nat
  gen : Nat
  /-- Subgroups: (STR, SPAN). -/
  subs : List (Option (Nat × Nat))
  lsz : Nat
  pages : List Nat
  next : Nat := 0
  /-- RANK and LIVE of each member. -/
  table : List (Nat × Bool)
  /-- A loss or join awaits `cshrink` (R383, R388). -/
  pending : Bool := false
  /-- Joiners' RANKs, and for each whether this rank is its donor with TAIL at the fetch. -/
  joiners : List (Nat × Option Nat) := []
  inst : Option Inst := none
  last : Option Done := none
  rot : Option Rotation := none
  /-- Released under R386 while its instance ends. -/
  released : Bool := false
  /-- Messages taken for the running and the next two instances, oldest first (R364, R370). -/
  early : List Msg := []
  /-- Peers that aborted an instance: (instance, group rank) (R373). -/
  aborts : List (Nat × Nat) := []
  logFirst : Nat := 0
  logCount : Nat := 0
  logTail : Nat := 0
  logFull : Bool := false
  /-- COUNT and TAIL of the log where the running instance began (R388). -/
  logBase : Nat × Nat := (0, 0)
  /-- What each `cshrink` changed, the latest first (R385, R404). -/
  past : List Shrink := []
  /-- Rotations complete at this rank that may not be at others (R403). -/
  rots : List RotEnd := []
  deriving DecidableEq, Repr

/-- The key of a Square slot (R380). -/
structure SqKey where
  gid : Nat
  gen : Nat
  inst : Nat
  step : Nat
  chunk : Nat
  base : Nat
  deriving DecidableEq, Repr

/-- A slot of the Square (R380 to R382). Ranks are group ranks. -/
structure SqSlot where
  key : SqKey
  red : Nat
  len : Nat
  /-- The combined contributions, none poisoned; and the first poisoned one. -/
  acc : Option (List Byte)
  marked : Option (List Byte)
  /-- Every member of the scope, and those expected with the package RANK of each. -/
  scope : List Nat
  expected : List (Nat × Nat)
  arrived : List Nat
  poisoned : List Nat
  nan : Option Nat
  since : Nat
  deriving DecidableEq, Repr

structure Coll where
  /-- The program store (R366). -/
  store : SMap Nat := []
  /-- The 256 registration contexts (R359). -/
  regs : SMap (Option Reg) := []
  joins : List Join := []
  /-- Messages to registrations of this package, not yet handled (R404). -/
  loop : List Msg := []
  /-- Messages back-pressured, oldest first (R370, R380, R404). -/
  held : List Msg := []
  /-- Messages that came before others of their sender (R379). -/
  reorder : List Msg := []
  /-- Numbers of messages sent to and handled from each RANK (R379). -/
  sentTo : SMap Nat := []
  gotFrom : SMap Nat := []
  /-- Messages whose route entry lies on a stack that is not ready, oldest first (R416). -/
  unsent : List Msg := []
  /-- Numbers of messages that a forwarding package dropped, for a destination without a route to tell it by (R379). -/
  skips : List (Nat × Nat) := []
  lost : List Nat := []
  /-- The Square: its 256 slots, and ranks that completed slots did not wait for (R380 to R382). -/
  slots : SMap (Option SqSlot) := []
  late : List (SqKey × List Nat) := []
  routeb : Word := 0
  sqLate : Word := 0
  sqPart : Word := 0
  stale : Word := 0
  portDown : List Nat := []
  portErr : Word := 0
  portFails : SMap Nat := []
  fwDrop : Word := 0
  sqTime : Word := 2000
  rank : Nat := 0
  deriving DecidableEq, Repr

/-! ## The host interface (22) -/

structure Ring where
  hbase : Word := 0
  en : Bool := false
  ovr : Bool := false
  ctx : Nat := 0
  rsize : Nat := 4
  wr : Nat := 0
  rd : Nat := 0
  /-- Its DMA commands are frozen by a protection violation (R420). -/
  frozen : Bool := false
  deriving DecidableEq, Repr

/-- A host DMA command (R420). -/
structure Dma where
  id : Nat
  ring : Nat
  ctx : Nat
  src : Word
  dst : Word
  len : Nat
  toHost : Bool
  postrec : Word
  cmpl : Word
  irq : Bool
  moved : Nat := 0
  stop : Option Stop := none
  /-- The one kind 7 record of the command is posted (R334). -/
  poisoned : Bool := false
  deriving DecidableEq, Repr

/-- A post of the host that has still something to do: its ring, its name, and its entry's completion (R132, R419, R420). -/
structure HostPost where
  ring : Nat
  id : Nat
  cmpl : Nat
  irq : Bool
  acts : List Act
  deriving DecidableEq, Repr

structure HostBlk where
  link : Bool := false
  mgmt : Bool := false
  recov : Bool := false
  sq : Bool := false
  ports : Word := 0
  diesUp : Word := 0
  hbm : Word := 0
  coreRdy : SMap Word := []
  b2base : Word := 0
  svdb : Word := 0
  hostErr : Word := 0
  bar2Size : Nat := 68719476736
  rings : SMap Ring := []
  dmas : List Dma := []
  posts : List HostPost := []
  /-- Soft-repair lists by stack (R421), kept over resets. -/
  repairs : SMap (List Word) := []
  pprcnt : SMap Nat := []
  powerCap : Nat := 2000
  /-- The firmware image that ROM loads, one that FWSTAGE has staged for the next reset, and the digest of the one that runs (R421, R422). -/
  image : List Byte := []
  staged : Option (List Byte) := none
  measured : BitVec 256 := 0
  throttled : Bool := false
  test : Bool := false
  deriving DecidableEq, Repr

/-! ## The package -/

/-- What a part fixes (R1, R172, R350, R378): its capability registers. No step changes it. -/
structure Part where
  coreMask : List Nat
  present : List Bool
  links : List Bool
  hbmTop : Nat
  hbmChan : List Word
  portPres : Nat
  /-- The fused rollback counter (R422). -/
  rollback : BitVec 64
  deriving DecidableEq, Repr

/-- A fully enabled part (R1). -/
def Part.full : Part :=
  { coreMask := [0xFFFFFFFFFFFF, 0xFFFFFFFFFFFF, 0xFFFFFFFFFFFF, 0xFFFFFFFFFFFF]
    present := [true, true, true, true]
    links := [true, true, true]
    hbmTop := 0x8000000000
    hbmChan := [0xFFFFFFFFFFFFFFFF#64, 0xFFFFFFFFFFFFFFFF#64, 0xFFFFFFFFFFFFFFFF#64, 0xFFFFFFFFFFFFFFFF#64]
    portPres := 0xFFFF
    rollback := 0 }

/-- The counts of the clocks and of the steps (R14; `tick` is the model's own, log 8). -/
structure Clock where
  cycle : Nat := 0
  time : Nat := 0
  tick : Nat := 0
  deriving DecidableEq, Repr

/-- Memory and what lies between it and the agents (08, 16 R334). -/
structure Mem where
  cells : Memory := []
  /-- Poisoned 16-byte words by number (R334). -/
  poison : SMap Bool := []
  /-- What the TLBs hold: TLB, context, level and index of the address to the entry's value (R182). -/
  tlb : SMap Nat := []
  dirty : List DirtyLine := []
  lines : List HeldLine := []
  ctxBase : Word := 0
  ctxEn : Bool := false
  /-- The compressed-region table, four words each (R189). -/
  crt : SMap Word := []
  deriving DecidableEq, Repr

/-- What leaves the package: messages, and MSI-X vectors (R413). -/
inductive Output
  /-- A message, and the port that it leaves on (R376, R379). -/
  | msg (port : Nat) (m : Msg)
  | msix (vector : Nat)
  /-- The data of a host read through BAR2 (R414). -/
  | data (bytes : List Byte)
  deriving DecidableEq, Repr

/-- A step that an agent inside the package makes of itself: the rows of the opcode table that are no words and that no one outside
brings about, each under its own name. -/
inductive Event
  | queueServe
  | queuePromotion (q : Nat)
  | distributorPreempt (q : Nat)
  | heldPostEntry (die : Nat)
  | gangComplete (core : Nat) (gang : Nat)
  | engineCredit (core : Nat)
  | barrierAgeExpiry (hart : Nat)
  | copyChunkDone (core : Nat) (hart : Nat)
  | transferPage (core : Nat) (hart : Nat)
  | protect (core : Nat) (hart : Nat)
  | matrixExecute (core : Nat) (index : Nat)
  | configPeriod (core : Nat)
  | contextFire (core : Nat) (ctx : Nat)
  | inputPortEmit (core : Nat) (port : Nat)
  | outputPortCommit (core : Nat) (port : Nat)
  | reweight (core : Nat) (node : Nat)
  | blockedEdge (core : Nat) (chan : Nat)
  | faultRecordEntry (die : Nat) (queue : Nat)
  | preemptSave (core : Nat) (gang : Nat)
  | gangRestore (core : Nat) (gang : Nat)
  | hotpageWindow (die : Nat)
  | pageMigration (die : Nat)
  | crossDieWriteApply (die : Nat)
  | linkDown (link : Nat)
  | portDown (port : Nat)
  | collectiveStep (reg : Nat)
  | messageArrival (msg : Msg)
  | messageForward (msg : Msg)
  | squareContribution (msg : Msg)
  | abortNoticeArrival (msg : Msg)
  | joinNoticeArrival (msg : Msg)
  | rotationLanding (msg : Msg)
  | squareTimeout (slot : Nat)
  | repartitionExchange (reg : Nat)
  | setRelease (set : Nat)
  | post (ring : Nat)
  | copy (ring : Nat)
  | ident (ring : Nat)
  | setrank (ring : Nat)
  | mgmtFence (ring : Nat)
  | mgmtRepair (ring : Nat)
  | replist (ring : Nat)
  | attest (ring : Nat)
  | fwstage (ring : Nat)
  | powercap (ring : Nat)
  | test (ring : Nat)
  | mgmtReset (ring : Nat)
  | telem (ring : Nat)
  | hostDmaFault (cmd : Nat)
  | hostDmaComplete (cmd : Nat)
  deriving DecidableEq, Repr

/-- Who makes the next step (log 8). -/
inductive Turn
  | hart (h : Nat)
  | event (e : Event)
  | input
  | idle
  deriving DecidableEq, Repr

/-- One FS-6400 package. -/
structure State where
  part : Part
  clock : Clock
  turn : Turn
  /-- What the outside will do, in order (log 8). -/
  inputs : List Instr
  /-- The hart a step acts for. -/
  cur : Nat
  mem : Mem
  harts : SMap Hart
  cores : SMap Core
  dies : SMap Die
  sched : Sched
  coll : Coll
  host : HostBlk
  /-- Names for gangs and commands, in the order they are made. -/
  uid : Nat
  /-- The package has shut down (R425). -/
  off : Bool
  outputs : List Output
  deriving DecidableEq, Repr

/-- Why the machine stops with a fault. -/
inductive Fault
  /-- Raised by `step` once a thermal shutdown has taken the link down (R425): nothing in the package runs. Safe. -/
  | shutDown
  deriving DecidableEq, Repr

/-- Why the machine has no meaning for a step. -/
inductive Refusal
  /-- Raised by `exec` for an instruction without a meaning. Safe. -/
  | notModelled (mnemonic : String)
  deriving DecidableEq, Repr

/-- The machine right after package reset (R7, R11, R422): every register at its reset value, memory with nothing written, no unit yet
brought up, and nothing to run. -/
def State.reset : State :=
  { part := Part.full
    clock := {}
    turn := .idle
    inputs := []
    cur := 0
    mem := {}
    harts := []
    cores := []
    dies := []
    sched := {}
    coll := {}
    host := {}
    uid := 0
    off := false
    outputs := [] }

end Sys2Proof.Machine
end

