-- ==== Sys2Proof/Machine/Ops.lean ====
section
/-! DEFINITION. Named operations over registers and harts, and the taking of a trap, a freeze, an interrupt and the return (16
R321 to R323, R336; 04 R93). -/

namespace Sys2Proof.Machine

/-- What every meaning answers. -/
abbrev Result := Host.Outcome State Fault Refusal

/-! ## Numbers of harts, cores and dies -/

def dieOfCore (c : Nat) : Nat := c / 64
def coreIndex (c : Nat) : Nat := c % 64
def coreOfHart (h : Nat) : Nat := h / 8
def dieOfHart (h : Nat) : Nat := h / 512
def hartIndex (h : Nat) : Nat := h % 8
def coreOf (die core : Nat) : Nat := die * 64 + core

/-- A core that exists on the part and is usable (R350, R351). -/
def Part.hasCore (p : Part) (c : Nat) : Bool :=
  dieOfCore c < 4 && p.present.getD (dieOfCore c) false && (p.coreMask.getD (dieOfCore c) 0).testBit (coreIndex c)
    && coreIndex c < 48

/-- A set bit of a register. -/
def bit (w : Word) (k : Nat) : Bool := w.getLsbD k

/-- Bits [hi:lo] of a register as a number (R5). -/
def field (w : Word) (hi lo : Nat) : Nat := bits w.toNat hi lo

/-- A number as a register value. -/
def word (n : Nat) : Word := BitVec.ofNat 64 n

/-- The address that a field of bits [56:k] names (R168). -/
def sext57 (w : Word) : Word := (w.setWidth 57).signExtend 64

/-- Bits [63:57] equal bit 56 (R72, R168). -/
def canonical (w : Word) : Bool := sext57 w = w

/-- The field [56:k] that holds an address. -/
def addrField (k : Nat) (w : Word) : Word := word (w.toNat % 2 ^ 57 / 2 ^ k * 2 ^ k)

/-! ## Parts of the state by number -/

def State.hartAt (s : State) (n : Nat) : Hart := SMap.get Hart.reset s.harts n
def State.setHartAt (s : State) (n : Nat) (h : Hart) : State := { s with harts := SMap.set Hart.reset s.harts n h }
def State.onHartAt (s : State) (n : Nat) (f : Hart → Hart) : State := s.setHartAt n (f (s.hartAt n))

/-- The hart the step acts for. -/
def State.hart (s : State) : Hart := s.hartAt s.cur
def State.onHart (s : State) (f : Hart → Hart) : State := s.onHartAt s.cur f

def State.coreAt (s : State) (n : Nat) : Core := SMap.get Core.reset s.cores n
def State.onCoreAt (s : State) (n : Nat) (f : Core → Core) : State :=
  { s with cores := SMap.set Core.reset s.cores n (f (s.coreAt n)) }

/-- The core of the hart the step acts for. -/
def State.coreNum (s : State) : Nat := coreOfHart s.cur
def State.core (s : State) : Core := s.coreAt s.coreNum
def State.onCore (s : State) (f : Core → Core) : State := s.onCoreAt s.coreNum f

def State.dieAt (s : State) (n : Nat) : Die := SMap.get Die.reset s.dies n
def State.onDieAt (s : State) (n : Nat) (f : Die → Die) : State :=
  { s with dies := SMap.set Die.reset s.dies n (f (s.dieAt n)) }

/-- A die is live: present and not fenced (R131, R351, R352). -/
def State.live (s : State) (die : Nat) : Bool := die < 4 && s.part.present.getD die false && !(s.dieAt die).fenced

/-- The master distributor's die: the lowest live one (R141). -/
def State.master (s : State) : Nat := ((List.range 4).find? s.live).getD 0

/-- A fresh name for a gang or a command. -/
def State.fresh (s : State) : Nat × State := (s.uid, { s with uid := s.uid + 1 })

/-! ## Registers of a hart -/

/-- A scalar register; s0 reads as zero (R7). -/
def Hart.sreg (h : Hart) (r : SReg) : Word := if r = 0 then 0 else SMap.get 0 h.s r.toNat

/-- A scalar register written; a write to s0 is discarded (R7, R71). A write ends a register's parity error (log 44). -/
def Hart.setS (h : Hart) (r : SReg) (x : Word) : Hart :=
  if r = 0 then h else { h with s := SMap.set 0 h.s r.toNat x, sParity := h.sParity.filter (· ≠ r.toNat) }

def Hart.vreg (h : Hart) (r : Nat) : VWord := SMap.get 0 h.v r
def Hart.setV (h : Hart) (r : Nat) (x : VWord) : Hart := { h with v := SMap.set 0 h.v r x }

/-- Lanes of width w of a vector register have been written: a slice of 256 bits whose lanes they all are holds no parity error any more, nor the
XOR slice where they are all the register's (R335; log 44). -/
def Hart.refill (h : Hart) (r w : Nat) (ks : List Nat) : Hart :=
  let whole := fun (k : Nat) => (List.range (256 / w)).all (fun j => ks.contains (k * (256 / w) + j))
  if h.vParity = [] then h
  else { h with vParity := h.vParity.filter (fun p => !(p.1 = r && (if p.2 < 8 then whole p.2 else (List.range 8).all whole))) }

def Hart.tag (h : Hart) (r : Nat) : Tag := SMap.get .untyped h.tags r
def Hart.setTag (h : Hart) (r : Nat) (t : Tag) : Hart := { h with tags := SMap.set .untyped h.tags r t }

def Hart.preg (h : Hart) (r : PReg) : PWord := SMap.get 0 h.p r.toNat
def Hart.setP (h : Hart) (r : PReg) (x : PWord) : Hart := 
  { h with p := SMap.set 0 h.p r.toNat x, pParity := h.pParity.filter (· ≠ r.toNat) }

/-! ## MODE, VL and STATUS (R15, R17, R23) -/

def Hart.guard (h : Hart) : Nat := field h.mode 5 0
def Hart.pol (h : Hart) : Bool := bit h.mode 6
def Hart.sat (h : Hart) : Bool := bit h.mode 11
def Hart.ftz (h : Hart) : Bool := bit h.mode 12

/-- MODE.RND (R15); codes 5 to 7 are never written (R12). -/
def Hart.rnd (h : Hart) : Rnd :=
  match field h.mode 10 8 with
  | 1 => .rtz | 2 => .rdn | 3 => .rup | 4 => .rna | _ => .rne

/-- The arithmetic settings of MODE. -/
def Hart.arith (h : Hart) : Arith := ⟨h.rnd, h.sat, h.ftz⟩

/-- VL.VL, the elements of a row (R17). -/
def Hart.vlen (h : Hart) : Nat := field h.vl 9 0
/-- VL.VW, the width code (R17). -/
def Hart.vwCode (h : Hart) : Nat := field h.vl 13 12
/-- The element width VW gives an untyped register (R17, R98). -/
def Hart.vwBits (h : Hart) : Nat := 4 * 2 ^ h.vwCode

/-- VL from its fields (R11). -/
def mkVL (vw vl : Nat) : Word := word (vw * 4096 + vl)

def Hart.sup (h : Hart) : Bool := bit h.status 0
def Hart.ie (h : Hart) : Bool := bit h.status 1
def Hart.careful (h : Hart) : Bool := bit h.status 2

/-- Raised flags are sticky (R21). -/
def Hart.raise (h : Hart) (f : FFlags) : Hart := { h with fflags := h.fflags ||| f.setWidth 64 }

/-! ## Ending an instruction -/

/-- CONVOY with ACTIVE, REM and POS (R19). -/
def mkConvoy (rem pos : Nat) : Word := word (32768 + rem * 16 + pos)

/-- The rest of a convoy once its present instruction is complete; the last one's completion clears CONVOY (R19). -/
def Hart.convNext (h : Hart) : Hart :=
  match h.conv with
  | none => h
  | some c =>
    if c.rem ≤ 1 then { h with conv := none, convoy := 0 }
    else { h with conv := some ⟨c.rem - 1, c.pos + 1, c.words.drop 1⟩, convoy := mkConvoy (c.rem - 1) (c.pos + 1) }

/-- The instruction is complete and the next word follows (R60). -/
def Hart.advance (h : Hart) : Hart := { h.convNext with pc := h.pc + 4, atEntry := false, block := none }

/-- The instruction is complete and control goes to an address; a convoy ends there (R87). -/
def Hart.goto (h : Hart) (pc : Word) : Hart :=
  let h' := match h.conv with
    | none => h
    | some _ => { h with conv := none, convoy := 0 }
  { h' with pc := pc, atEntry := false, block := none }

/-- A meaning that changes only the acting hart and goes on to the next word. -/
def finishHart (s : State) (f : Hart → Hart) : Result := .next (s.onHart (fun h => (f h).advance))

/-- s[d] receives a value and the hart goes on (R71). -/
def finishS (s : State) (d : SReg) (x : Word) : Result := finishHart s (fun h => h.setS d x)

/-! ## Fault records (R326, R327) -/

/-- Records that wait join their queue of 16 while it has free entries, each with the time at which it is posted (R326). -/
def fillQueue (now : Nat) : List FaultRec → List FaultRec → List FaultRec × List FaultRec
  | queue, [] => (queue, [])
  | queue, r :: rest => if queue.length < 16 then fillQueue now (queue ++ [{ r with time := now }]) rest else (queue, r :: rest)

/-- A core's records as far as they have room, with another that waits. -/
def Core.addRecord (now : Nat) (r : List FaultRec) (c : Core) : Core :=
  let q := fillQueue now c.records (c.unposted ++ r)
  { c with records := q.1, unposted := q.2 }

/-- A die's likewise. -/
def Die.addRecord (now : Nat) (r : List FaultRec) (d : Die) : Die :=
  let q := fillQueue now d.records (d.unposted ++ r)
  { d with records := q.1, unposted := q.2 }

/-- A record joins its core's queue, with the time of posting. -/
def postRecord (s : State) (r : FaultRec) : State := s.onCoreAt r.core (Core.addRecord s.clock.time [r])

/-- A record of an agent outside the cores joins its die's queue. -/
def postDieRecord (s : State) (die : Nat) (r : FaultRec) : State :=
  s.onDieAt die (Die.addRecord s.clock.time [{ r with core := coreOf die 63 }])

/-- Whether a core's queue of 16 has a free entry (R326). -/
def State.recordRoom (s : State) (core : Nat) : Bool := (s.coreAt core).records.length < 16

/-- Whether the queue of a die's outside agents has a free entry (R326). -/
def State.dieRecordRoom (s : State) (die : Nat) : Bool := (s.dieAt die).records.length < 16

/-! ## Traps (R321) -/

/-- A synchronous trap: cause, TRAPVAL, TRAPVEC (R58, R321). -/
structure Trap where
  cause : Nat
  val : Word := 0
  vec : Word := 0
  deriving DecidableEq, Repr

def cIllegal : Nat := 0x01
def cConvoy : Nat := 0x02
def cTag : Nat := 0x03
def cMisaligned : Nat := 0x04
def cPage : Nat := 0x05
def cProtection : Nat := 0x06
def cModRange : Nat := 0x07
def cBreak : Nat := 0x08
def cSyscall : Nat := 0x09
def cBarrierAge : Nat := 0x0A
def cBlockedEdge : Nat := 0x0B
def cFabric : Nat := 0x0C
def cMatrix : Nat := 0x0D
def cPrivilege : Nat := 0x0F
def cMachine : Nat := 0x10
def cCollective : Nat := 0x12

/-- STATUS at a trap or interrupt entry: PSUP := SUP, PIE := IE, SUP := 1, IE := 0 (R23). -/
def statusEnter (w : Word) : Word :=
  word (w.toNat / 32 * 32 + (if bit w 1 then 16 else 0) + (if bit w 0 then 8 else 0) + (if bit w 2 then 4 else 0) + 1)

/-- STATUS after `eret`: SUP := PSUP, IE := PIE (R93). -/
def statusReturn (w : Word) : Word :=
  word (w.toNat / 4 * 4 + (if bit w 4 then 2 else 0) + (if bit w 3 then 1 else 0))

/-- CONVOY as a trap leaves it: the rest of a convoy of two or more words, past its header, else 0 (R321). -/
def Hart.trapConvoy (h : Hart) : Word :=
  match h.conv with
  | none => 0
  | some c => if c.pos + c.rem < 2 then 0 else mkConvoy c.rem c.pos

/-- The delivery of a trap on a hart whose TRAPBASE is set (R321). -/
def Hart.deliver (h : Hart) (t : Trap) : Hart :=
  { h with
    trapCause := word t.cause
    trapPc := addrField 2 h.pc
    trapVal := t.val
    trapVec := t.vec
    convoy := h.trapConvoy
    conv := none
    status := statusEnter h.status
    pc := sext57 h.trapBase + word (t.cause * 64)
    atEntry := true
    block := none }

/-- A hart freezes: it executes nothing more, and a record of kind 8 is posted (R327, R336). -/
def freeze (n : Nat) (reason cause reg : Nat) (s : State) : State :=
  let h := s.hartAt n
  let s := s.onHartAt n (fun h => { h with run := .frozen, block := none })
  postRecord s
    { core := coreOfHart n, hart := hartIndex n, master := 0, cause := if reason = 3 then cMachine else cause, kind := 8
      addr := h.pc, ctx := h.ctx, pc := h.pc, d0 := word reason, d1 := word cause, d2 := word reg, frozen := true }

/-- A trap taken on a hart: delivered, or the hart freezes when TRAPBASE is zero or at a trap's entry (R321). -/
def trapOn (n : Nat) (t : Trap) (s : State) : State :=
  let h := s.hartAt n
  if h.trapBase = 0 then freeze n 1 t.cause 0 s
  else if h.atEntry then freeze n 2 t.cause 0 s
  else s.onHartAt n (fun h => h.deliver t)

/-- A trap of the acting hart. -/
def takeTrap (t : Trap) (s : State) : State := trapOn s.cur t s

/-- A meaning that traps. -/
def raiseTrap (s : State) (t : Trap) : Result := .next (takeTrap t s)

/-- ILLEGAL_INSN with the word in TRAPVAL (R56). -/
def raiseIllegal (s : State) (i : Instr) : Result := raiseTrap s ⟨cIllegal, word ((encode i).getD 0), 0⟩

/-- OPERAND_TAG with the word in TRAPVAL (R323). -/
def raiseTag (s : State) (i : Instr) : Result := raiseTrap s ⟨cTag, word ((encode i).getD 0), 0⟩

/-- PRIVILEGE with the word in TRAPVAL (R323). -/
def raisePrivilege (s : State) (i : Instr) : Result := raiseTrap s ⟨cPrivilege, word ((encode i).getD 0), 0⟩

/-- Return from a trap: level, enable and PC, and the rest of an interrupted convoy (R93). -/
def Hart.eret (h : Hart) : Hart :=
  { h with
    status := statusReturn h.status
    pc := sext57 h.trapPc
    conv := if bit h.convoy 15 then some ⟨field h.convoy 8 4, field h.convoy 3 0, []⟩ else none
    atEntry := false
    block := none }

/-! ## Interrupts (R322) -/

/-- The die's supervisor hart, if one is designated (R131). -/
def State.superHart (s : State) (die : Nat) : Option Nat :=
  let d := s.dieAt die
  if d.sven then some (coreOf die d.svcore * 8 + d.svhart) else none

/-- The fault-record interrupt of a die (R322). -/
def State.recordPending (s : State) (die : Nat) : Bool :=
  let d := s.dieAt die
  d.fren && word d.frwr ≠ d.frrd

/-- The host interrupt of a die (R322, R416). -/
def State.hostPending (s : State) (die : Nat) : Bool := bit s.host.svdb die

/-- An interrupt is pending for a hart, whatever IE holds (R94, R322). -/
def State.pendingFor (s : State) (n : Nat) : Bool :=
  s.superHart (dieOfHart n) = some n && (s.recordPending (dieOfHart n) || s.hostPending (dieOfHart n))

/-- Whether a hart stands between two convoys: an instruction that waits is inside its own, but for `wfi` (R94, R322). -/
def Hart.betweenConvoys (h : Hart) : Bool :=
  h.conv.isNone && (match h.block with | some b => b.wait = .wfi | none => true)

/-- A pending interrupt that the hart takes at a convoy boundary (R322). -/
def State.takesInterrupt (s : State) (n : Nat) : Bool :=
  let h := s.hartAt n
  s.pendingFor n && h.ie && h.trapBase ≠ 0 && h.betweenConvoys

/-- Where an interrupted hart goes on: after a `wfi` that it waits in (R94). -/
def Hart.resumePc (h : Hart) : Word := if (h.block.map (·.wait)) = some .wfi then h.pc + 4 else h.pc

/-- Entry of an interrupt: TRAPPC and TRAPVAL, STATUS, PC; TRAPCAUSE and TRAPVEC are kept (R322). -/
def Hart.interrupt (h : Hart) (which : Nat) : Hart :=
  { h with
    trapPc := addrField 2 h.resumePc
    trapVal := word which
    convoy := 0
    conv := none
    status := statusEnter h.status
    pc := sext57 h.trapBase + word 0x800
    atEntry := true
    block := none }

/-! ## Blocking -/

/-- What TRAPVAL reports of a wait that has an age (R152). -/
def Wait.age : Wait → Option Nat
  | .phase b _ _ | .held b _ _ | .init b | .arrival b => some b
  | .engine v => some v
  | .matrix | .wfi | .other => none

/-- The instruction waits: the hart stays at it, and its age counts from its first wait that has one (R152). -/
def blockOn (s : State) (w : Wait) : State :=
  s.onHart (fun h => { h with block := some (match h.block with
    | some b => if b.wait = w then b else { b with wait := w, since := if b.wait.age.isSome then b.since else s.clock.cycle }
    | none => { wait := w, since := s.clock.cycle }) })

/-- A hart that has come to wait keeps its instruction, so that later turns do not fetch it again. -/
def Hart.keepInstr (h : Hart) (i : Instr) : Hart :=
  { h with block := h.block.map (fun b => { b with instr := some (b.instr.getD i) }) }

/-- The hot-page counts as they stood before (R193). -/
def State.withCounts (before s : State) : State :=
  (List.range 4).foldl (fun (s : State) d => s.onDieAt d (fun t => { t with counts := (before.dieAt d).counts })) s

/-- The acting hart has come to wait, or waits on, and its instruction has got no further: the accesses of the turn come again. -/
def State.stillWaits (before s : State) : Bool :=
  s.hart.block.isSome && s.hart.batch = before.hart.batch && s.hart.acts = before.hart.acts

/-- What a meaning answers from a state, with the instruction kept where the acting hart now waits in it. An access counts for the hot-page
tracker in the turn that performs it (R193). -/
def keepInstr (i : Instr) (before : State) : Result → Result
  | .next s =>
    let s := s.onHart (fun h => h.keepInstr i)
    .next (if before.stillWaits s then before.withCounts s else s)
  | .fault f => .fault f
  | .refused r => .refused r

/-- A meaning that waits. -/
def wait (s : State) (w : Wait) : Result := .next (blockOn s w)

end Sys2Proof.Machine
end

