-- ==== Sys2Proof/Machine/Translate.lean ====
section
/-! DEFINITION. The physical map and translation (08_memory_translation R168 to R183): windows, page tables, range entries, TLBs,
permissions and target types. -/

namespace Sys2Proof.Machine

/-- Where a physical address lies (R170). HBM is named by its interleaved address, so both windows name one byte (R171). -/
inductive Place
  | hbm (x : Nat)
  | scratch (core : Nat) (a : Nat)
  | mmio (off : Nat)
  | host (a : Nat)
  | nowhere
  deriving DecidableEq, Repr

def hbmWindow : Nat := 0x8000000000
def localBase : Nat := 0x8000000000
def localSize : Nat := 0x2000000000
def scratchBase : Nat := 0x10000000000
def mmioBase : Nat := 0x20000000000
def hostBase : Nat := 0x8000000000000

/-- The interleaved address of offset y of die d's local window (R171). -/
def interleave (d y : Nat) : Nat := ((y / 4096) * 4 + d) * 4096 + y % 4096

/-- The place of a physical address; HBMTOP bounds both HBM windows (R170 to R172). -/
def Part.place (p : Part) (pa : Nat) : Place :=
  if pa < hbmWindow then (if pa < p.hbmTop then .hbm pa else .nowhere)
  else if pa < scratchBase then
    let d := (pa - localBase) / localSize
    let y := (pa - localBase) % localSize
    if y < p.hbmTop / 4 then .hbm (interleave d y) else .nowhere
  else if pa < scratchBase + 0x40000000 then
    let c := (pa - scratchBase) / 0x400000
    if p.hasCore c then .scratch c pa else .nowhere
  else if mmioBase ≤ pa && pa < mmioBase + 0x100000000 then .mmio (pa - mmioBase)
  else if hostBase ≤ pa && pa < 2 * hostBase then .host pa
  else .nowhere

/-- The die and the stack of an interleaved address (R171). -/
def hbmDie (x : Nat) : Nat := x / 4096 % 4
def hbmStack (x : Nat) : Nat := 2 * hbmDie x + x / 16384 % 2

/-- The part of a range from `lo`, `size` bytes long, that a range of bytes shares with it ends within the first `live` of them. -/
def withinLive (pa n lo size live : Nat) : Bool :=
  min (pa + n) (lo + size) ≤ max pa lo || min (pa + n) (lo + size) ≤ lo + live

/-- Every byte of a range lies in an HBM window and below HBMTOP; a range may run from one window into the next (R170, R172). -/
def Part.backed (p : Part) (pa n : Nat) : Bool :=
  pa + n ≤ scratchBase && withinLive pa n 0 hbmWindow p.hbmTop &&
    (List.range 4).all (fun d => withinLive pa n (localBase + d * localSize) localSize (p.hbmTop / 4))

/-- Every byte of a range lies in the window of its target type, on something present (R169, R177). -/
def Part.inWindow (p : Part) (tt pa n : Nat) : Bool :=
  match tt with
  | 0 => pa + n ≤ p.hbmTop
  | 1 => localBase ≤ pa && p.backed pa n
  | 2 =>
    scratchBase ≤ pa && pa + n ≤ scratchBase + 0x40000000 &&
      ((List.range ((pa + n - 1 - scratchBase) / 0x400000 - (pa - scratchBase) / 0x400000 + 1)).all
        (fun k => p.hasCore ((pa - scratchBase) / 0x400000 + k)))
  | 3 => hostBase ≤ pa && pa + n ≤ 2 * hostBase
  | 4 => mmioBase ≤ pa && pa + n ≤ mmioBase + 0x100000000
  | 5 | 6 => p.backed pa n
  | _ => false

/-- A translation (R169, R176). -/
structure Xlat where
  pa : Nat
  tt : Nat
  r : Bool
  w : Bool
  x : Bool
  u : Bool
  tso : Bool
  /-- Translated by a range entry (R181). -/
  ranged : Bool := false
  /-- Bytes of the page or group of pages that the leaf translates; 0 without a leaf. -/
  size : Nat := 0
  /-- The leaf's level, its physical address and its value (R193). -/
  level : Nat := 0
  entry : Nat := 0
  leaf : Nat := 0
  /-- No translation yet: the walk stands at a table on a stack that is not ready (R416). -/
  held : Bool := false
  deriving DecidableEq, Repr

/-! ## Page-table entries (R176 to R178) -/

def pteV (e : Nat) : Bool := e.testBit 0
def pteLeaf (e : Nat) : Bool := e.testBit 1
def pteR (e : Nat) : Bool := e.testBit 2
def pteW (e : Nat) : Bool := e.testBit 3
def pteX (e : Nat) : Bool := e.testBit 4
def pteU (e : Nat) : Bool := e.testBit 5
def pteTT (e : Nat) : Nat := bits e 8 6
def pteTSO (e : Nat) : Bool := e.testBit 9
def pteMig (e : Nat) : Bool := e.testBit 10
def pteCont (e : Nat) : Bool := e.testBit 11
def ptePA (e : Nat) : Nat := bits e 51 12 * 4096
def ptePin (e : Nat) : Bool := e.testBit 52

/-- Bytes that a leaf of a level translates alone (R175). -/
def pageSize (level : Nat) : Nat := 4096 * 512 ^ level

/-- Bytes of the contiguous group of a level (R178). -/
def groupSize (level : Nat) : Nat := if level = 0 then 65536 else 4294967296

/-- A leaf that breaks no rule of R177 over `n` bytes from its page. -/
def leafOk (p : Part) (level e n : Nat) : Bool :=
  pteV e && pteLeaf e && e / 2 ^ 53 = 0 && level < 3 && ptePA e % pageSize level = 0 && !(pteCont e && level = 1)
    && !(pteW e && !pteR e) && pteTT e ≠ 7 && !(pteTT e = 6 && !ptePin e) && p.inWindow (pteTT e) (ptePA e) n

/-- A valid non-leaf entry: only V and PA, a table in HBM (R176, R177). -/
def tableOk (p : Part) (e : Nat) : Bool :=
  pteV e && e / 2 ^ 53 = 0 && bits e 11 1 = 0 && !ptePin e && p.backed (ptePA e) 4096

/-- The translation that a leaf gives for an address. -/
def leafXlat (level e entry size va : Nat) : Xlat :=
  { pa := ptePA e + va % size, tt := pteTT e, r := pteR e, w := pteW e, x := pteX e, u := pteU e, tso := pteTSO e
    size := size, level := level, entry := entry, leaf := e }

/-! ## Fenced dies and stacks that are not ready -/

/-- The bytes of a key lie on the stacks of a fenced die (R354). -/
def State.onFenced (s : State) (key : Nat) : Bool := key < hbmWindow && (s.dieAt (hbmDie key)).fenced

/-- A stack that the part has: some channel of it is present (R172, R350). -/
def Part.hasStack (p : Part) (j : Nat) : Bool :=
  p.present.getD (j / 2) false && bits (p.hbmChan.getD (j / 2) 0).toNat (32 * (j % 2) + 31) (32 * (j % 2)) ≠ 0

/-- A stack that is present but not ready: its accesses wait (R416). Those to a fenced die's do not (R354). -/
def State.stackReady (s : State) (pa : Nat) : Bool :=
  match s.part.place pa with
  | .hbm x => !s.part.hasStack (hbmStack x) || bit s.host.hbm (hbmStack x) || s.onFenced x
  | _ => true

/-! ## The walk (R174, R175, R182) -/

/-- Eight bytes of HBM at a physical address. -/
def State.readPhys64 (s : State) (pa : Nat) : Nat :=
  match s.part.place pa with
  | .hbm x => s.mem.cells.readN x 8
  | _ => 0

/-- The name of a cached entry: context, level (5 the context entry) and the address bits that select it. -/
def tlbKey (ctx level index : Nat) : Nat := (ctx * 8 + level) * 2 ^ 48 + index

/-- Where a TLB holds the entry of a name: TLBs of cores are numbered as the cores, that of die d is 256 + d. -/
def tlbSlot (tlb key : Nat) : Nat := tlb * 2 ^ 67 + key

/-- The TLBs that an agent's translations pass: a core's own and its die's; the master die's for an agent outside the cores (R182, log 10). -/
def State.tlbsOf (s : State) : Option Nat → List Nat
  | some core => [core, 256 + dieOfCore core]
  | none => [256 + s.master]

/-- One of the entries at an address that an agent's walk may use: memory's, or a valid one that a TLB on its way has cached since and that no
`tlbinv` has taken away, by a free choice (R182, log 10). -/
def State.walkPick (s : State) (who : Option Nat) (key fresh : Nat) : Nat :=
  match ((s.tlbsOf who).map (fun t => SMap.get 0 s.mem.tlb (tlbSlot t key))).filter (fun e => e ≠ 0 && e ≠ fresh) with
  | [] => fresh
  | held => (fresh :: held).getD (Config.order s.clock.tick key % (held.length + 1)) fresh

/-- An entry as a walk sees it. -/
def State.walkEntry (s : State) (who : Option Nat) (key pa : Nat) : Nat := s.walkPick who key (s.readPhys64 pa)

/-- The context entry as a walk sees it, both its dwords as one number (R174). -/
def State.walkContext (s : State) (who : Option Nat) (key pa : Nat) : Nat :=
  s.walkPick who key (s.readPhys64 pa + s.readPhys64 (pa + 8) * 2 ^ 64)

/-- What a walk answers that meets a table on a stack that is not ready: the place of its entry, open to every access, so that the access
waits as one to that stack does (R416). -/
def heldXlat (entry : Nat) : Xlat :=
  { pa := entry, tt := 0, r := true, w := true, x := true, u := true, tso := false, ranged := true, held := true }

/-- The index part of a virtual address at a level and above. -/
def vaIndex (va level : Nat) : Nat := va / (4096 * 512 ^ level)

/-- The walk from a level down: the translation, and the entries it would cache. -/
def State.walkFrom (s : State) (who : Option Nat) (ctx va : Nat) : Nat → Nat → List (Nat × Nat) → Option (Xlat × List (Nat × Nat))
  | level, table, used =>
    let entry := table + vaIndex va level % 512 * 8
    let key := tlbKey ctx level (vaIndex va level)
    let e := s.walkEntry who key entry
    let used := (key, e) :: used
    if !s.stackReady entry then some (heldXlat entry, [])
    else if !pteV e then none
    else if pteLeaf e then
      if !leafOk s.part level e (pageSize level) then none
      else if pteCont e then
        let members := if level = 0 then 16 else 4
        let i0 := vaIndex va level / members * members
        let entry0 := table + i0 % 512 * 8
        let key0 := tlbKey ctx level i0
        let e0 := s.walkEntry who key0 entry0
        if !s.stackReady entry0 then some (heldXlat entry0, [])
        else if leafOk s.part level e0 (pageSize level) && pteCont e0 && ptePA e0 % groupSize level = 0 then
          if s.part.inWindow (pteTT e0) (ptePA e0) (groupSize level) then
            some (leafXlat level e0 entry0 (groupSize level) va, (key0, e0) :: used)
          else none
        else some (leafXlat level e entry (pageSize level) va, used)
      else some (leafXlat level e entry (pageSize level) va, used)
    else if !tableOk s.part e then none
    else
      match level with
      | 0 => none
      | l + 1 => s.walkFrom who ctx va l (ptePA e) used

/-- A whole walk: the context entry, then five levels (R174, R175). -/
def State.walk (s : State) (who : Option Nat) (ctx va : Nat) : Option (Xlat × List (Nat × Nat)) :=
  if !s.mem.ctxEn then none
  else
    let at0 := s.mem.ctxBase.toNat + ctx * 16
    if !s.part.backed at0 16 then none
    else if !s.stackReady at0 then some (heldXlat at0, [])
    else
      let key := tlbKey ctx 5 0
      let e := s.walkContext who key at0
      if e % 2 = 0 || e / 2 ^ 52 ≠ 0 || bits e 11 1 ≠ 0 then none
      else if !s.part.backed (ptePA e) 4096 then none
      else s.walkFrom who ctx va 4 (ptePA e) [(key, e)]

/-- An entry taken up by the TLBs on an agent's way; where the first of them had it, the others were not asked. -/
def holdEntry (tlbs : List Nat) (m : SMap Nat) (p : Nat × Nat) : SMap Nat :=
  if tlbs.head?.any (fun t => SMap.get 0 m (tlbSlot t p.1) = p.2) then m
  else tlbs.foldl (fun m t => SMap.set 0 m (tlbSlot t p.1) p.2) m

/-- Entries cached after a walk that succeeded; what other TLBs hold stays (R182). -/
def State.cacheEntries (s : State) (who : Option Nat) (used : List (Nat × Nat)) : State :=
  { s with mem := { s.mem with tlb := used.foldl (holdEntry (s.tlbsOf who)) s.mem.tlb } }

/-! ## Range entries (R180, R181) -/

def Core.range (c : Core) (i j : Nat) : Word := SMap.get 0 c.ranges (i * 4 + j)

/-- Entry i serves a context and an address (R181). -/
def Core.rangeMatches (c : Core) (ctx : Nat) (va : Word) (i : Nat) : Bool :=
  let a := c.range i 3
  bit a 0 && field a 47 32 = ctx &&
    (sext57 (c.range i 0)).toInt ≤ va.toInt && va.toInt < (sext57 (c.range i 1)).toInt

/-- The lowest-numbered matching entry (R181). -/
def Core.findRange (c : Core) (ctx : Nat) (va : Word) : Option Nat :=
  (List.range 64).find? (fun i => c.rangeMatches ctx va i)

/-- What a matching entry gives: a translation, or nothing where its range breaks R177 (R181). -/
def Core.rangeXlat (p : Part) (c : Core) (va : Word) (i : Nat) : Option Xlat :=
  let a := c.range i 3
  let base := sext57 (c.range i 0)
  let roff := (c.range i 2).toNat
  let len := ((sext57 (c.range i 1)).toInt - base.toInt).toNat
  let tt := field a 8 6
  if (bit a 3 && !bit a 2) || tt = 7 || !p.inWindow tt roff len then none
  else some { pa := roff + (va.toInt - base.toInt).toNat, tt := tt, r := bit a 2, w := bit a 3, x := bit a 4, u := bit a 5
              tso := bit a 9, ranged := true }

/-- Translation of an address in a context; harts and copy engines ask their core's range entries first (R181). No translation: none. -/
def State.translate (s : State) (core : Option Nat) (ctx : Nat) (va : Word) : Option Xlat × State :=
  let viaRange := match core with
    | some c => (s.coreAt c).findRange ctx va
    | none => none
  match core, viaRange with
  | some c, some i => (Core.rangeXlat s.part (s.coreAt c) va i, s)
  | _, _ =>
    match s.walk core ctx (va.toNat % 2 ^ 57) with
    | some (x, used) => (some x, s.cacheEntries core used)
    | none => (none, s)

/-! ## Permissions (R179) -/

/-- An agent's kind of access. -/
inductive Access
  | fetch | load | store | vload | vstore | atomic | copyRead | copyWrite | collective
  deriving DecidableEq, Repr

/-- Whether the access writes. -/
def Access.writes : Access → Bool
  | .store | .vstore | .atomic | .copyWrite => true
  | _ => false

/-- Target types that an access may use (R179). -/
def Access.allows (a : Access) (tt : Nat) : Bool :=
  match a with
  | .fetch => tt ≤ 1
  | .load => tt ≤ 6
  | .store => tt ≤ 6 && tt ≠ 5
  | .vload | .copyRead => tt ≤ 6 && tt ≠ 4
  | .vstore | .copyWrite => tt ≤ 6 && tt ≠ 4 && tt ≠ 5
  | .atomic => tt ≤ 6 && tt ≠ 3 && tt ≠ 4 && tt ≠ 5
  | .collective => tt = 6

/-- Whether a translation permits an access at a level of privilege (R179). -/
def Xlat.permits (x : Xlat) (a : Access) (user : Bool) : Bool :=
  (!user || x.u) && a.allows x.tt &&
    (match a with
     | .fetch => x.x
     | .collective => x.r && x.w
     | _ => if a.writes then x.w else x.r)

/-- The 2 MiB region of its die that an HBM byte lies in, by the offset in the die's own window (R171, R193). -/
def hbmRegion (x : Nat) : Nat := (x / 16384 * 4096 + x % 4096) / 2097152

/-- Counting of accesses that other dies make through page tables; the leaf last recorded is the region's, whoever counts (R193). -/
def State.noteHot (s : State) (die : Nat) (x : Xlat) : State :=
  match s.part.place x.pa with
  | .hbm a =>
    let d := hbmDie a
    if x.ranged || d = die || !(s.dieAt d).trackEn then s
    else
      let region := hbmRegion a
      s.onDieAt d (fun t =>
        let n := ((t.counts.find? (fun c => c.region = region && c.die = die)).map (·.count)).getD 0
        let kept := t.counts.filter (fun c => !(c.region = region && c.die = die))
        { t with counts := ⟨region, die, n + 1, x.level, x.entry, word x.leaf⟩ :: kept.map (fun c =>
            if c.region = region then { c with level := x.level, entry := x.entry, leaf := word x.leaf } else c) })
  | _ => s

end Sys2Proof.Machine
end

