-- ==== Sys2Proof/Machine/Access.lean ====
section
/-! DEFINITION. Physical accesses: bytes and poison marks, the scalar data cache, compressed surfaces, and the checks of a hart's own
access (04 R72, R81, R82; 08 R184, R189 to R192; 16 R334; 18 R354). -/

namespace Sys2Proof.Machine

/-! ## Bytes -/

/-- The key of a byte of memory, where the address reaches one (R170, R171). -/
def Part.key? (p : Part) (pa : Nat) : Option Nat :=
  match p.place pa with
  | .hbm x => some x
  | .scratch _ a => some a
  | .host a => some a
  | .mmio _ => none
  | .nowhere => none

/-- The key, where the caller has checked that there is one. -/
def Part.key (p : Part) (pa : Nat) : Nat := (p.key? pa).getD 0

/-- The 16-byte word of a key is poisoned (R334, R354). -/
def State.poisonedKey (s : State) (key : Nat) : Bool := s.onFenced key || SMap.get false s.mem.poison (key / 16)

/-- Some word of `n` bytes from a key is poisoned. -/
def State.poisonedRange (s : State) (key n : Nat) : Bool :=
  (List.range ((key + n - 1) / 16 - key / 16 + 1)).any (fun k => s.poisonedKey ((key / 16 + k) * 16))

/-- Clears the marks of words that `n` bytes from a key overwrite wholly (R334). -/
def clearPoison (m : SMap Bool) (key n : Nat) : SMap Bool :=
  (List.range ((key + n) / 16 - (key + 15) / 16)).foldl (fun m k => SMap.set false m ((key + 15) / 16 + k) false) m

/-- The home copies of dirty lines follow a write made past them (R97). -/
def patchHome (key : Nat) (bs : List Byte) (l : DirtyLine) : DirtyLine :=
  { l with home := (List.range 64).map (fun i =>
      if key ≤ l.line * 64 + i && l.line * 64 + i < key + bs.length then bs.getD (l.line * 64 + i - key) 0
      else l.home.getD i 0) }

/-- Bytes written to consecutive keys by an agent other than a scalar cache. -/
def Mem.put (m : Mem) (key : Nat) (bs : List Byte) : Mem :=
  { m with
    cells := m.cells.writeBytes key bs
    poison := clearPoison m.poison key bs.length
    dirty := m.dirty.map (patchHome key bs) }

/-- Bytes written through a core's scalar cache: its line is dirty from then on. What another core had stored into the line counts as written
back from then on, so that no later `cinval` loses it, the model's choice (R82, R97; log 12). -/
def Mem.putScalar (m : Mem) (core key : Nat) (bs : List Byte) : Mem :=
  let line := key / 64
  let mine := m.dirty.find? (fun l => l.core = core && l.line = line)
  let others := m.dirty.filter (fun l => l.line ≠ line)
  let entry : DirtyLine := match mine with
    | some l => l
    | none => ⟨core, line, m.cells.bytes (line * 64) 64⟩
  { m with
    cells := m.cells.writeBytes key bs
    poison := clearPoison m.poison key bs.length
    dirty := entry :: others }

/-- A record of kind 7 from a write that a fenced die's bytes drop (R354). -/
def dropRecord (core hart master key : Nat) : FaultRec :=
  { core := core, hart := hart, master := master, cause := cMachine, kind := 7, addr := word key }

/-- Bytes read from consecutive keys. -/
def State.readKey (s : State) (key n : Nat) : List Byte := s.mem.cells.bytes key n

/-- Bytes written to consecutive keys, unless a fenced die holds them (R354). -/
def State.writeKey (s : State) (key : Nat) (bs : List Byte) : State :=
  if s.onFenced key then s else { s with mem := s.mem.put key bs }

/-- Bytes at physical addresses, each through its own key: a range may cross 4 KiB blocks of a local window. Outside every window there is
nothing to read, zero (R170; log 58). -/
def State.readPhys (s : State) (pa n : Nat) : List Byte :=
  (List.range n).map (fun i => ((s.part.key? (pa + i)).map s.mem.cells.read).getD 0)

/-- Bytes written through a key, where there is one. -/
def State.writeAt (s : State) (key : Option Nat) (bs : List Byte) : State :=
  match key with
  | some k => s.writeKey k bs
  | none => s

/-- Bytes written at physical addresses, each through its own key; outside every window nothing is written (R170). -/
def State.writePhys (s : State) (pa : Nat) (bs : List Byte) : State :=
  if pa % 4096 + bs.length ≤ 4096 then s.writeAt (s.part.key? pa) bs
  else (List.range bs.length).foldl (fun s i => s.writeAt (s.part.key? (pa + i)) [bs.getD i 0]) s

/-- The first byte of a range of physical addresses that lies on a fenced die (R354). -/
def State.firstLost (s : State) (pa n : Nat) : Option Nat :=
  if n = 0 then none
  else (List.range ((pa + n - 1) / 4096 - pa / 4096 + 1)).findSome? (fun k =>
    let a := if k = 0 then pa else (pa / 4096 + k) * 4096
    if (s.part.key? a).any s.onFenced then some a else none)

/-- Every stack that a range of physical addresses reaches is ready (R416). -/
def State.rangeReady (s : State) (pa n : Nat) : Bool :=
  n = 0 || (List.range ((pa + n - 1) / 4096 - pa / 4096 + 1)).all (fun k => s.stackReady ((pa / 4096 + k) * 4096))

/-- Some word of a range of physical addresses is poisoned (R334). -/
def State.poisonedPhys (s : State) (pa n : Nat) : Bool :=
  (List.range ((pa + n - 1) / 16 - pa / 16 + 1)).any (fun k => (s.part.key? ((pa / 16 + k) * 16)).any s.poisonedKey)

/-- A poison mark set on the 16-byte word of a physical address (R334, R424). -/
def State.markPoison (s : State) (pa : Nat) : State :=
  match s.part.key? pa with
  | some k => { s with mem := { s.mem with poison := SMap.set false s.mem.poison (k / 16) true } }
  | none => s

/-! ## Compressed surfaces (R189 to R192) -/

def State.crtWord (s : State) (i j : Nat) : Nat := (SMap.get 0 s.mem.crt (i * 4 + j)).toNat

/-- Entry i is in use and well placed. -/
def State.crtOk (s : State) (i : Nat) : Bool :=
  let base := bits (s.crtWord i 0) 51 12 * 4096
  let limit := bits (s.crtWord i 1) 51 12 * 4096
  let meta' := bits (s.crtWord i 2) 51 3 * 8
  (s.crtWord i 0).testBit 0 && base < limit && s.part.backed base (limit - base) &&
    s.part.backed meta' ((limit - base) / 4096 * 8)

/-- What entry i gives. -/
def State.crtAt (s : State) (i : Nat) : Crt := ⟨bits (s.crtWord i 0) 51 12 * 4096, bits (s.crtWord i 2) 51 3 * 8⟩

/-- The lowest-numbered entry that matches a physical address (R189). -/
def State.findCrt (s : State) (pa : Nat) : Option Crt :=
  ((List.range 64).find? (fun i =>
    s.crtOk i && bits (s.crtWord i 0) 51 12 * 4096 ≤ pa && pa < bits (s.crtWord i 1) 51 12 * 4096)).map s.crtAt

/-- The number of set bits below bit n. -/
def popBelow (mask n : Nat) : Nat := (List.range n).foldl (fun t k => if mask.testBit k then t + 1 else t) 0

/-- The physical address of the mask of the block that holds an address. -/
def Crt.maskAddr (c : Crt) (pa : Nat) : Nat := c.info + (pa - c.base) / 4096 * 8

/-- The stacks that a read through a translation reaches are ready: a decoded one also reads the block's mask (R190, R416). -/
def State.xlatReady (s : State) (x : Xlat) : Bool :=
  s.stackReady x.pa && (x.tt ≠ 5 || (s.findCrt x.pa).all (fun c => s.rangeReady (c.maskAddr x.pa) 8))

/-- The storage address of a logical byte of a block with a mask; none for an absent sector (R190). -/
def sectorAddr (mask pa : Nat) : Option Nat :=
  let b := pa % 4096
  if mask.testBit (b / 64) then some (pa / 4096 * 4096 + 64 * popBelow mask (b / 64) + b % 64) else none

/-- A decoded byte under an entry (R190). -/
def State.decodedByte (s : State) (c : Crt) (pa : Nat) : Byte :=
  match sectorAddr (bytesToNat (s.readPhys (c.maskAddr pa) 8)) pa with
  | some a => s.mem.cells.read (s.part.key a)
  | none => 0

/-- Decoded bytes of a compressed surface (R190, R192). -/
def State.readDecoded (s : State) (c : Crt) (pa n : Nat) : List Byte := (List.range n).map (fun k => s.decodedByte c (pa + k))

/-- New logical contents of a 4 KiB block, packed with its mask in one step (R191), and the marks of its 256 words packed with them (R334). A
sector that carries a mark is kept though its bytes be zero, the model's choice (log 61). -/
def State.writeBlock (s : State) (c : Crt) (pa : Nat) (block : List Byte) (marks : List Bool) : State :=
  let sector := fun k => (block.drop (64 * k)).take 64
  let marked := fun k => (marks.drop (4 * k)).take 4
  let present := (List.range 64).filter (fun k => (sector k).any (fun b => b ≠ 0) || (marked k).any id)
  let mask := present.foldl (fun m k => m + 2 ^ k) 0
  let at0 := pa / 4096 * 4096
  let s := s.writePhys at0 (present.flatMap sector)
  let s := ((present.flatMap marked).zipIdx).foldl (fun s m => if m.1 then s.markPoison (at0 + 16 * m.2) else s) s
  s.writePhys (c.maskAddr pa) (natToBytes 8 mask)

/-- Whether a decoded range rests on poisoned storage, or on a poisoned mask. -/
def State.poisonedDecoded (s : State) (c : Crt) (pa n : Nat) : Bool :=
  let mask := bytesToNat (s.readPhys (c.maskAddr pa) 8)
  s.poisonedPhys (c.maskAddr pa) 8 || (List.range n).any (fun k => match sectorAddr mask (pa + k) with
    | some a => s.poisonedKey (s.part.key a)
    | none => false)

/-! ## Lines without coherence: types 3 and 5 (R82, R210, R211) -/

/-- A line as memory gives it now. -/
def State.fetchLine (s : State) (aperture : Bool) (pa : Nat) : List Byte :=
  if aperture then
    match s.findCrt pa with
    | some i => s.readDecoded i (pa / 64 * 64) 64
    | none => s.readPhys (pa / 64 * 64) 64
  else s.readPhys (pa / 64 * 64) 64

/-- The bytes a core has stored into a held line, written back. -/
def State.writeBack (s : State) (l : HeldLine) : State :=
  (List.range 64).foldl (fun s i =>
    if l.dirty.getD i false then s.writeKey (s.part.key (l.line * 64 + i)) [l.bytes.getD i 0] else s) s

def State.dropLine (s : State) (core line : Nat) : State :=
  { s with mem := { s.mem with lines := s.mem.lines.filter (fun l => !(l.core = core && l.line = line)) } }

/-- A line leaves its cache: its stored bytes are written back, and it is held no longer. -/
def State.evict (s : State) (l : HeldLine) : State := (s.writeBack l).dropLine l.core l.line

/-- One of a list of lines leaves, by a free choice. -/
def State.evictOne (s : State) (ls : List HeldLine) : State :=
  match ls[Config.order s.clock.tick ls.length % ls.length]? with
  | some l => s.evict l
  | none => s

/-- Lines of a 128 KiB cache (R82). -/
def cacheLines : Nat := 2048

/-- A dirty line of coherent memory leaves its cache: its home has its bytes (R82). -/
def State.settleLine (s : State) (l : DirtyLine) : State :=
  { s with mem := { s.mem with dirty := s.mem.dirty.filter (fun x => !(x.core = l.core && x.line = l.line)) } }

/-- Room for one more line in a core's cache: where the cache is full one that it holds leaves, by a free choice (R82, log 11). -/
def State.makeRoom (s : State) (core : Nat) : State :=
  let ls := s.mem.lines.filter (fun x => x.core = core)
  let ds := s.mem.dirty.filter (fun x => x.core = core)
  let n := ls.length + ds.length
  let k := Config.order s.clock.tick n % n
  if n < cacheLines then s
  else match ls[k]?, ds[k - ls.length]? with
    | some l, _ => s.evict l
    | none, some l => s.settleLine l
    | none, none => s

/-- A line held, in place of another where the cache is full (R82). -/
def State.holdLine (s : State) (l : HeldLine) : State :=
  let s := (s.dropLine l.core l.line).makeRoom l.core
  { s with mem := { s.mem with lines := l :: s.mem.lines } }

/-- Bytes stored through a core's scalar cache into coherent memory (R82). -/
def State.putScalar (s : State) (core key : Nat) (bs : List Byte) : State :=
  let s := if s.mem.dirty.any (fun l => l.core = core && l.line = key / 64) then s else s.makeRoom core
  { s with mem := s.mem.putScalar core key bs }

/-- At any moment a line may leave its cache, by a free choice (R82, log 11). -/
def State.mayEvict (s : State) : State :=
  if s.mem.lines = [] then s
  else if Config.coin s.clock.tick 1 then s.evictOne s.mem.lines else s

/-- The bytes that a core has stored into lines of type 3 written back; the lines stay held (R95, R132, R164). -/
def State.cleanLines (s : State) (core : Nat) : State :=
  let mine := s.mem.lines.filter (fun l => l.core = core)
  if mine = [] then s
  else
    let s := mine.foldl State.writeBack s
    { s with mem := { s.mem with lines := s.mem.lines.map (fun l =>
        if l.core = core then { l with dirty := List.replicate 64 false } else l) } }

/-- An access that passes by the core's scalar cache: a line of type 3 that it touches leaves first, so that the accesses to one byte keep
program order, whichever page they go through (R124, R198, R207). -/
def State.passLine (s : State) (core : Nat) (tt : Nat) (pa : Nat) : State :=
  if tt = 3 then
    match s.mem.lines.find? (fun l => l.core = core && l.line = pa / 64) with
    | some l => s.evict l
    | none => s
  else s

/-- The line a scalar access uses: one held and kept, or one fetched now; whether a held one has left meanwhile is free (log 11). -/
def State.useLine (s : State) (core : Nat) (aperture : Bool) (pa : Nat) : HeldLine × State :=
  let line := pa / 64
  match s.mem.lines.find? (fun l => l.core = core && l.line = line) with
  | some l =>
    if Config.coin s.clock.tick (2 * line) then
      let s := s.writeBack l
      let l' : HeldLine := ⟨core, line, aperture, s.fetchLine aperture pa, List.replicate 64 false⟩
      (l', s.holdLine l')
    else (l, s)
  | none =>
    let l' : HeldLine := ⟨core, line, aperture, s.fetchLine aperture pa, List.replicate 64 false⟩
    (l', s.holdLine l')

/-- A scalar store into a line of type 3: dirty until it leaves, which may be at once (log 11). -/
def State.storeLine (s : State) (core pa : Nat) (bs : List Byte) : State :=
  let (l, s) := s.useLine core false pa
  let o := pa % 64
  let inside := fun i => o ≤ i && i < o + bs.length
  let l' : HeldLine :=
    { l with
      bytes := (List.range 64).map (fun i => if inside i then bs.getD (i - o) 0 else l.bytes.getD i 0)
      dirty := (List.range 64).map (fun i => inside i || l.dirty.getD i false) }
  if Config.coin s.clock.tick (2 * (pa / 64) + 1) then
    let s := s.writeBack l'
    s.holdLine { l' with dirty := List.replicate 64 false }
  else s.holdLine l'

/-- Every line of the core that `n` bytes touch, passed by. -/
def State.passRange (s : State) (core : Nat) (x : Xlat) (n : Nat) : State :=
  (List.range ((x.pa + n - 1) / 64 - x.pa / 64 + 1)).foldl (fun s k => s.passLine core x.tt (x.pa + 64 * k)) s

/-! ## A hart's own access (R72, R179, R334) -/

/-- A hart's writes that wait at other dies, in the order of its stores to each home. -/
def State.storesOf (s : State) (n : Nat) : List CrossWrite :=
  (List.range 4).flatMap (fun d => (s.dieAt d).pending.filter (fun w => w.hart = n))

/-- The checks of an access in their order: alignment, canonical address, translation, permission and target type (R72). -/
def State.checkAccess (s : State) (a : Access) (va : Word) (n : Nat) : Except Trap Xlat × State :=
  if va.toNat % n ≠ 0 then (.error ⟨cMisaligned, va, 0⟩, s)
  else if !canonical va then (.error ⟨cPage, va, 0⟩, s)
  else
    match s.translate (some s.coreNum) s.hart.ctx va with
    | (none, s) => (.error ⟨cPage, va, 0⟩, s)
    | (some x, s) =>
      if !x.permits a (!s.hart.sup) then (.error ⟨cProtection, va, 0⟩, s)
      else if x.tt = 5 && (s.findCrt x.pa).isNone then (.error ⟨cProtection, va, 0⟩, s)
      else if x.tt = 4 && 8 < n then (.error ⟨cMisaligned, va, 0⟩, s)
      else (.ok x, s.noteHot (dieOfHart s.cur) x)

/-- Whether the data of a checked load is poisoned (R334). -/
def State.poisonedAccess (s : State) (x : Xlat) (n : Nat) : Bool :=
  if x.tt = 4 then false
  else if x.tt = 5 then
    match s.findCrt x.pa with
    | some i => s.poisonedDecoded i x.pa n
    | none => false
  else s.poisonedRange (s.part.key x.pa) n

/-- Where the first poisoned 16-byte word of a checked load begins, counted from its address (R334). -/
def State.poisonOffset (s : State) (x : Xlat) (n : Nat) : Nat :=
  ((List.range ((n + 15) / 16)).find? (fun k => s.poisonedAccess { x with pa := x.pa + 16 * k } (min 16 n))).getD 0 * 16

/-- MACHINE_CHECK at a poisoned word, with the word's virtual address (R334). -/
def poisonTrap (va : Word) : Trap := ⟨cMachine, word (va.toNat / 16 * 16), 0⟩

end Sys2Proof.Machine
end

