-- ==== Sys2Proof/Machine/Slots.lean ====
section
/-! DEFINITION. Tile slots (08 R184 to R186; 10 R212, R222; 06 R137; 07 R148): layouts, descriptors, grants, the bytes of a range, and
the scoreboard. A chunk is a 4 KiB quarter of a slot's logical bytes, numbered slot × 4 + quarter. -/

namespace Sys2Proof.Machine

/-! ## Layouts (R184, R185) -/

/-- The window offset within a slot of logical row r, byte o. -/
def layoutOffset (lay r o : Nat) : Nat :=
  match lay with
  | 1 => 1024 * (o / 16) + 16 * ((o / 16 + r) % 64) + o % 16
  | 2 => o * 64 + r
  | 3 => (o / 2 * 64 + r) * 2 + o % 2
  | 4 => (o / 4 * 64 + r) * 4 + o % 4
  | _ => r * 256 + o

/-- The logical row that a window offset of a slot belongs to. -/
def layoutRow (lay x : Nat) : Nat :=
  match lay with
  | 1 => (x % 1024 / 16 + 64 - x / 1024 % 64) % 64
  | 2 => x % 64
  | 3 => x / 2 % 64
  | 4 => x / 4 % 64
  | _ => x / 256

def Core.layOf (c : Core) (slot : Nat) : Nat := SMap.get 0 c.lay slot

/-- The memory key of a window byte of a core. -/
def windowKey (core x : Nat) : Nat := scratchBase + core * 0x400000 + x

/-- The memory key of logical offset `off` of a range that starts at a slot. -/
def State.rangeKey (s : State) (core first off : Nat) : Nat :=
  let slot := first + off / 16384
  let x := off % 16384
  windowKey core (slot * 16384 + layoutOffset ((s.coreAt core).layOf slot) (x / 256) (x % 256))

/-- The chunk of a key in a core's window. -/
def State.chunkOfKey (s : State) (core key : Nat) : Nat :=
  let x := key - windowKey core 0
  x / 16384 * 4 + layoutRow ((s.coreAt core).layOf (x / 16384)) (x % 16384) / 16

/-! ## Bytes of a range -/

/-- Bytes at a list of keys, written with the marks they overwrite wholly cleared (R334). -/
def State.writeKeys (s : State) (ws : List (Nat × Byte)) : State :=
  let cells := ws.foldl (fun m p => m.write p.1 p.2) s.mem.cells
  let covered := fun (w : Nat) => (List.range 16).all (fun k => ws.any (fun p => p.1 = w * 16 + k))
  { s with mem := { s.mem with cells := cells, poison := s.mem.poison.filter (fun e => !covered e.1)
                               dirty := ws.foldl (fun d p => d.map (patchHome p.1 [p.2])) s.mem.dirty } }

/-- The words of a list of keys marked (R334). -/
def State.markKeys (s : State) (ks : List Nat) : State :=
  { s with mem := { s.mem with poison := ks.foldl (fun m k => SMap.set false m (k / 16) true) s.mem.poison } }

/-- `n` logical bytes of a range. -/
def State.readRange (s : State) (core first off n : Nat) : List Byte :=
  (List.range n).map (fun k => s.mem.cells.read (s.rangeKey core first (off + k)))

/-- Logical bytes of a range written. -/
def State.writeRange (s : State) (core first off : Nat) (bs : List Byte) : State :=
  s.writeKeys (bs.mapIdx (fun k b => (s.rangeKey core first (off + k), b)))

/-- Some byte of a range is marked (R334). -/
def State.rangePoisoned (s : State) (core first off n : Nat) : Bool :=
  s.mem.poison ≠ [] && (List.range n).any (fun k => s.poisonedKey (s.rangeKey core first (off + k)))

/-- The words of a range marked. -/
def State.poisonRange (s : State) (core first off n : Nat) : State :=
  s.markKeys ((List.range n).map (fun k => s.rangeKey core first (off + k)))

/-! ## Grants (R137, R148) -/

def Core.gang (c : Core) (id : Nat) : Option Gang := SMap.get none c.gangs id

/-- The gang a hart runs. -/
def State.gangOf (s : State) (n : Nat) : Option Gang := (s.hartAt n).gang.bind (s.coreAt (coreOfHart n)).gang

def Gang.hasSlot (g : Gang) (k : Nat) : Bool := g.slot0 ≤ k && k < g.slot0 + g.slots
def Gang.hasBar (g : Gang) (k : Nat) : Bool := g.bar0 ≤ k && k < g.bar0 + g.bars
def Gang.hasAcc (g : Gang) (k : Nat) : Bool := g.acc0 ≤ k && k < g.acc0 + g.accs

/-- The first slot of a range that lies past slot 255 or outside the grant. -/
def slotOutside (g : Option Gang) (slot cnt : Nat) : Option Nat :=
  (List.range cnt).findSome? (fun k =>
    if 255 < slot + k || !((g.map (fun g => g.hasSlot (slot + k))).getD false) then some (slot + k) else none)

/-- A barrier number checked against the grant (R148). -/
def barOutside (g : Option Gang) (x : Nat) : Bool := 1023 < x || !((g.map (fun g => g.hasBar x)).getD false)

def protectionTrap (x : Nat) : Trap := ⟨cProtection, word x, 0⟩

/-! ## Descriptors (R212) -/

/-- The role of a descriptor. -/
inductive DescRole
  | dest | transposing | source
  deriving DecidableEq, Repr

def Desc.ofWord (w : Word) : Desc :=
  { slot := field w 7 0, cnt := field w 15 8, lay := field w 19 16, bar := field w 29 20, nb := bit w 32, tr := bit w 33
    te := field w 35 34 }

/-- The fields of a descriptor that break R212, by its role: an ILLEGAL_INSN. -/
def descMalformed (role : DescRole) (w : Word) : Bool :=
  let d := Desc.ofWord w
  field w 63 36 ≠ 0 || field w 31 30 ≠ 0 || d.cnt = 0 || 5 ≤ d.lay ||
    (match role with
     | .transposing => d.tr && d.te = 3
     | .dest => d.tr || d.te ≠ 0
     | .source => d.tr || d.te ≠ 0 || d.nb || d.bar ≠ 0)

/-- A checked descriptor, or the trap: malformed, a slot outside, a barrier outside. -/
def checkDesc (g : Option Gang) (role : DescRole) (w i : Word) : Except Trap Desc :=
  let d := Desc.ofWord w
  if descMalformed role w then .error ⟨cIllegal, i, 0⟩
  else match slotOutside g d.slot d.cnt with
    | some k => .error (protectionTrap k)
    | none =>
      if role ≠ .source && !d.nb && barOutside g d.bar then .error (protectionTrap d.bar) else .ok d

/-- The barrier a command credits. -/
def Desc.credits (d : Desc) : Option Nat := if d.nb then none else some d.bar

/-- Chunks of a range. -/
def Desc.chunks (d : Desc) : List Nat := (List.range (4 * d.cnt)).map (fun k => d.slot * 4 + k)

/-- Of a range's slots that some of the chunks lie in, one has another layout than the range states. -/
def Core.misLaid (c : Core) (chunks : List Nat) (d : Desc) : Bool :=
  (List.range d.cnt).any (fun k => c.layOf (d.slot + k) ≠ d.lay && chunks.any (fun x => x / 4 = d.slot + k))

/-- LAYMIS counts a command that states another layout than that of a slot which it comes to (R186). -/
def State.countLayout (s : State) (core : Nat) (ds : List Desc) (chunks : List Nat) : State :=
  if ds.any ((s.coreAt core).misLaid chunks) then
    s.onCoreAt core (fun c => { c with layMis := word (min (c.layMis.toNat + 1) 0xFFFFFFFF) })
  else s

/-! ## The scoreboard (R222) -/

/-- A slot operation still under way: its place in its hart's program order, and the chunks it has yet to read and write. -/
structure Footprint where
  hart : Nat
  stamp : Nat
  reads : List Nat
  writes : List Nat
  deriving DecidableEq, Repr

/-- What a copy command has still to do. -/
def CopyCmd.footprint (c : CopyCmd) : Footprint :=
  let left := c.dst.chunks.drop c.next
  let src := (c.src.map Desc.chunks).getD []
  match c.op with
  | .tst => ⟨c.hart, c.stamp, left, []⟩
  | .tcpy => ⟨c.hart, c.stamp, if c.image.isSome then [] else src, left⟩
  | .tpack | .tunpk => ⟨c.hart, c.stamp, src, left⟩
  | .tld | .tfill | .ttag => ⟨c.hart, c.stamp, [], left⟩

/-- Every slot operation under way in a core. -/
def Core.pending (c : Core) : List Footprint :=
  c.copies.map CopyCmd.footprint ++
  c.mats.map (fun m => ⟨m.hart, m.stamp, m.reads, m.writes⟩) ++
  c.fab.launches.map (fun l => ⟨l.hart, l.stamp, l.reads, l.writes⟩) ++
  c.fab.cmds.filterMap (fun x => match x with
    | .sgo l => some ⟨l.hart, l.stamp, l.reads, l.writes⟩
    | .stwld _ d hart stamp => some ⟨hart, stamp, d.chunks, []⟩
    | .scfg _ => none)

/-- Two lists with a common element. -/
def overlap (xs ys : List Nat) : Bool := xs.any ys.contains

/-- Whether an earlier operation of the hart holds one that reads and writes these chunks. -/
def Core.held (c : Core) (hart stamp : Nat) (reads writes : List Nat) : Bool :=
  c.pending.any (fun f => f.hart = hart && f.stamp < stamp &&
    (overlap f.writes reads || overlap f.writes writes || overlap f.reads writes))

/-- An access of the acting hart to a chunk waits for the hart's earlier slot operations. -/
def State.slotHeld (s : State) (reads writes : List Nat) : Bool := s.core.held s.cur s.hart.stamp reads writes

/-- An access through the core's own window waits likewise (R81, R184). -/
def State.windowHeld (s : State) (key n : Nat) (write : Bool) : Bool :=
  let core := s.coreNum
  if windowKey core 0 ≤ key && key < windowKey core 0x400000 then
    let c := (List.range n).map (fun k => s.chunkOfKey core (key + k))
    if write then s.slotHeld [] c else s.slotHeld c []
  else false

/-- The place of the next slot operation in the acting hart's order. -/
def State.takeStamp (s : State) : Nat × State := (s.hart.stamp, s.onHart (fun h => { h with stamp := h.stamp + 1 }))

end Sys2Proof.Machine
end

