-- ==== Sys2Proof/Machine/Barrier.lean ====
section
/-! DEFINITION. Named barriers and supersteps (07 R147 to R160): majors 0x26, engine credits and the age limit. -/

namespace Sys2Proof.Machine

def Core.bar (c : Core) (b : Nat) : Barrier := SMap.get {} c.bars b
def Core.onBar (c : Core) (b : Nat) (f : Barrier → Barrier) : Core := { c with bars := SMap.set {} c.bars b (f (c.bar b)) }

/-- The harts of a core. -/
def coreHarts (core : Nat) : List Nat := (List.range 8).map (fun k => core * 8 + k)

/-- The barrier a hart waits on in `bwait`, `step` or a held arrival. -/
def Hart.waitsOn (h : Hart) : Option Nat :=
  match h.block with
  | some ⟨.phase b _ _, _, _⟩ => some b
  | some ⟨.held b _ _, _, _⟩ => some b
  | _ => none

/-- WAIT of the status word (R147). -/
def State.barWait (s : State) (core b : Nat) : Bool := (coreHarts core).any (fun n => (s.hartAt n).waitsOn = some b)

/-! ## Phases (R149) -/

/-- A waiter whose phase is over goes on. -/
def releaseHart (b ph : Nat) (h : Hart) : Hart :=
  match h.block with
  | some ⟨.phase b' p st, _, _⟩ =>
    if b' = b && p ≠ ph then ({ h with stepArr := if st then 0 else h.stepArr }).advance else h
  | _ => h

/-- A held arrival counted in the new phase: s[d] receives it; `barrive` is complete and `step` waits on. -/
def admitHart (b ph : Nat) (x : Held) (h : Hart) : Hart :=
  let h := h.setS x.d (word ph)
  if x.step then { h with stepArr := 1, block := h.block.map (fun w => { w with wait := .phase b ph true }) } else h.advance

/-- The evaluation after an event on a barrier; each pass completes one phase (R149). -/
def evaluate : Nat → Nat → Nat → State → State
  | 0, _, _, s => s
  | fuel + 1, core, b, s =>
    let t := (s.coreAt core).bar b
    if t.arr = t.exp && t.pend = 0 && !t.broken && t.exp ≠ 0 then
      let ph := (t.phase + 1) % 65536
      let s := (coreHarts core).foldl (fun s n => s.onHartAt n (releaseHart b ph)) s
      let now := t.held.take t.exp
      let s := now.foldl (fun s x => s.onHartAt x.hart (admitHart b ph x)) s
      let s := s.onCoreAt core (fun c => c.onBar b (fun t =>
        { t with phase := ph, arr := now.length, held := t.held.drop t.exp }))
      evaluate fuel core b s
    else s

/-- The barrier evaluated to rest: every pass but the last admits a held arrival. -/
def settle (core b : Nat) (s : State) : State := evaluate (((s.coreAt core).bar b).held.length + 2) core b s

/-- BARRIER_AGE on a broken barrier (R151). -/
def brokenTrap (b : Nat) : Trap := ⟨cBarrierAge, word (2 ^ 63 + b), 0⟩

/-- A held arrival withdrawn (R151, R152). -/
def withdraw (n : Nat) (s : State) : State :=
  match (s.hartAt n).block with
  | some ⟨.held b _ _, _, _⟩ =>
    s.onCoreAt (coreOfHart n) (fun c => c.onBar b (fun t => { t with held := t.held.filter (fun x => x.hart ≠ n) }))
  | _ => s

/-- A credit that breaks the barrier: every hart blocked on it traps, and a record is posted (R151). The record names no hart: HART and PC
are 0, the model's choice (log 61). -/
def breakBarrier (core b : Nat) (s : State) : State :=
  let s := s.onCoreAt core (fun c => c.onBar b (fun t => { t with pend := -(2 ^ 35), broken := true }))
  let ctx := (((s.coreAt core).gangs.findSome? (fun g => g.2.filter (fun g => g.hasBar b))).map (·.ctx)).getD 0
  let s := postRecord s { core := core, master := 5, cause := cBarrierAge, kind := 6, bar := some b, ctx := ctx
                          d0 := BitVec.ofInt 64 (-(2 ^ 35)) }
  (coreHarts core).foldl (fun s n => if (s.hartAt n).waitsOn = some b then trapOn n (brokenTrap b) (withdraw n s) else s) s

/-- Bytes that an engine credits; none where a record would be posted and the core's queue is full, so that the credit waits (R150,
R151, R326). -/
def applyCredit (core b bytes : Nat) (s : State) : Option State :=
  let t := (s.coreAt core).bar b
  if t.pend - bytes < -(2 ^ 35) then
    if s.recordRoom core then some (breakBarrier core b s) else none
  else some (settle core b (s.onCoreAt core (fun c => c.onBar b (fun t => { t with pend := t.pend - bytes }))))

/-- A credit leaves its engine. -/
def State.sendCredit (s : State) (core : Nat) (bar : Option Nat) (bytes : Nat) : State :=
  match bar with
  | some b => if bytes = 0 then s else s.onCoreAt core (fun c => { c with credits := c.credits ++ [⟨b, bytes⟩] })
  | none => s

/-- The barrier unit applies the oldest credit that it can; one held by a full record queue holds only its own barrier (R150, R326). -/
def applyFirst (core : Nat) (s : State) : List Credit → List Credit → Option State
  | _, [] => none
  | before, x :: after =>
    if before.any (fun y => y.bar = x.bar) then applyFirst core s (before ++ [x]) after
    else match applyCredit core x.bar x.bytes s with
      | some s => some (s.onCoreAt core (fun c => { c with credits := before ++ after }))
      | none => applyFirst core s (before ++ [x]) after

def execEngineCredit (core : Nat) (s : State) : Result :=
  match applyFirst core s [] (s.coreAt core).credits with
  | some s => .next s
  | none => .next s

/-- The oldest credit to a barrier would break it, and is held because the core's record queue is full: later events on that barrier wait
behind it (R326). -/
def State.creditHeld (s : State) (core b : Nat) : Bool :=
  !s.recordRoom core &&
    (((s.coreAt core).credits.find? (fun x => x.bar = b)).map (fun x => decide (((s.coreAt core).bar b).pend - x.bytes < -(2 ^ 35)))).getD false

/-! ## The instructions (R154 to R160) -/

/-- The barrier of s[a], or the trap of R148. -/
def State.barrierOf (s : State) (a : SReg) : Except Trap Nat :=
  let x := s.hart.sreg a
  if barOutside (s.gangOf s.cur) x.toNat then .error ⟨cProtection, x, 0⟩ else .ok x.toNat

/-- Engine work that names a barrier and has not credited it all (R155). -/
def Core.uncredited (c : Core) (b : Nat) : Bool :=
  c.credits.any (fun x => x.bar = b) || c.copies.any (fun x => x.dst.credits = some b) ||
    c.mats.any (fun x => (x.out.bind Desc.credits) = some b) || c.fab.launches.any (fun l => l.bar = some b) ||
    c.fab.cmds.any (fun x => match x with | .sgo l => l.bar = some b | _ => false)

/-- A running collective instance of the core that names a barrier. -/
def State.collCredits (s : State) (core b : Nat) : Bool :=
  s.coll.regs.any (fun p => match p.2 with
    | some r => (r.inst.map (fun x => x.bar = some b && coreOfHart x.hart = core)).getD false
    | none => false)

def execBinit (a b : SReg) (s : State) : Result :=
  match s.barrierOf a with
  | .error t => raiseTrap s t
  | .ok k =>
    let n := (s.hart.sreg b).toNat
    if n = 0 || 65535 < n then raiseIllegal s (.binit a b)
    else if s.barWait s.coreNum k || s.core.uncredited k || s.collCredits s.coreNum k then wait s (.init k)
    else finishHart (settle s.coreNum k (s.onCore (fun c => c.onBar k (fun _ => { exp := n })))) id

/-- An arrival by the acting hart: counted now, or held (R149). -/
def arrive (s : State) (k : Nat) (d : SReg) (step : Bool) : State :=
  let core := s.coreNum
  let t := s.core.bar k
  if t.arr = t.exp then
    let s := blockOn s (.held k d step)
    s.onCore (fun c => c.onBar k (fun t => { t with held := t.held ++ [⟨s.cur, d, step⟩] }))
  else
    let s := s.onCore (fun c => c.onBar k (fun t => { t with arr := t.arr + 1 }))
    let s := s.onHart (fun h => h.setS d (word t.phase))
    let s := if step then s.onHart (fun h => { h with stepArr := 1 }) else s.onHart Hart.advance
    let s := if step then blockOn s (.phase k t.phase true) else s
    settle core k s

/-- The hart is held in an arrival already. -/
def Hart.isHeld (h : Hart) : Bool :=
  match h.block with
  | some ⟨.held .., _, _⟩ => true
  | _ => false

def execBarrive (d a : SReg) (s : State) : Result :=
  if s.hart.isHeld then .next s
  else match s.barrierOf a with
    | .error t => raiseTrap s t
    | .ok k => if s.creditHeld s.coreNum k then wait s .other else .next (arrive s k d false)

def execBexpect (a b : SReg) (s : State) : Result :=
  match s.barrierOf a with
  | .error t => raiseTrap s t
  | .ok k =>
    let x := (s.hart.sreg b).toInt
    let p := (s.core.bar k).pend + x
    if s.creditHeld s.coreNum k then wait s .other
    else if x < -(2 ^ 35) || 2 ^ 35 ≤ x || p < -(2 ^ 35) || 2 ^ 35 ≤ p then raiseIllegal s (.bexpect a b)
    else
      let s := s.onHart Hart.advance
      .next (settle s.coreNum k (s.onCore (fun c => c.onBar k (fun t => { t with pend := p }))))

def execBwait (a b : SReg) (s : State) : Result :=
  match s.barrierOf a with
  | .error t => raiseTrap s t
  | .ok k =>
    let t := s.core.bar k
    let ph := (s.hart.sreg b).toNat % 65536
    if t.broken then raiseTrap s (brokenTrap k)
    else if t.phase ≠ ph then finishHart s id
    else wait s (.phase k ph false)

/-- The status word (R147). -/
def Barrier.status (t : Barrier) (waiting : Bool) : Word :=
  word ((if t.broken then 2 ^ 63 else 0) + (if waiting then 2 ^ 62 else 0) + t.exp * 2 ^ 32 + t.arr * 2 ^ 16 + t.phase)

def execBtest (d a b : SReg) (s : State) : Result :=
  match s.barrierOf a with
  | .error t => raiseTrap s t
  | .ok k =>
    let t := s.core.bar k
    let x := (s.hart.sreg b).toNat
    if x = 0 then finishS s d (t.status (s.barWait s.coreNum k))
    else if x = 1 then finishS s d (BitVec.ofInt 64 t.pend)
    else raiseIllegal s (.btest d a b)

/-- The wait of `step` for the end of a phase. -/
def stepWait (s : State) (k ph : Nat) : Result :=
  let t := s.core.bar k
  if t.broken then raiseTrap s (brokenTrap k)
  else if t.phase ≠ ph then finishHart s (fun h => { h with stepArr := 0 })
  else wait s (.phase k ph true)

/-- `step` (R160); its arrival is a release at package scope (R153). One that waits goes on with the barrier and the phase that it waits
for, whatever s[a] holds now. -/
def execStep (d a : SReg) (s : State) : Result :=
  match s.hart.block with
  | some ⟨.held .., _, _⟩ => .next s
  | some ⟨.phase k ph true, _, _⟩ => stepWait s k ph
  | _ =>
    match s.barrierOf a with
    | .error t => raiseTrap s t
    | .ok k =>
      if !bit s.hart.stepArr 0 && !(s.core.bar k).broken then
        if s.creditHeld s.coreNum k then wait s (.arrival k) else .next (arrive (s.cleanLines s.coreNum) k d true)
      else stepWait s k ((s.hart.sreg d).toNat % 65536)

/-! ## The age limit (R152) -/

/-- The trap of a running hart that has been blocked in one instruction for more than BARAGE cycles. -/
def State.ageTrap (s : State) (hart : Nat) : Option Trap :=
  let h := s.hartAt hart
  let limit := (s.coreAt (coreOfHart hart)).barAge.toNat
  match h.block with
  | some b =>
    if limit ≠ 0 && limit < s.clock.cycle - b.since && h.run = .running then b.wait.age.map (fun v => ⟨cBarrierAge, word v, 0⟩) else none
  | none => none

/-- Such a hart traps there, a held arrival withdrawn. -/
def execBarrierAgeExpiry (hart : Nat) (s : State) : Result :=
  match s.ageTrap hart with
  | some t => .next (trapOn hart t (withdraw hart s))
  | none => .next s

end Sys2Proof.Machine
end

