-- ==== Sys2Proof/Machine/Sched.lean ====
section
/-! DEFINITION. Continuation records, queues, posts and joins (06 R128 to R132, R135, R139, R145, R426, R427). -/

namespace Sys2Proof.Machine

/-! ## A hart's loads of more than a word (R72) -/

/-- What a load of a block gives. -/
inductive Loaded
  | ok (bs : List Byte)
  | trap (t : Trap)
  | hold
  deriving DecidableEq, Repr

/-- The data of a checked access outside MMIO. -/
def State.dataAt (s : State) (x : Xlat) (n : Nat) : List Byte :=
  if x.tt = 5 then
    match s.findCrt x.pa with
    | some k => s.readDecoded k x.pa n
    | none => s.readPhys x.pa n
  else s.readPhys x.pa n

/-- A naturally aligned block loaded by the acting hart. A poisoned word of it traps with the word's own address in TRAPVAL, as R334 has it,
also where R142 speaks of va: the model's choice (log 61). -/
def State.loadBlock (s : State) (va : Word) (n : Nat) : Loaded × State :=
  match s.checkAccess .load va n with
  | (.error t, s) => (.trap t, s)
  | (.ok x, s) =>
    if !s.xlatReady x || s.windowHeld ((s.part.key? x.pa).getD 0) n false then (.hold, s)
    else if s.poisonedAccess x n then (.trap (poisonTrap (va + word (s.poisonOffset x n))), s)
    else
      let s := s.passRange s.coreNum x n
      (.ok (s.dataAt x n), s)

/-! ## Records (R128, R129) -/

/-- Bits [hi:lo] at a byte offset of a little-endian record. -/
def recBits (r off hi lo : Nat) : Nat := bits r (8 * off + hi) (8 * off + lo)

/-- A continuation record as read. -/
structure Rec where
  code : Word
  frame : Word
  parent : Word
  join : Nat
  fab : Bool
  die : Nat
  pin : Bool
  range : Bool
  queue : Nat
  prio : Nat
  gang : Nat
  accs : Nat
  bars : Nat
  slots : Nat
  chunk : Nat
  lo : Nat
  hi : Nat
  /-- Every reserved field is zero. -/
  clean : Bool
  deriving DecidableEq, Repr

/-- The record of 64 bytes (R128). -/
def Rec.ofNat (r : Nat) : Rec :=
  { code := sext57 (word (recBits r 0 56 0)), frame := word (recBits r 8 63 0)
    parent := sext57 (word (recBits r 0x10 56 0)), join := recBits r 0x18 31 0
    fab := recBits r 0x1C 20 20 = 1, die := recBits r 0x1C 19 18, pin := recBits r 0x1C 17 17 = 1
    range := recBits r 0x1C 16 16 = 1, queue := recBits r 0x1C 13 8, prio := recBits r 0x1C 5 4, gang := recBits r 0x1C 3 0
    accs := recBits r 0x20 27 24, bars := recBits r 0x20 20 10, slots := recBits r 0x20 8 0
    chunk := recBits r 0x24 31 0, lo := recBits r 0x28 63 0, hi := recBits r 0x30 63 0
    clean := recBits r 0 63 57 = 0 && recBits r 0x10 63 57 = 0 && recBits r 0x10 5 0 = 0 && recBits r 0x1C 31 21 = 0 &&
      recBits r 0x1C 15 14 = 0 && recBits r 0x1C 7 6 = 0 && recBits r 0x20 31 28 = 0 && recBits r 0x20 23 21 = 0 &&
      recBits r 0x20 9 9 = 0 && recBits r 0x38 63 0 = 0 }

/-- The number of chunks of a range (R135). -/
def Rec.chunks (r : Rec) : Nat := if r.lo < r.hi && r.chunk ≠ 0 then (r.hi - r.lo + r.chunk - 1) / r.chunk else 0

/-- Every core number of the package. -/
def allCores : List Nat := (List.range 4).flatMap (fun d => (List.range 48).map (fun c => coreOf d c))

/-- The hart is some die's supervisor hart, which is never bound (R131). -/
def State.isSuper (s : State) (n : Nat) : Bool := s.superHart (dieOfHart n) = some n

/-- Harts of a core that may ever be bound. -/
def State.bindable (s : State) (core : Nat) : List Nat := (List.range 8).filter (fun k => !s.isSuper (core * 8 + k))

/-- The longest run of consecutive numbers in an ascending list, as its first number, that holds `n` of them (R134). -/
def runOf (xs : List Nat) (n : Nat) : Option Nat :=
  if n = 0 then some 0 else xs.find? (fun x => (List.range n).all (fun k => xs.contains (x + k)))

/-- Validity of a record, at its post or at a binding (R129). -/
def State.recValid (s : State) (atPost : Bool) (r : Rec) : Bool :=
  r.clean && r.code.toNat % 4 = 0 && 1 ≤ r.gang && r.gang ≤ 8 && r.slots ≤ 256 && r.bars ≤ 1024 && r.accs ≤ 8 &&
    allCores.any (fun c => s.part.hasCore c && r.gang ≤ (s.bindable c).length) &&
    (!r.pin || s.live r.die) &&
    (if r.range then r.chunk ≠ 0 && r.chunks < 2 ^ 32 && (!atPost || r.join = 0)
     else r.chunk = 0 && r.lo = 0 && r.hi = 0)

/-! ## Structures of the scheduler in memory (R426) -/

/-- An address translated by page tables in a context; only types 0, 1 and 6 that may be read and written (R426). Bits [63:57] of an address are
not looked at, the model's choice, and the access counts as one of the master distributor's die (R193; log 57). -/
def State.schedAddr (s : State) (ctx : Nat) (va : Word) : Option Nat × State :=
  match s.translate none ctx va with
  | (some x, s) =>
    if x.r && x.w && (x.tt = 0 || x.tt = 1 || x.tt = 6) then (some x.pa, s.noteHot s.master x) else (none, s)
  | (none, s) => (none, s)

/-- The address lies on a stack that is not ready, or its translation does, so that the access waits (R416). -/
def State.schedHeld (s : State) (ctx : Nat) (va : Word) : Bool :=
  match (s.schedAddr ctx va).1 with
  | some pa => !s.stackReady pa
  | none => false

/-- A record read in a context. One that carries a poison mark is no valid record, the model's choice (R130, R334; log 57). -/
def State.recAt (s : State) (ctx : Nat) (va : Word) : Option (Rec × Nat) × State :=
  match s.schedAddr ctx va with
  | (some pa, s) =>
    if s.poisonedRange (s.part.key pa) 64 then (none, s) else (some (Rec.ofNat (bytesToNat (s.readPhys pa 64)), pa), s)
  | (none, s) => (none, s)

/-! ## Queues (R131, R132) -/

def State.queue (s : State) (q : Nat) : Queue := SMap.get {} s.sched.queues q
def State.onQueue (s : State) (q : Nat) (f : Queue → Queue) : State :=
  { s with sched := { s.sched with queues := SMap.set {} s.sched.queues q (f (s.queue q)) } }

/-- Posts held for a queue, on any die. -/
def State.hasHeld (s : State) (q : Nat) : Bool := (List.range 4).any (fun d => (s.dieAt d).held.any (fun p => p.queue = q))

def Queue.entries (q : Queue) : Nat := q.qwr - q.qrd
def Queue.full (q : Queue) : Bool := 2 ^ q.size ≤ q.entries
/-- The ring as `spawn` sees it (R132). -/
def State.spawnFull (s : State) (q : Nat) : Bool :=
  let t := s.queue q
  2 ^ t.size - t.reserve ≤ t.entries || s.hasHeld q

/-- Something to serve. -/
def Queue.waiting (q : Queue) : Bool := q.front ≠ [] || 0 < q.entries

/-- The physical address of a ring's entry by its number. -/
def Queue.entryAt (t : Queue) (k : Nat) : Nat := t.qbase.toNat + k % 2 ^ t.size * 8

/-! ## Records of the scheduler (R327, R354, R427). An agent whose record finds no room waits with all it does: `roomFor` says whether it
need not (R326). -/

/-- The record of a write of the save engine or of a die's tracker that a fenced die's bytes drop; MASTER 6 is the model's choice (R354;
log 59). -/
def memDrop (die : Nat) (pa : Option Nat) (s : State) : State :=
  match pa with
  | some a => postDieRecord s die { core := 63, master := 6, cause := cMachine, kind := 7, addr := word a }
  | none => s

/-- A record of kind 5 (R327, R427). -/
def scheduleRecord (s : State) (die : Nat) (addr : Word) (why queue ctx : Nat) : State :=
  postDieRecord s die { core := 63, master := 4, cause := 0, kind := 5, addr := addr, d0 := word why, d1 := word queue, ctx := ctx }

/-- The record of a write of the scheduler that a fenced die's bytes drop (R354). -/
def schedDrop (s : State) (die ctx pa : Nat) : State :=
  postDieRecord s die { core := 63, master := 4, cause := cMachine, kind := 7, addr := word pa, ctx := ctx }

/-- The records that a step posts outside the cores find a free entry (R326). -/
def State.roomFor (s s' : State) : Bool :=
  (List.range 4).all (fun d => s.dieRecordRoom d || (s'.dieAt d).unposted.length ≤ (s.dieAt d).unposted.length)

/-- The records that a step posts to a core's queue find a free entry (R326). -/
def State.fits (s s' : State) (core : Nat) : Bool :=
  s.recordRoom core || (s'.coreAt core).unposted.length ≤ (s.coreAt core).unposted.length

/-- A post enters its ring: the entry, then QWR. One to bytes of a fenced die is dropped with a record (R354), and one to a stack that is not
ready waits: none. -/
def State.enterRing (s : State) (die q : Nat) (p : Post) : Option State :=
  let t := s.queue q
  let pa := t.entryAt t.qwr
  if !s.stackReady pa then none
  else if s.onFenced (s.part.key pa) then some (schedDrop s die t.ctx pa)
  else some ((s.writePhys pa (natToBytes 8 p.addr.toNat)).onQueue q (fun t =>
    { t with qwr := t.qwr + 1
             info := SMap.set none t.info t.qwr (some p)
             headSince := if t.waiting then t.headSince else s.clock.time }))

/-- A post other than `spawn`'s: into the ring, or held on the poster's die with a record; none where it must wait (R132). -/
def postOther (s : State) (die q : Nat) (p : Post) : Option State :=
  if (s.queue q).full || s.hasHeld q then
    if (s.dieAt die).held.length < 64 then
      let (n, s) := s.fresh
      some ((scheduleRecord s die p.addr 2 q (s.queue q).ctx).onDieAt die (fun d => { d with held := d.held ++ [⟨q, p, n⟩] }))
    else none
  else s.enterRing die q p

/-! ## Completion and joins (R139, R145) -/

/-- Bytes of a replay slot: snapshot and counters (R143). -/
def replaySlotSize (psize ncount : Nat) : Nat := (psize + 4 * ncount + 63) / 64 * 64

/-- A graph's header as `tgraph` reads it. -/
structure GraphHead where
  nodes : Word
  param : Word
  area : Word
  ncount : Nat
  psize : Nat
  replays : Nat
  clean : Bool
  deriving DecidableEq, Repr

def GraphHead.ofNat (h : Nat) : GraphHead :=
  { nodes := sext57 (word (recBits h 0 56 0)), param := sext57 (word (recBits h 8 56 0))
    area := sext57 (word (recBits h 0x10 56 0)), ncount := recBits h 0x18 31 0, psize := recBits h 0x1C 31 0
    replays := recBits h 0x20 7 0
    clean := recBits h 0 63 57 = 0 && recBits h 0 6 0 = 0 && recBits h 8 63 57 = 0 && recBits h 8 5 0 = 0 &&
      recBits h 0x10 63 57 = 0 && recBits h 0x10 5 0 = 0 && bits h 511 (8 * 0x21) = 0 }

/-- A header that `tgraph` accepts, its nodes apart (R144). -/
def GraphHead.ok (h : GraphHead) : Bool :=
  h.clean && 1 ≤ h.ncount && h.ncount ≤ 65536 && h.psize % 64 = 0 && h.psize ≤ 1048576 && 1 ≤ h.replays && h.replays ≤ 16

/-- Node j of the graph in replay slot k. -/
def GraphHead.ref (h : GraphHead) (k j : Nat) (notify : Word) : GraphRef :=
  { nodes := h.nodes, area := h.area, ncount := h.ncount, psize := h.psize, slot := k, node := j, notify := notify }

/-- The snapshot of the replay: the start of its slot. -/
def GraphRef.snapshot (g : GraphRef) : Word := g.area + word (64 + g.slot * replaySlotSize g.psize g.ncount)
/-- The address of counter j of the replay. -/
def GraphRef.counter (g : GraphRef) (j : Nat) : Word := g.snapshot + word (g.psize + 4 * j)
/-- The address of node j. -/
def GraphRef.nodeAt (g : GraphRef) (j : Nat) : Word := g.nodes + word (128 * j)
/-- The replay's word of the control block: zero while the slot is free (log 55). -/
def GraphRef.control (g : GraphRef) : Word := g.area + word (4 * g.slot)
/-- The post of an instance. -/
def GraphRef.post (g : GraphRef) : Post := { addr := g.nodeAt g.node, graph := some g }

/-- The word of a busy replay slot, of whose instances some have retired (log 55). -/
def busyWord (retired : Nat) : Nat := 2 ^ 31 + retired

/-- Four bytes of a scheduler structure; that bits [63:57] of its address are dropped holds for a `tgraph`'s s[b] too (R139; log 57). -/
def State.schedRead32 (s : State) (ctx : Nat) (va : Word) : Option (Nat × Nat) × State :=
  match s.schedAddr ctx va with
  | (some pa, s) => (some (bytesToNat (s.readPhys pa 4), pa), s)
  | (none, s) => (none, s)

/-- A graph template is a record without PARENT and JOIN (R143). -/
def templateOk (r : Rec) : Bool := r.parent = 0 && (r.join = 0 || r.range)

/-- What a step of a completion gives: the state, and what now has to be done before anything else; none where it must wait. -/
abbrev Acted := Option (State × List Act)

/-- A valid record posted: a ranged one is split, and one without chunks is complete at once (R132, R135). A JOIN on a fenced die's bytes is
dropped with a record (R354). -/
def postValid (s : State) (die q : Nat) (p : Post) (r : Rec) (pa : Nat) : Acted :=
  let ctx := (s.queue q).ctx
  if r.range then
    let s := if s.onFenced (s.part.key pa) then schedDrop s die ctx (pa + 0x18) else s.writePhys (pa + 0x18) (natToBytes 4 r.chunks)
    if r.chunks = 0 then some (s, [⟨die, ctx, .complete p r.parent⟩])
    else (postOther s die q { p with chunks := some r.chunks }).map (fun s => (s, []))
  else (postOther s die q p).map (fun s => (s, []))

/-- The post that a join or an instance makes: validated in the context of its own queue (R129, R426). Where the record cannot be read in the
context of the completion the queue is not known, and DETAIL1 is 0, the model's choice (R327; log 60). -/
def postJoined (s : State) (die ctx : Nat) (p : Post) : Acted :=
  if s.schedHeld ctx p.addr then none
  else match s.recAt ctx p.addr with
  | (none, s) => some (scheduleRecord s die p.addr 5 0 ctx, [])
  | (some (r0, _), s) =>
    let q := r0.queue
    let qctx := (s.queue q).ctx
    if s.schedHeld qctx p.addr then none
    else match s.recAt qctx p.addr with
    | (none, s) => some (scheduleRecord s die p.addr 5 q qctx, [])
    | (some (r, pa), s) =>
      if !s.recValid true r || !(s.queue q).en || (p.graph.isSome && !templateOk r) then some (scheduleRecord s die p.addr 5 q qctx, [])
      else postValid s die q p r pa

/-- A join counter decremented in a context (R139). A target without a queue known to the record has DETAIL1 0, the model's choice (R327;
log 60). -/
def joinDecrement (s : State) (die ctx : Nat) (target : Word) (graph : Option GraphRef) : Acted :=
  if target = 0 then some (s, [])
  else if s.schedHeld ctx (target + 0x18) then none
  else match s.schedRead32 ctx (target + 0x18) with
  | (none, s) => some (scheduleRecord s die target 6 0 ctx, [])
  | (some (j, pa), s) =>
    if s.onFenced (s.part.key pa) then some (schedDrop s die ctx pa, [])
    else if j = 0 then some (scheduleRecord s die target 3 0 ctx, [])
    else
      let s := s.writePhys pa (natToBytes 4 (j - 1))
      if j ≠ 1 then some (s, [])
      else match s.recAt ctx target with
        | (none, s) => some (scheduleRecord s die target 5 0 ctx, [])
        | (some (r, _), s) =>
          some (s, [⟨die, ctx, if r.range then .complete { addr := target, graph := graph } r.parent else .post { addr := target }⟩])

/-- A record or an instance is complete: its parent is to be notified, or its graph's successors and its replay (R139, R145). Of the manual's
silence the model makes this: an NSUCC above 30 counts as 30, and a dependency part that cannot be read ends the completion with one record of
code 4, its successors and its replay untouched (log 60). -/
def completeWork (s : State) (die ctx : Nat) (p : Post) (parent : Word) : Acted :=
  match p.graph with
  | none => some (s, [⟨die, ctx, .join parent none⟩])
  | some g =>
    if s.schedHeld ctx (p.addr + 0x40) then none
    else match s.schedAddr ctx (p.addr + 0x40) with
    | (none, s) => some (scheduleRecord s die p.addr 4 0 ctx, [])
    | (some npa, s) =>
      let dep := bytesToNat (s.readPhys npa 64)
      some (s, (List.range (min (recBits dep 2 15 0) 30)).map (fun j => ⟨die, ctx, .succ p.addr g (recBits dep (4 + 2 * j) 15 0)⟩) ++
        [⟨die, ctx, .retired p.addr g⟩])

/-- Counter j of a replay decremented, and its instance posted at zero (R145). A counter on a fenced die's bytes is dropped with a record, and
what would follow from it does not (R354). -/
def succDecrement (s : State) (die ctx : Nat) (node : Word) (g : GraphRef) (j : Nat) : Acted :=
  if g.ncount ≤ j then some (scheduleRecord s die node 4 0 ctx, [])
  else if s.schedHeld ctx (g.counter j) then none
  else match s.schedRead32 ctx (g.counter j) with
    | (none, s) => some (scheduleRecord s die node 4 0 ctx, [])
    | (some (n, pa), s) =>
      if s.onFenced (s.part.key pa) then some (schedDrop s die ctx pa, [])
      else if n = 0 then some (scheduleRecord s die node 4 0 ctx, [])
      else some (s.writePhys pa (natToBytes 4 (n - 1)), if n = 1 then [⟨die, ctx, .post { g with node := j }.post⟩] else [])

/-- retired(k) counted; with the last instance the replay's slot is free and its notice is to be given (R145). A control word that cannot be
read counts nothing and leaves one record of code 4, the model's choice (log 60). -/
def retireInstance (s : State) (die ctx : Nat) (node : Word) (g : GraphRef) : Acted :=
  if s.schedHeld ctx g.control then none
  else match s.schedRead32 ctx g.control with
  | (none, s) => some (scheduleRecord s die node 4 0 ctx, [])
  | (some (w, pa), s) =>
    if s.onFenced (s.part.key pa) then some (schedDrop s die ctx pa, [])
    else
      let n := w % 2 ^ 31 + 1
      if n < g.ncount then some (s.writePhys pa (natToBytes 4 (busyWord n)), [])
      else some (s.writePhys pa (natToBytes 4 0), [⟨die, ctx, .join g.notify none⟩])

/-- One act. A root is posted though its queue's EN has been cleared since its `tgraph` read it, the model's choice (R131; log 60). -/
def doAct (s : State) (a : Act) : Acted :=
  match a.deed with
  | .root p r pa => postValid s a.die (Rec.ofNat r).queue p (Rec.ofNat r) pa
  | .complete p parent => completeWork s a.die a.ctx p parent
  | .join target graph => joinDecrement s a.die a.ctx target graph
  | .succ node g j => succDecrement s a.die a.ctx node g j
  | .retired node g => retireInstance s a.die a.ctx node g
  | .post p => postJoined s a.die a.ctx p

/-- Acts done in order, each followed at once by those that it sets off, as far as none must wait for a place, a stack or a record; and those
that are left (R132, R326). -/
def runActs : Nat → State → List Act → State × List Act
  | 0, s, as => (s, as)
  | _, s, [] => (s, [])
  | fuel + 1, s, a :: as =>
    match (doAct s a).filter (fun r => s.roomFor r.1) with
    | none => (s, a :: as)
    | some (s, more) => runActs fuel s (more ++ as)

/-- Acts of one turn: those that are left go on in the next. -/
def actTurn : Nat := 65536

end Sys2Proof.Machine
end

