-- ==== Sys2Proof/Machine/Operands.lean ====
section
/-! DEFINITION. Operands of vector instructions: lanes, elements by tag, sources, the operation type and the destination's tag (01 R8 to
R10, R16, R17; 02 R24, R25; 05 R98 to R102). -/

namespace Sys2Proof.Machine

/-! ## Lanes (R8) -/

/-- The pattern of element i of width w. -/
def lane (x : VWord) (w k : Nat) : Nat := (x.toNat >>> (w * k)) % 2 ^ w

/-- The register with element i of width w replaced. -/
def setLane (x : VWord) (w k b : Nat) : VWord :=
  (x &&& ~~~(BitVec.ofNat 2048 (2 ^ w - 1) <<< (w * k))) ||| (BitVec.ofNat 2048 (b % 2 ^ w) <<< (w * k))

/-- The register with a list of elements replaced, the last of two at one index standing. -/
def setLanes (x : VWord) (w : Nat) (es : List (Nat × Nat)) : VWord := es.foldl (fun x e => setLane x w e.1 e.2) x

/-! ## The guard and the row (R16, R17) -/

/-- Element i is active under GUARD and POL. -/
def Hart.active (h : Hart) (k : Nat) : Bool :=
  h.guard = 63 || (h.preg (BitVec.ofNat 6 h.guard)).getLsbD k != h.pol

/-- E, the elements of a row of width w. -/
def Hart.count (h : Hart) (w : Nat) : Nat := min h.vlen (2048 / w)

/-- VSTART. -/
def Hart.first (h : Hart) : Nat := field h.vstart 9 0

/-- Indices from lo to below n. -/
def indices (lo n : Nat) : List Nat := (List.range n).filter (fun k => lo ≤ k)

/-- The active indices of a row. -/
def Hart.row (h : Hart) (lo n : Nat) : List Nat := (indices lo n).filter h.active

/-- The width of a register's elements (R98). -/
def Hart.width (h : Hart) (r : Nat) : Nat := (h.tag r).width h.vwBits

/-- p of MODULUS (R12). -/
def Hart.prime (h : Hart) : Nat := h.modulus.toNat

/-! ## Elements -/

/-- A source of a vector operation: a register, or s[b] of a scalar form with its number (R100). -/
inductive Src
  | v (r : Nat)
  | s (x : Word) (r : Nat)
  deriving DecidableEq, Repr

/-- The source that a last operand names. -/
def Hart.src (h : Hart) : VOrS → Src
  | .v r => .v r.toNat
  | .s r => .s (h.sreg r) r.toNat

/-- The pattern of element k, where the source is read as tag t. -/
def Hart.bitsOf (h : Hart) (t : Tag) (src : Src) (k : Nat) : Nat :=
  match src with
  | .v r => lane (h.vreg r) (t.width h.vwBits) k
  | .s x _ => x.toNat % 2 ^ t.width h.vwBits

/-- The exact value of element k (R100); a mod32 input is reduced, which R45 allows only under SAT. -/
def Hart.value (h : Hart) (t : Tag) (src : Src) (k : Nat) : Val :=
  let b := h.bitsOf t src k
  match t with
  | .mod32 => .int (b % h.prime : Nat)
  | .e2m1x =>
    match src with
    | .v r => .num (decodeE2m1x (lane (h.vreg (r + 1)) 8 (2 * (k / 32))) (lane (h.vreg (r + 1)) 8 (2 * (k / 32) + 1)) b)
    | .s .. => .num (.nan false)
  | .bfp16 =>
    match src with
    | .v r => .num (decodeBfp16 (lane (h.vreg (r + 1)) 8 (k / 64)) b)
    | .s .. => .num (.nan false)
  | _ => if t.isInt then .int (t.intVal b) else .num (decodeFloat t h.ftz b)

/-- The tag a source is read as; a scalar takes the tag of a (R100). -/
def Hart.srcTag (h : Hart) (a : Nat) : Src → Tag
  | .v r => h.tag r
  | .s .. => h.tag a

/-! ## Operation type and destination (R10, R25, R101) -/

/-- Tags with a numeric value. -/
def Tag.numeric (t : Tag) : Bool := t.isInt || t.isFloat || t = .mod32

/-- The operation type of a list of source tags, pairwise (R25, R113); none traps OPERAND_TAG. -/
def opType : List Tag → Option Tag
  | [] => none
  | t :: ts => ts.foldl (fun o u => o.bind (fun x => x.join u)) (if t.numeric then some t else none)

/-- Whether R26 gives a conversion from an operation type to a destination: residues stay residues. -/
def converts (op t : Tag) : Bool := (op = .mod32) = (t = .mod32)

/-- The tag of register d set, with pairing; none where v64 would be needed (R10). -/
def Hart.retag (h : Hart) (d : Nat) (t : Tag) : Option Hart :=
  if t.paired then
    if d = 63 then none
    else
      let h1 := if (h.tag (d + 1)).paired then h.setTag (d + 2) .untyped else h
      some ((h1.setTag d t).setTag (d + 1) t.side)
  else
    let h1 := if (h.tag d).paired then h.setTag (d + 1) .untyped else h
    some (h1.setTag d t)

/-- The destination with its tag: an untyped one takes the operation type; a side register traps (R10, R25). -/
def Hart.takeDest (h : Hart) (d : Nat) (op : Tag) : Option (Hart × Tag) :=
  if h.tag d = .untyped then (h.retag d op).map (fun h => (h, op))
  else if (h.tag d).isSide then none
  else some (h, h.tag d)

/-- The conditions on a write of whole blocks (R101). -/
def Hart.blocksOk (h : Hart) (t : Tag) : Bool :=
  !t.paired || (h.guard = 63 && h.first = 0 && h.vlen % t.block = 0)

/-- The greatest of a list of widths (R98). -/
def widest (ws : List Nat) : Nat := ws.foldl max 1

/-- Widths of the vector registers among the sources (R98). -/
def Hart.srcWidths (h : Hart) (srcs : List Src) : List Nat :=
  srcs.filterMap (fun x => match x with | .v r => some (h.width r) | .s .. => none)

/-! ## The tag checks of an instruction and its destination (R10, R24, R25, R100, R101, R106 to R113, R119, R122, R123) -/

/-- Integers and floats, blocks among them. -/
def intOrFloat (t : Tag) : Bool := t.isInt || t.isFloat

/-- A register that is not paired (R101). -/
def unpaired (h : Hart) (r : VReg) : Bool := !(h.tag r.toNat).paired

/-- Sources that a scalar form may not have: a paired register beside s[b] (R100). -/
def scalarFormOk (h : Hart) (srcs : List Src) : Bool :=
  !(srcs.any (fun x => match x with | .s .. => true | .v _ => false) &&
    srcs.any (fun x => match x with | .s .. => false | .v r => (h.tag r).paired))

/-- A tag that an instruction accepts. -/
def tagIf (ok : Tag → Bool) (t : Tag) : Option Tag := if ok t then some t else none

/-- The operation type of some tags, where the instruction accepts it (R25, R106). -/
def typeIf (ok : Tag → Bool) (ts : List Tag) : Option Tag := (opType ts).bind (tagIf ok)

/-- An arithmetic instruction's operation type, and its destination once every check of tags has passed: the conversion, whole blocks, the
scalar form. -/
def Hart.arithDest (h : Hart) (d : Nat) (srcs : List Src) (op : Option Tag) : Option (Tag × Hart × Tag) :=
  op.bind (fun op => (h.takeDest d op).bind (fun r =>
    if converts op r.2 && h.blocksOk r.2 && scalarFormOk h srcs then some (op, r.1, r.2) else none))

/-- The operation type of a shift: a's, where a and a vector of amounts are integers (R106). -/
def shiftType (h : Hart) (a : VReg) (b : VOrS) : Option Tag :=
  let amounts := match b with | .v r => (h.tag r.toNat).isInt | .s _ => true
  if (h.tag a.toNat).isInt && amounts then some (h.tag a.toNat) else none

/-- A tag of one register of an R108 operation: any but a main register of a pair. A mod32 source of `vnot` acts on its pattern, as R44
and R108 have it, though a sentence of R109 has it trap: the model's choice (log 53). -/
def bitwiseOk (t : Tag) : Bool := !t.paired

/-- The destination of a bitwise instruction: registers of one width, and an untyped d takes a's tag (R108). -/
def bitwiseDest (h : Hart) (d a : VReg) (b : Option VOrS) : Option Hart :=
  let ta := h.tag a.toNat
  let w := h.width a.toNat
  let td := h.tag d.toNat
  let bOk := match b with
    | some (.v r) => bitwiseOk (h.tag r.toNat) && h.width r.toNat = w
    | _ => true
  let dOk := td = .untyped || (bitwiseOk td && td.width h.vwBits = w)
  if !bitwiseOk ta || !bOk || !dOk then none
  else if td = .untyped && ta ≠ .untyped && !ta.isSide then h.retag d.toNat ta
  else some h

/-- Where a pattern may be copied, and the register's tag afterwards (R110). -/
def moveTag (ta td : Tag) : Option Tag :=
  if ta.isSide then (if td = .untyped then some .untyped else none)
  else if ta = td then some ta
  else if td = .untyped then some ta
  else if ta = .untyped && td.isSide then some td
  else none

/-- The destination of `vmov` with its tag (R101, R110). -/
def moveDest (h : Hart) (d a : VReg) : Option (Hart × Tag) :=
  (moveTag (h.tag a.toNat) (h.tag d.toNat)).bind (fun t =>
    if h.blocksOk t then (if t = h.tag d.toNat then some h else h.retag d.toNat t).map (fun g => (g, t)) else none)

/-- The destination of `vmred` (R112). -/
def normDest (h : Hart) (d a : VReg) : Option Hart :=
  if h.tag a.toNat = .bfp16 && h.blocksOk .bfp16 then
    (h.takeDest d.toNat .bfp16).bind (fun r => if r.2 = .bfp16 then some r.1 else none)
  else none

/-- The tag rule of R119: d has a's tag or is untyped and takes it; neither is paired, and a is not a side register. -/
def permuteDest (h : Hart) (d a : VReg) : Option Hart :=
  let t := h.tag a.toNat
  if !unpaired h a || !unpaired h d || t.isSide then none
  else if h.tag d.toNat = t then some h
  else if h.tag d.toNat = .untyped then h.retag d.toNat t
  else none

/-- The tag checks of a reduction or scan, and its destination. -/
def foldDest (h : Hart) (d a : VReg) (ok : Tag → Bool) : Option (Hart × Tag) :=
  let t := h.tag a.toNat
  if !ok t || !unpaired h a || !unpaired h d then none
  else if t = .untyped && h.tag d.toNat = .untyped then some (h, .untyped)
  else (h.takeDest d.toNat t).bind (fun r => if converts t r.2 then some r else none)

end Sys2Proof.Machine
end

