-- ==== Sys2Proof/Machine/Flags.lean ====
section
/-! DEFINITION. What a vector write leaves beside its elements: HWM (01 R20), FFLAGS (R21, R30), the mod32 check (02 R45), and the write
of converted results (02 R26, R36, R38; 05 R99, R101). -/

namespace Sys2Proof.Machine

/-! ## HWM (R20) -/

/-- HWM after a write of register d at width w; a paired register counts the next one too. -/
def Hart.noteWrite (h : Hart) (d w : Nat) : Hart :=
  if h.vlen = 0 then h
  else
    let last := (h.count w * w - 1) / 8
    let reg := if (h.tag d).paired then d + 1 else d
    { h with hwm := word (65536 + max (field h.hwm 15 8) last * 256 + max (field h.hwm 5 0) reg) }

/-! ## mod32 inputs (R45) -/

/-- TRAPVEC of an element: the register, SCAL, the index (R11, R45, R126). -/
def vecWord (scal : Bool) (reg k : Nat) : Word := word ((if scal then 16777216 else 0) + reg * 65536 + k)

/-- The lowest active element with an input at or above p; where two of its inputs are, TRAPVEC names the first source, the model's choice
(R45; log 53). -/
def Hart.modViolation (h : Hart) (srcs : List Src) (row : List Nat) : Option Word :=
  row.findSome? (fun k => srcs.findSome? (fun x =>
    if h.bitsOf .mod32 x k < h.prime then none
    else match x with
      | .v r => some (vecWord false r k)
      | .s _ r => some (vecWord true r k)))

/-- The check before an operation on residues: a trap under SAT = 0, the sticky flag under SAT = 1 (R45). -/
def Hart.modCheck (h : Hart) (op : Tag) (srcs : List Src) (row : List Nat) : Except Trap FFlags :=
  if op ≠ .mod32 then .ok 0
  else match h.modViolation srcs row with
    | none => .ok 0
    | some vec => if h.sat then .ok fMODRNG else .error ⟨cModRange, 0, vec⟩

/-! ## Writing results -/

/-- Elements of a register replaced. -/
def Hart.putLanes (h : Hart) (d w : Nat) (es : List (Nat × Nat)) : Hart :=
  (h.setV d (setLanes (h.vreg d) w es)).refill d w (es.map (·.1))

/-- Element results of an unpaired destination, each converted once (R26). -/
def Hart.putElems (h : Hart) (d : Nat) (op t : Tag) (row : List Nat) (f : Nat → Val × FFlags) : Hart :=
  let w := t.width h.vwBits
  let rs := row.map (fun k => let r := f k; let q := roundTo h.arith h.prime op t r.1; ((k, q.1), r.2 ||| q.2))
  (h.putLanes d w (rs.map (·.1))).raise (rs.foldl (fun fl r => fl ||| r.2) 0)

/-- Side bytes 2 × blocks or blocks and above write as zero (R10). -/
def sideLanes (t : Tag) (k : Nat) (s x : Nat) : List (Nat × Nat) :=
  if t = .e2m1x then [(2 * k, s), (2 * k + 1, x)] else [(k, s)]

/-- Bytes of a side register that carry meaning (R10). -/
def sideBytes (t : Tag) : Nat := if t = .e2m1x then 32 else 2

/-- The side register with its idle bytes zero. -/
def trimSide (t : Tag) (x : VWord) : VWord := x &&& BitVec.ofNat 2048 (2 ^ (8 * sideBytes t) - 1)

/-- The first byte of a side register that carries no meaning (R10). -/
def Tag.idleFrom (t : Tag) : Nat := if t = .e2m1s then 32 else 2

/-- Patterns as a register of tag t takes them: idle bytes of a side register write as zero (R10). -/
def Tag.holdAt (t : Tag) (k b : Nat) : Nat := if t.isSide && t.idleFrom ≤ k then 0 else b

/-- Patterns of width w written into d without conversion (R10). -/
def Hart.putPatterns (h : Hart) (d w : Nat) (es : List (Nat × Nat)) : Hart :=
  h.putLanes d w (es.map (fun e => (e.1, (h.tag d).holdAt e.1 e.2)))

/-- A row of register d has been written, by its elements and, of a paired one, its side bytes, with which the idle ones are written (R10,
R335). -/
def Hart.refillRow (h : Hart) (d w : Nat) (main side : List Nat) : Hart :=
  let t := h.tag d
  let g := h.refill d w main
  if t.paired && h.vlen ≠ 0 then g.refill (d + 1) 8 (side ++ (List.range 256).drop (sideBytes t)) else g

/-- The side bytes of the first n blocks (R10). -/
def sideOf (t : Tag) (n : Nat) : List Nat := List.range (if t = .e2m1x then 2 * n else n)

/-- One block converted and written (R36, R38, R101). -/
def Hart.putBlock (h : Hart) (d : Nat) (t : Tag) (k : Nat) (vs : List Num) : Hart :=
  let n := t.block
  let w := t.width 0
  if t = .e2m1x then
    let b := encodeE2m1x vs
    (((h.setV d (setLanes (h.vreg d) w (b.codes.mapIdx (fun j c => (k * n + j, c))))).setV (d + 1)
      (trimSide t (setLanes (h.vreg (d + 1)) 8 (sideLanes t k b.s b.x)))).raise b.flags)
  else
    let b := encodeBfp16 h.rnd vs
    (((h.setV d (setLanes (h.vreg d) w (b.ms.mapIdx (fun j m => (k * n + j, wrap 16 m))))).setV (d + 1)
      (trimSide t (setLanes (h.vreg (d + 1)) 8 (sideLanes t k b.e 0)))).raise b.flags)

/-- Results of a paired destination: every block whose elements all lie below n. A block below VL that E cuts, as with 64-bit sources into
bfp16, is not written: the model's choice (R101, log 22). -/
def Hart.putBlocks (h : Hart) (d : Nat) (t : Tag) (n : Nat) (f : Nat → Val × FFlags) : Hart :=
  let m := n / t.block
  let g := (List.range m).foldl (fun h k =>
    let rs := (List.range t.block).map (fun j => f (k * t.block + j))
    (h.putBlock d t k (rs.map (fun r => r.1.toNum))).raise (rs.foldl (fun fl r => fl ||| r.2) 0)) h
  if m = 0 then g else g.refillRow d (t.width 0) (List.range (m * t.block)) (sideOf t m)

/-- Results written into d of tag t. -/
def Hart.put (h : Hart) (d : Nat) (op t : Tag) (n : Nat) (row : List Nat) (f : Nat → Val × FFlags) : Hart :=
  if t.paired then h.putBlocks d t n f else h.putElems d op t row f

/-- The end of a vector instruction that wrote d at width w: HWM, VSTART (R20, R99). -/
def Hart.wrote (h : Hart) (d w : Nat) : Hart := { h.noteWrite d w with vstart := 0 }

/-- The end of a vector instruction that wrote no vector register. -/
def Hart.restart (h : Hart) : Hart := { h with vstart := 0 }

end Sys2Proof.Machine
end

