-- ==== Sys2Proof/Machine/ScalarInt.lean ====
section
/-! DEFINITION. Scalar integer instructions (04 R71 to R76): majors 0x02 to 0x0B. -/

namespace Sys2Proof.Machine

/-- s[d] := f(s[a], s[b]) (R71, R73). -/
def aluOp (s : State) (d a b : SReg) (f : Word → Word → Word) : Result :=
  finishS s d (f (s.hart.sreg a) (s.hart.sreg b))

/-- s[d] := f(s[a]) (R73). -/
def aluOne (s : State) (d a : SReg) (f : Word → Word) : Result := finishS s d (f (s.hart.sreg a))

/-- s[d] := f(s[a], sext(imm14)) (R74). -/
def aluImm (s : State) (d a : SReg) (i : BitVec 14) (f : Word → Word → Word) : Result :=
  finishS s d (f (s.hart.sreg a) (i.signExtend 64))

/-- 1 or 0. -/
def flag (b : Bool) : Word := if b then 1 else 0

/-- The shift amount b[5:0] (R73). -/
def shiftAmount (b : Word) : Nat := b.toNat % 64

/-- Leading zeros of the low `n` bits. -/
def leadingZeros (n x : Nat) : Nat := if x % 2 ^ n = 0 then n else n - 1 - Nat.log2 (x % 2 ^ n)

/-- Trailing zeros, from bit k upwards, `n` bits left. -/
def trailingZeros : Nat → Nat → Nat
  | 0, _ => 0
  | n + 1, x => if x % 2 = 1 then 0 else 1 + trailingZeros n (x / 2)

/-- Set bits of the low `n` bits. -/
def popCount (n x : Nat) : Nat := popBits n x
where
  popBits : Nat → Nat → Nat
    | 0, _ => 0
    | n + 1, x => x % 2 + popBits n (x / 2)

/-- The signed quotient (R31, R106). -/
def divSigned (a b : Word) : Word := BitVec.ofInt 64 (intQuot .int64 a.toInt b.toInt)
/-- The signed remainder (R31). -/
def remSigned (a b : Word) : Word := BitVec.ofInt 64 (intRem a.toInt b.toInt)
/-- The unsigned quotient (R31). -/
def divUnsigned (a b : Word) : Word := BitVec.ofInt 64 (intQuot .uint64 a.toNat b.toNat)
/-- The unsigned remainder (R31). -/
def remUnsigned (a b : Word) : Word := BitVec.ofInt 64 (intRem a.toNat b.toNat)

/-- Bits [127:64] of a signed product. -/
def mulHigh (a b : Word) : Word := BitVec.ofInt 64 (a.toInt * b.toInt / 2 ^ 64)
/-- Bits [127:64] of an unsigned product. -/
def mulHighU (a b : Word) : Word := word (a.toNat * b.toNat / 2 ^ 64)

/-- Bytes in reverse order. -/
def byteSwap (a : Word) : Word := word (bytesToNat (natToBytes 8 a.toNat).reverse)

/-- The logical shift right. -/
def shiftRight (a : Word) (k : Nat) : Word := a >>> k
/-- The arithmetic shift right. -/
def shiftArith (a : Word) (k : Nat) : Word := a.sshiftRight k

def execAdd (d a b : SReg) (s : State) : Result := aluOp s d a b (· + ·)
def execSub (d a b : SReg) (s : State) : Result := aluOp s d a b (· - ·)
def execAnd (d a b : SReg) (s : State) : Result := aluOp s d a b (· &&& ·)
def execOr (d a b : SReg) (s : State) : Result := aluOp s d a b (· ||| ·)
def execXor (d a b : SReg) (s : State) : Result := aluOp s d a b (· ^^^ ·)
def execSll (d a b : SReg) (s : State) : Result := aluOp s d a b (fun x y => x <<< shiftAmount y)
def execSrl (d a b : SReg) (s : State) : Result := aluOp s d a b (fun x y => shiftRight x (shiftAmount y))
def execSra (d a b : SReg) (s : State) : Result := aluOp s d a b (fun x y => shiftArith x (shiftAmount y))
def execSlt (d a b : SReg) (s : State) : Result := aluOp s d a b (fun x y => flag (x.slt y))
def execSltu (d a b : SReg) (s : State) : Result := aluOp s d a b (fun x y => flag (x.ult y))
def execMin (d a b : SReg) (s : State) : Result := aluOp s d a b (fun x y => if x.slt y then x else y)
def execMax (d a b : SReg) (s : State) : Result := aluOp s d a b (fun x y => if x.slt y then y else x)
def execMinu (d a b : SReg) (s : State) : Result := aluOp s d a b (fun x y => if x.ult y then x else y)
def execMaxu (d a b : SReg) (s : State) : Result := aluOp s d a b (fun x y => if x.ult y then y else x)
def execMul (d a b : SReg) (s : State) : Result := aluOp s d a b (· * ·)
def execMulh (d a b : SReg) (s : State) : Result := aluOp s d a b mulHigh
def execMulhu (d a b : SReg) (s : State) : Result := aluOp s d a b mulHighU
def execDiv (d a b : SReg) (s : State) : Result := aluOp s d a b divSigned
def execDivu (d a b : SReg) (s : State) : Result := aluOp s d a b divUnsigned
def execRem (d a b : SReg) (s : State) : Result := aluOp s d a b remSigned
def execRemu (d a b : SReg) (s : State) : Result := aluOp s d a b remUnsigned
def execClz (d a : SReg) (s : State) : Result := aluOne s d a (fun x => word (leadingZeros 64 x.toNat))
def execCtz (d a : SReg) (s : State) : Result := aluOne s d a (fun x => word (trailingZeros 64 x.toNat))
def execPopc (d a : SReg) (s : State) : Result := aluOne s d a (fun x => word (popCount 64 x.toNat))
def execSextb (d a : SReg) (s : State) : Result := aluOne s d a (fun x => (x.setWidth 8).signExtend 64)
def execSexth (d a : SReg) (s : State) : Result := aluOne s d a (fun x => (x.setWidth 16).signExtend 64)
def execSextw (d a : SReg) (s : State) : Result := aluOne s d a (fun x => (x.setWidth 32).signExtend 64)
def execBrev (d a : SReg) (s : State) : Result := aluOne s d a BitVec.reverse
def execBswap (d a : SReg) (s : State) : Result := aluOne s d a byteSwap

def execAddi (d a : SReg) (k : BitVec 14) (s : State) : Result := aluImm s d a k (· + ·)
def execAndi (d a : SReg) (k : BitVec 14) (s : State) : Result := aluImm s d a k (· &&& ·)
def execOri (d a : SReg) (k : BitVec 14) (s : State) : Result := aluImm s d a k (· ||| ·)
def execXori (d a : SReg) (k : BitVec 14) (s : State) : Result := aluImm s d a k (· ^^^ ·)
def execSlti (d a : SReg) (k : BitVec 14) (s : State) : Result := aluImm s d a k (fun x y => flag (x.slt y))
def execSltiu (d a : SReg) (k : BitVec 14) (s : State) : Result := aluImm s d a k (fun x y => flag (x.ult y))
def execSlli (d a : SReg) (k : BitVec 6) (s : State) : Result := aluOne s d a (· <<< k.toNat)
def execSrli (d a : SReg) (k : BitVec 6) (s : State) : Result := aluOne s d a (shiftRight · k.toNat)
def execSrai (d a : SReg) (k : BitVec 6) (s : State) : Result := aluOne s d a (shiftArith · k.toNat)

/-- sext(imm20) << 14 (R55, R76). -/
def upper (k : BitVec 20) : Word := k.signExtend 64 <<< 14

def execLui (d : SReg) (k : BitVec 20) (s : State) : Result := finishS s d (upper k)
def execAddpc (d : SReg) (k : BitVec 20) (s : State) : Result := finishS s d (s.hart.pc + upper k)

end Sys2Proof.Machine
end

