-- ==== Sys2Proof/Machine/ScalarFloat.lean ====
section
/-! DEFINITION. Scalar floating-point instructions (04 R77 to R80): majors 0x0D and 0x0E. The width bit w is set for fp64. -/

namespace Sys2Proof.Machine

/-- The format of a form (R77). -/
def scalarFormat (w : Bool) : Ieee := if w then .fp64 else .fp32

/-- The pattern a form reads (R77). -/
def scalarBits (w : Bool) (x : Word) : Nat := if w then x.toNat else x.toNat % 2 ^ 32

/-- A source's value under MODE.FTZ (R30, R77). -/
def scalarVal (h : Hart) (w : Bool) (r : SReg) : Num := (scalarFormat w).decode h.ftz (scalarBits w (h.sreg r))

/-- s[d] := a value rounded once under MODE.RND, with the flags raised (R77). -/
def floatResult (s : State) (w : Bool) (d : SReg) (r : Num × FFlags) : Result :=
  finishHart s (fun h =>
    let q := (scalarFormat w).round h.rnd h.ftz r.1
    (h.raise (r.2 ||| q.2)).setS d (word q.1))

/-- A one-source operation. -/
def floatOne (s : State) (w : Bool) (d a : SReg) (f : Num → Num × FFlags) : Result :=
  floatResult s w d (f (scalarVal s.hart w a))

/-- A two-source operation; f learns the rounding mode, on which the sign of an exact zero sum depends (R29). -/
def floatTwo (s : State) (w : Bool) (d a b : SReg) (f : Rnd → Num → Num → Num × FFlags) : Result :=
  floatResult s w d (f s.hart.rnd (scalarVal s.hart w a) (scalarVal s.hart w b))

/-- A compare: an integer result, NV for signalling NaN only (R28, R78). -/
def floatCmp (s : State) (w : Bool) (d a b : SReg) (f : Num → Num → Bool) : Result :=
  finishHart s (fun h =>
    let x := scalarVal h w a
    let y := scalarVal h w b
    (h.raise (x.snan ||| y.snan)).setS d (flag (f x y)))

/-- A conversion to an integer range (R26, R78). -/
def floatToInt (s : State) (w : Bool) (d a : SReg) (lo hi : Int) : Result :=
  finishHart s (fun h =>
    let r := roundToInt h.rnd lo hi (scalarVal h w a)
    (h.raise r.2).setS d (BitVec.ofInt 64 r.1))

/-- a + (−b). -/
def numSub (rnd : Rnd) (a b : Num) : Num × FFlags := Num.add rnd a b.neg

/-- ±(a × b) ± c rounded once (R79). -/
def fusedOp (negProduct negAddend : Bool) (rnd : Rnd) (a b c : Num) : Num × FFlags :=
  Num.fma rnd (if negProduct then a.neg else a) b (if negAddend then c.neg else c)

/-- The class bit of a pattern (R80). -/
def classBit (f : Ieee) (b : Nat) : Nat :=
  let neg := b / 2 ^ (f.exp + f.frac) % 2 = 1
  let e := b / 2 ^ f.frac % 2 ^ f.exp
  let m := b % 2 ^ f.frac
  if e = 2 ^ f.exp - 1 then
    if m = 0 then (if neg then 0 else 7) else if m < 2 ^ (f.frac - 1) then 8 else 9
  else if e = 0 then
    if m = 0 then (if neg then 3 else 4) else (if neg then 2 else 5)
  else if neg then 1 else 6

def execFadd (d a b : SReg) (w : Bool) (s : State) : Result := floatTwo s w d a b Num.add
def execFsub (d a b : SReg) (w : Bool) (s : State) : Result := floatTwo s w d a b numSub
def execFmul (d a b : SReg) (w : Bool) (s : State) : Result := floatTwo s w d a b (fun _ => Num.mul)
def execFdiv (d a b : SReg) (w : Bool) (s : State) : Result := floatTwo s w d a b (fun _ => Num.div)
def execFsqrt (d a : SReg) (w : Bool) (s : State) : Result := floatOne s w d a Num.sqrt
def execFmin (d a b : SReg) (w : Bool) (s : State) : Result := floatTwo s w d a b (fun _ => Num.min)
def execFmax (d a b : SReg) (w : Bool) (s : State) : Result := floatTwo s w d a b (fun _ => Num.max)
def execFeq (d a b : SReg) (w : Bool) (s : State) : Result := floatCmp s w d a b Num.eq
def execFlt (d a b : SReg) (w : Bool) (s : State) : Result := floatCmp s w d a b Num.lt
def execFle (d a b : SReg) (w : Bool) (s : State) : Result := floatCmp s w d a b (fun x y => x.lt y || x.eq y)
def execFunord (d a b : SReg) (w : Bool) (s : State) : Result := floatCmp s w d a b (fun x y => x.isNaN || y.isNaN)
def execFcvti (d a : SReg) (w : Bool) (s : State) : Result := floatToInt s w d a (-(2 ^ 63)) (2 ^ 63 - 1)
def execFcvtu (d a : SReg) (w : Bool) (s : State) : Result := floatToInt s w d a 0 (2 ^ 64 - 1)
def execFcvtf (d a : SReg) (w : Bool) (s : State) : Result :=
  floatResult s w d (.ofInt (s.hart.sreg a).toInt, 0)
def execFcvtfu (d a : SReg) (w : Bool) (s : State) : Result :=
  floatResult s w d (.ofInt (s.hart.sreg a).toNat, 0)
/-- The source has the other width (R78). -/
def execFcvtw (d a : SReg) (w : Bool) (s : State) : Result :=
  floatResult s w d (scalarVal s.hart (!w) a, 0)
def execFclass (d a : SReg) (w : Bool) (s : State) : Result :=
  finishS s d (word (2 ^ classBit (scalarFormat w) (scalarBits w (s.hart.sreg a))))

/-- A fused operation on three sources (R79). -/
def floatFused (s : State) (w : Bool) (d a b c : SReg) (np na : Bool) : Result :=
  floatResult s w d (fusedOp np na s.hart.rnd (scalarVal s.hart w a) (scalarVal s.hart w b) (scalarVal s.hart w c))

def execFma (d a b : SReg) (w : Bool) (c : SReg) (s : State) : Result := floatFused s w d a b c false false
def execFms (d a b : SReg) (w : Bool) (c : SReg) (s : State) : Result := floatFused s w d a b c false true
def execFnma (d a b : SReg) (w : Bool) (c : SReg) (s : State) : Result := floatFused s w d a b c true false
def execFnms (d a b : SReg) (w : Bool) (c : SReg) (s : State) : Result := floatFused s w d a b c true true

end Sys2Proof.Machine
end

