-- ==== Sys2Proof/Machine/VecArith.lean ====
section
/-! DEFINITION. Vector arithmetic, fused and unary operations, and compares (05 R106 to R114): majors 0x1B to 0x1E. -/

namespace Sys2Proof.Machine

/-! ## The shared shape of an arithmetic instruction (R25, R26, R98 to R102) -/

/-- An arithmetic instruction `i` on d: `ts` are the tags its sources are read as, `op` the operation type, and `f` gives the exact
value of an element. Tag checks come first, then the residues', then the results. -/
def vecCompute (s : State) (i : Instr) (d : Nat) (srcs : List Src) (ts : List Tag) (op : Option Tag)
    (f : Tag → List Val → Val × FFlags) : Result :=
  let h := s.hart
  match h.arithDest d srcs op with
  | none => raiseTag s i
  | some (op, h1, t) =>
    let w := widest (t.width h.vwBits :: h.srcWidths srcs)
    let n := h.count w
    let row := h.row h.first n
    match h.modCheck op srcs row with
    | .error t => raiseTrap s t
    | .ok fl =>
      let res := fun k => f op ((srcs.zip ts).map (fun p => h.value p.2 p.1 k))
      finishHart s (fun _ => ((h1.put d op t n row res).raise fl).wrote d (t.width h.vwBits))

/-- A two-source instruction that accepts the types `ok` lists (R106). -/
def vecTwo (s : State) (i : Instr) (d a : VReg) (b : VOrS) (ok : Tag → Bool) (f : Tag → Val → Val → Val × FFlags) : Result :=
  let h := s.hart
  let srcs := [Src.v a.toNat, h.src b]
  let ts := srcs.map (h.srcTag a.toNat)
  vecCompute s i d.toNat srcs ts (typeIf ok ts)
    (fun op vs => f op (vs.getD 0 (.int 0)) (vs.getD 1 (.int 0)))

/-- A one-source instruction (R109). -/
def vecOne (s : State) (i : Instr) (d a : VReg) (ok : Tag → Bool) (f : Val → Val × FFlags) : Result :=
  let h := s.hart
  let t := h.tag a.toNat
  vecCompute s i d.toNat [.v a.toNat] [t] (tagIf ok t) (fun _ vs => f (vs.getD 0 (.int 0)))

/-- A value of either kind: integers by one function, floats by another. -/
def onVals (fi : Int → Int → Int) (ff : Num → Num → Num × FFlags) (a b : Val) : Val × FFlags :=
  match a, b with
  | .int x, .int y => (.int (fi x y), 0)
  | _, _ => let r := ff a.toNum b.toNum; (.num r.1, r.2)

/-- One value of either kind. -/
def onVal (fi : Int → Int) (ff : Num → Num × FFlags) (a : Val) : Val × FFlags :=
  match a with
  | .int x => (.int (fi x), 0)
  | .num x => let r := ff x; (.num r.1, r.2)

def Val.toInt : Val → Int
  | .int z => z
  | .num _ => 0

/-- A value with no flag of its own. -/
def exact (v : Val) : Val × FFlags := (v, 0)

/-! ## Major 0x1B -/

def execVadd (d a : VReg) (b : VOrS) (s : State) : Result :=
  vecTwo s (.vadd d a b) d a b (fun _ => true) (fun _ => onVals (· + ·) (Num.add s.hart.rnd))

def execVsub (d a : VReg) (b : VOrS) (s : State) : Result :=
  vecTwo s (.vsub d a b) d a b (fun _ => true) (fun _ => onVals (· - ·) (numSub s.hart.rnd))

def execVmul (d a : VReg) (b : VOrS) (s : State) : Result :=
  vecTwo s (.vmul d a b) d a b (fun _ => true) (fun _ => onVals (· * ·) Num.mul)

/-- Bits [2w−1:w] of the product, w the operation width (R106). -/
def highHalf (op : Tag) (a b : Val) : Val :=
  let w := op.width 0
  let z := wrap (2 * w) (a.toInt * b.toInt) / 2 ^ w
  .int (if op.signed then toSigned w z else (z : Int))

def execVmulh (d a : VReg) (b : VOrS) (s : State) : Result :=
  vecTwo s (.vmulh d a b) d a b Tag.isInt (fun op x y => exact (highHalf op x y))

def execVdiv (d a : VReg) (b : VOrS) (s : State) : Result :=
  vecTwo s (.vdiv d a b) d a b intOrFloat (fun op => onVals (intQuot op) Num.div)

def execVrem (d a : VReg) (b : VOrS) (s : State) : Result :=
  vecTwo s (.vrem d a b) d a b Tag.isInt (fun _ => onVals intRem Num.div)

def execVmin (d a : VReg) (b : VOrS) (s : State) : Result :=
  vecTwo s (.vmin d a b) d a b intOrFloat (fun _ => onVals min Num.min)

def execVmax (d a : VReg) (b : VOrS) (s : State) : Result :=
  vecTwo s (.vmax d a b) d a b intOrFloat (fun _ => onVals max Num.max)

/-- |a − b| (R106). -/
def numDist (rnd : Rnd) (a b : Num) : Num × FFlags := let r := numSub rnd a b; (r.1.abs, r.2)

def execVabsd (d a : VReg) (b : VOrS) (s : State) : Result :=
  vecTwo s (.vabsd d a b) d a b intOrFloat (fun _ => onVals (fun x y => (x - y).natAbs) (numDist s.hart.rnd))

/-- A shift: the type from a alone, the amount from b modulo the operation width (R106): the width of a's operation type, the model's choice
where widths differ (log 61). -/
def vecShift (s : State) (i : Instr) (d a : VReg) (b : VOrS) (f : Int → Nat → Int) : Result :=
  let h := s.hart
  let t := h.tag a.toNat
  let w := t.width 0
  let amount : Nat → Nat := fun k =>
    match b with
    | .v r => lane (h.vreg r.toNat) (h.width r.toNat) k % w
    | .s r => (h.sreg r).toNat % 64 % w
  match h.arithDest d.toNat [.v a.toNat] (shiftType h a b) with
  | none => raiseTag s i
  | some (_, h1, dt) =>
    let n := h.count (widest (dt.width h.vwBits :: h.srcWidths [.v a.toNat, h.src b]))
    finishHart s (fun _ => (h1.put d.toNat t dt n (h.row h.first n) (fun k =>
      exact (.int (f (h.value t (.v a.toNat) k).toInt (amount k))))).wrote d.toNat (dt.width h.vwBits))

def execVshl (d a : VReg) (b : VOrS) (s : State) : Result := vecShift s (.vshl d a b) d a b (fun x k => x * 2 ^ k)
def execVshr (d a : VReg) (b : VOrS) (s : State) : Result := vecShift s (.vshr d a b) d a b (fun x k => x / 2 ^ k)

/-- Results written at every index of `all`, with the flags of those of `row` alone (R16, R107). -/
def Hart.putQuiet (h : Hart) (d : Nat) (op t : Tag) (n : Nat) (all row : List Nat) (f : Nat → Val × FFlags) : Hart :=
  { h.put d op t n all f with fflags := (h.put d op t n row f).fflags }

/-- The guard selects a or b for every element of the row, and inactive ones raise no flag (R16, R107); residues move as patterns (R44). -/
def execVsel (d a : VReg) (b : VOrS) (s : State) : Result :=
  let i := Instr.vsel d a b
  let h := s.hart
  let srcs := [Src.v a.toNat, h.src b]
  let ts := srcs.map (h.srcTag a.toNat)
  match h.arithDest d.toNat srcs (opType ts) with
  | none => raiseTag s i
  | some (op, h1, t) =>
    let w := t.width h.vwBits
    let n := h.count (widest (w :: h.srcWidths srcs))
    let pick := fun k => if h.active k then (srcs.getD 0 (.v 0), ts.getD 0 .untyped) else (srcs.getD 1 (.v 0), ts.getD 1 .untyped)
    finishHart s (fun _ =>
      (if op = .mod32 then
        h1.putLanes d.toNat w ((indices h.first n).map (fun k => (k, h.bitsOf (pick k).2 (pick k).1 k)))
      else h1.putQuiet d.toNat op t n (indices h.first n) (h.row h.first n) (fun k =>
        exact (h.value (pick k).2 (pick k).1 k))).wrote d.toNat w)

/-! ## Bitwise operations (R108) -/

/-- A bitwise instruction on patterns. -/
def vecBitwise (s : State) (i : Instr) (d a : VReg) (b : Option VOrS) (f : Nat → Nat → Nat) : Result :=
  let h := s.hart
  let w := h.width a.toNat
  match bitwiseDest h d a b with
  | none => raiseTag s i
  | some h1 =>
    let n := h.count w
    let src := fun k => match b with
      | some (.v r) => lane (h.vreg r.toNat) w k
      | some (.s r) => (h.sreg r).toNat % 2 ^ w
      | none => 0
    finishHart s (fun _ => (h1.putPatterns d.toNat w
      ((h.row h.first n).map (fun k => (k, f (lane (h.vreg a.toNat) w k) (src k))))).wrote d.toNat w)

def execVand (d a : VReg) (b : VOrS) (s : State) : Result := vecBitwise s (.vand d a b) d a (some b) Nat.land
def execVor (d a : VReg) (b : VOrS) (s : State) : Result := vecBitwise s (.vor d a b) d a (some b) Nat.lor
def execVxor (d a : VReg) (b : VOrS) (s : State) : Result := vecBitwise s (.vxor d a b) d a (some b) Nat.xor
def execVnot (d a : VReg) (s : State) : Result :=
  vecBitwise s (.vnot d a) d a none (fun x _ => Nat.xor x (2 ^ s.hart.width a.toNat - 1))

/-! ## Unary operations (R109, R111) -/

def execVneg (d a : VReg) (s : State) : Result :=
  vecOne s (.vneg d a) d a intOrFloat (onVal (- ·) (fun x => (x.neg, 0)))
def execVabs (d a : VReg) (s : State) : Result :=
  vecOne s (.vabs d a) d a intOrFloat (onVal (fun x => (x.natAbs : Int)) (fun x => (x.abs, 0)))
def execVrcp (d a : VReg) (s : State) : Result := vecOne s (.vrcp d a) d a Tag.isFloat (onVal id Num.rcp)
def execVrsq (d a : VReg) (s : State) : Result := vecOne s (.vrsq d a) d a Tag.isFloat (onVal id Num.rsqrt)
def execVexp2 (d a : VReg) (s : State) : Result := vecOne s (.vexp2 d a) d a Tag.isFloat (onVal id Num.exp2)
def execVlog2 (d a : VReg) (s : State) : Result := vecOne s (.vlog2 d a) d a Tag.isFloat (onVal id Num.log2)

/-- A count of the bits of each pattern (R109): an integer or untyped source, the count as a pattern where both are untyped. A floating
destination takes the converted count of an integer source and traps for an untyped one: the model's choice (log 53). -/
def vecCount (s : State) (i : Instr) (d a : VReg) (f : Nat → Nat → Nat) : Result :=
  let h := s.hart
  let ta := h.tag a.toNat
  let w := h.width a.toNat
  let count := fun k => f w (lane (h.vreg a.toNat) w k)
  if ta = .untyped then
    if h.tag d.toNat = .untyped then
      finishHart s (fun h => (h.putLanes d.toNat w ((h.row h.first (h.count w)).map (fun k =>
        (k, count k)))).wrote d.toNat w)
    else if (h.tag d.toNat).isInt then
      let t := h.tag d.toNat
      let n := h.count (max w (t.width 0))
      finishHart s (fun h => (h.putElems d.toNat t t (h.row h.first n) (fun k => exact (.int (count k)))).wrote d.toNat (t.width 0))
    else raiseTag s i
  else
    vecCompute s i d.toNat [.v a.toNat] [ta] (tagIf Tag.isInt ta)
      (fun _ vs => exact (.int (f w (wrap w (vs.getD 0 (.int 0)).toInt))))

def execVpopc (d a : VReg) (s : State) : Result := vecCount s (.vpopc d a) d a popCount
def execVclz (d a : VReg) (s : State) : Result := vecCount s (.vclz d a) d a leadingZeros

/-! ## Copies and conversion (R110, R112) -/

/-- The blocks of a paired register below n copied with their side bytes (R101, R110). -/
def Hart.copyBlocks (h : Hart) (d a : Nat) (t : Tag) (n : Nat) : Hart :=
  let w := t.width 0
  let blocks := List.range (n / t.block)
  if n = 0 then h else
  let main := (List.range (n / t.block * t.block)).map (fun k => (k, lane (h.vreg a) w k))
  let side := blocks.flatMap (fun k => sideLanes t k
    (lane (h.vreg (a + 1)) 8 (if t = .e2m1x then 2 * k else k)) (lane (h.vreg (a + 1)) 8 (2 * k + 1)))
  let main' := setLanes (h.vreg d) w main
  let side' := trimSide t (setLanes (h.vreg (d + 1)) 8 side)
  (((h.setV d main').setV (d + 1) side').refill d w (main.map (·.1))).refill (d + 1) 8
    (side.map (·.1) ++ (List.range 256).drop (sideBytes t))

/-- `vmov` (R110). Elements of an untyped source that move into a side register are cut or zero-extended to its 8 bits, the model's choice
(log 53). -/
def execVmov (d a : VReg) (s : State) : Result :=
  let h := s.hart
  match moveDest h d a with
  | none => raiseTag s (.vmov d a)
  | some (h1, t) =>
    if t.paired then
      finishHart s (fun _ => ({ h.copyBlocks d.toNat a.toNat t (h.count (t.width 0)) with tags := h1.tags }).wrote d.toNat (t.width 0))
    else
      let wd := if (h.tag a.toNat).isSide then 8 else t.width h.vwBits
      let n := h.count (max wd (h.width a.toNat))
      finishHart s (fun _ => (h1.putPatterns d.toNat wd ((h.row h.first n).map (fun k =>
        (k, lane (h.vreg a.toNat) (h.width a.toNat) k)))).wrote d.toNat wd)

/-- The conversions of R26 and R44 that vcvt makes. -/
def convertible (a d : Tag) : Bool :=
  a.numeric && d.numeric &&
    (if a = .mod32 then d = .mod32 || d = .int32 || d = .uint32 || d = .int64 || d = .uint64
     else if d = .mod32 then a.isInt
     else true)

def execVcvt (d a : VReg) (s : State) : Result :=
  let h := s.hart
  let ta := h.tag a.toNat
  let td := h.tag d.toNat
  if !convertible ta td || !h.blocksOk td then raiseTag s (.vcvt d a)
  else
    let n := h.count (max (h.width a.toNat) (h.width d.toNat))
    let row := h.row h.first n
    match h.modCheck ta [.v a.toNat] row with
    | .error t => raiseTrap s t
    | .ok fl =>
      finishHart s (fun _ =>
        ((h.put d.toNat ta td n row (fun k => exact (h.value ta (.v a.toNat) k))).raise fl).wrote d.toNat (td.width 0))

/-- NORM on a block of patterns. Those of a zero or NaN block pass as they stand; in another −32,768 reads as −32,767 (R37, R42; log 52). -/
def normBlockOf (ms : List Nat) (e : Nat) : List Int × Nat :=
  if e = 0 || e = 255 then (ms.map (toSigned 16), e) else normBlock (ms.map mantissa) e

/-- Blocks below VL copied with NORM applied (R42, R112). -/
def execVmred (d a : VReg) (s : State) : Result :=
  let h := s.hart
  match normDest h d a with
  | none => raiseTag s (.vmred d a)
  | some h1 =>
    let n := h.count 16
    finishHart s (fun _ => (((List.range (n / 64)).foldl (fun g k =>
      let ms := (List.range 64).map (fun j => lane (h.vreg a.toNat) 16 (k * 64 + j))
      let r := normBlockOf ms (lane (h.vreg (a.toNat + 1)) 8 k)
      (g.setV d.toNat (setLanes (g.vreg d.toNat) 16 (r.1.mapIdx (fun j m => (k * 64 + j, wrap 16 m))))).setV (d.toNat + 1)
        (trimSide .bfp16 (setLane (g.vreg (d.toNat + 1)) 8 k r.2))) h1).refillRow d.toNat 16 (List.range (n / 64 * 64))
        (sideOf .bfp16 (n / 64))).wrote d.toNat 16)

/-! ## Major 0x1D (R113) -/

/-- A fused operation: ±(a × b) ± c. -/
def vecFused (s : State) (i : Instr) (d a b c : VReg) (np na : Bool) : Result :=
  let h := s.hart
  let srcs := [Src.v a.toNat, .v b.toNat, .v c.toNat]
  let ts := srcs.map (h.srcTag a.toNat)
  vecCompute s i d.toNat srcs ts (typeIf (· ≠ .mod32) ts) (fun _ vs =>
    match vs with
    | [.int x, .int y, .int z] => exact (.int ((if np then -(x * y) else x * y) + (if na then -z else z)))
    | [x, y, z] => let r := fusedOp np na h.rnd x.toNum y.toNum z.toNum; (.num r.1, r.2)
    | _ => exact (.int 0))

def execVfma (d a b c : VReg) (s : State) : Result := vecFused s (.vfma d a b c) d a b c false false
def execVfms (d a b c : VReg) (s : State) : Result := vecFused s (.vfms d a b c) d a b c false true
def execVfnma (d a b c : VReg) (s : State) : Result := vecFused s (.vfnma d a b c) d a b c true false
def execVfnms (d a b c : VReg) (s : State) : Result := vecFused s (.vfnms d a b c) d a b c true true

/-! ## Major 0x1E (R114) -/

/-- The relation on integers and residues. `unord` and `ord` of signed integers are constants as those of unsigned ones are, which R114
alone names: the model's choice (log 53). -/
def cmpInt (c : CmpOp) (x y : Int) : Bool :=
  match c with
  | .eq => x = y
  | .ne => x ≠ y
  | .lt => x < y
  | .le => x ≤ y
  | .gt => y < x
  | .ge => y ≤ x
  | .unord => false
  | .ord => true

/-- The relation on floating values, unordered on NaN (R28, R114). -/
def cmpNum (c : CmpOp) (x y : Num) : Bool :=
  match c with
  | .eq => x.eq y
  | .ne => !x.eq y
  | .lt => x.lt y
  | .le => x.lt y || x.eq y
  | .gt => y.lt x
  | .ge => y.lt x || x.eq y
  | .unord => x.isNaN || y.isNaN
  | .ord => !(x.isNaN || y.isNaN)

/-- The relation on values, with NV for a signalling NaN. -/
def cmpVal (c : CmpOp) (x y : Val) : Bool × FFlags :=
  match x, y with
  | .int x, .int y => (cmpInt c x y, 0)
  | _, _ => (cmpNum c x.toNum y.toNum, x.toNum.snan ||| y.toNum.snan)

/-- Bit k of a predicate set to b. -/
def setBit (p : PWord) (k : Nat) (b : Bool) : PWord :=
  let m : PWord := 1#512 <<< k
  if b then p ||| m else p &&& ~~~m

/-- Bits of a predicate replaced; only all 512 of them end a parity error (R335; log 44). -/
def Hart.replaceBits (h : Hart) (d : PReg) (bs : List (Nat × Bool)) : Hart :=
  { h.setP d (bs.foldl (fun p b => setBit p b.1 b.2) (h.preg d)) with
    pParity := if bs.length < 512 then h.pParity else h.pParity.filter (· ≠ d.toNat) }

/-- Compare into a predicate (R114). Of mod32 only `eq` and `ne` are legal, as R44 and a sentence of R114 say, though another gives `unord`
and `ord` of mod32 constants: the model's choice (log 53). -/
def execVcmp (d : PReg) (a : VReg) (b : VOrS) (c : CmpOp) (s : State) : Result :=
  let i := Instr.vcmp d a b c
  let h := s.hart
  let srcs := [Src.v a.toNat, h.src b]
  let ts := srcs.map (h.srcTag a.toNat)
  match opType ts with
  | none => raiseTag s i
  | some op =>
    if !scalarFormOk h srcs || (op = .mod32 && !(c = .eq || c = .ne)) then raiseTag s i
    else
      let n := h.count (widest (h.srcWidths srcs))
      let row := h.row h.first n
      match h.modCheck op srcs row with
      | .error t => raiseTrap s t
      | .ok fl =>
        let rs := row.map (fun k => (k, cmpVal c (h.value (ts.getD 0 op) (srcs.getD 0 (.v 0)) k)
          (h.value (ts.getD 1 op) (srcs.getD 1 (.v 0)) k)))
        finishHart s (fun h => ((h.replaceBits d (rs.map (fun r => (r.1, r.2.1)))).raise (rs.foldl (fun f r => f ||| r.2.2) fl)).restart)

end Sys2Proof.Machine
end

