-- ==== Sys2Proof/Machine/VecMem.lean ====
section
/-! DEFINITION. Vector loads and stores, scalar and vector atomics (05 R124 to R127; 07 R162 to R167): majors 0x20 to 0x25. -/

namespace Sys2Proof.Machine

/-! ## Elements of a vector access -/

/-- One element access: register and index for TRAPVEC, address, bytes. -/
structure Piece where
  reg : Nat
  idx : Nat
  va : Word
  n : Nat
  deriving DecidableEq, Repr

/-- The outcome of the checks of a list of pieces, in order: those that passed, with their translations, and the first that failed. -/
structure Checked where
  good : List (Piece × Xlat)
  bad : Option (Piece × Trap) := none
  /-- The piece whose poison mark ended the checks. -/
  mark : Option (Piece × Xlat) := none
  deriving DecidableEq, Repr

/-- Whether a byte of a translated piece lies on a fenced die (R354). -/
def State.xlatFenced (s : State) (x : Xlat) : Bool :=
  match s.part.key? x.pa with | some k => s.onFenced k | none => false

/-- The checks of R126 on each piece, the poison that a load or an atomic reads last, up to the first failure. -/
def checkPieces (a : Access) (s : State) : List Piece → Checked × State
  | [] => ({ good := [] }, s)
  | p :: ps =>
    let fail := fun (t : Trap) => some (p, { t with vec := vecWord false p.reg p.idx })
    match s.checkAccess a p.va p.n with
    | (.error t, s) => ({ good := [], bad := fail t }, s)
    | (.ok x, s) =>
      if a ≠ .vstore && !(a.writes && s.xlatFenced x) && s.poisonedAccess x p.n then
        ({ good := [], bad := fail (poisonTrap p.va), mark := some (p, x) }, s)
      else
        let r := checkPieces a s ps
        ({ r.1 with good := (p, x) :: r.1.good }, r.2)

/-- Some piece must wait: its stack is not ready, or the scoreboard holds its chunk. -/
def State.piecesHeld (s : State) (write : Bool) (ps : List (Piece × Xlat)) : Bool :=
  ps.any (fun p => !s.xlatReady p.2 ||
    (match s.part.key? p.2.pa with | some k => s.windowHeld k p.1.n write | none => false))

/-- The record of a hart whose writes a fenced die drops (R354). -/
def State.noteDropped (s : State) (xs : List Xlat) : State :=
  match xs.find? s.xlatFenced with
  | some x => postRecord s { core := s.coreNum, hart := hartIndex s.cur, master := 0, cause := cMachine, kind := 7, addr := word x.pa
                             ctx := s.hart.ctx, pc := s.hart.pc }
  | none => s

/-- A dropped write has no room for its record, so the hart waits (R326). -/
def State.dropWaits (s : State) (xs : List Xlat) : Bool := xs.any s.xlatFenced && !s.recordRoom s.coreNum

/-! ## Addresses (R125) -/

/-- Bytes of an element of width w. -/
def elemBytes (w : Nat) : Nat := max 1 (w / 8)

/-- Element i of a unit-stride access. -/
def unitAddr (base : Word) (w k : Nat) : Word := base + word (k * w / 8)

/-- A signed or unsigned index by its tag. -/
def Hart.index (h : Hart) (b : Nat) (k : Nat) : Word := BitVec.ofInt 64 (h.value (h.tag b) (.v b) k).toInt

/-- A register that serves as an index: an integer tag (R125). -/
def indexOk (h : Hart) (b : VReg) : Bool := (h.tag b.toNat).isInt

/-- The main elements of a row. -/
def Hart.pieces (h : Hart) (d w n : Nat) (addr : Nat → Word) : List Piece :=
  (h.row h.first n).map (fun k => ⟨d, k, addr k, elemBytes w⟩)

/-- The side bytes of a paired register's blocks below n (R127). -/
def sidePieces (d : Nat) (t : Tag) (n : Nat) (base : Word) : List Piece :=
  (List.range (n / t.block * (if t = .e2m1x then 2 else 1))).map (fun k => ⟨d + 1, k, base + word (n * t.width 0 / 8 + k), 1⟩)

/-! ## Performing -/

/-- An element loaded into its register; a side byte into the side register. -/
def loadPiece (s : State) (h : Hart) (d w : Nat) (p : Piece × Xlat) : Hart :=
  let x := bytesToNat (s.dataAt p.2 p.1.n)
  if p.1.reg = d then
    h.setV d (setLane (h.vreg d) w p.1.idx ((h.tag d).holdAt p.1.idx (if w = 4 then x / 16 ^ (p.1.idx % 2) else x)))
  else h.setV p.1.reg (setLane (h.vreg p.1.reg) 8 p.1.idx x)

/-- An element stored; a half byte takes its neighbour with it from the register (R125). -/
def storePiece (h : Hart) (d w : Nat) (s : State) (p : Piece × Xlat) : State :=
  let x :=
    if p.1.reg ≠ d then lane (h.vreg p.1.reg) 8 p.1.idx
    else if w = 4 then lane (h.vreg d) 8 (p.1.idx / 2)
    else lane (h.vreg d) w p.1.idx
  s.writePhys p.2.pa (natToBytes p.1.n x)

/-- Side bytes beyond those loaded are zero (R10); with VL = 0 nothing is written (R17). -/
def trimLoaded (h : Hart) (d : Nat) (t : Tag) : Hart :=
  if t.paired && h.vlen ≠ 0 then h.setV (d + 1) (trimSide t (h.vreg (d + 1))) else h

/-- Bytes that a store has written, by key. -/
def State.writtenKeys (s : State) (ps : List (Piece × Xlat)) : List (Nat × Nat) :=
  ps.filterMap (fun p => (s.part.key? p.2.pa).map (fun k => (k, p.1.n)))

/-- Marks of words that one store has overwritten wholly, by several elements (R334). -/
def State.clearCovered (s : State) (ks : List (Nat × Nat)) : State :=
  let covered := fun (w : Nat) => (List.range 16).all (fun i => ks.any (fun p => p.1 ≤ 16 * w + i && 16 * w + i < p.1 + p.2))
  { s with mem := { s.mem with poison := s.mem.poison.filter (fun e => !covered e.1) } }

/-- The lines of type 3 that pieces pass by (R124, R207). -/
def State.passPieces (s : State) (ps : List (Piece × Xlat)) : State :=
  ps.foldl (fun s p => s.passLine s.coreNum p.2.tt p.2.pa) s

/-- A vector load; `whole` says that every element is checked before any is performed, so that a trap leaves none that counts (R126, R193). -/
def vecLoad (s : State) (d w : Nat) (ps : List Piece) (whole : Bool) : Result :=
  let before := s
  let (c, s) := checkPieces .vload s ps
  let u := s.passPieces c.good
  let idx := fun (r : Nat) => (c.good.filter (fun p => p.1.reg = r)).map (·.1.idx)
  let load := fun (h : Hart) =>
    (trimLoaded (c.good.foldl (fun h p => loadPiece u h d w p) h) d (h.tag d)).refillRow d w (idx d) (idx (d + 1))
  match c.bad with
  | some (p, t) =>
    -- a mark is read once nothing holds its word any longer (R222, R334)
    if s.piecesHeld false c.mark.toList then wait s .other
    else if whole then raiseTrap (before.withCounts s) t
    else if s.piecesHeld false c.good then wait s .other
    else raiseTrap (u.onHart (fun h =>
      { (if c.good.isEmpty then h else (load h).noteWrite d w) with vstart := word p.idx })) t
  | none =>
    if s.piecesHeld false c.good then wait s .other
    else finishHart u (fun h => (load h).wrote d w)

/-- A vector store likewise. -/
def vecStore (s : State) (d w : Nat) (ps : List Piece) (whole : Bool) : Result :=
  let before := s
  let (c, s) := checkPieces .vstore s ps
  let h := s.hart
  let store := fun (s : State) =>
    ((c.good.foldl (storePiece h d w) (s.passPieces c.good)).clearCovered (s.writtenKeys c.good)).noteDropped (c.good.map (·.2))
  match c.bad with
  | some (p, t) =>
    if whole then raiseTrap (before.withCounts s) t
    else if s.piecesHeld true c.good || s.dropWaits (c.good.map (·.2)) then wait s .other
    else raiseTrap ((store s).onHart (fun h => { h with vstart := word p.idx })) t
  | none =>
    if s.piecesHeld true c.good || s.dropWaits (c.good.map (·.2)) then wait s .other
    else finishHart (store s) Hart.restart

/-- A unit-stride access of v[d] at s[a] + imm11 (R125, R127). Of a paired register whose VL is above 2,048 / w the image has E elements and
not VL, the model's choice (log 53). -/
def unitPieces (h : Hart) (d : VReg) (a : SReg) (k : BitVec 11) : List Piece :=
  let t := h.tag d.toNat
  let w := h.width d.toNat
  let base := h.sreg a + k.signExtend 64
  let n := h.count w
  h.pieces d.toNat w n (unitAddr base w) ++ (if t.paired then sidePieces d.toNat t n base else [])

def execVld (d : VReg) (a : SReg) (k : BitVec 11) (s : State) : Result :=
  let h := s.hart
  if !h.blocksOk (h.tag d.toNat) then raiseTag s (.vld d a k)
  else vecLoad s d.toNat (h.width d.toNat) (unitPieces h d a k) true

def execVst (d : VReg) (a : SReg) (k : BitVec 11) (s : State) : Result :=
  let h := s.hart
  if !h.blocksOk (h.tag d.toNat) then raiseTag s (.vst d a k)
  else vecStore s d.toNat (h.width d.toNat) (unitPieces h d a k) true

/-- A register that a strided or indexed access may move: unpaired, elements of a byte or more (R125, R127). -/
def stridedOk (h : Hart) (d : VReg) : Bool := !(h.tag d.toNat).paired && h.width d.toNat ≠ 4

/-- Strided elements (R125). -/
def stridedPieces (h : Hart) (d : VReg) (a b : SReg) : List Piece :=
  let w := h.width d.toNat
  h.pieces d.toNat w (h.count w) (fun k => h.sreg a + word k * h.sreg b)

/-- Indexed elements (R125). -/
def indexedPieces (h : Hart) (d : VReg) (a : SReg) (b : VReg) : List Piece :=
  let w := h.width d.toNat
  h.pieces d.toNat w (h.count (max w (h.width b.toNat))) (fun k => h.sreg a + h.index b.toNat k)

def execVlds (d : VReg) (a b : SReg) (s : State) : Result :=
  let h := s.hart
  if !stridedOk h d then raiseTag s (.vlds d a b)
  else vecLoad s d.toNat (h.width d.toNat) (stridedPieces h d a b) h.careful

def execVldx (d : VReg) (a : SReg) (b : VReg) (s : State) : Result :=
  let h := s.hart
  if !stridedOk h d || !indexOk h b then raiseTag s (.vldx d a b)
  else vecLoad s d.toNat (h.width d.toNat) (indexedPieces h d a b) h.careful

def execVsts (d : VReg) (a b : SReg) (s : State) : Result :=
  let h := s.hart
  if !stridedOk h d then raiseTag s (.vsts d a b)
  else vecStore s d.toNat (h.width d.toNat) (stridedPieces h d a b) h.careful

def execVstx (d : VReg) (a : SReg) (b : VReg) (s : State) : Result :=
  let h := s.hart
  if !stridedOk h d || !indexOk h b then raiseTag s (.vstx d a b)
  else vecStore s d.toNat (h.width d.toNat) (indexedPieces h d a b) h.careful

/-! ## Scalar atomics (R162 to R164) -/

/-- The operand of an atomic in n bytes. -/
def atomBits (n : Nat) (x : Word) : Nat := x.toNat % 2 ^ (8 * n)

/-- What the order of an atomic holds back: a release performs the stores that stand in the core's lines of type 3 (R164, R203). -/
def State.release (s : State) (o : AmoOrder) : State :=
  match o with
  | .rel | .ar => s.cleanLines s.coreNum
  | .rlx | .acq => s

/-- An atomic on memory at s[a]: `f` gives the new value from the old, or none where nothing is written (R163). -/
def atomic (s : State) (d a : SReg) (o : AmoOrder) (z : Bool) (f : Nat → Nat → Option Nat) : Result :=
  let n := if z then 8 else 4
  let va := s.hart.sreg a
  match s.checkAccess .atomic va n with
  | (.error t, s) => raiseTrap s t
  | (.ok x, s) =>
    let key := s.part.key x.pa
    if !s.stackReady x.pa || s.windowHeld key n true || s.dropWaits [x] then wait s .other
    else if s.onFenced key then
      finishS ((s.release o).noteDropped [x]) d (BitVec.ofInt 64 (toSigned (8 * n) (atomBits n (Config.freeWord s.clock.tick 0))))
    else if s.poisonedKey key then raiseTrap s (poisonTrap va)
    else
      let s := s.release o
      let m := bytesToNat (s.readKey key n)
      let s := match f n m with
        | some r => s.writeKey key (natToBytes n r)
        | none => s
      finishS s d (BitVec.ofInt 64 (toSigned (8 * n) m))

/-- An `amo` whose result is a function of the old value and the operand. -/
def amo (s : State) (d a b : SReg) (o : AmoOrder) (z : Bool) (f : Nat → Nat → Nat → Nat) : Result :=
  atomic s d a o z (fun n m => some (f (8 * n) m (atomBits n (s.hart.sreg b))))

/-- The smaller or larger by a signed or unsigned order. -/
def pickBits (signed less : Bool) (w x y : Nat) : Nat :=
  let lt := if signed then toSigned w x < toSigned w y else x < y
  if lt = less then x else y

def execAmoAdd (d a b : SReg) (o : AmoOrder) (z : Bool) (s : State) : Result := amo s d a b o z (fun w m x => (m + x) % 2 ^ w)
def execAmoAnd (d a b : SReg) (o : AmoOrder) (z : Bool) (s : State) : Result := amo s d a b o z (fun _ m x => Nat.land m x)
def execAmoOr (d a b : SReg) (o : AmoOrder) (z : Bool) (s : State) : Result := amo s d a b o z (fun _ m x => Nat.lor m x)
def execAmoXor (d a b : SReg) (o : AmoOrder) (z : Bool) (s : State) : Result := amo s d a b o z (fun _ m x => Nat.xor m x)
def execAmoMin (d a b : SReg) (o : AmoOrder) (z : Bool) (s : State) : Result := amo s d a b o z (pickBits true true)
def execAmoMax (d a b : SReg) (o : AmoOrder) (z : Bool) (s : State) : Result := amo s d a b o z (pickBits true false)
def execAmoMinu (d a b : SReg) (o : AmoOrder) (z : Bool) (s : State) : Result := amo s d a b o z (pickBits false true)
def execAmoMaxu (d a b : SReg) (o : AmoOrder) (z : Bool) (s : State) : Result := amo s d a b o z (pickBits false false)
def execAmoSwap (d a b : SReg) (o : AmoOrder) (z : Bool) (s : State) : Result := amo s d a b o z (fun _ _ x => x)

def execCas (d a b : SReg) (o : AmoOrder) (z : Bool) (s : State) : Result :=
  atomic s d a o z (fun n m =>
    if m = atomBits n (s.hart.sreg d) then some (atomBits n (s.hart.sreg b)) else none)

/-! ## Vector atomics (R165, R166) -/

/-- The combination of a held pattern with an operand. -/
structure VamoOp where
  tags : Tag → Bool
  combine : Tag → Nat → Nat → Nat

/-- The result of an element operation as a pattern of the tag's width. -/
def wrapOp (f : Int → Int → Int) (t : Tag) (x y : Nat) : Nat := wrap (t.width 0) (f (t.intVal x) (t.intVal y))

def wordTags (t : Tag) : Bool := t = .int32 || t = .uint32 || t = .int64 || t = .uint64

/-- fp32 by an exact operation rounded once with rne, subnormals kept (R166). -/
def fp32Op (f : Num → Num → Num × FFlags) (_ : Tag) (x y : Nat) : Nat :=
  (Ieee.fp32.round .rne false (f (Ieee.fp32.decode false x) (Ieee.fp32.decode false y)).1).1

/-- One group in ascending index: the merged operand and the old values (R166). -/
def mergeGroup (f : Nat → Nat → Nat) (m : Nat) : Option Nat → List (Nat × Nat) → Option Nat × List (Nat × Nat)
  | c, [] => (c, [])
  | c, (k, x) :: rest =>
    let old := match c with | none => m | some c => f m c
    let r := mergeGroup f m (some (match c with | none => x | some c => f c x)) rest
    (r.1, (k, old) :: r.2)

/-- Each group of one key applied in turn: the new state, and the old value of every element. -/
def applyGroups (f : Nat → Nat → Nat) (n : Nat) (es : List (Nat × Nat × Nat)) (s : State) : List Nat → State × List (Nat × Nat)
  | [] => (s, [])
  | key :: keys =>
    let m := bytesToNat (s.readKey key n)
    let r := mergeGroup f m none ((es.filter (fun e => e.2.1 = key)).map (fun e => (e.1, e.2.2)))
    let s := match r.1 with
      | some c => s.writeKey key (natToBytes n (f m c))
      | none => s
    let t := applyGroups f n es s keys
    (t.1, r.2 ++ t.2)

/-- A vector atomic: tags, then every element's checks, then the groups. Elements whose addresses name one place are one group, though two
virtual addresses map to it, the model's choice (R166; log 61). -/
def vamo (s : State) (i : Instr) (d : VReg) (a : SReg) (b : VReg) (ret : Bool) (op : VamoOp) : Result :=
  let h := s.hart
  let t := h.tag d.toNat
  let w := t.width 0
  if !op.tags t || !indexOk h b then raiseTag s i
  else
    let before := s
    let (c, s) := checkPieces .atomic s (indexedPieces h d a b)
    match c.bad with
    | some (_, t) => if s.piecesHeld true c.mark.toList then wait s .other else raiseTrap (before.withCounts s) t
    | none =>
      let live := c.good.filter (fun p => !s.xlatFenced p.2)
      if s.piecesHeld true c.good || s.dropWaits (c.good.map (·.2)) then wait s .other
      else
        let es := live.map (fun p => (p.1.idx, s.part.key p.2.pa, lane (h.vreg d.toNat) w p.1.idx))
        let keys := (es.map (fun e => e.2.1)).foldl (fun l k => if l.contains k then l else l ++ [k]) []
        let lost := (c.good.filter (fun p => s.xlatFenced p.2)).map (fun p => (p.1.idx, (Config.freeWord s.clock.tick p.1.idx).toNat))
        let r := applyGroups (op.combine t) (elemBytes w) es s keys
        finishHart (r.1.noteDropped (c.good.map (·.2))) (fun h =>
          if ret then (h.putLanes d.toNat w (r.2 ++ lost)).wrote d.toNat w else h.restart)

def execVamoAdd (d : VReg) (a : SReg) (b : VReg) (r : Bool) (s : State) : Result :=
  vamo s (.vamoAdd d a b r) d a b r ⟨wordTags, wrapOp (· + ·)⟩
def execVamoMin (d : VReg) (a : SReg) (b : VReg) (r : Bool) (s : State) : Result :=
  vamo s (.vamoMin d a b r) d a b r ⟨wordTags, wrapOp min⟩
def execVamoMax (d : VReg) (a : SReg) (b : VReg) (r : Bool) (s : State) : Result :=
  vamo s (.vamoMax d a b r) d a b r ⟨wordTags, wrapOp max⟩
def execVamoAnd (d : VReg) (a : SReg) (b : VReg) (r : Bool) (s : State) : Result :=
  vamo s (.vamoAnd d a b r) d a b r ⟨wordTags, fun _ x y => Nat.land x y⟩
def execVamoOr (d : VReg) (a : SReg) (b : VReg) (r : Bool) (s : State) : Result :=
  vamo s (.vamoOr d a b r) d a b r ⟨wordTags, fun _ x y => Nat.lor x y⟩
def execVamoXor (d : VReg) (a : SReg) (b : VReg) (r : Bool) (s : State) : Result :=
  vamo s (.vamoXor d a b r) d a b r ⟨wordTags, fun _ x y => Nat.xor x y⟩
def execVamoSwap (d : VReg) (a : SReg) (b : VReg) (r : Bool) (s : State) : Result :=
  vamo s (.vamoSwap d a b r) d a b r ⟨fun t => wordTags t || t = .fp32, fun _ _ y => y⟩
def execVamoFadd (d : VReg) (a : SReg) (b : VReg) (r : Bool) (s : State) : Result :=
  vamo s (.vamoFadd d a b r) d a b r ⟨fun t => t = .fp32, fp32Op (Num.add .rne)⟩
def execVamoFmax (d : VReg) (a : SReg) (b : VReg) (r : Bool) (s : State) : Result :=
  vamo s (.vamoFmax d a b r) d a b r ⟨fun t => t = .fp32, fp32Op Num.max⟩

end Sys2Proof.Machine
end

