-- ==== Sys2Proof/Machine/Bind.lean ====
section
/-! DEFINITION. Selection, binding, the gang's start, `spawn` and `tgraph` (06 R132 to R137, R140, R142 to R144). -/

namespace Sys2Proof.Machine

/-! ## Free resources of a core (R134) -/

/-- Gangs of a core that hold their full grant, and those that are saved. -/
def Core.grants (c : Core) : List Gang := c.gangs.filterMap (fun p => p.2)
def Core.active (c : Core) : List Gang := c.grants.filter (fun g => g.state ≠ .saved)

def freeSlots (c : Core) : List Nat := (List.range 256).filter (fun k => !c.active.any (fun g => g.hasSlot k))
def freeAccs (c : Core) : List Nat := (List.range 8).filter (fun k => !c.active.any (fun g => g.hasAcc k))
/-- Barriers stay with a saved gang (R337, R147). -/
def freeBars (c : Core) : List Nat := (List.range 1024).filter (fun k => !c.grants.any (fun g => g.hasBar k))

/-- Harts that run nothing and may be bound. -/
def State.freeHarts (s : State) (core : Nat) : List Nat :=
  (s.bindable core).filter (fun k => (s.hartAt (core * 8 + k)).run = .free && (s.hartAt (core * 8 + k)).gang.isNone)

/-- A core that the scheduler may use: present, on a live die, its own bit set whatever the others hold (R351, R416). -/
def State.usable (s : State) (core : Nat) : Bool :=
  s.part.hasCore core && s.live (dieOfCore core) &&
    bit (SMap.get 0 s.host.coreRdy (dieOfCore core)) (coreIndex core)

/-- The runs of a grant on a core: first hart, slot, barrier, accumulator (R134). -/
structure Grant where
  core : Nat
  hart : Nat
  slot : Nat
  bar : Nat
  acc : Nat
  deriving DecidableEq, Repr

/-- The grant that a core can give now. A saved gang of at most its PRIO goes first (R140). -/
def State.grantOn (s : State) (r : Rec) (core : Nat) : Option Grant :=
  let c := s.coreAt core
  if !s.usable core || (r.fab && c.active.any (·.fab)) || c.grants.any (fun g => g.state = .saved && g.prio ≤ r.prio) then none
  else
    match runOf (s.freeHarts core) r.gang, runOf (freeSlots c) r.slots, runOf (freeBars c) r.bars, runOf (freeAccs c) r.accs with
    | some h, some t, some b, some a => some ⟨core, h, t, b, a⟩
    | _, _, _, _ => none

/-- Free harts of a die. -/
def State.dieFree (s : State) (die : Nat) : Nat :=
  (List.range 48).foldl (fun n c => if s.usable (coreOf die c) then n + (s.freeHarts (coreOf die c)).length else n) 0

/-- The die that a record is tried on: its pinned one, or the live one with the most free harts (R134). -/
def State.dieFor (s : State) (r : Rec) : Nat :=
  if r.pin then r.die
  else ((List.range 4).filter s.live).foldl (fun b d => if s.dieFree b < s.dieFree d then d else b) s.master

/-- The grant for a record: the lowest-numbered qualifying core of its die (R134). -/
def State.findGrant (s : State) (r : Rec) : Option Grant :=
  (List.range 48).findSome? (fun c => s.grantOn r (coreOf (s.dieFor r) c))

/-! ## The start of a gang (R136, R137) -/

/-- What a dirty line would fall back to, with the bytes of a slot written with zero. -/
def zeroHome (lo : Nat) (l : DirtyLine) : DirtyLine :=
  if lo ≤ l.line * 64 && l.line * 64 < lo + 16384 then { l with home := List.replicate 64 0 } else l

/-- The bytes of a slot written with zero, past every cache; marks cleared. -/
def State.zeroSlot (s : State) (core slot : Nat) : State :=
  let lo := windowKey core (slot * 16384)
  let inside := fun (a : Nat) => lo ≤ a && a < lo + 16384
  { s with mem := { s.mem with cells := s.mem.cells.clear lo (lo + 16384)
                               poison := s.mem.poison.filter (fun p => !inside (p.1 * 16))
                               dirty := s.mem.dirty.map (zeroHome lo) } }

/-- A granted slot: its contents kept within one context, else zero; LIN (R137). -/
def State.takeSlot (s : State) (core ctx slot : Nat) : State :=
  let s := if SMap.get none (s.coreAt core).slotCtx slot = some ctx then s else s.zeroSlot core slot
  s.onCoreAt core (fun c => { c with lay := SMap.set 0 c.lay slot 0, slotCtx := SMap.set none c.slotCtx slot (some ctx) })

/-- A granted accumulator likewise. -/
def Core.takeAcc (ctx : Nat) (c : Core) (k : Nat) : Core :=
  if SMap.get none c.accCtx k = some ctx then c
  else { c with acc := c.acc.filter (fun e => e.1 / 8192 ≠ k), accCtx := SMap.set none c.accCtx k (some ctx) }

/-- What a gang is started with beside its grant. -/
structure Start where
  post : Post
  rec' : Rec
  frame : Word
  lo : Nat
  hi : Nat
  ctx : Nat
  queue : Nat
  careful : Bool
  deriving DecidableEq, Repr

/-- Hart g of a gang at its start (R136). TRAPBASE and the trap registers stay as the supervisor left them. -/
def startHart (x : Start) (gr : Grant) (id g : Nat) (old : Hart) : Hart :=
  let h : Hart := { pc := x.rec'.code, gangId := word g, gangSize := word x.rec'.gang, taskFp := addrField 6 x.post.addr
                    ctx := x.ctx, run := .running, gang := some id, status := if x.careful then 4 else 0
                    trapBase := old.trapBase, trapCause := old.trapCause, trapPc := old.trapPc, trapVal := old.trapVal
                    trapVec := old.trapVec, rfCorr := old.rfCorr }
  ((((((h.setS 3 x.frame).setS 4 (word x.lo)).setS 5 (word x.hi)).setS 6 (word (if x.rec'.slots = 0 then 0 else gr.slot))).setS 7
    (word (if x.rec'.bars = 0 then 0 else gr.bar))).setS 8 (word (if x.rec'.accs = 0 then 0 else gr.acc)))

/-- The gang bound and started: grant recorded, slots, accumulators, barriers and fabric made ready, harts set (R134 to R137). -/
def State.startGang (s : State) (x : Start) (gr : Grant) : State :=
  let r := x.rec'
  let (id, s) := s.fresh
  let g : Gang := { id := id, post := x.post, chunkLo := x.lo, chunkHi := x.hi, ctx := x.ctx, queue := x.queue, prio := r.prio
                    size := r.gang, first := gr.hart, slot0 := gr.slot, slots := r.slots, bar0 := gr.bar, bars := r.bars
                    acc0 := gr.acc, accs := r.accs, fab := r.fab, parent := r.parent, ranged := x.post.chunks.isSome, order := id }
  let s := (List.range r.slots).foldl (fun s k => s.takeSlot gr.core x.ctx (gr.slot + k)) s
  let s := s.onCoreAt gr.core (fun c =>
    let c := (List.range r.accs).foldl (fun c k => c.takeAcc x.ctx (gr.acc + k)) c
    let c := (List.range r.bars).foldl (fun c k => c.onBar (gr.bar + k) (fun _ => { exp := r.gang })) c
    { c with gangs := SMap.set none c.gangs id (some g)
             fab := if r.fab then { gang := some id } else c.fab })
  (List.range r.gang).foldl (fun s k => s.onHartAt (gr.core * 8 + gr.hart + k) (startHart x gr id k)) s

/-! ## Selection (R133) -/

/-- The ring entry at a queue's head lies on a stack that is not ready (R416). -/
def State.ringHeld (s : State) (q : Nat) : Bool := (s.queue q).front = [] && !s.stackReady ((s.queue q).entryAt (s.queue q).qrd)

/-- The ring entry at a queue's head is marked, so that the record's address cannot be read: no valid record, the model's choice (R130, R334;
log 57). -/
def State.ringPoisoned (s : State) (q : Nat) : Bool :=
  (s.queue q).front = [] && s.poisonedRange (s.part.key ((s.queue q).entryAt (s.queue q).qrd)) 8

/-- The head of a queue: a reissue, else the ring's entry. -/
def State.head (s : State) (q : Nat) : Option Post :=
  let t := s.queue q
  match t.front with
  | p :: _ => some p
  | [] =>
    if t.entries = 0 then none
    else
      let a := word (bytesToNat (s.readPhys (t.entryAt t.qrd) 8))
      some { ((SMap.get none t.info t.qrd).getD { addr := a }) with addr := a }

/-- The head is taken: promotions cleared, the counts restarted (R133). A reissue leaves the place in the ring's head as it is. -/
def State.takeHead (s : State) (q : Nat) : State :=
  let now := s.clock.time
  s.onQueue q (fun t =>
    match t.front with
    | _ :: rest => { t with front := rest, promoted := 0, lastServe := now, headSince := now }
    | [] => { t with qrd := t.qrd + 1, info := SMap.set none t.info t.qrd none, promoted := 0, lastServe := now, headSince := now
                     chunk := 0 })

/-- The queue was served but keeps its head: a ranged record with chunks left. -/
def State.keepHead (s : State) (q : Nat) : State :=
  s.onQueue q (fun t => { t with promoted := 0, lastServe := s.clock.time, chunk := t.chunk + 1 })

/-- A queue that may be chosen: served, not empty, and its head can be read now. -/
def State.candidate (s : State) (q : Nat) : Bool :=
  (s.queue q).en && (s.queue q).waiting && !s.ringHeld q &&
    (match s.head q with
     | some p => !s.schedHeld (s.queue q).ctx p.addr
     | none => false)

/-- PRIO of the head record; 0 where it cannot be read. -/
def State.headPrio (s : State) (q : Nat) : Nat :=
  match s.head q with
  | some p => ((s.recAt (s.queue q).ctx p.addr).1.map (fun r => r.1.prio)).getD 0
  | none => 0

/-- The candidate's level (R133). -/
def State.level (s : State) (q : Nat) : Nat := s.headPrio q - (s.queue q).promoted

/-- Candidates in the order in which they are tried: by level, and within one the first after the queue last served at it; before any was,
queue 0 counts as that one, so that queue 1 comes first, the model's choice (R133; log 57). -/
def State.choices (s : State) : List Nat :=
  (List.range 4).flatMap (fun l =>
    let last := SMap.get 0 s.sched.lastAt l
    ((List.range 64).map (fun k => (last + 1 + k) % 64)).filter (fun q => s.candidate q && s.level q = l))

/-- Two posts of one record: the same address, and the same graph. -/
def Post.sameRecord (p x : Post) : Bool := x.addr = p.addr && x.graph = p.graph

/-- A binding found the record invalid: it and every later one of the record are dropped, those among the reissues, the rest of a ranged
head, and those that a gang running now would be posted again for (R130). -/
def State.voidRecord (s : State) (q : Nat) (p : Post) : State :=
  let mine := fun (x : Post) => p.sameRecord x && x.chunks = p.chunks
  let now := s.clock.time
  let drop := fun (t : Queue) =>
    let head := t.front = [] || (t.chunk ≠ 0 && (SMap.get none t.info t.qrd).any mine)
    let t' := { t with front := t.front.filter (fun x => !mine x), promoted := 0, lastServe := now, headSince := now }
    if head then { t' with qrd := t.qrd + 1, info := SMap.set none t.info t.qrd none, chunk := 0 } else t'
  let note := fun (g : Gang) => if g.queue = q && g.ranged && mine g.post then { g with post := { g.post with void := true } } else g
  { s.onQueue q drop with
    cores := s.cores.map (fun c => (c.1, { c.2 with gangs := c.2.gangs.map (fun g => (g.1, g.2.map note)) })) }

/-- A try at one queue: nothing to bind now, or the state after its head, or one chunk of it, was served (R130, R133 to R136). Whether a post
is ranged, and into how many chunks it was split, is as at the post; the bounds of a chunk follow the record as it is read now. The die of a dropped
binding's record is the one it was tried on: the master's where the record cannot be read, and DIEPIN's even where that die is not live, the model's
choices (R427; log 57). -/
def State.tryServe (s : State) (q : Nat) : Option State :=
  let t := s.queue q
  let l := s.level q
  let served := fun (s : State) => { s with sched := { s.sched with lastAt := SMap.set 0 s.sched.lastAt l q } }
  match s.head q with
  | none => none
  | some p =>
    let read := if s.ringPoisoned q then (none, s) else s.recAt t.ctx p.addr
    match read with
    | (none, s) => some (served ((scheduleRecord s s.master p.addr 1 q t.ctx).voidRecord q p))
    | (some (r, _), s) =>
      if !s.recValid false r || (p.graph.isSome && !templateOk r) then
        some (served ((scheduleRecord s (s.dieFor r) p.addr 1 q t.ctx).voidRecord q p))
      else
        let k := p.chunk.getD t.chunk
        let lo := if r.range then r.lo + k * r.chunk else 0
        let hi := if r.range then min (lo + r.chunk) r.hi else 0
        match s.findGrant r with
          | none => none
          | some gr =>
            let frame := match p.graph with
              | some g => g.snapshot + r.frame
              | none => r.frame
            let x : Start := { post := { p with chunk := if p.chunks.isSome then some k else none }, rec' := r, frame := frame, lo := lo
                               hi := hi, ctx := t.ctx, queue := q, careful := t.careful }
            let s := s.startGang x gr
            some (served (if p.chunk.isNone && k + 1 < p.chunks.getD 0 then s.keepHead q else s.takeHead q))

/-- The master distributor serves one queue (R133). -/
def execQueueServe (s : State) : Result :=
  match s.choices.findSome? (fun q => (s.tryServe q).filter s.roomFor) with
  | some s => .next s
  | none => .next s

/-- Nanoseconds of QAGE (R13, R133). -/
def State.qageNs (s : State) : Nat := s.sched.qage.toNat * 1000

/-- A candidate that has waited QAGE once more is promoted (R133). -/
def execQueuePromotion (q : Nat) (s : State) : Result :=
  let t := s.queue q
  let since := max (max t.lastServe t.headSince) s.sched.elected
  if s.sched.qage ≠ 0 && s.candidate q && (t.promoted + 1) * s.qageNs ≤ s.clock.time - since then
    .next (s.onQueue q (fun t => { t with promoted := t.promoted + 1 }))
  else .next s

/-- The first post that a die holds for a queue with a free entry enters its ring, where no other die holds an earlier one for that queue
(R132). It does so while the queue's EN is 0 too, the model's choice (R131; log 57). -/
def execHeldPostEntry (die : Nat) (s : State) : Result :=
  let first := fun (p : HeldPost) =>
    (List.range 4).all (fun d => (s.dieAt d).held.all (fun x => x.queue ≠ p.queue || p.order ≤ x.order))
  match (s.dieAt die).held.find? (fun p => !(s.queue p.queue).full && first p) with
  | none => .next s
  | some p =>
    match (s.enterRing die p.queue p.post).filter s.roomFor with
    | some t => .next (t.onDieAt die (fun d => { d with held := d.held.erase p }))
    | none => .next s

/-! ## spawn (R142) -/

/-- What the hart's posts have still to do, done as far as it need not wait: the answer 0 once nothing is left; till then the instruction
waits (R132). -/
def goPosts (s : State) (d : SReg) (left : List Act) : Result :=
  match runActs actTurn s left with
  | (s, []) => finishS (s.onHart (fun h => { h with acts := [] })) d 0
  | (s, left) => wait (s.onHart (fun h => { h with acts := left })) .other

/-- What the hart's post leaves, where nothing has to wait. -/
def posted (s : State) (d : SReg) (o : Acted) : Result :=
  match o.filter (fun r => s.roomFor r.1) with
  | some (s, more) => goPosts s d more
  | none => wait s .other

/-- A post from its record; the earlier stores of the hart are performed first, at package scope (R132). -/
def newSpawn (s : State) (d a : SReg) : Result :=
  let va := s.hart.sreg a
  let s := s.cleanLines s.coreNum
  match s.loadBlock va 64 with
  | (.trap t, s) => raiseTrap s t
  | (.hold, s) => wait s .other
  | (.ok bs, s) =>
    let r := Rec.ofNat (bytesToNat bs)
    if !s.recValid true r then finishS s d 3
    else if !(s.queue r.queue).en then finishS s d 2
    else if s.spawnFull r.queue then finishS s d 1
    else
      let die := dieOfHart s.cur
      let pa := ((s.translate (some s.coreNum) s.hart.ctx va).1.map (·.pa)).getD 0
      posted s d (postValid s die r.queue { addr := va } r pa)

/-- `spawn` (R142); one that waits with its post made goes on with what that has set off (R135). -/
def execSpawn (d a : SReg) (s : State) : Result :=
  match s.hart.acts with
  | [] => newSpawn s d a
  | left => goPosts s d left

/-! ## tgraph (R144) -/

/-- The acting hart has posted a record from one state to another: its one of dropped writes. -/
def State.noted (s s' : State) : Bool := (s.coreAt s.coreNum).records ≠ (s'.coreAt s.coreNum).records

/-- Consecutive blocks of 64 bytes loaded by the hart. -/
def State.loadBlocks (s : State) (va : Word) : Nat → Loaded × State
  | 0 => (.ok [], s)
  | n + 1 =>
    match s.loadBlock va 64 with
    | (.ok bs, s) =>
      match s.loadBlocks (va + 64) n with
      | (.ok cs, s) => (.ok (bs ++ cs), s)
      | r => r
    | r => r

/-- What a store of blocks gives. -/
inductive Stored
  | ok (s : State)
  | trap (t : Trap)
  | hold

/-- Bytes stored by the hart at a 64-byte-aligned address, in blocks, past the lines that its core holds (R198, R207); the first that may not be
written traps, and those of a fenced die are dropped with one record (R354). -/
def State.storeBlocks (s : State) (va : Word) (noted : Bool) : List Byte → Nat → Stored
  | _, 0 => .ok s
  | bs, n + 1 =>
    match s.checkAccess .store va 64 with
    | (.error t, _) => .trap t
    | (.ok x, s) =>
      let lost := s.xlatFenced x
      if !s.stackReady x.pa || (!noted && s.dropWaits [x]) then .hold
      else (if lost then (if noted then s else s.noteDropped [x]) else (s.passRange s.coreNum x 64).writePhys x.pa (bs.take 64)).storeBlocks (va + 64) (noted || lost)
        (bs.drop 64) n

/-- DEPS and validity of node j of a loaded node array. -/
def nodeDeps (nodes : List Byte) (j : Nat) : Nat := bytesToNat ((nodes.drop (128 * j + 0x40)).take 2)
def nodeWord (nodes : List Byte) (j : Nat) : Nat := bytesToNat ((nodes.drop (128 * j)).take 64)
def nodeRec (nodes : List Byte) (j : Nat) : Rec := Rec.ofNat (nodeWord nodes j)

/-- The posts of a replay's roots, in index order, each with its record and its physical address as the hart's context read them (R144,
R426). -/
def State.rootPosts (s : State) (h : GraphHead) (g : GraphRef) (nodes : List Byte) (roots : List Nat) : List Act :=
  roots.map (fun j => ⟨dieOfHart s.cur, s.hart.ctx, .root { g with node := j }.post (nodeWord nodes j)
    (((s.translate (some s.coreNum) s.hart.ctx (h.nodes + word (128 * j))).1.map (·.pa)).getD 0)⟩)

/-- The lowest free replay slot by the control block (R143, R144; log 55). -/
def freeReplay (control : List Byte) (n : Nat) : Option Nat :=
  (List.range n).find? (fun k => bytesToNat ((control.drop (4 * k)).take 4) = 0)

/-- The refusal of a root, as `spawn` answers one: its answer, if any of the posts would be refused (R129; log 55). -/
def rootsRefused (s : State) (rs : List Rec) : Option Word :=
  if rs.any (fun r => !s.recValid true r || !templateOk r) then some 3
  else if rs.any (fun r => !(s.queue r.queue).en) then some 2
  else none

/-- The effect of a `tgraph` that has found slot k of its area free: the snapshot, the counters, the control word, then the posts (R144). -/
def startReplay (s : State) (d : SReg) (h : GraphHead) (k : Nat) (notify : Word) (nodes control : List Byte) (roots : List Nat) : Result :=
  match s.loadBlocks h.param (h.psize / 64) with
  | (.trap t, s) => raiseTrap s t
  | (.hold, s) => wait s .other
  | (.ok snap, s) =>
    let g := h.ref k 0 notify
    let counters := (List.range h.ncount).flatMap (fun j => natToBytes 4 (nodeDeps nodes j))
    let size := replaySlotSize h.psize h.ncount
    let body := snap ++ counters ++ List.replicate (size - snap.length - counters.length) 0
    let marked := control.take (4 * k) ++ natToBytes 4 (busyWord 0) ++ control.drop (4 * k + 4)
    match s.storeBlocks h.area false marked 1 with
    | .trap t => raiseTrap s t
    | .hold => wait s .other
    | .ok s1 =>
      match s1.storeBlocks g.snapshot (s.noted s1) body (size / 64) with
      | .trap t => raiseTrap s t
      | .hold => wait s .other
      | .ok s2 => goPosts s2 d (s.rootPosts h g nodes roots)

/-- A replay from its header to its roots' posts. -/
def newReplay (s : State) (d a b : SReg) : Result :=
  let hd := s.hart.sreg a
  let notify := s.hart.sreg b
  let s := s.cleanLines s.coreNum
  if hd.toNat % 64 ≠ 0 then raiseTrap s ⟨cMisaligned, hd, 0⟩
  else if notify.toNat % 64 ≠ 0 then raiseTrap s ⟨cMisaligned, notify, 0⟩
  else match s.loadBlock hd 64 with
  | (.trap t, s) => raiseTrap s t
  | (.hold, s) => wait s .other
  | (.ok bs, s) =>
    let h := GraphHead.ofNat (bytesToNat bs)
    if !h.ok then finishS s d 3
    else match s.loadBlocks h.nodes (2 * h.ncount) with
    | (.trap t, s) => raiseTrap s t
    | (.hold, s) => wait s .other
    | (.ok nodes, s) =>
      let roots := (List.range h.ncount).filter (fun j => nodeDeps nodes j = 0)
      if roots = [] then finishS s d 3
      else match s.loadBlock h.area 64 with
      | (.trap t, s) => raiseTrap s t
      | (.hold, s) => wait s .other
      | (.ok control, s) =>
        match freeReplay control h.replays with
        | none => finishS s d 1
        | some k =>
          match rootsRefused s (roots.map (nodeRec nodes)) with
          | some r => finishS s d r
          | none => startReplay s d h k notify nodes control roots

/-- `tgraph` (R144); one that waits with its replay started goes on with the posts that are left. -/
def execTgraph (d a b : SReg) (s : State) : Result :=
  match s.hart.acts with
  | [] => newReplay s d a b
  | left => goPosts s d left

end Sys2Proof.Machine
end

