-- ==== Sys2Proof/Machine/Tile.lean ====
section
/-! DEFINITION. Tile movement (10_tile_movement R213 to R233): tensor maps, the copy engine with its regimes and faults (08 R183; 16
R328, R331, R332, R334), `twait`, `vldt` and `vstt`, and batch issue: majors 0x28, 0x29 and 0x2A fn 0. -/

namespace Sys2Proof.Machine

/-! ## Tensor maps (R213 to R218) -/

/-- Bytes of one block and its side bytes (R218). -/
def Tag.blockBytes (t : Tag) : Nat := if t = .e2m1x then 16 else 128
def Tag.sideCount (t : Tag) : Nat := if t = .e2m1x then 2 else 1
/-- Side bytes of one data row in the side slot (R218). -/
def Tag.rowSides (t : Tag) : Nat := if t = .e2m1x then 32 else 2

/-- The fields of a map of 128 bytes (R213); none where the tag's code is reserved. -/
def TMap.ofNat (m : Nat) : Option TMap :=
  let rank := recBits m 8 10 8
  (Tag.ofCode? (recBits m 8 7 0)).map (fun tag =>
    { base := sext57 (word (recBits m 0 56 0)), win := recBits m 8 13 13 = 1, trans := recBits m 8 12 12 = 1
      cmp := recBits m 8 11 11 = 1, rank := rank, tag := tag
      dims := (List.range 5).map (fun k => recBits m (0x10 + 4 * k) 31 0)
      strides := (List.range 5).map (fun k => toSigned 64 (recBits m (0x28 + 8 * k) 63 0))
      boxes := (List.range 5).map (fun k => let b := recBits m (0x50 + 2 * k) 15 0; if rank ≤ k && b = 0 then 1 else b)
      kx := recBits m 0x60 7 0, ky := recBits m 0x61 7 0, sx := recBits m 0x62 7 0, sy := recBits m 0x63 7 0
      dx := recBits m 0x64 7 0, dy := recBits m 0x65 7 0
      plx := recBits m 0x68 7 0, phx := recBits m 0x69 7 0, ply := recBits m 0x6A 7 0, phy := recBits m 0x6B 7 0
      side := sext57 (word (recBits m 0x70 56 0)), fill := recBits m 0x78 63 0 })

def TMap.dim (m : TMap) (k : Nat) : Nat := m.dims.getD k 0
def TMap.stride (m : TMap) (k : Nat) : Int := m.strides.getD k 0
def TMap.box (m : TMap) (k : Nat) : Nat := m.boxes.getD k 1

/-- Output columns, output rows, the extent of the K axis and of the pixel axis of a window map (R217). -/
def TMap.ow (m : TMap) : Int := Int.fdiv ((m.dim 1 : Int) + m.plx + m.phx - m.dx * ((m.kx : Int) - 1) - 1) m.sx + 1
def TMap.oh (m : TMap) : Int := Int.fdiv ((m.dim 2 : Int) + m.ply + m.phy - m.dy * ((m.ky : Int) - 1) - 1) m.sy + 1
def TMap.qExt (m : TMap) : Int := (m.ky * m.kx * m.dim 0 : Nat)
def TMap.pExt (m : TMap) : Int := m.ow * m.oh * (if m.rank = 4 then m.dim 3 else 1 : Nat)

/-- The dimension along a row, and the first of those across rows (R215). -/
def TMap.fast (m : TMap) : Nat := if m.trans then 1 else 0
def TMap.slow (m : TMap) : Nat := if m.trans then 0 else 1

/-- Box rows. -/
def TMap.rows (m : TMap) : Nat := m.box m.slow * m.box 2 * m.box 3 * m.box 4

/-- Slots of the range that hold data (R218). -/
def TMap.dataSlots (m : TMap) (cnt : Nat) : Nat := if m.tag.paired then cnt - 1 else cnt

/-- Reserved fields are zero (R213, R214). -/
def mapClean (m : Nat) : Bool :=
  recBits m 0 63 57 = 0 && recBits m 8 63 14 = 0 && recBits m 0x24 31 0 = 0 && recBits m 0x5A 47 0 = 0 && recBits m 0x60 63 48 = 0 &&
    recBits m 0x68 63 32 = 0 && recBits m 0x70 63 57 = 0

/-- The constraints of a paired tag (R218). -/
def TMap.pairedOk (m : TMap) (cnt : Nat) (org0 : Int) : Bool :=
  let d := cnt - 1
  let n := m.tag.block
  1 ≤ d && d ≤ (if m.tag = .e2m1x then 8 else 128) && m.dim 0 % n = 0 && m.box 0 % n = 0 && org0 % n = 0 &&
    m.stride 0 = (if m.tag = .e2m1x then 0 else 2) &&
    (List.range 5).all (fun k => k = 0 || m.rank ≤ k || m.stride k % m.tag.blockBytes = 0)

/-- The constraints of a window map (R217). -/
def TMap.winOk (m : TMap) : Bool :=
  (m.rank = 3 || m.rank = 4) && [m.kx, m.ky, m.sx, m.sy, m.dx, m.dy].all (fun x => 1 ≤ x) && m.box 2 = 1 && m.box 3 = 1 &&
    m.box 4 = 1 && 1 ≤ m.ow && 1 ≤ m.oh && m.qExt < 2 ^ 32 && m.pExt < 2 ^ 32

/-- The conditions of R214. -/
def TMap.ok (m : TMap) (cnt : Nat) (org0 : Int) (store : Bool) : Bool :=
  let w := m.tag.width 0
  m.tag ≠ .untyped && !m.tag.isSide && 1 ≤ m.rank && m.rank ≤ 5 &&
    (List.range 5).all (fun k => k < m.rank || (m.dim k = 0 && m.stride k = 0 && m.box k = 1)) &&
    (m.win || [m.kx, m.ky, m.sx, m.sy, m.dx, m.dy, m.plx, m.phx, m.ply, m.phy].all (fun x => x = 0)) &&
    (m.tag.paired || m.side = 0) &&
    (w < 8 || (List.range 5).all (fun k => m.stride k % (w / 8 : Nat) = 0)) &&
    !(m.trans && (m.rank = 1 || m.win || m.tag.paired)) &&
    m.box m.fast * w ≤ 2048 && m.rows ≤ 64 * m.dataSlots cnt &&
    !(store && m.win) && (!m.tag.paired || m.pairedOk cnt org0) && (!m.win || m.winOk)

/-- Where a byte of the range comes from or goes to. -/
inductive MapByte
  | fill (b : Byte)
  | mem (va : Word)
  deriving DecidableEq, Repr

/-- Bytes of i0 along dimension 0 (R215). -/
def TMap.along (m : TMap) (i0 : Int) : Int := if m.tag = .e2m1x then Int.fdiv i0 2 else i0 * m.stride 0

/-- The distance from BASE of a box element given its five box indices; none outside (R215, R216). -/
def TMap.relBox (m : TMap) (org : List Int) (js : List Nat) : Option Int :=
  let at' := fun (k : Nat) => (if k < m.rank then org.getD k 0 else 0) + js.getD k 0
  if (List.range m.rank).any (fun k => at' k < 0 || (m.dim k : Int) ≤ at' k) then none
  else some ((List.range 5).foldl (fun t k => t + (if k = 0 then m.along (at' 0) else at' k * m.stride k)) 0)

/-- The distance from BASE of element (j0, j1) of a window map; none outside (R217). -/
def TMap.relWin (m : TMap) (org : List Int) (j0 j1 : Nat) : Option Int :=
  let q := org.getD 0 0 + j0
  let p := org.getD 1 0 + j1
  if q < 0 || m.qExt ≤ q || p < 0 || m.pExt ≤ p then none
  else
    let ch : Int := m.dim 0
    let ix := Int.emod p m.ow * m.sx - m.plx + Int.emod (q / ch) m.kx * m.dx
    let iy := Int.emod (p / m.ow) m.oh * m.sy - m.ply + q / (ch * m.kx) * m.dy
    let n := p / (m.ow * m.oh)
    if ix < 0 || (m.dim 1 : Int) ≤ ix || iy < 0 || (m.dim 2 : Int) ≤ iy then none
    else some (m.along (Int.emod q ch) + ix * m.stride 1 + iy * m.stride 2 + n * m.stride 3)

/-- The distance from BASE of the element in column j of logical row r; none where no inside element lies there. -/
def TMap.rel (m : TMap) (org : List Int) (r j : Nat) : Option Int :=
  if m.box m.fast ≤ j || m.rows ≤ r then none
  else if m.win then m.relWin org j r
  else
    let jg := r % m.box m.slow
    let q := r / m.box m.slow
    let j2 := q % m.box 2
    let j3 := q / m.box 2 % m.box 3
    let j4 := q / m.box 2 / m.box 3
    m.relBox org (if m.trans then [jg, j, j2, j3, j4] else [j, jg, j2, j3, j4])

/-- An address at a distance. -/
def wordPlus (a : Word) (d : Int) : Word := a + BitVec.ofInt 64 d

/-- What belongs in logical byte `off` of a range of `cnt` slots (R215 to R218). -/
def TMap.place (m : TMap) (cnt : Nat) (org : List Int) (off : Nat) : MapByte :=
  if !m.tag.paired then
    let e := m.tag.width 0 / 8
    let b := off % 256
    match m.rel org (off / 256) (b / e) with
    | some d => .mem (wordPlus m.base (d + (b % e : Nat)))
    | none => .fill (BitVec.ofNat 8 (m.fill / 256 ^ (b % e)))
  else
    let bb := m.tag.blockBytes
    let d := cnt - 1
    if off < d * 16384 then
      let b := off % 256
      match m.rel org (off / 256) (b / bb * m.tag.block) with
      | some x => .mem (wordPlus m.base (x + (b % bb : Nat)))
      | none => .fill 0
    else
      let so := off - d * 16384
      let row := so / m.tag.rowSides
      let part := so % m.tag.rowSides
      if d * 64 ≤ row then .fill 0
      else match m.rel org row (part / m.tag.sideCount * m.tag.block) with
        | some x => .mem (wordPlus m.side (Int.fdiv x bb * m.tag.sideCount + (part % m.tag.sideCount : Nat)))
        | none => .fill (if m.tag = .e2m1x && part % 2 = 0 then 0x7F#8 else 0)

/-! ## Issue (R212, R214, R224 to R228) -/

/-- What an issue gives. -/
inductive Issue
  | ok (c : CopyCmd)
  | trap (t : Trap)
  | hold
  deriving DecidableEq, Repr

/-- The operands of a tile command. -/
structure TileArgs where
  op : CopyOp
  desc : Word
  arg : Word := 0
  argb : Word := 0
  org : List Int := []
  /-- The instruction word, for TRAPVAL. -/
  iw : Word := 0
  deriving DecidableEq, Repr

/-- Commands of a hart in its queue. -/
def Core.queueOf (c : Core) (hart : Nat) : List CopyCmd := c.copies.filter (fun x => x.hart = hart)

/-- A free entry in the acting hart's queue of 32 (R220). -/
def State.copyRoom (s : State) : Bool := (s.core.queueOf s.cur).length < 32

/-- A command of the acting hart, before its map is read. -/
def State.bareCmd (s : State) (x : TileArgs) (dst : Desc) : CopyCmd :=
  { op := x.op, uid := 0, hart := s.cur, gang := s.hart.gang, ctx := s.hart.ctx, user := !s.hart.sup, careful := s.hart.careful
    stamp := 0, pc := s.hart.pc, dst := dst, descWord := x.desc, argWord := x.arg, params := x.argb, origin := x.org
    pattern := x.arg }

/-- An element tag that `tpack` and `tunpk` may carry (R228). -/
def csrTag (code : Nat) : Option Tag :=
  (Tag.ofCode? code).bind (fun t => if t = .untyped || t.isSide || t.paired then none else some t)

/-- The map of a `tld` or `tst` read and checked (R214). -/
def State.readMap (s : State) (x : TileArgs) (dst : Desc) : Issue × State :=
  if x.arg.toNat % 128 ≠ 0 then (.trap ⟨cMisaligned, x.arg, 0⟩, s)
  else match s.loadBlock x.arg 128 with
    | (.trap t, s) => (.trap t, s)
    | (.hold, s) => (.hold, s)
    | (.ok bs, s) =>
      let m := bytesToNat bs
      match TMap.ofNat m with
      | some t =>
        if mapClean m && t.ok dst.cnt (x.org.getD 0 0) (x.op = .tst) then (.ok { s.bareCmd x dst with map := some t }, s)
        else (.trap ⟨cIllegal, x.arg, 0⟩, s)
      | none => (.trap ⟨cIllegal, x.arg, 0⟩, s)

/-- The checks of a `tpack`'s parameters (R228). -/
def packTrap (p : Word) (srcCnt : Nat) (iw : Word) : Option Trap :=
  let nrows := field p 47 32
  if field p 63 48 ≠ 0 || field p 31 25 ≠ 0 || field p 15 8 ≠ 0 then some ⟨cIllegal, iw, 0⟩
  else match csrTag (field p 7 0) with
    | none => some ⟨cTag, iw, 0⟩
    | some t =>
      if 2048 < field p 24 16 * t.width 0 || nrows = 0 || 64 * srcCnt < nrows then some ⟨cIllegal, iw, 0⟩ else none

/-- A tile command checked as its instruction is at issue. -/
def State.formTile (s : State) (x : TileArgs) : Issue × State :=
  let g := s.gangOf s.cur
  match checkDesc g (if x.op = .tcpy then .transposing else .dest) x.desc x.iw with
  | .error t => (.trap t, s)
  | .ok dst =>
    match x.op with
    | .tld | .tst => s.readMap x dst
    | .tfill | .ttag => (.ok (s.bareCmd x dst), s)
    | .tcpy =>
      match checkDesc g .source x.arg x.iw with
      | .error t => (.trap t, s)
      | .ok src =>
        if src.cnt ≠ dst.cnt then (.trap ⟨cIllegal, x.iw, 0⟩, s) else (.ok { s.bareCmd x dst with src := some src }, s)
    | .tpack =>
      match checkDesc g .source x.arg x.iw with
      | .error t => (.trap t, s)
      | .ok src =>
        match packTrap x.argb src.cnt x.iw with
        | some t => (.trap t, s)
        | none => (.ok { s.bareCmd x dst with src := some src }, s)
    | .tunpk =>
      match checkDesc g .source x.arg x.iw with
      | .error t => (.trap t, s)
      | .ok src => (.ok { s.bareCmd x dst with src := some src }, s)

/-- The command enters its hart's queue (R220). -/
def State.enqueueTile (s : State) (c : CopyCmd) : State :=
  let (uid, s) := s.fresh
  let (st, s) := s.takeStamp
  s.onCore (fun k => { k with copies := k.copies ++ [{ c with uid := uid, stamp := st }] })

/-- A tile instruction: a stall before issue on a full queue, the checks, the command (R220, R224). -/
def issueTile (s : State) (x : TileArgs) : Result :=
  if !s.copyRoom then wait s .other
  else match s.formTile x with
    | (.trap t, s) => raiseTrap s t
    | (.hold, s) => wait s .other
    | (.ok c, s) => finishHart (s.enqueueTile c) id

/-- The five origins of a vector register (R215). -/
def Hart.origin (h : Hart) (b : VReg) : List Int := (List.range 5).map (fun k => toSigned 32 (lane (h.vreg b.toNat) 32 k))

/-- The word of an instruction. -/
def insnWord (i : Instr) : Word := word ((encode i).getD 0)

/-- `tld` and `tst`: the descriptor, then the origin's tag, then the map (R215). -/
def issueMapped (s : State) (i : Instr) (op : CopyOp) (d a : SReg) (b : VReg) : Result :=
  let h := s.hart
  if !s.copyRoom then wait s .other
  else match checkDesc (s.gangOf s.cur) .dest (h.sreg d) (insnWord i) with
    | .error t => raiseTrap s t
    | .ok _ =>
      if h.tag b.toNat ≠ .int32 then raiseTag s i
      else issueTile s { op := op, desc := h.sreg d, arg := h.sreg a, org := h.origin b, iw := insnWord i }

def execTld (d a : SReg) (b : VReg) (s : State) : Result := issueMapped s (.tld d a b) .tld d a b
def execTst (d a : SReg) (b : VReg) (s : State) : Result := issueMapped s (.tst d a b) .tst d a b
def execTcpy (d a : SReg) (s : State) : Result :=
  issueTile s { op := .tcpy, desc := s.hart.sreg d, arg := s.hart.sreg a, iw := insnWord (.tcpy d a) }
def execTfill (d a : SReg) (s : State) : Result :=
  issueTile s { op := .tfill, desc := s.hart.sreg d, arg := s.hart.sreg a, iw := insnWord (.tfill d a) }
def execTtag (d : SReg) (s : State) : Result := issueTile s { op := .ttag, desc := s.hart.sreg d, iw := insnWord (.ttag d) }
def execTpack (d a b : SReg) (s : State) : Result :=
  issueTile s { op := .tpack, desc := s.hart.sreg d, arg := s.hart.sreg a, argb := s.hart.sreg b, iw := insnWord (.tpack d a b) }
def execTunpk (d a : SReg) (s : State) : Result :=
  issueTile s { op := .tunpk, desc := s.hart.sreg d, arg := s.hart.sreg a, iw := insnWord (.tunpk d a) }

/-! ## Progress of a command (R183, R221, R223) -/

/-- A command in its core's queue replaced, or taken out. -/
def Core.putCopy (k : Core) (c : CopyCmd) : Core := { k with copies := k.copies.map (fun x => if x.uid = c.uid then c else x) }
def Core.dropCopy (k : Core) (c : CopyCmd) : Core := { k with copies := k.copies.filter (fun x => x.uid ≠ c.uid) }

/-- The chunks of a command. -/
def CopyCmd.total (c : CopyCmd) : Nat := 4 * c.dst.cnt

/-- Slot ranges of a command (R230). -/
def CopyCmd.ranges (c : CopyCmd) : List (Nat × Nat) := (c.dst :: c.src.toList).map (fun d => (d.slot, d.cnt))

/-- A command completes, counted by a later `twait` if it failed (R230). -/
def State.completeCopy (s : State) (core : Nat) (c : CopyCmd) (failed : Bool) : State :=
  s.onCoreAt core (fun k =>
    let k := k.dropCopy c
    if failed then { k with tileFails := k.tileFails ++ [⟨c.hart, c.ranges⟩] } else k)

/-- Chunks from `c.next` up to n are done: credited in order (R221), and the command completes with its last. -/
def State.chunksDone (s : State) (core : Nat) (c : CopyCmd) (n : Nat) (failed : Bool) : State :=
  let s := (List.range (n - c.next)).foldl (fun s _ => s.sendCredit core c.dst.credits 4096) s
  if c.total ≤ n then s.completeCopy core c failed else s.onCoreAt core (fun k => k.putCopy { c with next := n })

/-- A record that a command posts (R326, R327). -/
def copyRecord (core : Nat) (c : CopyCmd) (kind cause : Nat) (addr : Word) (d1 d2 : Word) : FaultRec :=
  { core := core, hart := hartIndex c.hart, master := 1, cause := cause, kind := kind, addr := addr, bar := c.dst.credits
    ctx := c.ctx, pc := c.pc, d0 := c.descWord, d1 := d1, d2 := d2 }

/-- A command stops at a chunk with a record; its credit is withheld, and a protection violation freezes its hart's queue (R328, R332). -/
def State.stopCopy (s : State) (core : Nat) (c : CopyCmd) (k : Nat) (protect : Bool) (va : Word) (write : Bool) : State :=
  let r := if protect then copyRecord core c 2 cProtection va (word k) (word write.toNat)
    else copyRecord core c 1 cPage va (word (c.total * 65536 + k)) c.argWord
  let s := postRecord s { r with frozen := protect, withheld := true, owner := .copy core c.uid }
  s.onCoreAt core (fun t => t.putCopy { c with stop := some { protect := protect } })

/-- What the next step of a command is. -/
inductive CopyStep
  | hold
  | done (s : State)
  | fault (protect : Bool) (s : State)

/-- A page of a transfer: translated, the kind of its fault, or not known yet, where a table lies on a stack that is not ready (R416). -/
inductive PageOutcome
  | ok (p : CopyPage)
  | fault (protect : Bool)
  | held
  deriving DecidableEq, Repr

/-- The page of an address translated for a command (R179, R219). -/
def State.copyPage (s : State) (core : Nat) (c : CopyCmd) (va : Word) : PageOutcome × State :=
  if !canonical va then (.fault false, s)
  else match s.translate (some core) c.ctx va with
    | (none, s) => (.fault false, s)
    | (some x, s) =>
      let cmp := (c.map.map (·.cmp)).getD false
      let crt := if cmp || x.tt = 5 then s.findCrt x.pa else none
      if x.held then (.held, s)
      else if !x.permits (if c.op = .tst then .copyWrite else .copyRead) c.user then (.fault true, s)
      else if (cmp && 1 < x.tt) || ((cmp || x.tt = 5) && crt.isNone) then (.fault true, s)
      else (.ok { pa := x.pa - va.toNat % 4096, tt := x.tt, crt := crt, size := x.size, ranged := x.ranged, level := x.level
                  entry := x.entry, leaf := x.leaf }, s)

/-- The number of the page of an address. -/
def pageOf (va : Word) : Nat := va.toNat / 4096

/-- Pages of a list of places, each once. -/
def pagesOf (ps : List (Nat × MapByte)) : List Word :=
  (ps.foldl (fun (l : List Word) p => match p.2 with
    | .mem va => if l.any (fun x => pageOf x = pageOf va) then l else va :: l
    | .fill _ => l) []).reverse

/-- Every page of a list translated. -/
def State.copyPages (s : State) (core : Nat) (c : CopyCmd) : List Word → List (Nat × PageOutcome) × State
  | [] => ([], s)
  | va :: vas =>
    let (o, s) := s.copyPage core c va
    let (os, s) := s.copyPages core c vas
    ((pageOf va, o) :: os, s)

/-- What a table of pages says of an address. -/
def lookPage (ps : List (Nat × PageOutcome)) (va : Word) : PageOutcome :=
  match ps.find? (fun p => p.1 = pageOf va) with
  | some (_, .ok p) => .ok { p with pa := p.pa + va.toNat % 4096 }
  | some (_, o) => o
  | none => .fault false

/-- The places of the bytes of a chunk. -/
def CopyCmd.places (c : CopyCmd) (k : Nat) : List (Nat × MapByte) :=
  match c.map with
  | some m => (List.range 4096).map (fun i => (k * 4096 + i, m.place c.dst.cnt c.origin (k * 4096 + i)))
  | none => []

/-- The first byte of a list that cannot be reached. -/
def firstFault (ps : List (Nat × PageOutcome)) (bs : List (Nat × MapByte)) : Option (Nat × Word × Bool) :=
  bs.findSome? (fun b => match b.2 with
    | .mem va => (match lookPage ps va with | .fault p => some (b.1, va, p) | _ => none)
    | .fill _ => none)

/-- A byte of memory that a command reads, and whether it is marked. -/
def State.copyByte (s : State) (p : CopyPage) : Byte × Bool :=
  match p.crt with
  | some c => (s.decodedByte c p.pa, s.poisonedDecoded c p.pa 1)
  | none => let k := s.part.key p.pa; (s.mem.cells.read k, s.poisonedKey k)

/-- The stacks that hold a page, and the mask of a compressed one, are ready (R416). -/
def State.pageReady (s : State) (p : CopyPage) : Bool := s.stackReady p.pa && p.crt.all (fun c => s.rangeReady (c.maskAddr p.pa) 8)

/-- Some page of a table, or the table entry that names it, lies on a stack that is not ready (R416). -/
def State.pagesWait (s : State) (ps : List (Nat × PageOutcome)) : Bool :=
  ps.any (fun p => match p.2 with | .ok x => !s.pageReady x | .fault _ => false | .held => true)

/-- The accesses of a list of places, one to each page, counted for the hot-page tracker (R193). -/
def State.notePages (s : State) (core : Nat) (ps : List (Nat × PageOutcome)) (bs : List (Nat × MapByte)) : State :=
  (pagesOf bs).foldl (fun (s : State) va => match lookPage ps va with
    | .ok p => s.noteHot (dieOfCore core) { pa := p.pa, tt := p.tt, r := true, w := true, x := false, u := true, tso := false
                                            ranged := p.ranged, level := p.level, entry := p.entry, leaf := p.leaf }
    | _ => s) s

/-- A command's one record of kind 7 (R334, R354). -/
def State.notePoison (s : State) (core : Nat) (c : CopyCmd) (pa : Option Nat) : CopyCmd × State :=
  match pa with
  | some a =>
    if c.poisoned then (c, s) else ({ c with poisoned := true }, postRecord s (copyRecord core c 7 cMachine (word a) 0 0))
  | none => (c, s)

/-- Bytes of a `tld` written into the slots: marks travel (R334). -/
def State.landBytes (s : State) (core : Nat) (c : CopyCmd) (ps : List (Nat × PageOutcome)) (bs : List (Nat × MapByte)) :
    Option Nat × State :=
  let got := bs.map (fun b => match b.2 with
    | .fill x => (b.1, x, (none : Option Nat))
    | .mem va => match lookPage ps va with
      | .ok p => let r := s.copyByte p; (b.1, r.1, if r.2 then some (p.pa / 16 * 16) else none)
      | _ => (b.1, 0, none))
  let key := fun (o : Nat) => s.rangeKey core c.dst.slot o
  let s := s.writeKeys (got.map (fun g => (key g.1, g.2.1)))
  (got.findSome? (fun g => g.2.2), s.markKeys ((got.filter (fun g => g.2.2.isSome)).map (fun g => key g.1)))

/-- New logical contents of the blocks of a compressed surface that a chunk touches, their marks with them (R191, R334): each byte stored, with
whether it is marked. The first block whose old contents keep a mark is reported. -/
def State.storeBlocksOf (s : State) (ws : List (CopyPage × Byte × Bool)) : Option Nat × State :=
  let blocks := ws.foldl (fun (l : List (Nat × Option Crt)) w =>
    if l.any (fun x => x.1 = w.1.pa / 4096) then l else l ++ [(w.1.pa / 4096, w.1.crt)]) []
  blocks.foldl (fun (report, s) b =>
    match b.2 with
    | some c =>
      let mine := (ws.filter (fun w => w.1.pa / 4096 = b.1)).foldl (fun m w => SMap.set none m (w.1.pa % 4096) (some w.2))
        ([] : SMap (Option (Byte × Bool)))
      let pa := b.1 * 4096
      let old := s.readDecoded c pa 4096
      let kept := fun (w : Nat) => s.poisonedDecoded c (pa + 16 * w) 16 && (List.range 16).any (fun i => (SMap.get none mine (16 * w + i)).isNone)
      let marked := fun (w : Nat) => kept w || (List.range 16).any (fun i => (SMap.get none mine (16 * w + i)).any (·.2))
      (report <|> ((List.range 256).find? kept).map (fun w => pa + 16 * w),
        s.writeBlock c pa (old.mapIdx (fun j x => ((SMap.get none mine j).map (·.1)).getD x)) ((List.range 256).map marked))
    | none => (report, s)) (none, s)

/-- A list in a free order. -/
def shuffled {α : Type} (tick : Nat) (xs : List α) : List α :=
  (xs.zipIdx.mergeSort (fun a b => Config.order tick a.2 ≤ Config.order tick b.2)).map (·.1)

/-- A byte of a page, or of the mask of its block, lies on a fenced die (R191, R354). -/
def State.pageLost (s : State) (p : CopyPage) (cmp : Bool) : Bool :=
  s.onFenced (s.part.key p.pa) || (cmp && p.crt.any (fun c => (s.firstLost (c.maskAddr p.pa) 1).isSome))

/-- Bytes of a `tst` written to memory: marks travel, and bytes of a fenced die are dropped (R334, R354). The order of the elements
of a chunk is free, so that any of those that name a byte may be the one that remains (R204, log 33). -/
def State.emitBytes (s : State) (core : Nat) (c : CopyCmd) (ps : List (Nat × PageOutcome)) (bs : List (Nat × MapByte)) :
    Option Nat × State :=
  let out := bs.filterMap (fun b => match b.2 with
    | .fill _ => none
    | .mem va => match lookPage ps va with
      | .ok p =>
        let k := s.rangeKey core c.dst.slot b.1
        some (p, s.mem.cells.read k, s.poisonedKey k)
      | _ => none)
  let cmp := (c.map.map (·.cmp)).getD false
  let out := shuffled s.clock.tick out
  let live := out.filter (fun o => !s.onFenced (s.part.key o.1.pa))
  let report := (out.find? (fun o => o.2.2 || s.pageLost o.1 cmp)).map (fun o => o.1.pa / 16 * 16)
  if cmp then let (kept, s) := s.storeBlocksOf live; (report <|> kept, s)
  else
    let s := s.writeKeys (live.map (fun o => (s.part.key o.1.pa, o.2.1)))
    (report, s.markKeys ((live.filter (fun o => o.2.2)).map (fun o => s.part.key o.1.pa)))

/-- Bytes of a chunk moved; a transfer counts one access to each page of a chunk (R193; log 61). -/
def State.moveBytes (s : State) (core : Nat) (c : CopyCmd) (ps : List (Nat × PageOutcome)) (bs : List (Nat × MapByte)) :
    Option Nat × State :=
  let s := s.notePages core ps bs
  if c.op = .tst then s.emitBytes core c ps bs else s.landBytes core c ps bs

/-- The scoreboard holds a chunk of a command's range (R222). -/
def State.chunkHeld (s : State) (core : Nat) (c : CopyCmd) (k : Nat) : Bool :=
  let x := [c.dst.slot * 4 + k]
  if c.op = .tst then (s.coreAt core).held c.hart c.stamp x [] else (s.coreAt core).held c.hart c.stamp [] x

/-- A chunk of a `tld` or `tst` under the table of its pages. A record of kind 7 needs room in the queue. -/
def State.moveChunk (s : State) (core : Nat) (c : CopyCmd) (ps : List (Nat × PageOutcome)) : CopyStep :=
  let bs := c.places c.next
  if s.pagesWait ps then .hold
  else
    let (bad, s1) := s.moveBytes core c ps bs
    if bad.isSome && !c.poisoned && !s.recordRoom core then .hold
    else
      let (c, s1) := s1.notePoison core c bad
      .done (s1.chunksDone core c (c.next + 1) false)

/-- The next chunk of a `tld` or `tst`: under the careful regime every page of the transfer is translated before any byte moves; under
the normal regime bytes of the faulting chunk may be moved already (R183, log 13). -/
def State.stepMapped (s : State) (core : Nat) (c : CopyCmd) : CopyStep :=
  let k := c.next
  let write := c.op = .tst
  if c.careful && c.pages ≠ [] then s.moveChunk core c (c.pages.map (fun p => (p.1, .ok p.2)))
  else
    let bs := if c.careful then (List.range (c.total - k)).flatMap (fun j => c.places (k + j)) else c.places k
    let (ps, s) := s.copyPages core c (pagesOf bs)
    match firstFault ps bs with
    | none =>
      let pages := ps.filterMap (fun p => match p.2 with | .ok x => some (p.1, x) | _ => none)
      s.moveChunk core (if c.careful then { c with pages := pages } else c) ps
    | some (off, va, protect) =>
      if !s.recordRoom core then .hold
      else if c.careful then .fault protect (s.stopCopy core c (off / 4096) protect va write)
      else
        let early := bs.filter (fun b => Config.coin s.clock.tick (16 + b.1) && (match b.2 with
          | .mem va => (match lookPage ps va with | .ok p => s.pageReady p | _ => false)
          | .fill _ => true))
        let (bad, s1) := s.moveBytes core c ps early
        if 15 < (s.coreAt core).records.length + (bad.isSome && !c.poisoned).toNat then .hold
        else
          let s1 := s1.stopCopy core c k protect va write
          let (c, s1) := s1.notePoison core c bad
          .fault protect (s1.onCoreAt core (fun t => { t with copies := t.copies.map (fun x =>
            if x.uid = c.uid then { x with poisoned := c.poisoned } else x) }))

/-- Place o of a transposed copy's source (R226). -/
def transposed (e o : Nat) : Nat :=
  let r := o % 16384 / 256
  let c := o % 256 / e
  o / 16384 * 16384 + c % 64 * 256 + (c / 64 * 64 + r) * e + o % e

/-- A window byte's physical address within a record's words. -/
def State.firstMarked (s : State) (core first n : Nat) : Option Nat :=
  if s.mem.poison = [] then none
  else ((List.range n).find? (fun o => s.poisonedKey (s.rangeKey core first o))).map (fun o => s.rangeKey core first o / 16 * 16)

/-- A `tcpy`: the whole source is read first, then chunk by chunk written (R226). -/
def State.stepTcpy (s : State) (core : Nat) (c : CopyCmd) (src : Desc) : CopyStep :=
  let n := 16384 * c.dst.cnt
  let k := s.coreAt core
  match c.image with
  | none =>
    let bad := s.firstMarked core src.slot n
    if k.held c.hart c.stamp src.chunks [] || (bad.isSome && !c.poisoned && !s.recordRoom core) then .hold
    else
      let from' := fun (o : Nat) => s.rangeKey core src.slot (if c.dst.tr then transposed (2 ^ c.dst.te) o else o)
      let (c, s1) := s.notePoison core c bad
      .done (s1.onCoreAt core (fun t => t.putCopy
        { c with image := some ((List.range n).map (fun o => s.mem.cells.read (from' o)))
                 imagePoison := if bad.isSome then (List.range n).map (fun o => s.poisonedKey (from' o)) else [] }))
  | some image =>
    if s.chunkHeld core c c.next then .hold
    else
      let o := c.next * 4096
      let s := s.writeRange core c.dst.slot o ((image.drop o).take 4096)
      let marks := (List.range 4096).filter (fun j => c.imagePoison.getD (o + j) false)
      let s := s.markKeys (marks.map (fun j => s.rangeKey core c.dst.slot (o + j)))
      .done (s.chunksDone core c (c.next + 1) false)

/-- A `tfill`'s chunk (R227). -/
def State.stepTfill (s : State) (core : Nat) (c : CopyCmd) : CopyStep :=
  if s.chunkHeld core c c.next then .hold
  else
    let bs := (List.range 4096).map (fun j => BitVec.ofNat 8 (c.pattern.toNat / 256 ^ (j % 8)))
    .done ((s.writeRange core c.dst.slot (c.next * 4096) bs).chunksDone core c (c.next + 1) false)

/-- A `ttag`: the whole range re-laid at once, its marks with it (R227). -/
def State.stepTtag (s : State) (core : Nat) (c : CopyCmd) : CopyStep :=
  let n := 16384 * c.dst.cnt
  let bad := s.firstMarked core c.dst.slot n
  if (s.coreAt core).held c.hart c.stamp [] c.dst.chunks || (bad.isSome && !c.poisoned && !s.recordRoom core) then .hold
  else
    let old := s.readRange core c.dst.slot 0 n
    let marks := if bad.isSome then (List.range n).filter (fun o => s.poisonedKey (s.rangeKey core c.dst.slot o)) else []
    let (c, s) := s.notePoison core c bad
    let s := s.onCoreAt core (fun t =>
      { t with lay := (List.range c.dst.cnt).foldl (fun m k => SMap.set 0 m (c.dst.slot + k) c.dst.lay) t.lay })
    let s := s.writeRange core c.dst.slot 0 old
    let s := s.markKeys (marks.map (fun o => s.rangeKey core c.dst.slot o))
    .done (s.chunksDone core c c.total false)

/-! ## tpack and tunpk (R228, R229) -/

def align64 (n : Nat) : Nat := (n + 63) / 64 * 64

/-- The zero element of a tag. -/
def zeroElem (t : Tag) (b : Nat) : Bool := if t.isFloat then b % 2 ^ (t.width 0 - 1) = 0 else b = 0

/-- Nonzero elements of each dense row: column and pattern. -/
def denseRows (t : Tag) (nrows ncols : Nat) (src : List Byte) : List (List (Nat × Nat)) :=
  let e := t.width 0 / 8
  (List.range nrows).map (fun r =>
    let row := (src.drop (256 * r)).take 256
    (List.range ncols).filterMap (fun c =>
      let b := bytesToNat ((row.drop (c * e)).take e)
      if zeroElem t b then none else some (c, b)))

/-- Bytes from an offset of an image. -/
def padTo (bs : List Byte) (n : Nat) : List Byte := bs ++ List.replicate (n - bs.length) 0

/-- The CSR tile of a dense tile, or none where it exceeds n bytes (R228). -/
def csrTile (t : Tag) (nrows ncols : Nat) (src : List Byte) (n : Nat) : Option (List Byte) :=
  let rows := denseRows t nrows ncols src
  let all := rows.flatten
  let e := t.width 0 / 8
  let ci := align64 (64 + 4 * (nrows + 1))
  let vo := align64 (ci + 4 * all.length)
  if n < vo + e * all.length then none
  else
    let ptrs := rows.foldl (fun (l : List Nat) r => l ++ [l.getLastD 0 + r.length]) [0]
    let head := [nrows, ncols, all.length, t.code].flatMap (natToBytes 4)
    let p1 := padTo head 64 ++ ptrs.flatMap (natToBytes 4)
    let p2 := padTo p1 ci ++ all.flatMap (fun x => natToBytes 4 x.1)
    some (padTo (padTo p2 vo ++ all.flatMap (fun x => natToBytes e x.2)) n)

/-- The dense tile of a CSR tile, or what is wrong with it: 1 header, 2 row pointers, 3 column index, 4 capacity (R229, R327). -/
def denseTile (src : List Byte) (cnt : Nat) : Except Nat (List Byte) :=
  let u := fun (o : Nat) => bytesToNat ((src.drop o).take 4)
  let nrows := u 0
  let ncols := u 4
  let nnz := u 8
  match csrTag (u 12) with
  | none => .error 1
  | some t =>
    let e := t.width 0 / 8
    if ((src.take 64).drop 16).any (· ≠ 0) || nrows = 0 || 64 * cnt < nrows || 256 < ncols * e then .error 1
    else
      let ci := align64 (64 + 4 * (nrows + 1))
      let vo := align64 (ci + 4 * nnz)
      if src.length < vo + e * nnz then .error 4
      else
        let ptr := (List.range (nrows + 1)).map (fun r => u (64 + 4 * r))
        if ptr.getD 0 0 ≠ 0 || ptr.getD nrows 0 ≠ nnz || (List.range nrows).any (fun r => ptr.getD (r + 1) 0 < ptr.getD r 0) then
          .error 2
        else
          let cols := (List.range nnz).map (fun k => u (ci + 4 * k))
          if cols.any (fun c => ncols ≤ c && c ≠ 0xFFFFFFFF) then .error 3
          else
            let cells := (List.range nrows).foldl (fun m r =>
              (List.range (ptr.getD (r + 1) 0 - ptr.getD r 0)).foldl (fun m j =>
                let k := ptr.getD r 0 + j
                let c := cols.getD k 0
                if c = 0xFFFFFFFF then m
                else Memory.writeBytes m (256 * r + c * e) ((src.drop (vo + e * k)).take e)) m) ([] : Memory)
            .ok ((List.range (16384 * cnt)).map cells.read)

/-- A `tpack` or `tunpk`, in one step at its completion; a failed one writes nothing and credits in full (R221, R223, R228). -/
def State.stepCsr (s : State) (core : Nat) (c : CopyCmd) (src : Desc) : CopyStep :=
  let bytes := s.readRange core src.slot 0 (16384 * src.cnt)
  let made : Except Nat (List Byte) :=
    if c.op = .tpack then
      match csrTag (field c.params 7 0) with
      | some t =>
        match csrTile t (field c.params 47 32) (field c.params 24 16) bytes (16384 * c.dst.cnt) with
        | some b => .ok b
        | none => .error 4
      | none => .error 1
    else denseTile bytes c.dst.cnt
  let bad := s.firstMarked core src.slot (16384 * src.cnt)
  if (s.coreAt core).held c.hart c.stamp src.chunks c.dst.chunks then .hold
  else if 16 < (s.coreAt core).records.length + (bad.isSome && !c.poisoned).toNat + (match made with | .error _ => 1 | .ok _ => 0) then .hold
  else
    let (c, s) := s.notePoison core c bad
    match made with
    | .error why => .done ((postRecord s (copyRecord core c 4 0 0 (word why) 0)).chunksDone core c c.total true)
    | .ok b =>
      let s := s.writeRange core c.dst.slot 0 b
      let s := if bad.isSome then s.poisonRange core c.dst.slot 0 b.length else s
      .done (s.chunksDone core c c.total false)

/-- The ranges of a command, and the chunks of them that its next act comes to. -/
def CopyCmd.meets (c : CopyCmd) : List Desc × List Nat :=
  let ds := c.dst :: c.src.toList
  match c.op with
  | .tcpy => (ds, if c.image.isNone then (c.src.map Desc.chunks).getD [] else [c.dst.slot * 4 + c.next])
  | .tpack | .tunpk => (ds, ds.flatMap Desc.chunks)
  | .tld | .tst | .tfill => (ds, [c.dst.slot * 4 + c.next])
  | .ttag => ([], [])

/-- LAYMIS counts a command once that comes to a slot of another layout than it states, never a `ttag` (R186). -/
def State.countCopy (s : State) (core : Nat) (c : CopyCmd) : CopyCmd × State :=
  if c.counted || !c.meets.1.any ((s.coreAt core).misLaid c.meets.2) then (c, s)
  else
    let c := { c with counted := true }
    (c, (s.countLayout core c.meets.1 c.meets.2).onCoreAt core (fun k => k.putCopy c))

/-- The next step of a command. One that is stopped, or that follows a frozen one of its hart, does not move (R328, R332). -/
def State.stepCopy (s : State) (core : Nat) (c : CopyCmd) : CopyStep :=
  let frozen := ((s.coreAt core).queueOf c.hart).any (fun x => x.stamp < c.stamp && (x.stop.map (·.protect)).getD false)
  if c.stop.isSome || frozen then .hold
  else
    let (c, s) := s.countCopy core c
    match c.op, c.src with
    | .tld, _ | .tst, _ => if s.chunkHeld core c c.next then .hold else s.stepMapped core c
    | .tfill, _ => s.stepTfill core c
    | .ttag, _ => s.stepTtag core c
    | .tcpy, some src => s.stepTcpy core c src
    | .tpack, some src | .tunpk, some src => s.stepCsr core c src
    | _, none => .hold

/-- The command of a hart that the engine works on now: any of them (R220). -/
def State.copyTurn (s : State) (core hart : Nat) : Option CopyCmd :=
  let q := (s.coreAt core).queueOf hart
  q[Config.order s.clock.tick hart % q.length]?

/-- The engine of a live core does its next chunk (R221). -/
def execCopyChunkDone (core hart : Nat) (s : State) : Result :=
  match s.copyTurn core hart with
  | some c => (match s.stepCopy core c with | .done s => .next s | _ => .next s)
  | none => .next s

/-- A command meets a page fault (R223, R328). -/
def execTransferPage (core hart : Nat) (s : State) : Result :=
  match s.copyTurn core hart with
  | some c => (match s.stepCopy core c with | .fault false s => .next s | _ => .next s)
  | none => .next s

/-- A command meets a protection violation, and its hart's queue freezes (R332). -/
def execProtect (core hart : Nat) (s : State) : Result :=
  match s.copyTurn core hart with
  | some c => (match s.stepCopy core c with | .fault true s => .next s | _ => .next s)
  | none => .next s

/-! ## FRCTL (R330 to R332) -/

/-- A command that translates its pages afresh. -/
def CopyCmd.unpaged (c : CopyCmd) : CopyCmd := { c with pages := [] }

/-- A retry: from the first chunk not yet done, its pages translated afresh. -/
def retryCopy (c : CopyCmd) : CopyCmd := { c.unpaged with stop := none }

/-- An abort: nothing more moves, every byte is credited, and the command has failed. -/
def State.abortCopy (s : State) (core : Nat) (c : CopyCmd) : State := s.chunksDone core c c.total true

/-! ## twait (R230) -/

/-- A range of slots that a selector names. -/
def selects (x : Word) (ranges : List (Nat × Nat)) : Bool :=
  bit x 8 || ranges.any (fun r => r.1 ≤ field x 7 0 && field x 7 0 < r.1 + r.2)

def execTwait (d a : SReg) (s : State) : Result :=
  let x := s.hart.sreg a
  if field x 63 9 ≠ 0 then raiseIllegal s (.twait d a)
  else if (s.core.queueOf s.cur).any (fun c => selects x c.ranges) then wait s (.engine (2 ^ 62 + x.toNat))
  else
    let mine := fun (f : TileFail) => f.hart = s.cur && selects x f.ranges
    let n := (s.core.tileFails.filter mine).length
    finishS (s.onCore (fun k => { k with tileFails := k.tileFails.filter (fun f => !mine f) })) d (word (min n (2 ^ 64 - 1)))

/-! ## vldt and vstt (R231) -/

/-- One access of a row: TRAPVEC's register and index, logical offset, bytes, and the end of the slots it must lie in. -/
structure SlotPiece where
  reg : Nat
  idx : Nat
  off : Nat
  n : Nat
  limit : Nat
  deriving DecidableEq, Repr

/-- The pieces of a tile row: elements, then the side bytes of a paired register. -/
def Hart.slotPieces (h : Hart) (d : Nat) (desc : Desc) (l : Nat) : List SlotPiece :=
  let t := h.tag d
  let w := h.width d
  let n := h.count w
  let limit := (if t.paired then desc.cnt - 1 else desc.cnt) * 16384
  (h.row h.first n).map (fun k => ⟨d, k, l + k * w / 8, elemBytes w, limit⟩) ++
    (if t.paired then (List.range (n / t.block * t.sideCount)).map
      (fun k => ⟨d + 1, k, limit + l / 256 * t.rowSides + k, 1, desc.cnt * 16384⟩)
     else [])

/-- The first trap of a list of pieces: past the range, or a poisoned word (R231, R334). -/
def State.slotTrap (s : State) (desc : Desc) (load : Bool) (ps : List SlotPiece) : Option Trap :=
  ps.findSome? (fun p =>
    let vec := vecWord false p.reg p.idx
    if p.limit < p.off + p.n then some ⟨cProtection, word (desc.slot + p.off / 16384), vec⟩
    else if load && s.rangePoisoned s.coreNum desc.slot p.off p.n then some ⟨cMachine, word (2 ^ 62 + p.off / 16 * 16), vec⟩
    else none)

/-- A range that R218 allows a tag: a paired one has its side slot and 1 to 8, or to 128, data slots. -/
def Tag.rangeOk (t : Tag) (d : Desc) : Bool :=
  !t.paired || (2 ≤ d.cnt && d.cnt ≤ (if t = .bfp16 then 129 else 9))

/-- The checks that `vldt` and `vstt` share; `go` performs the access. Where no element is active only those of the descriptor's own fields
are made (R17); a range that breaks R218 counts as one of them (log 53). -/
def tileRow (s : State) (i : Instr) (d : VReg) (a b : SReg) (load : Bool) (go : State → Desc → List SlotPiece → List Nat → Result) : Result :=
  let h := s.hart
  let w := h.sreg a
  let l := (h.sreg b).toNat
  let t := h.tag d.toNat
  let desc := Desc.ofWord w
  if descMalformed .source w || !t.rangeOk desc then raiseTrap s ⟨cIllegal, insnWord i, 0⟩
  else if !h.blocksOk t then raiseTag s i
  else
    let ps := h.slotPieces d.toNat desc l
    let unit := if t.paired then 256 else elemBytes (h.width d.toNat)
    match ps with
    | [] => go s desc [] []
    | p :: _ =>
      if l % unit ≠ 0 then raiseTrap s ⟨cMisaligned, word l, vecWord false p.reg p.idx⟩
      else match slotOutside (s.gangOf s.cur) desc.slot desc.cnt with
      | some k => raiseTrap s (protectionTrap k)
      | none =>
        let chunks := (ps.filter (fun p => p.off + p.n ≤ p.limit)).map (fun p => desc.slot * 4 + p.off / 4096)
        if (if load then s.slotHeld chunks [] else s.slotHeld [] chunks) then wait s .other
        else match s.slotTrap desc load ps with
          | some t => raiseTrap s t
          | none => go s desc ps chunks

def execVldt (d : VReg) (a b : SReg) (s : State) : Result :=
  tileRow s (.vldt d a b) d a b true (fun s desc ps chunks =>
    let s := s.countLayout s.coreNum [desc] chunks
    let bytes := fun (p : SlotPiece) => bytesToNat (s.readRange s.coreNum desc.slot p.off p.n)
    finishHart s (fun h =>
      let w := h.width d.toNat
      let h := ps.foldl (fun h p =>
        let x := bytes p
        if p.reg = d.toNat then
          h.setV p.reg (setLane (h.vreg p.reg) w p.idx ((h.tag d.toNat).holdAt p.idx (if w = 4 then x / 16 ^ (p.idx % 2) else x)))
        else h.setV p.reg (setLane (h.vreg p.reg) 8 p.idx x)) h
      let idx := fun (r : Nat) => (ps.filter (fun p => p.reg = r)).map (·.idx)
      ((trimLoaded h d.toNat (h.tag d.toNat)).refillRow d.toNat w (idx d.toNat) (idx (d.toNat + 1))).wrote d.toNat w))

def execVstt (d : VReg) (a b : SReg) (s : State) : Result :=
  tileRow s (.vstt d a b) d a b false (fun s desc ps chunks =>
    let h := s.hart
    let w := h.width d.toNat
    let s := s.countLayout s.coreNum [desc] chunks
    let bytes := ps.flatMap (fun p =>
      let x := if p.reg ≠ d.toNat then lane (h.vreg p.reg) 8 p.idx
        else if w = 4 then lane (h.vreg d.toNat) 8 (p.idx / 2)
        else lane (h.vreg d.toNat) w p.idx
      (natToBytes p.n x).mapIdx (fun j b => (s.rangeKey s.coreNum desc.slot (p.off + j), b)))
    finishHart (s.writeKeys bytes) Hart.restart)

/-! ## Batch issue (R232, R233) -/

/-- The 64 bytes of command k of a batch that starts at register group a. A side register is read like any other: R10 has its use trap,
R232 has `xbatch` raise no trap but ILLEGAL_INSN, and the model follows R232 (log 61). -/
def Hart.batchRecord (h : Hart) (a k : Nat) : Nat := (h.vreg (a * 8 + k / 4)).toNat >>> (512 * (k % 4)) % 2 ^ 512

/-- The copy command of a record; none where OP names none (R233). -/
def copyArgs (r : Nat) : Option TileArgs :=
  let op := match recBits r 0 7 0 with
    | 0 => some CopyOp.tld | 1 => some .tst | 2 => some .tcpy | 3 => some .tfill | 4 => some .ttag | 5 => some .tpack
    | 6 => some .tunpk | _ => none
  op.map (fun op =>
    { op := op, desc := word (recBits r 8 63 0), arg := word (recBits r 0x10 63 0), argb := word (recBits r 0x18 63 0)
      org := (List.range 5).map (fun k => toSigned 32 (recBits r (0x20 + 4 * k) 31 0)) })

/-- What one command of a batch comes to. -/
inductive BatchOne
  | accepted (s : State)
  | full
  | invalid (s : State)
  | hold

/-- Selected commands taken in order, with those accepted; after one refused for a full queue every later one is refused. The number: the
instruction waits at that command, and what was accepted before it stands. -/
def runBatch (s : State) (one : State → Nat → BatchOne) : List Nat → List Nat → State × List Nat × Option Nat
  | [], done => (s, done, none)
  | k :: ks, done =>
    match one s k with
    | .accepted s => runBatch s one ks (k :: done)
    | .invalid s => runBatch s one ks done
    | .full => (s, done, none)
    | .hold => (s, done, some k)

/-- p[d] with the bits of accepted commands. -/
def batchBits (done : List Nat) : PWord := BitVec.ofNat 512 (done.foldl (fun t k => t + 2 ^ k) 0)

/-- A batch of one kind, from its start or from where it waits. -/
def xbatch (s : State) (d : PReg) (one : State → Nat → BatchOne) : Result :=
  let (k0, done0) := s.hart.batch.getD (0, [])
  match runBatch s one ((List.range 32).filter (fun k => k0 ≤ k && s.hart.active k)) done0 with
  | (s, done, none) => finishHart s (fun h => { h.setP d (batchBits done) with batch := none })
  | (s, done, some k) => wait (s.onHart (fun h => { h with batch := some (k, done) })) .other

def execXbatchCopy (d : PReg) (a : BitVec 3) (s : State) : Result :=
  let h := s.hart
  xbatch s d (fun s k =>
    match copyArgs (h.batchRecord a.toNat k) with
    | none => .invalid s
    | some x =>
      match s.formTile x with
      | (.trap _, s) => .invalid s
      | (.hold, _) => .hold
      | (.ok c, s) => if s.copyRoom then .accepted (s.enqueueTile c) else .full)

end Sys2Proof.Machine
end

