-- ==== Sys2Proof/Machine/Matrix.lean ====
section
/-! DEFINITION. The matrix engine and the operand loader (11_matrix_engine R235 to R258): majors 0x2B and 0x2C. -/

namespace Sys2Proof.Machine

/-! ## Shapes and groups (R236, R238, R239) -/

/-- A shape's fields. -/
structure Shape where
  drop : Bool
  tmax : Nat
  pat : Nat
  sb : Nat
  stag : Option Tag
  btag : Option Tag
  atag : Option Tag
  k : Nat
  n : Nat
  m : Nat
  deriving DecidableEq, Repr

def Shape.ofWord (w : Word) : Shape :=
  { drop := bit w 62, tmax := field w 61 59, pat := field w 58 57, sb := if bit w 56 then 32 else 16
    stag := Tag.ofCode? (field w 55 48), btag := Tag.ofCode? (field w 47 40), atag := Tag.ofCode? (field w 39 32)
    k := field w 26 16, n := field w 14 8, m := field w 7 0 }

/-- An operation group. -/
inductive Group
  | fp8 | int8 | fp4 | f16 | f32
  deriving DecidableEq, Repr

/-- The group of a tag (R236). -/
def Tag.group : Tag → Option Group
  | .e4m3 | .e5m2 => some .fp8
  | .int8 | .uint8 => some .int8
  | .e2m1x => some .fp4
  | .bf16 | .fp16 => some .f16
  | .fp32 => some .f32
  | _ => none

/-- The dot width w. -/
def Group.dot : Group → Nat
  | .fp8 | .int8 => 4
  | .fp4 => 8
  | .f16 => 2
  | .f32 => 1

/-- The group of both operands. -/
def Shape.group (x : Shape) : Option Group :=
  match x.atag.bind Tag.group, x.btag.bind Tag.group with
  | some a, some b => if a = b then some a else none
  | _, _ => none

def Shape.ta (x : Shape) : Tag := x.atag.getD .untyped
def Shape.tb (x : Shape) : Tag := x.btag.getD .untyped
def Shape.ts (x : Shape) : Tag := x.stag.getD .untyped
def Shape.dot (x : Shape) : Nat := (x.group.map Group.dot).getD 1
def Shape.isInt (x : Shape) : Bool := x.group = some .int8

/-- What breaks a shape value: 1 an ILLEGAL_INSN, 2 an OPERAND_TAG (R239). -/
def shapeFault (w : Word) : Option Nat :=
  let x := Shape.ofWord w
  if bit w 63 || field w 31 27 ≠ 0 || bit w 15 || x.m = 0 || 128 < x.m || x.n = 0 || 64 < x.n || x.k = 0 || 1024 < x.k ||
      x.pat = 3 || x.tmax = 0 || 4 < x.tmax || !(x.stag = some .fp32 || x.stag = some .bf16 || x.stag = some .fp16) then some 1
  else match x.group with
    | none => some 2
    | some g => if x.k % g.dot ≠ 0 || (g = .fp4 && x.k % 32 ≠ 0) then some 1 else none

/-! ## Placement of operands (R237) -/

/-- Elements of a logical row. -/
def perRow (t : Tag) : Nat := 2048 / t.width 0
/-- MS. -/
def Shape.ms (x : Shape) : Nat := (x.m + 63) / 64
/-- Row blocks of K. -/
def Shape.kBlocks (x : Shape) (t : Tag) : Nat := (x.k + perRow t - 1) / perRow t
def sideSlot (t : Tag) : Nat := if t = .e2m1x then 1 else 0
def Shape.slotsA (x : Shape) : Nat := x.kBlocks x.ta * x.ms + sideSlot x.ta
def Shape.slotsB (x : Shape) : Nat := x.kBlocks x.tb + sideSlot x.tb
def Shape.slotsScan (x : Shape) : Nat := (x.k * x.m + 63) / 64

/-- (q, g, cap) of a pattern (R254). -/
def pattern : Nat → Nat × Nat × Nat
  | 0 => (2, 4, 2)
  | 1 => (1, 4, 4)
  | _ => (2, 8, 4)

def align256 (n : Nat) : Nat := (n + 255) / 256 * 256

/-- SA and TSZ (R255). -/
def Shape.sideArea (x : Shape) : Nat := if x.tb = .e2m1x then align256 (x.n * x.k / 16) else 0
/-- Bytes of the kept values of a group. -/
def Shape.groupBytes (x : Shape) : Nat := (pattern x.pat).1 * x.tb.width 0 / 8
def Shape.groups (x : Shape) : Nat := x.k / (pattern x.pat).2.1
def Shape.termSize (x : Shape) : Nat :=
  align256 ((x.n * x.groups * ((pattern x.pat).1 * x.tb.width 0 + 8) + 7) / 8)
def Shape.termBase (x : Shape) (j : Nat) : Nat := 2048 + x.sideArea + j * x.termSize
def Shape.slotsTerms (x : Shape) : Nat := (x.termBase (pattern x.pat).2.2 + 16383) / 16384

/-- The row of element (m, k) of A, and of (k, n) of B. -/
def Shape.rowA (x : Shape) (m k : Nat) : Nat := k / perRow x.ta * 64 * x.ms + m
def Shape.rowB (x : Shape) (k n : Nat) : Nat := k / perRow x.tb * 64 + n

/-- Rows of an operand: for A the first m of each block, for B the first n. -/
def Shape.rowsA (x : Shape) : List Nat :=
  (List.range (x.kBlocks x.ta)).flatMap (fun b => (List.range x.m).map (fun m => b * 64 * x.ms + m))
def Shape.rowsB (x : Shape) : List Nat :=
  (List.range (x.kBlocks x.tb)).flatMap (fun b => (List.range x.n).map (fun n => b * 64 + n))

/-! ## Reading slots -/

/-- Bytes of a logical range as the engine reads them. -/
abbrev Bytes := Nat → Byte

def State.rangeBytes (s : State) (core first : Nat) : Bytes := fun o => s.mem.cells.read (s.rangeKey core first o)

/-- The pattern of the element in column k of row r. -/
def patternAt (f : Bytes) (t : Tag) (r k : Nat) : Nat :=
  if t.width 0 = 4 then (f (r * 256 + k / 2)).toNat / 16 ^ (k % 2) % 16
  else bytesToNat ((List.range (t.width 0 / 8)).map (fun j => f (r * 256 + k * (t.width 0 / 8) + j)))

/-- The value of a pattern; block scales given (R244). -/
def matVal (t : Tag) (s x b : Nat) : Num :=
  if t = .e2m1x then decodeE2m1x s x b else if t.isInt then Num.ofInt (t.intVal b) else decodeFloat t false b

/-- The value of the element in column k of data row r of a range of `cnt` slots, side slot last. -/
def operandVal (f : Bytes) (t : Tag) (cnt r k : Nat) : Num :=
  let side := (cnt - 1) * 16384 + r * 32 + 2 * (k / 32)
  matVal t (f side).toNat (f (side + 1)).toNat (patternAt f t r k)

/-- val_A(m, k) and val_B(k, n) of R251. -/
def valA (f : Bytes) (x : Shape) (cnt m k : Nat) : Num := operandVal f x.ta cnt (x.rowA m k) (k % perRow x.ta)
def valB (f : Bytes) (x : Shape) (cnt k n : Nat) : Num := operandVal f x.tb cnt (x.rowB k n) (k % perRow x.tb)

/-! ## Accumulation (R244) -/

/-- The exact sum of products. -/
def groupSum : List (Num × Num) → Num
  | [] => .zero
  | [p] => (p.1.mul p.2).1
  | p :: ps => (Num.add .rne (p.1.mul p.2).1 (groupSum ps)).1

/-- add_acc for fp32: one rne rounding; every NaN is the default. -/
def addAcc (x : BitVec 32) (sum : Num) : BitVec 32 :=
  BitVec.ofNat 32 (Ieee.fp32.round .rne false (Num.add .rne (Ieee.fp32.decode false x.toNat) sum).1).1

/-- The integer of an exact value. -/
def Num.toInt : Num → Int
  | .fin n m e => if 0 ≤ e then sm n (m * 2 ^ e.toNat) else Int.fdiv (sm n m) (2 ^ (-e).toNat)
  | _ => 0

/-- add_acc of the shape's group. -/
def Shape.accumulate (x : Shape) (a : BitVec 32) (ps : List (Num × Num)) : BitVec 32 :=
  if x.isInt then a + BitVec.ofInt 32 (ps.foldl (fun t p => t + p.1.toInt * p.2.toInt) 0) else addAcc a (groupSum ps)

/-- The entries of an accumulator. -/
def Core.accAt (c : Core) (a m n : Nat) : BitVec 32 := SMap.get 0 c.acc (a * 8192 + 64 * m + n)

/-- Entry (m, n) of an accumulator for m < M, n < N replaced. -/
def Core.setAcc (c : Core) (x : Shape) (a : Nat) (f : Nat → Nat → BitVec 32) : Core :=
  let es := (List.range x.m).flatMap (fun m => (List.range x.n).map (fun n => (a * 8192 + 64 * m + n, f m n)))
  { c with acc := es.foldl (fun m e => SMap.set 0 m e.1 e.2) c.acc }

/-! ## Issue (R240, R241) -/

/-- The slots a range must have, else ILLEGAL_INSN (R237). -/
def Desc.short (d : Desc) (n : Nat) : Bool := d.cnt < n

/-- Chunks of rows of a range. -/
def rowChunks (first : Nat) (rows : List Nat) : List Nat :=
  rows.foldl (fun l r => let c := first * 4 + r / 16; if l.contains c then l else l ++ [c]) []

/-- Chunks of side-slot rows of a range. -/
def sideChunks (t : Tag) (d : Desc) (rows : List Nat) : List Nat :=
  if t = .e2m1x then rows.foldl (fun l r =>
    let c := (d.slot + d.cnt - 1) * 4 + r * 32 / 4096
    if l.contains c then l else l ++ [c]) [] else []

/-- Chunks of the first n slots of a range. -/
def firstChunks (d : Desc) (n : Nat) : List Nat := (List.range (4 * n)).map (fun k => d.slot * 4 + k)

/-- Rows of a tile of M rows. -/
def Shape.rowsM (x : Shape) : List Nat := List.range x.m

def chunksA (x : Shape) (d : Desc) : List Nat := rowChunks d.slot x.rowsA ++ sideChunks x.ta d x.rowsA
def chunksB (x : Shape) (d : Desc) : List Nat := rowChunks d.slot x.rowsB ++ sideChunks x.tb d x.rowsB

/-- B of `mmab`: the slots after the bitmap's (R252). -/
def Desc.afterBitmap (d : Desc) : Desc := { d with slot := d.slot + 1, cnt := d.cnt - 1 }

/-- What a posted instruction reads and writes of the slots (R243). -/
def MatCmd.touch (c : MatCmd) : MatCmd :=
  let x := Shape.ofWord c.shape
  match c.op, c.a, c.b, c.out with
  | .mload, some a, _, _ => { c with reads := rowChunks a.slot x.rowsM }
  | .mread, _, _, some d => { c with writes := rowChunks d.slot x.rowsM }
  | .mma, some a, some b, _ => { c with reads := chunksA x a ++ chunksB x b }
  | .mmab, some a, some b, _ => { c with reads := chunksA x a ++ [b.slot * 4] ++ chunksB x b.afterBitmap }
  | .mdec, some b, _, some d => { c with reads := chunksB x b, writes := firstChunks d x.slotsTerms }
  | .mmanm, some a, some b, _ | .mrem, some a, some b, _ => { c with reads := chunksA x a ++ firstChunks b x.slotsTerms }
  | .mscan, some a, some b, _ =>
    { c with reads := rowChunks a.slot (List.range (x.k * x.m)) ++ rowChunks b.slot (List.range (x.k * x.m)) }
  | _, _, _, _ => c

/-- The accumulator of a scalar register (R235). -/
def accOf (g : Option Gang) (x : Word) : Except Trap Nat :=
  if 7 < x.toNat || !((g.map (fun g => g.hasAcc x.toNat)).getD false) then .error (protectionTrap x.toNat) else .ok x.toNat

/-- A matrix failure awaiting report traps, and FAIL is cleared (R245). -/
def reportFail (s : State) : Option Result :=
  let f := s.hart.mfail
  if f.fail then
    some (raiseTrap (s.onHart (fun h => { h with mfail := { h.mfail with fail := false } })) ⟨cMatrix, f.addr, 0⟩)
  else none

/-- A bare command of the acting hart. -/
def State.bareMat (s : State) (op : MatOp) : MatCmd :=
  { op := op, hart := s.cur, gang := s.hart.gang, stamp := 0, pc := s.hart.pc, shape := s.hart.mshape, lossBnd := s.hart.lossBnd }

/-- Harts that stalled on the queue before the acting one, and still do (R241). -/
def State.stalledBefore (s : State) : Bool :=
  (s.core.matStall.takeWhile (· ≠ s.cur)).any (fun n => (s.hartAt n).run = .running && (s.hartAt n).block.any (fun b => b.wait = .matrix))

/-- The instruction is posted, or stalls before issue (R241). -/
def postMat (s : State) (c : MatCmd) : Result :=
  let me := s.hart.block.any (fun b => b.wait = .matrix)
  let s := if me then s else s.onCore (fun k => { k with matStall := k.matStall.filter (· ≠ s.cur) ++ [s.cur] })
  if 64 ≤ s.core.mats.length || s.stalledBefore then wait s .matrix
  else
    let (uid, s) := s.fresh
    let (st, s) := s.takeStamp
    let c := { c with uid := uid, stamp := st }.touch
    finishHart (s.onCore (fun k => { k with mats := k.mats ++ [c], matStall := k.matStall.filter (· ≠ s.cur) })) id

/-- An instruction of the queue: the failure, then its checks, then the post (R240). -/
def issueMat (s : State) (c : Except Trap MatCmd) : Result :=
  match reportFail s with
  | some r => r
  | none => match c with
    | .error t => raiseTrap s t
    | .ok c => postMat s c

/-- The checks of step 5: M = 0, then the instruction's own; an ILLEGAL_INSN. -/
def ownCheck (s : State) (iw : Word) (bad : Shape → Bool) : Except Trap Unit :=
  let x := Shape.ofWord s.hart.mshape
  if x.m = 0 || bad x then .error ⟨cIllegal, iw, 0⟩ else .ok ()

/-- A tag check of step 5, after M = 0. -/
def tagCheck (s : State) (iw : Word) (ok : Shape → Bool) : Except Trap Unit :=
  let x := Shape.ofWord s.hart.mshape
  if x.m = 0 then .error ⟨cIllegal, iw, 0⟩ else if ok x then .ok () else .error ⟨cTag, iw, 0⟩

def execMshape (a : SReg) (s : State) : Result :=
  match reportFail s with
  | some r => r
  | none =>
    let w := s.hart.sreg a
    match shapeFault w with
    | some 1 => raiseIllegal s (.mshape a)
    | some _ => raiseTag s (.mshape a)
    | none => finishHart s (fun h => { h with mshape := w })

def execMzero (d : SReg) (s : State) : Result :=
  issueMat s (do
    let k ← accOf (s.gangOf s.cur) (s.hart.sreg d)
    pure { s.bareMat .mzero with acc := k })

/-- The parameters of `mread`: 1 an ILLEGAL_INSN, 2 an OPERAND_TAG (R250). -/
def readParams (w : Word) : Option Nat :=
  if field w 63 13 ≠ 0 || 5 ≤ field w 10 8 then some 1
  else match Tag.ofCode? (field w 7 0) with
    | some .fp32 | some .bf16 | some .fp16 | some .e4m3 | some .e5m2 | some .int32 | some .uint32 | some .int8 | some .uint8 => none
    | _ => some 2

def execMread (d a b : SReg) (s : State) : Result :=
  let h := s.hart
  let iw := insnWord (.mread d a b)
  issueMat s (do
    let k ← accOf (s.gangOf s.cur) (h.sreg a)
    let out ← checkDesc (s.gangOf s.cur) .dest (h.sreg d) iw
    ownCheck s iw (fun _ => readParams (h.sreg b) = some 1)
    tagCheck s iw (fun _ => readParams (h.sreg b) ≠ some 2)
    ownCheck s iw (fun x => out.short x.ms)
    pure { s.bareMat .mread with acc := k, out := some out, param := h.sreg b })

def execMload (d a : SReg) (s : State) : Result :=
  let h := s.hart
  let iw := insnWord (.mload d a)
  issueMat s (do
    let k ← accOf (s.gangOf s.cur) (h.sreg d)
    let src ← checkDesc (s.gangOf s.cur) .source (h.sreg a) iw
    ownCheck s iw (fun x => src.short x.ms)
    pure { s.bareMat .mload with acc := k, a := some src })

/-- An instruction with an accumulator and two operand ranges. -/
def issueTwo (s : State) (i : Instr) (op : MatOp) (d a b : SReg) (tags : Shape → Bool) (short : Shape → Desc → Desc → Bool) : Result :=
  let h := s.hart
  let iw := insnWord i
  issueMat s (do
    let k ← accOf (s.gangOf s.cur) (h.sreg d)
    let x ← checkDesc (s.gangOf s.cur) .source (h.sreg a) iw
    let y ← checkDesc (s.gangOf s.cur) .source (h.sreg b) iw
    tagCheck s iw tags
    ownCheck s iw (fun sh => short sh x y)
    pure { s.bareMat op with acc := k, a := some x, b := some y })

def execMma (d a b : SReg) (s : State) : Result :=
  issueTwo s (.mma d a b) .mma d a b (fun _ => true) (fun x p q => p.short x.slotsA || q.short x.slotsB)
def execMmab (d a b : SReg) (s : State) : Result :=
  issueTwo s (.mmab d a b) .mmab d a b (fun _ => true) (fun x p q => p.short x.slotsA || q.short (1 + x.slotsB))
def execMmanm (d a b : SReg) (s : State) : Result :=
  issueTwo s (.mmanm d a b) .mmanm d a b (fun _ => true) (fun x p q => p.short x.slotsA || q.short x.slotsTerms)
def execMrem (d a b : SReg) (s : State) : Result :=
  issueTwo s (.mrem d a b) .mrem d a b (fun _ => true) (fun x p q => p.short x.slotsA || q.short x.slotsTerms)
def execMscan (d a b : SReg) (s : State) : Result :=
  issueTwo s (.mscan d a b) .mscan d a b (fun x => !x.isInt) (fun x p q => p.short x.slotsScan || q.short x.slotsScan)

/-- Tags that the loader takes (R254). -/
def Shape.decTag (x : Shape) : Bool := x.tb ≠ .fp32 && !(x.tb = .e2m1x && x.pat = 1)

def execMdec (d a : SReg) (s : State) : Result :=
  let h := s.hart
  let iw := insnWord (.mdec d a)
  issueMat s (do
    let out ← checkDesc (s.gangOf s.cur) .dest (h.sreg d) iw
    let src ← checkDesc (s.gangOf s.cur) .source (h.sreg a) iw
    tagCheck s iw Shape.decTag
    ownCheck s iw (fun x => x.k % ((pattern x.pat).2.1 * x.dot / (pattern x.pat).1) ≠ 0 || out.short x.slotsTerms || src.short x.slotsB)
    pure { s.bareMat .mdec with a := some src, out := some out })

/-- MDSTAT.QCNT: the hart's posted instructions not yet complete (R241). -/
def State.matCount (s : State) (n : Nat) : Nat := ((s.coreAt (coreOfHart n)).mats.filter (fun c => c.hart = n)).length

/-- A wait for the hart's matrix work (R253). -/
def execMfence (s : State) : Result :=
  match reportFail s with
  | some r => r
  | none => if s.matCount s.cur = 0 then finishHart s id else wait s (.engine 0x2000000000000000)

/-- MDSTAT (R246). -/
def State.mdstat (s : State) (n : Nat) : Word :=
  let f := (s.hartAt n).mfail
  word (s.matCount n * 2 ^ 24 + f.ldrop.toNat * 2 ^ 17 + f.lext.toNat * 2 ^ 16 + f.cancel * 256 + f.fcause * 2 + f.fail.toNat)

/-! ## Products (R251, R252) -/

/-- Groups of w along K, in order, over an entry. -/
def accumulateK (x : Shape) (val : Nat → Num × Num) (skip : Nat → Bool) (a : BitVec 32) : BitVec 32 :=
  (List.range (x.k / x.dot)).foldl (fun a g =>
    if skip (g * x.dot) then a
    else x.accumulate a ((List.range x.dot).map (fun j => val (g * x.dot + j)))) a

/-- The dense product. -/
def mmaEntry (x : Shape) (fa fb : Bytes) (ca cb : Nat) (skip : Nat → Nat → Bool) (a : BitVec 32) (m n : Nat) : BitVec 32 :=
  accumulateK x (fun k => (valA fa x ca m k, valB fb x cb k n)) (fun k => skip k n) a

/-- The bitmap's bit for the block of (k, n) (R252). -/
def bitmapBit (f : Bytes) (x : Shape) (k n : Nat) : Bool :=
  let b := k / x.sb * ((x.n + x.sb - 1) / x.sb) + n / x.sb
  (f (b / 8)).toNat.testBit (b % 8)

/-! ## The operand loader (R254, R255) -/

/-- An element of B: its row k, pattern, magnitude. -/
structure Elem where
  k : Nat
  bits : Nat
  val : Num
  deriving DecidableEq, Repr

/-- a ranks before b: greater magnitude, NaN largest, lower k first. -/
def Elem.before (a b : Elem) : Bool :=
  match a.val.isNaN, b.val.isNaN with
  | true, true => a.k < b.k
  | true, false => true
  | false, true => false
  | false, false =>
    let x := a.val.abs
    let y := b.val.abs
    if y.lt x then true else if x.lt y then false else a.k < b.k

def insertElem (e : Elem) : List Elem → List Elem
  | [] => [e]
  | x :: xs => if e.before x then e :: x :: xs else x :: insertElem e xs

/-- A group's entries by rank. -/
def rankGroup (es : List Elem) : List Elem := es.foldl (fun l e => insertElem e l) []

def insertRow (e : Elem) : List Elem → List Elem
  | [] => [e]
  | x :: xs => if e.k < x.k then e :: x :: xs else x :: insertRow e xs

/-- A list of elements in ascending k. -/
def byRow (es : List Elem) : List Elem := es.foldl (fun l e => insertRow e l) []

/-- A value other than +0 and -0. -/
def Elem.nonzero (e : Elem) : Bool := !e.val.isZero

/-- The remainder under T terms: ranked out and nonzero, by column, then by k. -/
def remainder (cols : List (List (List Elem))) (q t : Nat) : List (Nat × Elem) :=
  (cols.mapIdx (fun n gs => (gs.flatMap (fun g => byRow ((g.drop (t * q)).filter Elem.nonzero))).map (fun e => (n, e)))).flatten

/-- The least T from the one aimed for whose remainder fits. -/
def chooseTerms (cols : List (List (List Elem))) (q : Nat) : Nat → Nat → Nat
  | 0, t => t
  | fuel + 1, t => if (remainder cols q t).length ≤ 256 then t else chooseTerms cols q fuel (t + 1)

/-- The exact sum of squares. -/
def energy (es : List Elem) : Num := es.foldl (fun t e => (Num.add .rne t (e.val.mul e.val).1).1) .zero

/-- A value rounded to fp32 by rne. -/
def fp32Of (x : Num) : Nat := (Ieee.fp32.round .rne false x).1

/-- The metadata byte of a group's kept entries. -/
def metaByte (g : Nat) (kept : List Elem) : Nat :=
  (kept.mapIdx (fun j e => e.k % g * 2 ^ (j * (if g = 8 then 3 else 2)))).foldl (· + ·) 0

/-- What the loader finds: terms, remainder, header flags. -/
structure Decomposition where
  cols : List (List (List Elem))
  terms : Nat
  rem : List (Nat × Elem)
  extended : Bool
  dropped : Bool
  nonfin : Bool
  edrop : Num
  etot : Num
  deriving DecidableEq, Repr

/-- The decomposition of B under a shape and a loss bound. -/
def decompose (x : Shape) (f : Bytes) (cnt : Nat) (loss : Word) : Decomposition :=
  let (q, g, _) := pattern x.pat
  let elem := fun (n k : Nat) => (⟨k, patternAt f x.tb (x.rowB k n) (k % perRow x.tb), valB f x cnt k n⟩ : Elem)
  let cols := (List.range x.n).map (fun n => (List.range x.groups).map (fun G => rankGroup ((List.range g).map (fun j => elem n (G * g + j)))))
  let need := cols.foldl (fun t gs => gs.foldl (fun t es => max t (((es.filter Elem.nonzero).length + q - 1) / q)) t) 0
  let t := chooseTerms cols q 8 (min x.tmax need)
  let rem := remainder cols q t
  let all := cols.flatten.flatten
  let nonfin := all.any (fun e => !e.val.finite)
  let edrop := energy (rem.map (·.2))
  let etot := energy all
  let bound := ((Ieee.fp32.decode false (loss.toNat % 2 ^ 32)).mul etot).1
  { cols := cols, terms := t, rem := rem, extended := x.tmax < t, nonfin := nonfin, edrop := edrop, etot := etot
    dropped := x.drop && rem ≠ [] && !nonfin && !(bound.lt edrop) && !bound.isNaN }

/-- The header, as bytes. -/
def headerBytes (x : Shape) (d : Decomposition) : List Byte :=
  natToBytes 4 (x.tb.code * 65536 + x.pat * 256 + d.terms) ++ natToBytes 4 d.rem.length ++
    natToBytes 4 (if d.nonfin then 0x7FC00000 else fp32Of d.edrop) ++ natToBytes 4 (if d.nonfin then 0x7FC00000 else fp32Of d.etot) ++
    natToBytes 4 (2 ^ 31 + d.nonfin.toNat * 4 + d.extended.toNat * 2 + d.dropped.toNat) ++ natToBytes 2 x.k ++ natToBytes 1 x.n

/-- The kept entries of term j in a group, in ascending k. -/
def keptOf (q j : Nat) (g : List Elem) : List Elem := byRow ((g.drop (j * q)).take q)

/-- The values and metadata of term j, as bytes. -/
def termBytes (x : Shape) (d : Decomposition) (j : Nat) : List Byte :=
  let (q, g, _) := pattern x.pat
  let groups := d.cols.flatten.map (keptOf q j)
  let value := fun (es : List Elem) =>
    if x.tb.width 0 = 4 then natToBytes 1 ((es.mapIdx (fun i e => e.bits * 16 ^ i)).foldl (· + ·) 0)
    else es.flatMap (fun e => natToBytes (x.tb.width 0 / 8) e.bits)
  groups.flatMap value ++ groups.flatMap (fun es => natToBytes 1 (metaByte g es))

/-- The output range of a decomposition (R255). -/
def decompositionBytes (x : Shape) (f : Bytes) (cnt : Nat) (d : Decomposition) : List Byte :=
  let rems := d.rem.flatMap (fun r => natToBytes 4 (r.2.k + r.1 * 1024 + r.2.bits * 65536))
  let side := if x.tb = .e2m1x then
      (List.range x.n).flatMap (fun n => (List.range (x.k / 32)).flatMap (fun b =>
        let o := (cnt - 1) * 16384 + x.rowB (32 * b) n * 32 + 2 * (32 * b % perRow x.tb / 32)
        [f o, f (o + 1)]))
    else []
  let start := padTo (padTo (padTo (headerBytes x d) 1024 ++ rems) 2048 ++ side) (x.termBase 0)
  padTo ((List.range d.terms).foldl (fun bs j => padTo (bs ++ termBytes x d j) (x.termBase (j + 1))) start) (16384 * x.slotsTerms)

/-! ## Terms (R256) -/

/-- The header of a term range. -/
structure TermHead where
  terms : Nat
  pat : Nat
  btag : Nat
  rcount : Nat
  flags : Nat
  k : Nat
  n : Nat
  clean : Bool
  deriving DecidableEq, Repr

def readN (f : Bytes) (o n : Nat) : Nat := bytesToNat ((List.range n).map (fun j => f (o + j)))

def TermHead.read (f : Bytes) : TermHead :=
  let w := readN f 0 4
  let v := readN f 0x10 4
  { terms := w % 256, pat := w / 256 % 256, btag := w / 65536 % 256, rcount := readN f 4 4, flags := v, k := readN f 0x14 2
    n := readN f 0x16 1
    clean := w / 2 ^ 24 = 0 && bits v 30 3 = 0 && (List.range 41).all (fun j => f (0x17 + j) = 0) }

/-- The failure of a header: `own` when malformed, 4 under another shape. -/
def TermHead.fault (h : TermHead) (x : Shape) (own : Nat) : Option Nat :=
  let cap := if h.pat < 3 then (pattern h.pat).2.2 else 4
  if !h.flags.testBit 31 || !h.clean || cap < h.terms || 256 < h.rcount then some own
  else if h.btag ≠ x.tb.code || h.pat ≠ x.pat || h.k ≠ x.k || h.n ≠ x.n then some 4
  else none

/-- The metadata byte of group G of column n of term j. -/
def termMeta (x : Shape) (f : Bytes) (j n G : Nat) : Nat :=
  (f (x.termBase j + x.n * x.groups * x.groupBytes + n * x.groups + G)).toNat

/-- The i-th index of a metadata byte. -/
def metaIdx (x : Shape) (b i : Nat) : Nat := if (pattern x.pat).2.1 = 8 then b / 8 ^ i % 8 else b / 4 ^ i % 4

/-- A malformed metadata byte. -/
def metaBad (x : Shape) (b : Nat) : Bool :=
  let (q, g, _) := pattern x.pat
  (if g = 8 then 64 ≤ b else if q = 2 then 16 ≤ b else 4 ≤ b) || (q = 2 && metaIdx x b 1 ≤ metaIdx x b 0)

/-- Side bytes of block b of column n in a term range. -/
def termSide (x : Shape) (f : Bytes) (n k : Nat) : Nat × Nat :=
  let o := 2048 + 2 * (n * (x.k / 32) + k / 32)
  ((f o).toNat, (f (o + 1)).toNat)

/-- The i-th kept value of group G of column n of term j, whose row is k. -/
def termVal (x : Shape) (f : Bytes) (j n G i k : Nat) : Num :=
  let o := x.termBase j + (n * x.groups + G) * x.groupBytes
  let w := x.tb.width 0
  let b := if w = 4 then (f o).toNat / 16 ^ i % 16 else readN f (o + i * (w / 8)) (w / 8)
  let sx := termSide x f n k
  matVal x.tb sx.1 sx.2 b

/-- Every term over one entry. -/
def mmanmEntry (x : Shape) (fa fb : Bytes) (ca terms : Nat) (a : BitVec 32) (m n : Nat) : BitVec 32 :=
  let (q, g, _) := pattern x.pat
  let rho := x.dot / q
  (List.range terms).foldl (fun a j =>
    (List.range (x.groups / rho)).foldl (fun a r =>
      x.accumulate a ((List.range rho).flatMap (fun y =>
        let G := r * rho + y
        (List.range q).map (fun i =>
          let k := G * g + metaIdx x (termMeta x fb j n G) i
          (valA fa x ca m k, termVal x fb j n G i k))))) a) a

/-- Entry z of the remainder list: k, n, pattern. -/
def remEntry (f : Bytes) (z : Nat) : Nat × Nat × Nat :=
  let v := readN f (1024 + 4 * z) 4
  (v % 1024, v / 1024 % 64, v / 65536)

/-- The value of a remainder entry. -/
def remVal (x : Shape) (f : Bytes) (e : Nat × Nat × Nat) : Num :=
  let sx := termSide x f e.2.1 e.1
  matVal x.tb sx.1 sx.2 (e.2.2 % 2 ^ x.tb.width 0)

/-- The remainder over one entry, in list order. -/
def mremEntry (x : Shape) (fa fb : Bytes) (ca count : Nat) (a : BitVec 32) (m n : Nat) : BitVec 32 :=
  (List.range count).foldl (fun a z =>
    let e := remEntry fb z
    if e.2.1 = n then x.accumulate a [(valA fa x ca m e.1, remVal x fb e)] else a) a

/-! ## The recurrent step (R257) -/

def mscanEntry (x : Shape) (fg fu : Bytes) (a : BitVec 32) (m n : Nat) : BitVec 32 :=
  let t := x.ts
  (List.range x.k).foldl (fun a step =>
    let g := decodeFloat t false (patternAt fg t (step * x.m + m) n)
    let u := decodeFloat t false (patternAt fu t (step * x.m + m) n)
    let r := (roundFloat t Arith.plain (Num.fma .rne (Ieee.fp32.decode false a.toNat) g u).1).1
    BitVec.ofNat 32 (fp32Of (decodeFloat t false r))) a

/-! ## Execution (R242, R245) -/

/-- An uncorrectable byte among rows of a range. -/
def State.rowsPoisoned (s : State) (core first : Nat) (rows : List Nat) (n : Nat) : Bool :=
  s.mem.poison ≠ [] && rows.any (fun r => s.rangePoisoned core first (r * 256) n)

/-- An uncorrectable byte of an operand: its rows, and the side bytes of an e2m1x one. -/
def State.operandPoisoned (s : State) (core : Nat) (t : Tag) (d : Desc) (rows : List Nat) (k : Nat) : Bool :=
  let n := (min k (perRow t) * t.width 0 + 7) / 8
  s.rowsPoisoned core d.slot rows n ||
    (t = .e2m1x && s.mem.poison ≠ [] &&
      rows.any (fun r => s.rangePoisoned core d.slot ((d.cnt - 1) * 16384 + r * 32) (2 * (min k (perRow t) / 32))))

/-- The conversion of an accumulator entry by `mread` (R26, R250). -/
def readEntry (x : Shape) (param : Word) (p : Nat) (a : BitVec 32) : Nat :=
  let t := (Tag.ofCode? (field param 7 0)).getD .fp32
  let rnd : Rnd := match field param 10 8 with | 1 => .rtz | 2 => .rdn | 3 => .rup | 4 => .rna | _ => .rne
  let v : Val := if x.isInt then .int a.toInt else .num (Ieee.fp32.decode false a.toNat)
  (roundTo ⟨rnd, bit param 11, false⟩ p (if x.isInt then .int32 else .fp32) t v).1

/-- The effect of a posted instruction, or the cause of its failure. -/
def State.matEffect (s : State) (core : Nat) (c : MatCmd) : Except Nat State :=
  let x := Shape.ofWord c.shape
  let k := s.coreAt core
  let entry := fun (f : BitVec 32 → Nat → Nat → BitVec 32) =>
    s.onCoreAt core (fun t => t.setAcc x c.acc (fun m n => f (k.accAt c.acc m n) m n))
  match c.op, c.a, c.b, c.out with
  | .mzero, _, _, _ => .ok (s.onCoreAt core (fun t => { t with acc := t.acc.filter (fun e => e.1 / 8192 ≠ c.acc) }))
  | .mload, some a, _, _ =>
    if s.rowsPoisoned core a.slot x.rowsM (4 * x.n) then .error 3
    else
      let f := s.rangeBytes core a.slot
      .ok (entry (fun _ m n => BitVec.ofNat 32 (readN f (m * 256 + 4 * n) 4)))
  | .mread, _, _, some d =>
    let t := (Tag.ofCode? (field c.param 7 0)).getD .fp32
    let e := t.width 0 / 8
    let ws := (List.range x.m).flatMap (fun m => (List.range x.n).flatMap (fun n =>
      (natToBytes e (readEntry x c.param 0 (k.accAt c.acc m n))).mapIdx
        (fun j b => (s.rangeKey core d.slot (m * 256 + n * e + j), b))))
    let s := s.writeKeys ws
    .ok (if bit c.param 12 then s.onCoreAt core (fun t => t.setAcc x c.acc (fun _ _ => 0)) else s)
  | .mma, some a, some b, _ =>
    if s.operandPoisoned core x.ta a x.rowsA x.k || s.operandPoisoned core x.tb b x.rowsB x.k then .error 3
    else .ok (entry (mmaEntry x (s.rangeBytes core a.slot) (s.rangeBytes core b.slot) a.cnt b.cnt (fun _ _ => false)))
  | .mmab, some a, some b, _ =>
    let f := s.rangeBytes core b.slot
    let d := b.afterBitmap
    let skip := fun k n => !bitmapBit f x k n
    let nb := ((x.k + x.sb - 1) / x.sb * ((x.n + x.sb - 1) / x.sb) + 7) / 8
    let bad := s.mem.poison ≠ [] && (List.range x.n).any (fun n => (List.range x.k).any (fun k =>
      !skip k n && (s.rangePoisoned core d.slot (x.rowB k n * 256 + k % perRow x.tb * x.tb.width 0 / 8) (elemBytes (x.tb.width 0)) ||
        (x.tb = .e2m1x && s.rangePoisoned core d.slot ((d.cnt - 1) * 16384 + x.rowB k n * 32 + 2 * (k % perRow x.tb / 32)) 2))))
    if s.rangePoisoned core b.slot 0 nb || s.operandPoisoned core x.ta a x.rowsA x.k || bad then .error 3
    else .ok (entry (mmaEntry x (s.rangeBytes core a.slot) (s.rangeBytes core d.slot) a.cnt d.cnt skip))
  | .mdec, some b, _, some d =>
    let f := s.rangeBytes core b.slot
    if s.mem.poison ≠ [] && (chunksB x b).any (fun q => s.rangePoisoned core (q / 4) (q % 4 * 4096) 4096) then .error 3
    else
      let r := decompose x f b.cnt c.lossBnd
      let s := s.writeRange core d.slot 0 (decompositionBytes x f b.cnt r)
      .ok (s.onHartAt c.hart (fun h =>
        if h.mfail.last ≤ c.stamp + 1 then
          { h with mfail := { h.mfail with lext := r.extended, ldrop := r.dropped, last := c.stamp + 1 } }
        else h))
  | .mmanm, some a, some b, _ =>
    let f := s.rangeBytes core b.slot
    let h := TermHead.read f
    if s.rangePoisoned core b.slot 0 64 then .error 3
    else match h.fault x 1 with
      | some e => .error e
      | none =>
        let kept := (List.range h.terms).flatMap (fun j => (List.range x.n).flatMap (fun n => (List.range x.groups).map (fun G => (j, n, G))))
        if s.rangePoisoned core b.slot 2048 (x.termBase h.terms - 2048) then .error 3
        else if kept.any (fun y => metaBad x (termMeta x f y.1 y.2.1 y.2.2)) then .error 1
        else if s.operandPoisoned core x.ta a x.rowsA x.k then .error 3
        else .ok (entry (mmanmEntry x (s.rangeBytes core a.slot) f a.cnt h.terms))
  | .mrem, some a, some b, _ =>
    let f := s.rangeBytes core b.slot
    let h := TermHead.read f
    if s.rangePoisoned core b.slot 0 64 then .error 3
    else match h.fault x 2 with
      | some e => .error e
      | none =>
        if s.rangePoisoned core b.slot 1024 (4 * h.rcount) then .error 3
        else if (List.range h.rcount).any (fun z => let e := remEntry f z; x.k ≤ e.1 || x.n ≤ e.2.1) then .error 2
        else if h.flags.testBit 0 then .ok s
        else if s.rangePoisoned core b.slot 2048 x.sideArea || s.operandPoisoned core x.ta a x.rowsA x.k then .error 3
        else .ok (entry (mremEntry x (s.rangeBytes core a.slot) f a.cnt h.rcount))
  | .mscan, some a, some b, _ =>
    let rows := List.range (x.k * x.m)
    let n := x.n * (x.ts.width 0 / 8)
    if s.rowsPoisoned core a.slot rows n || s.rowsPoisoned core b.slot rows n then .error 3
    else .ok (entry (mscanEntry x (s.rangeBytes core a.slot) (s.rangeBytes core b.slot)))
  | _, _, _, _ => .ok s

/-- Two posted instructions depend on each other (R242). -/
def MatCmd.conflicts (a b : MatCmd) : Bool :=
  (a.op ≠ .mdec && b.op ≠ .mdec && a.acc = b.acc) || overlap a.writes b.writes || overlap a.writes b.reads || overlap a.reads b.writes

/-- The kinds that consume a rotation's set (R400). -/
def MatOp.consumes : MatOp → Bool
  | .mma | .mmab | .mmanm | .mrem | .mscan | .mdec => true
  | _ => false

/-- The reserved set of a rotation as chunks. -/
def Rotation.setChunks (r : Rotation) (j : Nat) : List Nat :=
  (List.range (4 * r.bcnt)).map (fun k => (r.rslot + j * r.bcnt) * 4 + k)

/-- A completed or cancelled instruction counts once for every set it reads (R400). -/
def Rotation.noteRead (core : Nat) (c : MatCmd) (r : Rotation) : Rotation :=
  if r.core = core && r.gang = c.gang && c.op.consumes then
    { r with sets := r.sets.mapIdx (fun j x =>
        if x.block.isSome && x.since ≤ c.uid && overlap (r.setChunks j) c.reads then { x with reads := x.reads + 1 } else x) }
  else r

/-- Rotations of a package told of an instruction that is over. -/
def State.noteMatDone (s : State) (core : Nat) (c : MatCmd) : State :=
  { s with coll := { s.coll with regs := s.coll.regs.map (fun p => (p.1, p.2.map (fun r =>
      { r with rot := r.rot.map (Rotation.noteRead core c) }))) } }

/-- An instruction leaves the queue; a barrier it names is credited in full (R245, R250). -/
def State.endMat (s : State) (core : Nat) (c : MatCmd) : State :=
  let s := s.onCoreAt core (fun t => { t with mats := t.mats.filter (fun x => x.uid ≠ c.uid) })
  let s := match c.out with
    | some d => (List.range (4 * d.cnt)).foldl (fun (t : State) _ => t.sendCredit core d.credits 4096) s
    | none => s
  s.noteMatDone core c

/-- A failure: reported later, and the hart's later instructions are cancelled (R245). -/
def State.failMat (s : State) (core : Nat) (c : MatCmd) (cause : Nat) : State :=
  let later := (s.coreAt core).mats.filter (fun x => x.hart = c.hart && c.stamp < x.stamp)
  let s := later.foldl (fun s x => s.endMat core x) (s.endMat core c)
  s.onHartAt c.hart (fun h =>
    { h with mfail := { h.mfail with fail := true, fcause := cause, cancel := min 255 later.length, addr := c.pc } })

/-- The engine completes one posted instruction that nothing holds (R242, R243). -/
def execMatrixExecute (core index : Nat) (s : State) : Result :=
  let k := s.coreAt core
  match k.mats[index]? with
  | none => .next s
  | some c =>
    if (k.mats.take index).any (fun x => x.conflicts c) || k.held c.hart c.stamp c.reads c.writes then .next s
    else
      let s := s.countLayout core (c.a.toList ++ c.b.toList ++ c.out.toList) (c.reads ++ c.writes)
      match s.matEffect core c with
      | .ok s => .next (s.endMat core c)
      | .error cause => .next (s.failMat core c cause)

end Sys2Proof.Machine
end

