-- ==== Sys2Proof/Machine/Nodes.lean ====
section
/-! DEFINITION. The operators of the stage fabric's nodes (13_stage_nodes R286 to R306; 02 R39 to R48): what one firing of a context reads,
computes and appends. -/

namespace Sys2Proof.Machine

/-! ## Tokens (R260, R286, R287) -/

def Token.control (k : TokKind) (n : Nat) : Token := ⟨k, BitVec.ofNat 2048 (n % 2 ^ 32), 0⟩
/-- The invocation number of a marker or end. -/
def Token.num (t : Token) : Nat := t.data.toNat % 2 ^ 32

/-- All lanes of width w, and the valid ones. -/
def Token.lanes (t : Token) (w : Nat) : List Nat := (List.range (2048 / w)).map (lane t.data w)
def Token.count (t : Token) (w : Nat) : Nat := if t.side = 0 then 2048 / w else min t.side (2048 / w)
def Token.valid (t : Token) (w : Nat) : List Nat := (t.lanes w).take (t.count w)

/-- A register's worth of lanes. -/
def packLanes (w : Nat) (xs : List Nat) : VWord := setLanes 0 w (xs.mapIdx (fun k x => (k, x)))

/-- A data token of a count stream. -/
def dataToken (w : Nat) (xs : List Nat) : Token := ⟨.data, packLanes w xs, if xs.length = 2048 / w then 0 else xs.length⟩

/-- Bits [hi:lo] of the parameter word at an offset of the context entry. -/
def FabCtx.par' (e : FabCtx) (off hi lo : Nat) : Nat := bits (e.par.getD ((off - 0x0C) / 4) 0) hi lo

/-- A context as an operator sees it when it fires. -/
structure Env where
  e : FabCtx
  prog : FabProg
  st : CtxState
  /-- The head of each input channel, if any. -/
  heads : List (Option Token)
  /-- The node's coefficient table, and RM0's range as the invocation found it. -/
  table : Nat → Byte
  old : Nat → Byte
  oldPoisoned : Nat → Bool
  rm : RmState
  /-- Every output used has room for a token. -/
  free : Bool

/-- What a firing comes to. -/
inductive Fired
  /-- It cannot fire. -/
  | stuck
  | fault (cause : Nat)
  /-- New state, inputs read, tokens appended by output, flags, RM0's state. -/
  | ok (st : CtxState) (took : List Bool) (outs : List (List Token)) (flags : FFlags) (rm : RmState)

/-- A data head of an input. -/
def Env.data (v : Env) (k : Nat) : Option Token := (v.heads.getD k none).bind (fun t => if t.kind = .data then some t else none)
/-- An input whose stream has ended. -/
def Env.isEnd (v : Env) (k : Nat) : Bool := match v.heads.getD k none with | some t => t.kind = .fin | none => false

/-- A firing that reads nothing and only changes the context. -/
def Env.quiet (v : Env) (st : CtxState) : Fired := .ok st [] [] 0 v.rm

/-! ## Captured arithmetic (chapter's introduction) -/

def FabProg.arith (p : FabProg) (rnd : Nat) : Arith :=
  ⟨match rnd with | 1 => .rtz | 2 => .rdn | 3 => .rup | 4 => .rna | _ => .rne, p.sat, false⟩

/-- Block size B (R271). -/
def FabProg.block (p : FabProg) : Nat := 16 * 2 ^ p.blk

/-- A checked residue: none is a modular-range fault (R289). -/
def FabProg.residue (p : FabProg) (x : Nat) : Option (Nat × FFlags) :=
  if x < p.modulus then some (x, 0) else if p.sat then some (x % p.modulus, fMODRNG) else none

/-- A list of residues checked. -/
def FabProg.residues (p : FabProg) : List Nat → Option (List Nat × FFlags)
  | [] => some ([], 0)
  | x :: xs =>
    match p.residue x, p.residues xs with
    | some (y, f), some (ys, g) => some (y :: ys, f ||| g)
    | _, _ => none

/-! ## Butterfly columns (R39 to R43, R290 to R294) -/

/-- One output of a pair (R39). -/
def bfRound (c0 a c1 b : Int) : Int := roundHalfEven (c0 * a + c1 * b) (-14)

/-- A mantissa aligned by d (R40). -/
def bfAlign (m : Int) (d : Nat) : Int := if 16 ≤ d then 0 else roundHalfEven m (-(d : Int))

/-- One output block: shift, exponent and clamp (R41). The mantissas of a block that a NaN input makes NaN are written as 0, the model's
choice (R40, log 52). -/
def bfGrow (fixed : Bool) (ys : List Int) (ein : Nat) : List Int × Nat × FFlags :=
  if ein = 255 then (ys.map (fun _ => 0), 255, 0)
  else
    let ymax := ys.foldl (fun t y => max t y.natAbs) 0
    let s0 := if fixed then 1 else ([0, 1, 2].find? (fun k => ymax ≤ 16383 * 2 ^ k)).getD 3
    let s := if 254 < ein + s0 then 254 - ein else s0
    let ts := ys.map (fun y => roundHalfEven y (-(s : Int)))
    let ms := ts.map (fun t => max (-32767) (min 32767 t))
    let flags := (if 254 < ein + s0 then fBFPOVF else 0) ||| (if ts.any (fun t => 32767 < t.natAbs) then fOF else 0)
    (ms, if ms.all (· = 0) then 0 else ein + s, flags)

/-- The mantissas of a token, padding and zero blocks as zero, and the two exponents (R286). -/
def bfpRead (b : Nat) (t : Token) : List Int × Nat × Nat :=
  let e0 := t.side % 256
  let e1 := t.side / 256 % 256
  ((t.lanes 16).mapIdx (fun k m => if k % 64 < b && (if k < 64 then e0 else e1) ≠ 0 then mantissa m else 0), e0, e1)

/-- Two blocks brought to one exponent; a NaN block gives 255 (R40). -/
def bfJoin (xs : List Int) (ex : Nat) (ys : List Int) (ey : Nat) : List Int × List Int × Nat :=
  if ex = 255 || ey = 255 then (xs, ys, 255)
  else (xs.map (bfAlign · (max ex ey - ex)), ys.map (bfAlign · (max ex ey - ey)), max ex ey)

/-- Coefficient block for pair j of a firing of P pairs (R292). -/
def bfBlock (v : Env) (p j : Nat) : Nat := v.e.par' 0x10 15 0 + (v.st.f * p + j) % v.e.par' 0x10 31 16

/-- The four Q1.14 coefficients of a pair. -/
def bfCoef (v : Env) (p j : Nat) : List Int :=
  (List.range 4).map (fun k => toSigned 16 (readN v.table (8 * bfBlock v p j + 2 * k) 2))

/-- Output tokens from 128 pair results with the input exponents of their blocks (R293). -/
def bfpToken (v : Env) (ys : List Int) (e0 e1 : Nat) : Token × FFlags :=
  let b := v.prog.block
  let fixed := v.e.par' 0x0C 5 4 = 1
  let norm := v.e.par' 0x0C 6 6 = 1
  let one := fun (k e : Nat) =>
    let r := bfGrow fixed ((ys.drop (64 * k)).take b) e
    let q := if norm then normBlock r.1 r.2.1 else (r.1, r.2.1)
    (q.1 ++ List.replicate (64 - b) 0, q.2, r.2.2)
  let x := one 0 e0
  let y := one 1 e1
  (⟨.data, packLanes 16 ((x.1 ++ y.1).map (wrap 16)), x.2.1 + y.2.1 * 256⟩, x.2.2 ||| y.2.2)

/-- Lanes of a token of n lanes whose bit LD is clear. -/
def pairLanes (n ld : Nat) : List Nat := (List.range n).filter (fun i => !i.testBit ld)

/-- BFP: one firing (R293). -/
def bfpFire (v : Env) (a : Token) (b : Option Token) : List (List Token) × FFlags :=
  let (ma, ea0, ea1) := bfpRead v.prog.block a
  match b with
  | some b =>
    let (mb, eb0, eb1) := bfpRead v.prog.block b
    let (x0, y0, e0) := bfJoin (ma.take 64) ea0 (mb.take 64) eb0
    let (x1, y1, e1) := bfJoin (ma.drop 64) ea1 (mb.drop 64) eb1
    let xs := x0 ++ x1
    let ys := y0 ++ y1
    let out := fun (r : Nat) => (List.range 128).map (fun j =>
      let c := bfCoef v 128 j
      bfRound (c.getD (2 * r) 0) (xs.getD j 0) (c.getD (2 * r + 1) 0) (ys.getD j 0))
    let p := bfpToken v (out 0) e0 e1
    let q := bfpToken v (out 1) e0 e1
    ([[p.1], [q.1]], p.2 ||| q.2)
  | none =>
    let ld := v.e.par' 0x0C 3 1
    let (src, e0, e1) := if ld = 6 then
        let (x, y, e) := bfJoin (ma.take 64) ea0 (ma.drop 64) ea1
        (x ++ y, e, e)
      else (ma, ea0, ea1)
    let es := (pairLanes 128 ld).mapIdx (fun j i =>
      let c := bfCoef v 64 j
      let x := src.getD i 0
      let y := src.getD (i + 2 ^ ld) 0
      [(i, bfRound (c.getD 0 0) x (c.getD 1 0) y), (i + 2 ^ ld, bfRound (c.getD 2 0) x (c.getD 3 0) y)])
    let ys := (List.range 128).map (fun i => ((es.flatten.find? (fun e => e.1 = i)).map (·.2)).getD 0)
    let p := bfpToken v ys e0 e1
    ([[p.1], []], p.2)

/-- F32: both outputs of a pair (R43, R294). -/
def f32Pair (v : Env) (p j a b : Nat) : Nat × Nat × FFlags :=
  let c := (bfCoef v p j).map (fun z => Num.fin (z < 0) z.natAbs (-14))
  let x := Ieee.fp32.decode false a
  let y := Ieee.fp32.decode false b
  let one := fun (k : Nat) =>
    let m := (c.getD k .zero).mul x
    let s := Num.fma .rne (c.getD (k + 1) .zero) y m.1
    let r := Ieee.fp32.round .rne false s.1
    (r.1, m.2 ||| s.2 ||| r.2)
  ((one 0).1, (one 2).1, (one 0).2 ||| (one 2).2)

/-- MOD: both outputs of a pair, or a range fault (R294). -/
def modPair (v : Env) (p j a b : Nat) : Option (Nat × Nat × FFlags) :=
  let c := (List.range 4).map (fun k => readN v.table (16 * bfBlock v p j + 4 * k) 4)
  (v.prog.residues (a :: b :: c)).map (fun r =>
    let z := fun k => r.1.getD k 0
    let m := v.prog.modulus
    ((z 2 * z 0 + z 3 * z 1) % m, (z 4 * z 0 + z 5 * z 1) % m, r.2))

/-- The pairs of a firing on 32-bit lanes: places of both results. -/
def wordPairs (v : Env) (a : Token) (b : Option Token) : List (Nat × Nat × Nat × Nat) :=
  let xs := a.lanes 32
  match b with
  | some b => (List.range 64).map (fun j => (j, 64 + j, xs.getD j 0, (b.lanes 32).getD j 0))
  | none =>
    let d := 2 ^ v.e.par' 0x0C 3 1
    (pairLanes 64 (v.e.par' 0x0C 3 1)).map (fun i => (i, i + d, xs.getD i 0, xs.getD (i + d) 0))

/-- F32 and MOD: one firing. -/
def wordFire (v : Env) (a : Token) (b : Option Token) : Option (List (List Token) × FFlags) :=
  let p := if b.isSome then 64 else 32
  let rs := (wordPairs v a b).mapIdx (fun j x =>
    (if v.e.op = 2 then some (f32Pair v p j x.2.2.1 x.2.2.2) else modPair v p j x.2.2.1 x.2.2.2).map
      (fun r => ([(x.1, r.1), (x.2.1, r.2.1)], r.2.2)))
  if rs.any Option.isNone then none
  else
    let ok := rs.filterMap id
    let cells := ok.flatMap (·.1)
    let at' := fun (i : Nat) => ((cells.find? (fun e => e.1 = i)).map (·.2)).getD 0
    let flags := ok.foldl (fun f r => f ||| r.2) 0
    let t0 : Token := ⟨.data, packLanes 32 ((List.range 64).map at'), 0⟩
    let t1 : Token := ⟨.data, packLanes 32 ((List.range 64).map (fun i => at' (64 + i))), 0⟩
    some (if b.isSome then ([[t0], [t1]], flags) else ([[t0], []], flags))

def fireBF (v : Env) : Fired :=
  match v.data 0 with
  | none => .stuck
  | some a =>
    let two := v.e.par' 0x0C 0 0 = 1
    let b := if two then v.data 1 else none
    if two && b.isNone then .stuck
    else
      let r := if v.e.op = 1 then some (bfpFire v a b) else wordFire v a b
      match r with
      | none => .fault 2
      | some (outs, fl) => .ok { v.st with f := v.st.f + 1 } [true, two, false, false] outs fl v.rm

/-! ## Appending what is formed -/

/-- The next tokens waiting in a context's outbox, one of each output. -/
def popOutbox (st : CtxState) : List (List Token) × CtxState :=
  (st.outbox.map (List.take 1), { st with outbox := st.outbox.map (List.drop 1) })

def outboxEmpty (st : CtxState) : Bool := st.outbox.all (· = [])

/-- A rate-varying firing: what is formed goes first, else the operator works. -/
def rateVarying (v : Env) (work : Fired) : Fired :=
  if outboxEmpty v.st then work
  else let r := popOutbox v.st; .ok r.2 [] r.1 0 v.rm

/-- Packed results moved into tokens of L lanes; at the end a partial one too (R287). -/
def formTokens (w : Nat) (fin : Bool) (st : CtxState) : CtxState :=
  let l := 2048 / w
  let n := (st.pack.getD 0 []).length
  let k := if fin then (n + l - 1) / l else n / l
  { st with
    outbox := st.pack.mapIdx (fun j p => st.outbox.getD j [] ++ (List.range k).map (fun i => dataToken w ((p.drop (i * l)).take l)))
    pack := st.pack.map (List.drop (k * l)) }

/-! ## Stride permutation (R295) -/

/-- The low n bits of a number in reverse order. -/
def reverseBits : Nat → Nat → Nat
  | 0, _ => 0
  | n + 1, x => x % 2 * 2 ^ n + reverseBits n (x / 2)

/-- The input element of output element y of a frame of 2^ln elements. -/
def pmSource (op ln ls y : Nat) : Nat :=
  if op = 1 then
    let rows := 2 ^ (ln - ls)
    y % rows * 2 ^ ls + y / rows
  else reverseBits ln y

/-- The tokens of a full frame. -/
def pmFrame (v : Env) (toks : List Token) : List Token :=
  let ewc := v.e.par' 0x0C 2 0
  let w := if ewc = 4 then 16 else 8 * 2 ^ ewc
  let l := 2048 / w
  let ln := v.e.par' 0x0C 7 4 + Nat.log2 l
  let src := fun (y : Nat) => pmSource v.e.op ln (v.e.par' 0x0C 15 8) y
  if ewc ≠ 4 then
    let xs := toks.flatMap (fun t => t.lanes w)
    (List.range toks.length).map (fun k => ⟨.data, packLanes w ((List.range l).map (fun i => xs.getD (src (k * l + i)) 0)), 0⟩)
  else
    let es := toks.flatMap (fun t => [t.side % 256, t.side / 256 % 256])
    let nan := es.contains 255
    let top := es.foldl max 0
    let xs := toks.flatMap (fun t => (t.lanes 16).mapIdx (fun i m =>
      let e := if i < 64 then t.side % 256 else t.side / 256 % 256
      if nan || e = 0 then 0 else bfAlign (mantissa m) (top - e)))
    (List.range toks.length).map (fun k =>
      let ys := (List.range 128).map (fun i => xs.getD (src (k * 128 + i)) 0)
      let e := fun (b : Nat) => if nan then 255 else if ((ys.drop (64 * b)).take 64).any (· ≠ 0) then top else 0
      ⟨.data, packLanes 16 (ys.map (wrap 16)), e 0 + e 1 * 256⟩)

/-- A full frame goes to be emitted once the one before it is out. -/
def pmTurn (v : Env) (st : CtxState) : CtxState :=
  if st.frame.length = 2 ^ v.e.par' 0x0C 7 4 && outboxEmpty st then { st with frame := [], outbox := [pmFrame v st.frame, []] } else st

/-- One token of what is formed goes out with a firing that reads, where there is room for it; the next frame fills in any case (R295). -/
def Env.popFree (v : Env) (st : CtxState) : List (List Token) × CtxState := if v.free then popOutbox st else ([], st)

def firePM (v : Env) : Fired :=
  let ewc := v.e.par' 0x0C 2 0
  let w := 8 * 2 ^ ewc
  let room := v.st.frame.length < 2 ^ v.e.par' 0x0C 7 4
  match v.data 0 with
  | some t =>
    if room then
      if ewc ≠ 4 && t.count w ≠ 2048 / w then .fault 6
      else
        let st := pmTurn v { v.st with frame := v.st.frame ++ [t] }
        let r := v.popFree st
        .ok r.2 [true] r.1 0 v.rm
    else if outboxEmpty v.st then v.quiet (pmTurn v v.st)
    else let r := popOutbox v.st; .ok r.2 [] r.1 0 v.rm
  | none =>
    if !outboxEmpty v.st then let r := popOutbox v.st; .ok r.2 [] r.1 0 v.rm
    else if room then .stuck
    else v.quiet (pmTurn v v.st)

/-! ## Pointwise (R296 to R299) -/

def FabCtx.type (e : FabCtx) : Tag := (Tag.ofCode? (e.par' 0x0C 7 0)).getD .untyped
def FabCtx.otag (e : FabCtx) : Tag := (Tag.ofCode? (e.par' 0x0C 15 8)).getD .untyped

/-- Both sides' flags joined. -/
def withFlags (r : Num × FFlags) : Val × FFlags := (.num r.1, r.2)

/-- The exact result of OP 1 to 8 on one lane (R297). -/
def pwExact (t : Tag) (rnd : Rnd) (op a b c : Nat) : Val × FFlags :=
  if t.isFloat then
    let x := decodeFloat t false a
    let y := decodeFloat t false b
    match op with
    | 1 => withFlags (Num.add rnd x y)
    | 2 => withFlags (Num.add rnd x y.neg)
    | 3 => withFlags (x.mul y)
    | 4 => withFlags (Num.fma rnd x y (decodeFloat t false c))
    | 5 => withFlags (x.max y)
    | 6 => withFlags (x.min y)
    | _ => (.num (if x.isNaN then x else if Num.lt .zero x then x else .zero), x.snan)
  else
    let x := if t = .mod32 then (a : Int) else t.intVal a
    let y := if t = .mod32 then (b : Int) else t.intVal b
    match op with
    | 1 => (.int (x + y), 0)
    | 2 => (.int (x - y), 0)
    | 3 => (.int (x * y), 0)
    | 4 => (.int (x * y + t.intVal c), 0)
    | 5 => (.int (max x y), 0)
    | 6 => (.int (min x y), 0)
    | _ => (.int (max x 0), 0)

/-- SCALE: a times a table entry, exactly (R297). -/
def pwScale (t : Tag) (a entry : Nat) : Val × FFlags :=
  if t.isFloat then withFlags ((decodeFloat t false a).mul (Ieee.fp32.decode false entry))
  else (.int (t.intVal a * toSigned 32 entry), 0)

/-- The accumulator after one product (R298). -/
def pwMacc (t : Tag) (p acc a b : Nat) : Nat × FFlags :=
  if t.isFloat then
    let s := Num.fma .rne (decodeFloat t false a) (decodeFloat t false b) (Ieee.fp32.decode false acc)
    let r := Ieee.fp32.round .rne false s.1
    (r.1, s.2 ||| r.2)
  else if t = .mod32 then ((acc + a * b) % p, 0)
  else (wrap 32 ((acc : Int) + t.intVal a * t.intVal b), 0)

def firePW (v : Env) : Fired :=
  let t := v.e.type
  let w := t.width 0
  let op := v.e.op
  let n := if op = 4 then 3 else if op = 7 || op = 8 then 1 else 2
  let heads := (List.range n).filterMap v.data
  if heads.length < n then .stuck
  else
    let c := (heads.map (fun h => h.count w)).headD 0
    if heads.any (fun h => h.count w ≠ c) then .fault 5
    else
      let cols := heads.map (fun h => h.valid w)
      let checked := if t = .mod32 then v.prog.residues cols.flatten else some (cols.flatten, 0)
      match checked with
      | none => .fault 2
      | some (all, fl) =>
        let x := fun (k i : Nat) => all.getD (k * c + i) 0
        let took := (List.range n).map (fun _ => true)
        if op = 9 then
          let r := (List.range c).foldl (fun a i =>
            let q := pwMacc t v.prog.modulus a.1 (x 0 i) (x 1 i); (q.1, a.2 ||| q.2)) (v.st.acc, fl)
          .ok { v.st with acc := r.1, f := v.st.f + 1 } took [[], []] r.2 v.rm
        else
          let a := v.prog.arith (v.e.par' 0x0C 18 16)
          let entry := fun (i : Nat) =>
            readN v.table (4 * (v.e.par' 0x10 15 0 + (v.st.f * (2048 / w) + i) % v.e.par' 0x10 31 16)) 4
          let one := fun (i : Nat) =>
            let r := if op = 8 then pwScale t (x 0 i) (entry i) else pwExact t a.rnd op (x 0 i) (x 1 i) (x 2 i)
            let q := roundTo a v.prog.modulus t v.e.otag r.1
            (q.1, r.2 ||| q.2)
          let rs := (List.range c).map one
          let conv := v.e.par' 0x0C 19 19 = 1
          let st := { v.st with
            f := v.st.f + 1
            maxA := if conv then (List.range c).foldl (fun m i => max m (x 0 i)) v.st.maxA else v.st.maxA
            maxB := if conv then (List.range c).foldl (fun m i => max m (x 1 i)) v.st.maxB else v.st.maxB }
          let ovf := conv && v.prog.modulus ≤ v.e.par' 0x14 31 0 * st.maxA * st.maxB
          .ok st took [[dataToken w (rs.map (·.1))], []]
            (rs.foldl (fun f r => f ||| r.2) fl ||| (if ovf then fMODOVF else 0)) v.rm

/-! ## The converter (R48, R300). An element waits as its pattern; a bfp16 one as its block exponent × 65,536 plus its mantissa. -/

/-- The value of a waiting element. -/
def cvVal (t : Tag) (x : Nat) : Val :=
  if t = .bfp16 then .num (decodeBfp16 (x / 65536) (x % 65536))
  else if t = .mod32 then .int x
  else if t.isInt then .int (t.intVal x) else .num (decodeFloat t false x)

/-- The elements of a token, in order. -/
def cvElems (v : Env) (tok : Token) : List Nat :=
  let t := v.e.type
  if t = .bfp16 then
    [0, 1].flatMap (fun k => (List.range v.prog.block).map (fun i =>
      tok.side / 256 ^ k % 256 * 65536 + lane tok.data 16 (64 * k + i)))
  else tok.valid (t.width 0)

/-- One stage over a group: pairs at distance 2^j (R48). -/
def hadStage (j : Nat) (xs : List Nat) : List Nat × FFlags :=
  let rs := (List.range xs.length).map (fun i =>
    let a := Ieee.fp32.decode false (xs.getD (if i.testBit j then i - 2 ^ j else i) 0)
    let b := Ieee.fp32.decode false (xs.getD (if i.testBit j then i else i + 2 ^ j) 0)
    let s := Num.add .rne a (if i.testBit j then b.neg else b)
    let r := Ieee.fp32.round .rne false s.1
    (r.1, s.2 ||| r.2))
  (rs.map (·.1), rs.foldl (fun f r => f ||| r.2) 0)

/-- n stages over one group. -/
def hadGroup (n : Nat) (xs : List Nat) : List Nat × FFlags :=
  (List.range n).foldl (fun a j => let r := hadStage j a.1; (r.1, a.2 ||| r.2)) (xs, 0)

/-- Whole groups transformed, and what is left over. -/
def hadGroups (n : Nat) (xs : List Nat) : List Nat × List Nat × FFlags :=
  let k := xs.length / 2 ^ n
  let rs := (List.range k).map (fun i => hadGroup n ((xs.drop (i * 2 ^ n)).take (2 ^ n)))
  (rs.flatMap (·.1), xs.drop (k * 2 ^ n), rs.foldl (fun f r => f ||| r.2) 0)

/-- Elements of one output block (R300). -/
def cvBlock (v : Env) : Nat := if v.e.otag = .e2m1x then 32 else if v.e.otag = .bfp16 then v.prog.block else 1

/-- Whole blocks of waiting elements converted: packed codes, packed sides, what is left, flags. -/
def cvConvert (v : Env) (xs : List Nat) : List Nat × List Nat × List Nat × FFlags :=
  let t := v.e.type
  let o := v.e.otag
  let a := v.prog.arith (v.e.par' 0x0C 18 16)
  let b := cvBlock v
  let k := xs.length / b
  let blocks := (List.range k).map (fun i => (xs.drop (i * b)).take b)
  let rs := blocks.map (fun blk =>
    let vals := blk.map (cvVal t)
    if o = .e2m1x then
      let r := encodeE2m1x (vals.map Val.toNum); (r.codes, [r.s + 256 * r.x], r.flags)
    else if o = .bfp16 then
      let r := encodeBfp16 a.rnd (vals.map Val.toNum); (r.ms.map (wrap 16), [r.e], r.flags)
    else
      let rs := vals.map (roundTo a v.prog.modulus t o); (rs.map (·.1), [], rs.foldl (fun f r => f ||| r.2) 0))
  (rs.flatMap (·.1), rs.flatMap (·.2.1), xs.drop (k * b), rs.foldl (fun f r => f ||| r.2.2) 0)

/-- Codes of a full output token. -/
def cvLanes (v : Env) : Nat := if v.e.otag = .e2m1x then 512 else if v.e.otag = .bfp16 then 2 * v.prog.block else 2048 / v.e.otag.width 0

/-- The tokens of one group of codes with their blocks' sides; `real` codes count (R286, R300). -/
def cvToken (v : Env) (codes sides : List Nat) (real : Nat) : List Token × List Token :=
  if v.e.otag = .e2m1x then
    ([⟨.data, packLanes 4 codes, if real = 512 then 0 else real⟩],
     [⟨.data, packLanes 16 sides, 0⟩])
  else if v.e.otag = .bfp16 then
    let b := v.prog.block
    let half := fun (k : Nat) => let c := (codes.drop (k * b)).take b; c ++ List.replicate (64 - c.length) 0
    ([⟨.data, packLanes 16 (half 0 ++ half 1), sides.getD 0 0 + sides.getD 1 0 * 256⟩], [])
  else ([dataToken (v.e.otag.width 0) (codes.take real)], [])

/-- Packed codes moved into tokens: full ones, and at the end a last partial one with `pad` codes that do not count. -/
def cvForm (v : Env) (fin : Bool) (pad : Nat) (codes sides : List Nat) : List (List Token) × List Nat × List Nat :=
  let l := cvLanes v
  let n := if fin then (codes.length + l - 1) / l else codes.length / l
  let per := l / cvBlock v
  let toks := (List.range n).map (fun i =>
    let c := (codes.drop (i * l)).take l
    cvToken v c ((sides.drop (i * per)).take per) (c.length - (if fin && i + 1 = n then pad else 0)))
  ([toks.flatMap (·.1), toks.flatMap (·.2)], codes.drop (n * l), if cvBlock v = 1 then [] else sides.drop (n * per))

/-- Elements taken in: q0 waits for a group, q1 for a block; pack holds codes and sides. -/
def cvFeed (v : Env) (st : CtxState) (xs : List Nat) (fin : Bool) : CtxState × List (List Token) × FFlags :=
  let n := v.e.par' 0x0C 21 19
  let q0 := st.q.getD 0 [] ++ xs
  let q0 := if fin && n ≠ 0 && q0.length % 2 ^ n ≠ 0 then q0 ++ List.replicate (2 ^ n - q0.length % 2 ^ n) 0 else q0
  let (done, rest, f1) := if n = 0 then (q0, [], 0) else hadGroups n q0
  let q1 := st.q.getD 1 [] ++ done
  let b := cvBlock v
  let pad := if fin && q1.length % b ≠ 0 then b - q1.length % b else 0
  let (codes, sides, left, f2) := cvConvert v (q1 ++ List.replicate pad 0)
  let (toks, c2, s2) := cvForm v fin pad (st.pack.getD 0 [] ++ codes) (st.pack.getD 1 [] ++ sides)
  ({ st with q := [rest, left], pack := [c2, s2] }, toks, f1 ||| f2)

def fireCV (v : Env) : Fired :=
  match v.data 0 with
  | none => .stuck
  | some t =>
    let xs := cvElems v t
    let checked := if v.e.type = .mod32 then v.prog.residues xs else some (xs, 0)
    match checked with
    | none => .fault 2
    | some (xs, f0) =>
      let (st, toks, f1) := cvFeed v v.st xs false
      .ok { st with f := st.f + 1 } [true] toks (f0 ||| f1) v.rm

/-! ## The corner turn (R301) -/

def fireCT (v : Env) : Fired :=
  rateVarying v (match v.data 0 with
    | none => .stuck
    | some t =>
      if v.e.op = 1 then
        let w := 8 * 2 ^ v.e.par' 0x0C 1 0
        let l := 2048 / w
        if t.count w ≠ l then .fault 6
        else
          let fr := v.st.frame ++ [t]
          if fr.length < l then .ok { v.st with frame := fr } [true] [] 0 v.rm
          else
            let out := (List.range l).map (fun j => (⟨.data, packLanes w (fr.map (fun u => lane u.data w j)), 0⟩ : Token))
            .ok { v.st with frame := [], outbox := [out, []] } [true] [] 0 v.rm
      else
        let n := 2 ^ v.e.par' 0x0C 11 8
        let fr := v.st.frame ++ [t]
        if fr.length < n then .ok { v.st with frame := fr } [true] [] 0 v.rm
        else
          let bytes := fr.flatMap (fun u => (u.lanes 8).take (256 / n))
          .ok { v.st with frame := [], outbox := [[⟨.data, packLanes 8 bytes, 0⟩], []] } [true] [] 0 v.rm)

/-! ## The sparse loop header (R302) -/

/-- Words of an operand of PAIRS: 0 when LEN takes every word. -/
def shWords (v : Env) : Nat := (v.e.par' 0x0C 31 0 + 31) / 32

/-- Word w of one side under LEN. -/
def shMask (v : Env) (w x : Nat) : Nat :=
  let len := v.e.par' 0x0C 31 0
  if len ≠ 0 && w + 1 = shWords v && len % 32 ≠ 0 then x % 2 ^ (len % 32) else x

/-- Pairs of k words appended, the words beyond LEN discarded. -/
def shAppend (v : Env) (st : CtxState) (xs ys : List Nat) (k : Nat) : CtxState :=
  let n := if v.e.par' 0x0C 31 0 = 0 then k else min k (shWords v - st.offA)
  let ps := (List.range n).flatMap (fun i => [shMask v (st.offA + i) (xs.getD i 0), shMask v (st.offA + i) (ys.getD i 0)])
  formTokens 32 false
    { st with offA := st.offA + n, pack := [st.pack.getD 0 [] ++ ps, []], q := [xs.drop k, ys.drop k] }

/-- The pairs of two trees (R302 TREE). -/
def treePairs (a b : Option Token) : List Nat :=
  let top := fun (t : Option Token) => (t.map (fun t => lane t.data 32 0)).getD 0
  let leaf := fun (t : Option Token) (q : Nat) => match t with
    | some t => if (top (some t)).testBit q then lane t.data 32 (1 + popBelow (top (some t)) q) else 0
    | none => 0
  ((List.range 32).filter (fun q => (top a).testBit q || (top b).testBit q)).flatMap (fun q => [leaf a q, leaf b q])

def fireSH (v : Env) : Fired :=
  rateVarying v (
    if v.e.op = 2 then
      let ready := fun (k : Nat) => (v.data k).isSome || v.isEnd k
      if !(ready 0 && ready 1) || (v.isEnd 0 && v.isEnd 1) then .stuck
      else
        let st := { v.st with pack := [v.st.pack.getD 0 [] ++ treePairs (v.data 0) (v.data 1), []] }
        .ok (formTokens 32 false st) [(v.data 0).isSome, (v.data 1).isSome] [] 0 v.rm
    else
      let xs := v.st.q.getD 0 []
      let ys := v.st.q.getD 1 []
      let takeA := xs = [] && (v.data 0).isSome
      let takeB := ys = [] && (v.data 1).isSome
      if takeA || takeB then
        let xs := if takeA then ((v.data 0).map (fun t => t.valid 32)).getD [] else xs
        let ys := if takeB then ((v.data 1).map (fun t => t.valid 32)).getD [] else ys
        .ok { v.st with q := [xs, ys] } [takeA, takeB] [] 0 v.rm
      else if xs ≠ [] && ys ≠ [] then v.quiet (shAppend v v.st xs ys (min xs.length ys.length))
      else if xs ≠ [] && v.isEnd 1 then v.quiet (shAppend v v.st xs [] xs.length)
      else if ys ≠ [] && v.isEnd 0 then v.quiet (shAppend v v.st [] ys ys.length)
      else .stuck)

/-! ## Intersect (R303) -/

def popCount32 (x : Nat) : Nat := popBelow x 32

/-- The value at a position of a stream of which lanes from `base` on are held. -/
def held? (base : Nat) (xs : List Nat) (pos : Nat) : Option Nat := if pos < base then none else xs[pos - base]?

/-- Lanes before a position dropped. -/
def dropTo (base : Nat) (xs : List Nat) (pos : Nat) : Nat × List Nat :=
  let d := min (pos - base) xs.length
  (base + d, xs.drop d)

/-- The positions that a pair of words asks of both streams. -/
def ixWanted (st : CtxState) (wa wb : Nat) : List (Nat × Nat) :=
  ((List.range 32).filter (fun k => (Nat.land wa wb).testBit k)).map (fun k => (st.offA + popBelow wa k, st.offB + popBelow wb k))

def fireIX (v : Env) : Fired :=
  let w := 8 * 2 ^ v.e.par' 0x0C 1 0
  let st := v.st
  let va := st.q.getD 1 []
  let vb := st.q.getD 2 []
  let read := fun (k : Nat) => ((v.data k).map (fun t => t.valid w)).getD []
  let readA := let r := dropTo st.baseA (va ++ read 1) st.offA; { st with baseA := r.1, q := [st.q.getD 0 [], r.2, vb] }
  let readB := let r := dropTo st.baseB (vb ++ read 2) st.offB; { st with baseB := r.1, q := [st.q.getD 0 [], va, r.2] }
  rateVarying v (match st.q.getD 0 [] with
    | wa :: wb :: rest =>
      let want := ixWanted st wa wb
      if want.any (fun p => (held? st.baseA va p.1).isNone) then
        if (v.data 1).isSome then .ok readA [false, true, false] [] 0 v.rm
        else if v.isEnd 1 then .fault 6 else .stuck
      else if want.any (fun p => (held? st.baseB vb p.2).isNone) then
        if (v.data 2).isSome then .ok readB [false, false, true] [] 0 v.rm
        else if v.isEnd 2 then .fault 6 else .stuck
      else
        let xs := want.filterMap (fun p => held? st.baseA va p.1)
        let ys := want.filterMap (fun p => held? st.baseB vb p.2)
        let offA := st.offA + popCount32 wa
        let offB := st.offB + popCount32 wb
        let a := dropTo st.baseA va offA
        let b := dropTo st.baseB vb offB
        v.quiet (formTokens w false
          { st with offA := offA, offB := offB, baseA := a.1, baseB := b.1, q := [rest, a.2, b.2]
                    pack := [st.pack.getD 0 [] ++ xs, st.pack.getD 1 [] ++ ys] })
    | _ =>
      match v.data 0 with
      | some t => .ok { st with q := [t.valid 32, va, vb] } [true, false, false] [] 0 v.rm
      | none =>
        if v.isEnd 0 && ((v.data 1).isSome || (v.data 2).isSome) then
          .ok { st with q := [[], [], []] } [false, (v.data 1).isSome, (v.data 2).isSome] [] 0 v.rm
        else .stuck)

/-! ## Merge (R304) -/

/-- The sentinel "no element" (R216). -/
def sentinel : Nat := 0xFFFFFFFF

/-- Both values combined. -/
def mgCombine (t : Tag) (comb a b : Nat) : Nat × FFlags :=
  if t = .fp32 then
    let x := Ieee.fp32.decode false a
    let y := Ieee.fp32.decode false b
    let s := if comb = 0 then Num.add .rne x y else if comb = 1 then x.max y else x.min y
    let r := Ieee.fp32.round .rne false s.1
    (r.1, s.2 ||| r.2)
  else
    let x := toSigned 32 a
    let y := toSigned 32 b
    (wrap 32 (if comb = 0 then x + y else if comb = 1 then max x y else min x y), 0)

/-- A side's pairs of key and value, sentinels left out. -/
def mgPairs (k x : Token) : List Nat × List Nat :=
  let ps := ((k.valid 32).zip (x.valid 32)).filter (fun p => p.1 ≠ sentinel)
  (ps.map (·.1), ps.map (·.2))

/-- A key that does not exceed the previous one of its side. -/
def keyFalls (prev : Option Nat) (k : Nat) : Bool := match prev with | some p => k ≤ p | none => false

/-- Merging from a state: the state when a side runs dry, a token's worth is packed or a key falls. -/
def mgMerge (v : Env) (endA endB : Bool) : Nat → CtxState → FFlags → CtxState × FFlags × Bool
  | 0, st, fl => (st, fl, false)
  | fuel + 1, st, fl =>
    let t := v.e.type
    let ka := st.q.getD 0 []
    let va := st.q.getD 1 []
    let kb := st.q.getD 2 []
    let vb := st.q.getD 3 []
    let push := fun (st : CtxState) (k x : Nat) =>
      if v.e.par' 0x0C 8 8 = 1 || !(zeroElem t x) then
        { st with pack := [st.pack.getD 0 [] ++ [k], st.pack.getD 1 [] ++ [x]] } else st
    let stepA := fun (k x : Nat) => push { st with keyA := some k, q := [ka.drop 1, va.drop 1, kb, vb] } k x
    let stepB := fun (k x : Nat) => push { st with keyB := some k, q := [ka, va, kb.drop 1, vb.drop 1] } k x
    if 64 ≤ (st.pack.getD 0 []).length then (st, fl, false)
    else match ka, kb with
      | [], [] => (st, fl, false)
      | a :: _, [] =>
        if !endB then (st, fl, false)
        else if keyFalls st.keyA a then (st, fl, true)
        else mgMerge v endA endB fuel (stepA a (va.headD 0)) fl
      | [], b :: _ =>
        if !endA then (st, fl, false)
        else if keyFalls st.keyB b then (st, fl, true)
        else mgMerge v endA endB fuel (stepB b (vb.headD 0)) fl
      | a :: _, b :: _ =>
        if keyFalls st.keyA a || keyFalls st.keyB b then (st, fl, true)
        else if a < b then mgMerge v endA endB fuel (stepA a (va.headD 0)) fl
        else if b < a then mgMerge v endA endB fuel (stepB b (vb.headD 0)) fl
        else
          let r := mgCombine t (v.e.par' 0x0C 10 9) (va.headD 0) (vb.headD 0)
          mgMerge v endA endB fuel
            (push { st with keyA := some a, keyB := some b, q := [ka.drop 1, va.drop 1, kb.drop 1, vb.drop 1] } a r.1) (fl ||| r.2)

def fireMG (v : Env) : Fired :=
  let st := v.st
  let q := fun k => st.q.getD k []
  let isEnd := fun (side : Nat) => v.isEnd (2 * side) || v.isEnd (2 * side + 1)
  let refill := fun (side : Nat) =>
    match v.data (2 * side), v.data (2 * side + 1) with
    | some k, some x =>
      if k.count 32 ≠ x.count 32 then Fired.fault 5
      else
        let p := mgPairs k x
        if side = 0 then .ok { st with q := [p.1, p.2, q 2, q 3] } [true, true] [] 0 v.rm
        else .ok { st with q := [q 0, q 1, p.1, p.2] } [false, false, true, true] [] 0 v.rm
    | some _, none => if v.isEnd (2 * side + 1) then .ok st ((List.range 4).map (· = 2 * side)) [] 0 v.rm else .stuck
    | none, some _ => if v.isEnd (2 * side) then .ok st ((List.range 4).map (· = 2 * side + 1)) [] 0 v.rm else .stuck
    | none, none => .stuck
  let can := fun (side : Nat) => match refill side with | .stuck => false | _ => true
  rateVarying v (
    if q 0 = [] && can 0 then refill 0
    else if q 2 = [] && can 1 then refill 1
    else
      let r := mgMerge v (isEnd 0) (isEnd 1) 4096 st 0
      if r.2.2 then .fault 6
      else if r.1 = st then .stuck
      else .ok (formTokens 32 false r.1) [] [] r.2.1 v.rm)

/-! ## The sole writer (R305) -/

/-- An element combined with the value before it. -/
def rmCombine (v : Env) (old x : Nat) : Option (Nat × FFlags) :=
  let t := v.e.type
  let comb := v.e.par' 0x0C 9 8
  if comb = 0 then some (x, 0)
  else if t = .fp32 then some (mgCombine .fp32 (comb - 1) old x)
  else if t = .mod32 then
    (v.prog.residues [old, x]).map (fun r =>
      let a := r.1.getD 0 0
      let b := r.1.getD 1 0
      (if comb = 1 then (a + b) % v.prog.modulus else if comb = 2 then max a b else min a b, r.2))
  else
    let a := if t = .int32 then toSigned 32 old else (old : Int)
    let b := if t = .int32 then toSigned 32 x else (x : Int)
    some (wrap 32 (if comb = 1 then a + b else if comb = 2 then max a b else min a b), 0)

/-- Elements applied in stream order: the new holdings, or a fault's cause. -/
def rmApply (v : Env) (base : Nat) : RmState → FFlags → List (Nat × Nat) → Except Nat (RmState × FFlags)
  | rm, fl, [] => .ok (rm, fl)
  | rm, fl, (idx, x) :: rest =>
    let a := base + 4 * idx
    if 16384 * v.e.par' 0x10 15 8 < a + 4 then .error 3
    else
      let mine := SMap.get none rm.held a
      if mine.isNone && v.e.par' 0x0C 9 8 ≠ 0 && v.oldPoisoned a then .error 4
      else match rmCombine v (mine.getD (readN v.old a 4)) x with
        | none => .error 2
        | some (y, f) => rmApply v base { rm with held := SMap.set none rm.held a (some y) } (fl ||| f) rest

def fireRM (v : Env) : Fired :=
  let base := v.e.par' 0x14 31 0 + v.st.inv * v.e.par' 0x18 31 0
  let go := fun (items : List (Nat × Nat)) (count : Nat) (took : List Bool) =>
    match rmApply v base v.rm 0 items with
    | .error c => Fired.fault c
    | .ok (rm, fl) => .ok { v.st with f := v.st.f + 1 } took [] fl { rm with count := count }
  if v.e.op = 1 then
    match v.data 0, v.data 1 with
    | some i, some x =>
      if i.count 32 ≠ x.count 32 then .fault 5
      else go (((i.valid 32).zip (x.valid 32)).filter (fun p => p.1 ≠ sentinel)) v.rm.count [true, true]
    | _, _ => .stuck
  else
    match v.data 0 with
    | some x => go ((x.valid 32).mapIdx (fun k y => (v.rm.count + k, y))) (v.rm.count + (x.valid 32).length) [true]
    | none => .stuck

/-! ## Dispatch, and the end of an invocation (R262) -/

/-- The kinds of nodes (R259). -/
inductive NodeKind
  | bf | pm | pw | cv | ct | sh | ix | mg | rm | spi | spo
  deriving DecidableEq, Repr

def nodeKind (x : Nat) : NodeKind :=
  if x < 8 then .bf else if x < 10 then .pm else if x < 14 then .pw else if x = 14 then .cv else if x = 15 then .ct
  else if x = 16 then .sh else if x = 17 then .ix else if x = 18 then .mg else if x = 19 then .rm else if x < 24 then .spi else .spo

/-- Lockstep operators (R288). -/
def NodeKind.lockstep : NodeKind → Bool
  | .bf | .pw | .rm => true
  | _ => false

/-- A data firing of a context. -/
def fireData (v : Env) : Fired :=
  match nodeKind v.e.node with
  | .bf => fireBF v
  | .pm => firePM v
  | .pw => firePW v
  | .cv => fireCV v
  | .ct => fireCT v
  | .sh => fireSH v
  | .ix => fireIX v
  | .mg => fireMG v
  | .rm => fireRM v
  | .spi | .spo => .stuck

/-- What a context has still to append at an end, formed into its outbox; or an operator fault. -/
def flushEnd (v : Env) : Fired :=
  let st := { v.st with flushed := true }
  let w := 8 * 2 ^ v.e.par' 0x0C 1 0
  match nodeKind v.e.node with
  | .pw => if v.e.op = 9 then v.quiet { st with outbox := [[dataToken 32 [v.st.acc]], []] } else v.quiet st
  | .pm =>
    if v.st.frame = [] then v.quiet st
    else if v.st.frame.length = 2 ^ v.e.par' 0x0C 7 4 then v.quiet { st with frame := [], outbox := [pmFrame v v.st.frame, []] }
    else .fault 6
  | .cv => let r := cvFeed v st [] true; .ok { r.1 with outbox := r.2.1 } [] [] r.2.2 v.rm
  | .ct =>
    if v.st.frame = [] then v.quiet st
    else if v.e.op = 1 then .fault 6
    else
      let n := 2 ^ v.e.par' 0x0C 11 8
      let bytes := v.st.frame.flatMap (fun u => (u.lanes 8).take (256 / n))
      v.quiet { st with frame := [], outbox := [[⟨.data, packLanes 8 bytes, 0⟩], []] }
  | .sh =>
    if v.e.op = 1 && v.e.par' 0x0C 31 0 ≠ 0 && v.st.offA < shWords v then
      -- both inputs are over before LEN: missing words read as zero (R302)
      v.quiet (shAppend v v.st [] [] (min 32 (shWords v - v.st.offA)))
    else v.quiet (formTokens 32 true st)
  | .ix => v.quiet (formTokens w true st)
  | .mg => v.quiet (formTokens 32 true st)
  | .bf | .rm | .spi | .spo => v.quiet st

end Sys2Proof.Machine
end

