-- ==== Sys2Proof/Machine/Fabric.lean ====
section
/-! DEFINITION. The stage fabric's machinery (12_stage_fabric R259 to R284; R306): stream programs and their checks, channels, the
arbiter, ports, commits, faults and the instructions of major 0x2D. -/

namespace Sys2Proof.Machine

/-! ## Reading a program record (R271) -/

/-- Contexts of a node (R259). -/
def nodeContexts (x : Nat) : Nat := if x < 19 then 4 else 1

/-- Byte offset of the entry of a context. -/
def entryAt (x c : Nat) : Nat := 64 + x * 128 + c * 32

/-- A byte that names a channel. -/
def chanOf (b : Nat) : Option Nat := if 128 ≤ b && b % 64 < 48 then some (b % 64) else none

/-- A context's entry. -/
def contextEntry (f : Bytes) (x c : Nat) : FabCtx :=
  let o := entryAt x c
  { node := x, ctx := c, op := readN f (o + 1) 1, weight := readN f o 1 / 16
    ins := (List.range 4).map (fun k => chanOf (readN f (o + 4 + k) 1))
    outs := (List.range 2).map (fun k => chanOf (readN f (o + 8 + k) 1))
    par := (List.range 5).map (fun k => readN f (o + 12 + 4 * k) 4) }

/-- Every node and context number with an entry. -/
def allContexts : List (Nat × Nat) := (List.range 26).flatMap (fun x => (List.range 4).map (fun c => (x, c)))

/-- Whether an entry is enabled where its node has the context. -/
def enabledAt (f : Bytes) (x c : Nat) : Bool := c < nodeContexts x && readN f (entryAt x c) 1 % 2 = 1

/-- The program a record holds. -/
def readProgram (f : Bytes) (modulus : Nat) (sat : Bool) : FabProg :=
  { blk := readN f 1 1 % 4, modulus := modulus, sat := sat
    ctxs := (allContexts.filter (fun q => enabledAt f q.1 q.2)).map (fun q => contextEntry f q.1 q.2) }

/-! ## Ports (R272) -/

/-- A port's range and rows: first slot, count, SIDE, data rows R, RB, RS, TK. -/
structure PortShape where
  slot : Nat
  cnt : Nat
  side : Bool
  rows : Nat
  rb : Nat
  rs : Nat
  tk : Nat

/-- A port's parameters, from the grant's first slot. -/
def FabCtx.port (e : FabCtx) (base : Nat) : PortShape :=
  let cnt := e.par' 0x0C 15 8
  let side := e.par' 0x0C 20 20
  { slot := base + e.par' 0x0C 7 0, cnt := cnt, side := side = 1, rows := 64 * (cnt - side)
    rb := e.par' 0x10 15 0, rs := e.par' 0x10 31 16, tk := e.par' 0x14 15 0 }

/-- The row of token j of invocation n. -/
def PortShape.row (p : PortShape) (n j : Nat) : Nat := (p.rb + n * p.rs + j) % p.rows

/-- Logical offset of a row's side bytes. -/
def PortShape.sideOff (p : PortShape) (row : Nat) : Nat := (p.cnt - 1) * 16384 + 2 * row

/-- A row whose side bytes the side slot does not hold. -/
def PortShape.beyond (p : PortShape) (row : Nat) : Bool := p.side && 8192 ≤ row

/-- Chunks of a row and its side bytes. -/
def PortShape.rowChunks (p : PortShape) (row : Nat) : List Nat :=
  (p.slot * 4 + row / 16) :: (if p.side then [p.slot * 4 + p.sideOff row / 4096] else [])

/-- Chunks of the rows of invocation n from token j on. -/
def PortShape.chunks (p : PortShape) (n j : Nat) : List Nat :=
  ((List.range p.tk).drop j).foldl (fun l k => (p.rowChunks (p.row n k)).foldl (fun l c => if l.contains c then l else l ++ [c]) l) []

def FabCtx.isInPort (e : FabCtx) : Bool := 20 ≤ e.node && e.node < 24
def FabCtx.isOutPort (e : FabCtx) : Bool := 24 ≤ e.node

/-- RM0's first slot and count (R305). -/
def FabCtx.rmRange (e : FabCtx) (base : Nat) : Nat × Nat := (base + e.par' 0x10 7 0, e.par' 0x10 15 8)

/-- Chunks of RM0's range, if it is enabled. -/
def FabProg.rmChunks (p : FabProg) (base : Nat) : List Nat :=
  match p.ctxs.find? (fun e => e.node = 19) with
  | some e => let r := e.rmRange base; (List.range (4 * r.2)).map (fun k => r.1 * 4 + k)
  | none => []

/-- Chunks that invocation n writes (R267). -/
def FabProg.writes (p : FabProg) (base n : Nat) : List Nat :=
  (p.ctxs.filter FabCtx.isOutPort).flatMap (fun e => (e.port base).chunks n 0) ++ p.rmChunks base

/-- Chunks that invocation n reads. -/
def FabProg.reads (p : FabProg) (base n : Nat) : List Nat :=
  (p.ctxs.filter FabCtx.isInPort).flatMap (fun e => (e.port base).chunks n 0) ++ p.rmChunks base

/-- Bytes an invocation credits (R266). -/
def FabProg.bytes (p : FabProg) : Nat := 256 * ((p.ctxs.filter FabCtx.isInPort).map (fun e => e.par' 0x14 15 0)).sum

/-! ## The checks of `scfg` (R273, R306): each finds the offsets of its failing bytes (log 30). -/

/-- The first byte of a word at an offset with a set bit of a mask. -/
def firstSet (off mask w : Nat) : List Nat :=
  (((List.range 4).find? (fun k => Nat.land w mask / 256 ^ k % 256 ≠ 0)).map (off + ·)).toList

/-- An offset when a condition holds. -/
def failAt (c : Bool) (off : Nat) : List Nat := if c then [off] else []

/-- The first set byte of a span. -/
def firstByte (f : Bytes) (off n : Nat) : List Nat :=
  (((List.range n).find? (fun k => readN f (off + k) 1 ≠ 0)).map (off + ·)).toList

/-- Ports used that the operator does not use, or unused that it needs. -/
def ioBad (e : FabCtx) (o : Nat) (ins outs : List Nat) : List Nat :=
  ((List.range 4).filter (fun k => (e.ins.getD k none).isSome ≠ ins.contains k)).map (o + 4 + ·) ++
  ((List.range 2).filter (fun k => (e.outs.getD k none).isSome ≠ outs.contains k)).map (o + 8 + ·)

/-- Set bits of masks of the parameter words. -/
def reservedBad (e : FabCtx) (o : Nat) (masks : List Nat) : List Nat :=
  (masks.mapIdx (fun k m => firstSet (o + 12 + 4 * k) m (e.par.getD k 0))).flatten

def allOnes : Nat := 0xFFFFFFFF

def badBF (p : FabProg) (e : FabCtx) (o : Nat) : List Nat :=
  let two := e.par' 0x0C 0 0 = 1
  let ld := e.par' 0x0C 3 1
  let grow := e.par' 0x0C 5 4
  let tlen := e.par' 0x10 31 16
  let ln := e.par' 0x14 4 0
  let ports := if two then [0, 1] else [0]
  ioBad e o ports ports ++ reservedBad e o [0xFFFFFF80, 0, 0xFFFFFFE0, allOnes, allOnes] ++
  failAt ((if e.op = 1 then 6 else 5) < ld || (ld ≠ 0 && two) || (p.block ≤ 2 ^ ld && 2 ^ ld < 64) || 1 < grow ||
    (e.op ≠ 1 && (grow ≠ 0 || e.par' 0x0C 6 6 = 1))) (o + 0x0C) ++
  failAt (tlen = 0 || (if e.op = 3 then 1024 else 2048) < e.par' 0x10 15 0 + tlen) (o + 0x12) ++
  failAt (if e.op = 3 then ln = 0 || 27 < ln || (p.modulus - 1) % 2 ^ ln ≠ 0 else ln ≠ 0) (o + 0x14)

def badPM (p : FabProg) (e : FabCtx) (o : Nat) : List Nat :=
  let ewc := e.par' 0x0C 2 0
  let lf := e.par' 0x0C 7 4
  ioBad e o [0] [0] ++ reservedBad e o [0xFFFF0008, allOnes, allOnes, allOnes, allOnes] ++
  failAt (4 < ewc || 6 < lf || (ewc = 4 && p.blk ≠ 2)) (o + 0x0C) ++
  failAt (ewc ≤ 4 && lf + (if ewc = 4 then 7 else 8 - ewc) < e.par' 0x0C 15 8) (o + 0x0D)

def pwTypes : List Tag := [.int8, .int16, .int32, .uint8, .uint16, .uint32, .fp32, .fp16, .bf16, .mod32]

def badPW (e : FabCtx) (o : Nat) : List Nat :=
  let t := Tag.ofCode? (e.par' 0x0C 7 0)
  let ot := Tag.ofCode? (e.par' 0x0C 15 8)
  let conv := e.par' 0x0C 19 19 = 1
  let tlen := e.par' 0x10 31 16
  let ok := fun (t ot : Tag) =>
    if e.op = 9 then decide (ot = (if t = .mod32 then .mod32 else if t.isFloat then .fp32 else .int32))
    else (pwTypes ++ [Tag.e4m3, Tag.e5m2]).contains ot && ot.width 0 = t.width 0 && decide (ot = .mod32 ↔ t = .mod32)
  ioBad e o (if e.op = 4 then [0, 1, 2] else if e.op = 7 || e.op = 8 then [0] else [0, 1]) [0] ++
  reservedBad e o [0xFFF00000, 0, 0, allOnes, allOnes] ++
  (match t with
   | some t =>
     if pwTypes.contains t then
       failAt (!((ot.map (ok t)).getD false)) (o + 0x0D) ++ failAt (t = .mod32 && !([1, 2, 3, 9].contains e.op)) (o + 0x0C) ++
       failAt (conv && !(e.op = 3 && t = .mod32)) (o + 0x0E)
     else [o + 0x0C]
   | none => [o + 0x0C]) ++
  failAt (4 < e.par' 0x0C 18 16) (o + 0x0E) ++
  failAt (conv ≠ (e.par' 0x14 31 0 ≠ 0)) (o + 0x14) ++
  (if e.op = 8 then failAt (tlen = 0 || 4096 < e.par' 0x10 15 0 + tlen) (o + 0x12)
   else failAt (e.par' 0x10 15 0 ≠ 0) (o + 0x10) ++ failAt (tlen ≠ 0) (o + 0x12))

/-- Pairings that the converter takes (R300, R44). -/
def cvPair (t ot : Tag) : Bool :=
  (ot.isInt || ot.isFloat || ot = .bfp16 || ot = .mod32 || ot = .e2m1x) &&
  (if t = .mod32 then ot = .mod32 || (ot.isInt && 32 ≤ ot.width 0) else ot ≠ .mod32 || t.isInt)

def badCV (e : FabCtx) (o : Nat) : List Nat :=
  let t := Tag.ofCode? (e.par' 0x0C 7 0)
  let ot := Tag.ofCode? (e.par' 0x0C 15 8)
  let had := e.par' 0x0C 21 19
  let input := fun (t : Tag) => t.isInt || (t.isFloat && t ≠ .e2m1x) || t = .bfp16 || t = .mod32
  ioBad e o [0] (if ot = some .e2m1x then [0, 1] else [0]) ++ reservedBad e o [0xFFC00000, allOnes, allOnes, allOnes, allOnes] ++
  failAt (!((t.map input).getD false)) (o + 0x0C) ++
  failAt (match t, ot with | some t, some ot => !cvPair t ot | _, none => true | none, _ => false) (o + 0x0D) ++
  failAt (4 < e.par' 0x0C 18 16 || 5 < had ||
    (had ≠ 0 && !(t = some .fp32 && (ot = some .e2m1x || ot = some .e4m3 || ot = some .e5m2)))) (o + 0x0E)

def badCT (e : FabCtx) (o : Nat) : List Nat :=
  ioBad e o [0] [0] ++ reservedBad e o [0xFFFFF0FC, allOnes, allOnes, allOnes, allOnes] ++
  failAt (e.par' 0x0C 1 0 = 0) (o + 0x0C) ++ failAt (8 < e.par' 0x0C 11 8) (o + 0x0D)

def badSH (e : FabCtx) (o : Nat) : List Nat :=
  ioBad e o [0, 1] [0] ++ reservedBad e o [if e.op = 2 then allOnes else 0, allOnes, allOnes, allOnes, allOnes]

def badIX (e : FabCtx) (o : Nat) : List Nat :=
  ioBad e o [0, 1, 2] [0, 1] ++ reservedBad e o [0xFFFFFFFC, allOnes, allOnes, allOnes, allOnes] ++
  failAt (e.par' 0x0C 1 0 = 3) (o + 0x0C)

def badMG (e : FabCtx) (o : Nat) : List Nat :=
  ioBad e o [0, 1, 2, 3] [0, 1] ++ reservedBad e o [0xFFFFF800, allOnes, allOnes, allOnes, allOnes] ++
  failAt (!(e.par' 0x0C 7 0 = 0x10 || e.par' 0x0C 7 0 = 0x05)) (o + 0x0C) ++ failAt (e.par' 0x0C 10 9 = 3) (o + 0x0D)

def badRM (p : FabProg) (e : FabCtx) (o : Nat) : List Nat :=
  let r := e.rmRange 0
  ioBad e o (if e.op = 1 then [0, 1] else [0]) [] ++ reservedBad e o [0xFFFFFC00, 0xFFF00000, 0, 0, allOnes] ++
  failAt (!([0x05, 0x06, 0x10, 0x20].contains (e.par' 0x0C 7 0))) (o + 0x0C) ++
  failAt (p.ctxs.any (fun q => q.isOutPort && (q.port 0).slot < r.1 + r.2 && r.1 < (q.port 0).slot + (q.port 0).cnt)) (o + 0x10) ++
  failAt (r.2 = 0 || 16 < r.2) (o + 0x11) ++ failAt (4 < e.par' 0x10 19 16) (o + 0x12) ++
  failAt (e.par' 0x14 31 0 % 4 ≠ 0) (o + 0x14) ++ failAt (e.par' 0x18 31 0 % 4 ≠ 0) (o + 0x18)

def badPort (e : FabCtx) (o : Nat) : List Nat :=
  let p := e.port 0
  (if e.isInPort then (List.range 4).filterMap (fun k => if (e.ins.getD k none).isSome then some (o + 4 + k) else none)
   else (List.range 2).filterMap (fun k => if (e.outs.getD k none).isSome then some (o + 8 + k) else none)) ++
  failAt (e.op ≠ 0) (o + 1) ++ reservedBad e o [0xFFE00000, 0, 0xFFFF0000, allOnes, allOnes] ++
  failAt (p.cnt = 0) (o + 0x0D) ++ failAt (4 < e.par' 0x0C 19 16 || (p.side && p.cnt = 1 && e.isOutPort)) (o + 0x0E) ++
  failAt (p.rows ≤ p.rb) (o + 0x10) ++ failAt (1024 < p.tk || (p.tk = 0 && e.isOutPort)) (o + 0x14)

/-- Whether a node kind has an operator code (R288). -/
def hasOp (k : NodeKind) (op : Nat) : Bool :=
  match k with
  | .bf => 1 ≤ op && op ≤ 3
  | .pm | .ct | .sh | .rm => op = 1 || op = 2
  | .pw => 1 ≤ op && op ≤ 9
  | .cv | .ix | .mg => op = 1
  | .spi | .spo => op = 0

/-- The failing bytes of an enabled entry's own rules. -/
def badEntry (p : FabProg) (e : FabCtx) : List Nat :=
  let o := entryAt e.node e.ctx
  match nodeKind e.node with
  | .spi | .spo => badPort e o
  | k =>
    if !hasOp k e.op then [o + 1]
    else match k with
      | .bf => badBF p e o
      | .pm => badPM p e o
      | .pw => badPW e o
      | .cv => badCV e o
      | .ct => badCT e o
      | .sh => badSH e o
      | .ix => badIX e o
      | .mg => badMG e o
      | _ => badRM p e o

/-- What every entry must meet. -/
def badCommon (f : Bytes) (x c : Nat) : List Nat :=
  let o := entryAt x c
  if !enabledAt f x c then firstByte f o 32
  else
    failAt (readN f o 1 / 2 % 8 ≠ 0 || readN f o 1 / 16 = 0) o ++ firstByte f (o + 2) 2 ++ firstByte f (o + 10) 2 ++
    ((List.range 6).filter (fun k =>
      let b := readN f (o + 4 + k) 1
      b / 64 % 2 = 1 || (128 ≤ b && 48 ≤ b % 64))).map (o + 4 + ·)

/-- Bytes that name channels: channel, whether as an output, offset. -/
def FabProg.names (p : FabProg) : List (Nat × Bool × Nat) :=
  p.ctxs.flatMap (fun e =>
    let o := entryAt e.node e.ctx
    (e.ins.mapIdx (fun k c => (c.map (fun c => (c, false, o + 4 + k))).toList)).flatten ++
    (e.outs.mapIdx (fun k c => (c.map (fun c => (c, true, o + 8 + k))).toList)).flatten)

/-- Channels not named exactly once at each end: a second name, or a name without its other end. -/
def FabProg.badNames (p : FabProg) : List Nat :=
  p.names.flatMap (fun x =>
    failAt (p.names.any (fun y => y.1 = x.1 && y.2.1 = x.2.1 && y.2.2 < x.2.2)) x.2.2 ++
    failAt (!(p.names.any (fun y => y.1 = x.1 && y.2.1 ≠ x.2.1))) x.2.2)

/-- Ranges outside the grant: offset, and the first slot outside (R137). -/
def FabProg.outside (p : FabProg) (g : Gang) : List (Nat × Nat) :=
  p.ctxs.filterMap (fun e =>
    let o := entryAt e.node e.ctx
    if 20 ≤ e.node then (slotOutside (some g) (e.port g.slot0).slot (e.port g.slot0).cnt).map (fun k => (o + 0x0C, k))
    else if e.node = 19 then (slotOutside (some g) (e.rmRange g.slot0).1 (e.rmRange g.slot0).2).map (fun k => (o + 0x10, k))
    else none)

/-- Every failing byte of a record. -/
def recordBad (f : Bytes) (p : FabProg) : List Nat :=
  failAt (readN f 0 1 ≠ 1) 0 ++ failAt (readN f 1 1 % 4 = 3 || 4 ≤ readN f 1 1) 1 ++ firstByte f 2 62 ++
  allContexts.flatMap (fun q => badCommon f q.1 q.2) ++ p.ctxs.flatMap (badEntry p) ++ p.badNames

/-- The least of a list. -/
def leastOf : List Nat → Option Nat
  | [] => none
  | x :: xs => some (xs.foldl min x)

/-- The trap that a record earns, in ascending byte offset (R273). -/
def recordTrap (f : Bytes) (p : FabProg) (g : Gang) : Option Trap :=
  let out := p.outside g
  let first := leastOf (out.map (·.1))
  match leastOf (recordBad f p), first with
  | some b, none => some ⟨cIllegal, word b, 0⟩
  | some b, some o =>
    if b ≤ o then some ⟨cIllegal, word b, 0⟩
    else (out.find? (fun x => x.1 = o)).map (fun x => protectionTrap x.2)
  | none, some o => (out.find? (fun x => x.1 = o)).map (fun x => protectionTrap x.2)
  | none, none => if p.ctxs.any FabCtx.isOutPort then none else some ⟨cIllegal, word 3392, 0⟩

/-! ## Fabrics -/

def State.fabAt (s : State) (core : Nat) : Fabric := (s.coreAt core).fab
def State.onFab (s : State) (core : Nat) (g : Fabric → Fabric) : State := s.onCoreAt core (fun c => { c with fab := g c.fab })

/-- The first slot of the grant that holds the fabric. -/
def State.fabBase (s : State) (core : Nat) : Nat :=
  (((s.fabAt core).gang.bind (s.coreAt core).gang).map (·.slot0)).getD 0

def Fabric.chan (f : Fabric) (k : Nat) : List Token := SMap.get [] f.chans k
def Fabric.ctx (f : Fabric) (k : Nat) : CtxState := SMap.get {} f.ctxs k
def Fabric.setCtx (f : Fabric) (k : Nat) (c : CtxState) : Fabric := { f with ctxs := SMap.set {} f.ctxs k c }
def Fabric.inPort (f : Fabric) (x : Nat) : InPort := SMap.get {} f.inPorts x
def Fabric.outPort (f : Fabric) (x : Nat) : OutPort := SMap.get {} f.outPorts x
def FabCtx.key (e : FabCtx) : Nat := e.node * 4 + e.ctx
def Fabric.entries (f : Fabric) : List FabCtx := (f.prog.map (·.ctxs)).getD []
def Fabric.entry (f : Fabric) (k : Nat) : Option FabCtx := f.entries.find? (fun e => e.key = k)

/-- Invocations below this are admitted (R267). -/
def Fabric.admitted (f : Fabric) : Nat := match f.launches.getLast? with | some l => max f.resolved (l.first + l.count) | none => f.resolved

/-- The launch of an invocation. -/
def Fabric.launchOf (f : Fabric) (n : Nat) : Option Launch := f.launches.find? (fun l => l.first ≤ n && n < l.first + l.count)

/-- Input ports are done with every admitted invocation. -/
def Fabric.portsIdle (f : Fabric) : Bool :=
  (f.entries.filter FabCtx.isInPort).all (fun e => (f.inPort e.node).pos = 0 && f.admitted ≤ (f.inPort e.node).inv)

/-- Quiescence (R274). -/
def Fabric.quiet (f : Fabric) : Bool :=
  f.resolved = f.admitted && f.portsIdle && f.chans = [] && f.outPorts = [] && f.rm = {}

/-- The weight of R263. -/
def newWeight (o top : Nat) : Nat := max 1 ((15 * o + top / 2) / top)

/-- Tokens resident in the channels of a context's used inputs. -/
def Fabric.resident (f : Fabric) (e : FabCtx) : Nat := (e.ins.map (fun c => ((c.map f.chan).getD []).length)).sum

/-- The contexts of a node reweighted by their occupancies in a window that is over; every credit becomes its weight (R263). -/
def Fabric.reweigh (f : Fabric) (es : List FabCtx) (occ : FabCtx → Nat) : Fabric :=
  let top := (es.map occ).foldl max 0
  es.foldl (fun (f : Fabric) e =>
    let c := f.ctx e.key
    let w := if top = 0 then c.weight else newWeight (occ e) top
    f.setCtx e.key { c with weight := w, credit := w, occ := 0 }) f

/-- A node's residence counted up to a cycle, its channels having stood as they are since the last count. Each window of exactly 1,024 cycles
that ends by then reweights the node: the first by what it had counted and what it adds, later ones by their own residence alone (R263). -/
def Fabric.accountNode (now : Nat) (f : Fabric) (node : Nat) : Fabric :=
  let es := f.entries.filter (fun e => e.node = node)
  let start := SMap.get 0 f.windowAt node
  let windows := (now - start) / 1024
  let add := fun (d : Nat) (f : Fabric) => es.foldl (fun (f : Fabric) e =>
    let c := f.ctx e.key
    f.setCtx e.key { c with occ := c.occ + d * f.resident e }) f
  if windows = 0 then add (now - f.since) f
  else
    let f1 := f.reweigh es (fun e => (f.ctx e.key).occ + (start + 1024 - f.since) * f.resident e)
    let f2 := if windows = 1 then f1 else f1.reweigh es (fun e => 1024 * f.resident e)
    { add ((now - start) % 1024) f2 with windowAt := SMap.set 0 f.windowAt node (start + 1024 * windows) }

/-- Residence counted up to now at every node, with the reweightings that have come due; a halted fabric does not run (R263; log 27). -/
def Fabric.account (f : Fabric) (now : Nat) : Fabric :=
  if f.halt then f else { (List.range 26).foldl (Fabric.accountNode now) f with since := now }

/-- The head of a channel taken (R268). -/
def Fabric.pop (now : Nat) (f : Fabric) (k : Nat) : Fabric :=
  { f with chans := SMap.set [] f.chans k ((f.chan k).drop 1), headAt := SMap.set 0 f.headAt k (if (f.chan k).length ≤ 1 then 0 else now) }

/-- Tokens appended to a channel. -/
def Fabric.push (now : Nat) (f : Fabric) (k : Nat) (ts : List Token) : Fabric :=
  { f with
    headAt := if f.chan k = [] && ts ≠ [] then SMap.set 0 f.headAt k now else f.headAt
    chans := SMap.set [] f.chans k (f.chan k ++ ts) }

/-- Room for tokens in each used output (R261). -/
def Fabric.room (f : Fabric) (e : FabCtx) (outs : List (List Token)) : Bool :=
  (e.outs.mapIdx (fun j c => match c with
    | some k => (f.chan k).length + (outs.getD j []).length ≤ 8
    | none => true)).all id

/-- Inputs taken and outputs appended. -/
def Fabric.move (now : Nat) (f : Fabric) (e : FabCtx) (took : List Bool) (outs : List (List Token)) : Fabric :=
  let f := (e.ins.mapIdx (fun j c => (j, c))).foldl (fun f x => match x.2 with
    | some k => if took.getD x.1 false then f.pop now k else f
    | none => f) f
  (e.outs.mapIdx (fun j c => (j, c))).foldl (fun f x => match x.2 with
    | some k => f.push now k (outs.getD x.1 [])
    | none => f) f

/-! ## What launches have still to read and write (R267) -/

/-- Chunks that input ports have still to read of invocations lo to hi - 1. -/
def Fabric.portReads (f : Fabric) (base lo hi : Nat) : List Nat :=
  (f.entries.filter FabCtx.isInPort).flatMap (fun e =>
    let q := f.inPort e.node
    ((List.range hi).filter (fun n => lo ≤ n && q.inv ≤ n)).flatMap (fun n =>
      (e.port base).chunks n (if n = q.inv then q.pos - 1 else 0)))

/-- Chunks that unresolved invocations lo to hi - 1 write. -/
def Fabric.runWrites (f : Fabric) (base lo hi : Nat) : List Nat :=
  match f.prog with
  | some p => ((List.range hi).filter (fun n => lo ≤ n && f.resolved ≤ n)).flatMap (p.writes base)
  | none => []

/-- Launches brought up to date; one is over once resolved and read by every input port. -/
def Fabric.refresh (base : Nat) (f : Fabric) : Fabric :=
  let ports := f.entries.filter FabCtx.isInPort
  let live := f.launches.filter (fun l => !(l.first + l.count ≤ f.resolved &&
    ports.all (fun e => l.first + l.count ≤ (f.inPort e.node).inv)))
  { f with launches := live.map (fun l =>
      let hi := l.first + l.count
      let rm := if f.resolved < hi then (f.prog.map (fun p => p.rmChunks base)).getD [] else []
      { l with reads := (f.portReads base l.first hi ++ rm).eraseDups, writes := (f.runWrites base l.first hi).eraseDups }) }

/-- A read of chunks by invocation n waits for earlier writes of its hart, invocations of its own launch among them. -/
def State.invReadHeld (s : State) (core n : Nat) (l : Launch) (chunks : List Nat) : Bool :=
  (s.coreAt core).held l.hart l.stamp chunks [] || overlap ((s.fabAt core).runWrites (s.fabBase core) l.first n) chunks

/-- A write of chunks by invocation n waits for earlier reads and writes likewise. -/
def State.invWriteHeld (s : State) (core n : Nat) (l : Launch) (chunks : List Nat) : Bool :=
  (s.coreAt core).held l.hart l.stamp [] chunks || overlap ((s.fabAt core).portReads (s.fabBase core) l.first n) chunks ||
    overlap ((s.fabAt core).runWrites (s.fabBase core) l.first n) chunks

/-! ## Faults and cancellation (R269, R270, R281) -/

/-- Full credit for every uncommitted invocation of a launch, each by itself. -/
def State.creditRest (core : Nat) (s : State) (l : Launch) : State :=
  let n := l.first + l.count - max l.first (s.fabAt core).resolved
  (List.replicate n ()).foldl (fun (t : State) _ => t.sendCredit core l.bar l.bytes) s

/-- Launches queued behind a command. -/
def Fabric.queued (f : Fabric) : List Launch := f.cmds.filterMap (fun c => match c with | .sgo l => some l | _ => none)

/-- Every uncommitted invocation cancelled and credited; held outputs discarded. -/
def cancelRest (core : Nat) (s : State) : State :=
  let f := s.fabAt core
  let s := (f.launches ++ f.queued).foldl (State.creditRest core) s
  s.onFab core (fun f => { f with
    launches := [], cmds := f.cmds.filter (fun c => match c with | .sgo _ => false | _ => true)
    cancelled := if f.resolved < f.next then f.cancelled ++ [(f.resolved, f.next)] else f.cancelled
    resolved := f.next, outPorts := [], rm := {} })

/-- Source and sink nodes of a channel. -/
def Fabric.ends (f : Fabric) (k : Nat) : Nat × Nat :=
  (((f.entries.find? (fun e => e.outs.contains (some k))).map (·.node)).getD 0,
   ((f.entries.find? (fun e => e.ins.contains (some k))).map (·.node)).getD 0)

/-- The word of R270. -/
def Fabric.faultWord (f : Fabric) (e : FabCtx) (chan : Option Nat) : Word :=
  let q := match chan with | some k => f.ends k | none => (e.node, e.node)
  word (e.ctx * 2 ^ 48 + chan.getD 63 * 2 ^ 42 + q.2 * 2 ^ 37 + q.1 * 2 ^ 32 + (f.ctx e.key).inv % 2 ^ 32)

/-- Data tokens that each node has read (R270). -/
def Fabric.readCounts (f : Fabric) : List Nat :=
  (List.range 26).map (fun x => ((f.entries.filter (fun e => e.node = x)).map (fun e => (f.ctx e.key).read)).sum)

/-- The trap cause that reports a failure (R270). -/
def fabCause (fcause : Nat) : Nat := if fcause = 1 then cBlockedEdge else if fcause = 2 then cModRange else cFabric

/-- A fault of a running invocation at a context: halt and cancellation at once, and a record, which may have to wait for its place (R269,
R326). -/
def fabFault (s : State) (core : Nat) (e : FabCtx) (chan : Option Nat) (fcause : Nat) : State :=
  let f := s.fabAt core
  let g := f.gang.bind (s.coreAt core).gang
  let hart := ((f.launchOf (f.ctx e.key).inv).map (·.hart)).getD ((g.map (fun g => core * 8 + g.first)).getD 0)
  let w := f.faultWord e chan
  let counts := f.readCounts
  let s := cancelRest core s
  let s := s.onFab core (fun f => { f with halt := true, fail := true, fcause := fcause, failWord := w, failCounts := counts })
  postRecord s
    { core := core, hart := hartIndex hart, master := 3, cause := fabCause fcause, kind := 3, ctx := (g.map (·.ctx)).getD 0
      d0 := w, d1 := word (counts.getD e.node 0 * 2 ^ 32 + fcause), d2 := word (f.next - f.resolved) }

/-! ## Layouts (R186) -/

/-- The range that a port, or RM0, states a layout for. -/
def FabCtx.range (e : FabCtx) (base : Nat) : Desc :=
  let r := if e.node = 19 then e.rmRange base else ((e.port base).slot, (e.port base).cnt)
  let lay := if e.node = 19 then e.par' 0x10 19 16 else e.par' 0x0C 19 16
  { slot := r.1, cnt := r.2, lay := lay, bar := 0, nb := true, tr := false, te := 0 }

/-- Chunks of the row that an input port emits next. -/
def FabCtx.emitChunks (e : FabCtx) (base : Nat) (q : InPort) : List Nat := (e.port base).rowChunks ((e.port base).row q.inv (q.pos - 1))

/-- LAYMIS counts an `sgo` once, as an invocation of it comes to a slot of another layout than its port states. -/
def State.countLaunch (s : State) (core n : Nat) (es : List FabCtx) (chunks : List Nat) : State :=
  let ds := es.map (fun e => e.range (s.fabBase core))
  let mine := fun (l : Launch) => l.first ≤ n && n < l.first + l.count
  if (s.fabAt core).launches.any (fun l => mine l && !l.counted) && ds.any ((s.coreAt core).misLaid chunks) then
    (s.countLayout core ds chunks).onFab core (fun f =>
      { f with launches := f.launches.map (fun l => if mine l then { l with counted := true } else l) })
  else s

/-! ## Contexts (R261 to R263) -/

/-- The head of each input channel. -/
def Fabric.heads (f : Fabric) (e : FabCtx) : List (Option Token) := e.ins.map (fun c => c.bind (fun k => (f.chan k).head?))

/-- A context as its operator sees it. -/
def State.env (s : State) (core : Nat) (p : FabProg) (e : FabCtx) : Env :=
  let f := s.fabAt core
  { e := e, prog := p, st := f.ctx e.key, heads := f.heads e
    table := fun k => f.tables.read (e.node * 16384 + k)
    old := fun o => f.rm.old.getD o 0, oldPoisoned := f.rm.marks.contains, rm := f.rm
    free := f.room e (e.outs.map (fun _ => [Token.control .marker 0])) }

/-- RM0 at an invocation's marker: its range is kept as it stands then (R305). -/
def State.openRm (s : State) (core n : Nat) (e : FabCtx) : RmState :=
  let r := e.rmRange (s.fabBase core)
  let size := 16384 * r.2
  { inv := some n, old := s.readRange core r.1 0 size
    marks := ((List.range (size / 4)).map (4 * ·)).filter (fun a => s.rangePoisoned core r.1 a 4) }

/-- What a context would do now. -/
inductive Attempt
  | stuck
  | fault (cause : Nat) (chan : Option Nat)
  | go (f : Fabric)

/-- A firing applied, where there is room for what it appends. -/
def Fabric.fired (now : Nat) (f : Fabric) (e : FabCtx) (r : Fired) : Attempt :=
  match r with
  | .stuck => .stuck
  | .fault c => .fault c none
  | .ok st took outs fl rm =>
    if f.room e outs then
      let n := (took.filter id).length
      let f := f.setCtx e.key { st with read := st.read + n }
      let f := f.move now e took outs
      .go { f with flags := f.flags ||| fl, rm := if e.node = 19 then rm else f.rm }
    else .stuck

/-- Every used input shows a token of one kind but data: the token is passed on (R262). -/
def passControl (s : State) (core now : Nat) (p : FabProg) (e : FabCtx) (t : Token) : Attempt :=
  let f := s.fabAt core
  let c := f.ctx e.key
  let v := s.env core p e
  let pass := fun (f : Fabric) => f.move now e (e.ins.map Option.isSome) (e.outs.map (fun _ => [t]))
  if t.kind = .marker then
    if e.node = 19 && (f.rm.ready ||
        ((f.launchOf t.num).map (fun l => s.invWriteHeld core t.num l (p.rmChunks (s.fabBase core)))).getD false) then .stuck
    else if f.room e (e.outs.map (fun _ => [t])) then
      let f := f.setCtx e.key { weight := c.weight, credit := c.credit, occ := c.occ, inv := t.num }
      .go (pass { f with rm := if e.node = 19 then s.openRm core t.num e else f.rm })
    else .stuck
  else if !outboxEmpty c then let r := popOutbox c; f.fired now e (.ok r.2 [] r.1 0 f.rm)
  else
    let work := if (nodeKind e.node).lockstep then Fired.stuck else fireData v
    match work with
    | .stuck =>
      if !c.flushed then f.fired now e (flushEnd v)
      else if f.room e (e.outs.map (fun _ => [t])) then .go (pass { f with rm := if e.node = 19 then { f.rm with ready := true } else f.rm })
      else .stuck
    | r => f.fired now e r

/-- An operator context: what it would do (R261, R262). -/
def tryContext (s : State) (core now : Nat) (p : FabProg) (e : FabCtx) : Attempt :=
  let f := s.fabAt core
  let used := (f.heads e).zip (e.ins.map Option.isSome) |>.filterMap (fun x => if x.2 then some x.1 else none)
  let ctrl := used.filterMap (fun h => h.bind (fun t => if t.kind = .data then none else some t))
  match ctrl with
  | [] =>
    if used = [] || ((nodeKind e.node).lockstep && used.any Option.isNone) then .stuck
    else if e.node = 19 && f.rm.ready then .stuck
    else f.fired now e (fireData (s.env core p e))
  | t :: ts =>
    if ts.any (fun u => u.num ≠ t.num) then .fault 5 none
    else if (nodeKind e.node).lockstep && used.any (fun h => (h.map (fun u => decide (u.kind = .data))).getD false) then .fault 5 none
    else if ctrl.length = used.length && ts.all (fun u => u.kind = t.kind) then passControl s core now p e t
    else if (nodeKind e.node).lockstep then .stuck
    else f.fired now e (fireData (s.env core p e))

/-- An output port takes a token into its staging buffer (R265). -/
def tryOutPort (s : State) (core now : Nat) (e : FabCtx) : Attempt :=
  let f := s.fabAt core
  let o := f.outPort e.node
  let p := e.port (s.fabBase core)
  match e.ins.find? Option.isSome with
  | some (some k) =>
    match (f.chan k).head? with
    | none => .stuck
    | some t =>
      if o.ready then .stuck
      else
        let c := f.ctx e.key
        let set := fun (o : OutPort) (c : CtxState) => Attempt.go
          (({ f with outPorts := SMap.set {} f.outPorts e.node o }).setCtx e.key c |>.pop now k)
        match t.kind, o.inv with
        | .marker, none => set { inv := some t.num } { c with inv := t.num, read := 0 }
        | .marker, some _ => .fault 5 (some k)
        | _, none => .fault 5 (some k)
        | .data, some n =>
          if p.tk ≤ o.held.length || p.beyond (p.row n o.held.length) then .fault 3 (some k)
          else set { o with held := o.held ++ [(t.data, t.side)] } { c with read := c.read + 1 }
        | .fin, some n => if t.num = n then set { o with ready := true } c else .fault 5 (some k)
  | _ => .stuck

/-- What an operator context or an output port would do now. -/
def attempt (s : State) (core : Nat) (e : FabCtx) : Attempt :=
  match (s.fabAt core).prog with
  | none => .stuck
  | some p => if e.isInPort then .stuck else if e.isOutPort then tryOutPort s core s.clock.cycle e else tryContext s core s.clock.cycle p e

def Attempt.live : Attempt → Bool
  | .stuck => false
  | _ => true

/-- A node's contexts in the arbiter's order, after the one that fired last. -/
def Fabric.arbiter (f : Fabric) (node : Nat) : List FabCtx :=
  let last := SMap.get 0 f.last node
  let es := f.entries.filter (fun e => e.node = node)
  es.filter (fun e => last < e.ctx + 1) ++ es.filter (fun e => !(last < e.ctx + 1))

/-- The context that fires next on a node, with credits renewed if none that can fire holds one (R263). -/
def pickContext (s : State) (core node : Nat) : Option FabCtx × Fabric :=
  let f := s.fabAt core
  let live := (f.arbiter node).filter (fun e => (attempt s core e).live)
  if live.any (fun e => (f.ctx e.key).credit ≠ 0) then (live.find? (fun e => (f.ctx e.key).credit ≠ 0), f)
  else
    let es := f.entries.filter (fun e => e.node = node)
    (live.head?, es.foldl (fun f e => let c := f.ctx e.key; f.setCtx e.key { c with credit := c.weight }) f)

/-- One firing of a context, by node × 4 + context, when the node's arbiter picks it (R261 to R263). -/
def execContextFire (core ctx : Nat) (s : State) : Result :=
  let f := s.fabAt core
  if f.halt then .next s
  else
    let s := s.onFab core (fun f => f.account s.clock.cycle)
    match pickContext s core (ctx / 4) with
    | (some e, f') =>
      if e.key ≠ ctx then .next s
      else
        let t := s.onFab core (fun _ => f')
        match attempt t core e with
        | .stuck => .next s
        | .fault c ch => .next (fabFault t core e ch c)
        | .go g =>
          let c := g.ctx e.key
          let g := g.setCtx e.key { c with credit := c.credit - 1 }
          .next (t.onFab core (fun _ => { g with last := SMap.set 0 g.last e.node (e.ctx + 1) }))
    | (none, _) => .next s

/-! ## Input ports (R264, R267) -/

/-- A token of an input port: the next port state, or none while it waits; a fault's cause. -/
def portToken (s : State) (core : Nat) (e : FabCtx) : Except Nat (Option Token) :=
  let f := s.fabAt core
  let q := f.inPort e.node
  let p := e.port (s.fabBase core)
  if f.admitted ≤ q.inv then .ok none
  else if q.pos = 0 then .ok (if f.stopping then none else some (Token.control .marker q.inv))
  else if p.tk < q.pos then .ok (some (Token.control .fin q.inv))
  else
    let row := p.row q.inv (q.pos - 1)
    if p.beyond row then .error 3
    else match f.launchOf q.inv with
      | none => .ok none
      | some l =>
        if s.invReadHeld core q.inv l (p.rowChunks row) then .ok none
        else if s.rangePoisoned core p.slot (row * 256) 256 || (p.side && s.rangePoisoned core p.slot (p.sideOff row) 2) then .error 4
        else .ok (some
          { kind := .data, data := BitVec.ofNat 2048 (bytesToNat (s.readRange core p.slot (row * 256) 256))
            side := if p.side then bytesToNat (s.readRange core p.slot (p.sideOff row) 2) else 0 })

/-- An input port emits its next token. -/
def execInputPortEmit (core port : Nat) (s : State) : Result :=
  let f := s.fabAt core
  match f.entry (port * 4) with
  | none => .next s
  | some e =>
    if f.halt || !e.isInPort then .next s
    else match portToken s core e with
      | .error c => .next (fabFault s core e none c)
      | .ok none => .next s
      | .ok (some t) =>
        let now := s.clock.cycle
        let t0 := if t.kind = .data then s.countLaunch core (f.inPort port).inv [e] (e.emitChunks (s.fabBase core) (f.inPort port)) else s
        let f := (t0.fabAt core).account now
        if !f.room e (e.outs.map (fun _ => [t])) then .next s
        else
          let q := f.inPort port
          let c := f.ctx e.key
          let f := f.setCtx e.key (match t.kind with
            | .marker => { c with inv := q.inv, read := 0 }
            | .data => { c with read := c.read + 1 }
            | .fin => c)
          let f := { f with inPorts := SMap.set {} f.inPorts port (if t.kind = TokKind.fin then ⟨q.inv + 1, 0⟩ else ⟨q.inv, q.pos + 1⟩) }
          let f := f.move now e [] (e.outs.map (fun _ => [t]))
          .next (t0.onFab core (fun _ => f.refresh (s.fabBase core)))

/-! ## Commits (R265, R266, R305; log 31) -/

/-- The rows and elements that the ports of an invocation hold, as writes. -/
def State.heldWrites (s : State) (core n : Nat) : List (Nat × Byte) :=
  let f := s.fabAt core
  let base := s.fabBase core
  f.entries.flatMap (fun e =>
    if e.isOutPort then
      let p := e.port base
      ((f.outPort e.node).held.mapIdx (fun j t =>
        let row := p.row n j
        (natToBytes 256 t.1.toNat).mapIdx (fun k b => (s.rangeKey core p.slot (row * 256 + k), b)) ++
        (if p.side then (natToBytes 2 t.2).mapIdx (fun k b => (s.rangeKey core p.slot (p.sideOff row + k), b)) else []))).flatten
    else if e.node = 19 then
      f.rm.held.flatMap (fun x => (natToBytes 4 (x.2.getD 0)).mapIdx (fun k b => (s.rangeKey core (e.rmRange base).1 (x.1 + k), b)))
    else [])

/-- Every output port and RM0 hold a whole invocation n. -/
def Fabric.ready (f : Fabric) (n : Nat) : Bool :=
  f.entries.all (fun e =>
    if e.isOutPort then (f.outPort e.node).ready && (f.outPort e.node).inv = some n
    else if e.node = 19 then f.rm.ready && f.rm.inv = some n
    else true)

/-- The oldest invocation commits, once every port holds it and earlier slot operations are over: its writes, its credit. -/
def execOutputPortCommit (core port : Nat) (s : State) : Result :=
  let f := s.fabAt core
  let n := f.resolved
  let base := s.fabBase core
  match f.launchOf n with
  | none => .next s
  | some l =>
    let mine := f.prog.isNone || ((f.entry (port * 4)).map FabCtx.isOutPort).getD false
    let ws := (f.prog.map (fun p => p.writes base n)).getD []
    if f.halt || f.admitted ≤ n || !mine || !f.ready n || s.invWriteHeld core n l ws then .next s
    else
      let t := s.countLaunch core n (f.entries.filter (fun e => e.isOutPort || e.node = 19)) ws
      let t := t.writeKeys (s.heldWrites core n)
      let t := t.sendCredit core l.bar l.bytes
      .next (t.onFab core (fun f =>
        ({ f.account s.clock.cycle with outPorts := [], rm := {}, lastCommit := some n, resolved := n + 1 }).refresh base))

/-! ## Weights and ages (R263, R268) -/

/-- The fabric stands between markers: every port before one, nothing can fire, and no invocation waits for its slots to commit or to open RM0;
or it is halted (R275). -/
def State.fabricSettled (s : State) (core : Nat) : Bool :=
  let f := s.fabAt core
  let n := f.resolved
  f.halt || (
    (f.entries.filter FabCtx.isInPort).all (fun e => (f.inPort e.node).pos = 0) &&
    f.entries.all (fun e => !(attempt s core e).live) &&
    !((f.launchOf n).isSome && f.ready n && n < f.admitted) &&
    !f.entries.any (fun e => e.node = 19 && (f.heads e).all (fun t => t.any (fun t => t.kind = .marker))))

/-- A pre-emption has brought the fabric to a stand at its markers, so that it runs no longer (R263, R268, R275). -/
def State.fabricStands (s : State) (core : Nat) : Bool := (s.fabAt core).stopping && s.fabricSettled core

/-- A node reweights once its window of 1,024 cycles is over; whatever the fabric does next counts the window first, so that a step of its own
is never late (log 27). -/
def execReweight (core node : Nat) (s : State) : Result :=
  let now := s.clock.cycle
  let f := s.fabAt core
  if f.halt || !f.entries.any (fun e => e.node = node) || now < SMap.get 0 f.windowAt node + 1024 || s.fabricStands core then .next s
  else .next (s.onFab core (fun f => f.account now))

/-- A head that has waited AGELIM cycles is a fault of its channel. -/
def execBlockedEdge (core chan : Nat) (s : State) : Result :=
  let f := s.fabAt core
  let lim := (s.coreAt core).ageLim.toNat
  match f.entries.find? (fun e => e.ins.contains (some chan)) with
  | none => .next s
  | some e =>
    if f.halt || lim = 0 || f.chan chan = [] || s.clock.cycle < SMap.get 0 f.headAt chan + lim || s.fabricStands core then .next s
    else .next (fabFault s core e (some chan) 1)

/-! ## Configuration periods (R274) -/

/-- Every context at rest under a program's weights, and the ports at the next invocation. -/
def Fabric.fresh (now : Nat) (f : Fabric) : Fabric :=
  { f with
    chans := [], headAt := [], last := [], outPorts := [], rm := {}, since := now
    ctxs := f.entries.foldl (fun m e => SMap.set {} m e.key { weight := e.weight, credit := e.weight }) []
    windowAt := (List.range 26).foldl (fun m x => SMap.set 0 m x now) []
    inPorts := [20, 21, 22, 23].foldl (fun m x => SMap.set {} m x ⟨f.resolved, 0⟩) [] }

/-- Launches at the head of the queue are admitted. -/
def Fabric.letIn : List FabCmd → Fabric → Fabric
  | .sgo l :: cs, f => Fabric.letIn cs { f with launches := f.launches ++ [l], cmds := cs }
  | _, f => f

/-- Commands at the head applied in succession; a `stwld` whose slot is still to be written holds the rest. -/
def applyConfig (core : Nat) : List FabCmd → State → State
  | .scfg p :: cs, s =>
    applyConfig core cs (s.onFab core (fun f => ({ f with prog := some p, cmds := cs }).fresh s.clock.cycle))
  | .stwld node d hart stamp :: cs, s =>
    if (s.coreAt core).held hart stamp d.chunks [] then s
    else
      let bs := s.readRange core d.slot 0 16384
      applyConfig core cs ((s.countLayout core [d] d.chunks).onFab core (fun f => { f with cmds := cs, tables := f.tables.writeBytes (node * 16384) bs }))
  | _, s => s

/-- A configuration period. -/
def execConfigPeriod (core : Nat) (s : State) : Result :=
  let f := s.fabAt core
  if f.halt || !f.quiet then .next s
  else
    let s := applyConfig core f.cmds s
    .next (s.onFab core (fun f => f.letIn f.cmds))

/-! ## FABSTAT (R276) -/

def Fabric.stat (f : Fabric) : Nat :=
  f.flags.toNat * 2 ^ 24 + f.cmds.length * 2 ^ 16 + f.prog.isSome.toNat * 256 +
  (f.cmds.any (fun c => match c with | .sgo _ => false | _ => true)).toNat * 128 + (f.issued && f.quiet).toNat * 64 + f.halt.toNat * 32 +
  f.fcause * 2 + f.fail.toNat

/-- The gang of a hart holds the fabric. -/
def State.hasFab (s : State) (n : Nat) : Bool := ((s.gangOf n).map (·.fab)).getD false

/-- FABSTAT of a hart; a gang without the fabric reads zero. -/
def State.fabstat (s : State) (n : Nat) : Word := if s.hasFab n then word (s.fabAt (coreOfHart n)).stat else 0

/-! ## The instructions (R277 to R284) -/

/-- A fabric failure that awaits report, for a gang that holds the fabric: its trap, which clears FAIL (R270). -/
def reportFab (s : State) : Option Result :=
  let f := s.fabAt s.coreNum
  if s.hasFab s.cur && f.fail then
    some (raiseTrap (s.onFab s.coreNum (fun f => { f with fail := false })) ⟨fabCause f.fcause, f.failWord, 0⟩)
  else none

/-- The hart waits in an `smark` or `sdrain` already: it reached the instruction before what fails now (R270, R280). -/
def Hart.inFabWait (h : Hart) : Bool :=
  match h.block with
  | some ⟨.engine _, _, _⟩ => true
  | _ => false

/-- Checks before an instruction's own: the grant, then a failure that is pending when the hart reaches the instruction. -/
def withFab (s : State) (k : Result) : Result :=
  if !s.hasFab s.cur then raiseTrap s (protectionTrap 0) else if s.hart.inFabWait then k else (reportFab s).getD k

/-- What issuing a fabric command comes to. -/
inductive FabIssue
  | trap (t : Trap)
  | full
  | held
  | ok (s : State)

def State.fabFull (s : State) : Bool := 16 ≤ (s.fabAt s.coreNum).cmds.length

/-- `scfg` with descriptor word w (R278). -/
def issueScfg (s : State) (w iw : Word) : FabIssue :=
  match s.gangOf s.cur with
  | none => .trap (protectionTrap 0)
  | some g =>
    if (s.fabAt s.coreNum).halt then .trap ⟨cIllegal, iw, 0⟩
    else match checkDesc (some g) .source w iw with
      | .error t => .trap t
      | .ok d =>
        if s.fabFull then .full
        else if s.slotHeld [d.slot * 4] [] then .held
        else
          let f := s.rangeBytes s.coreNum d.slot
          let p := readProgram f (s.hart.modulus.toNat % 2 ^ 32) s.hart.sat
          match recordTrap f p g with
          | some t => .trap t
          | none =>
            let s := s.countLayout s.coreNum [d] [d.slot * 4]
            .ok (s.onFab s.coreNum (fun f => { f with cmds := f.cmds ++ [.scfg p], configured := true, issued := true }))

/-- The program issued last: the newest queued one, or the one in effect. -/
def Fabric.latest (f : Fabric) : Option FabProg :=
  match (f.cmds.filterMap (fun c => match c with | .scfg p => some p | _ => none)).getLast? with
  | some p => some p
  | none => f.prog

/-- `sgo` with a count and a barrier word: the first number as well (R279). -/
def issueSgo (s : State) (a b iw : Word) : FabIssue :=
  let f := s.fabAt s.coreNum
  let bar := if bit b 10 then none else some (field b 9 0)
  if f.halt || a.toNat = 0 || 65535 < a.toNat || field b 63 11 ≠ 0 || !f.configured || 2 ^ 32 - 1 < f.next + a.toNat then .trap ⟨cIllegal, iw, 0⟩
  else if (bar.map (barOutside (s.gangOf s.cur))).getD false then .trap (protectionTrap (field b 9 0))
  else if s.fabFull then .full
  else
    let base := s.fabBase s.coreNum
    let ns := (List.range a.toNat).map (f.next + ·)
    let p := f.latest
    let (st, s) := s.takeStamp
    let l : Launch :=
      { first := f.next, count := a.toNat, bar := bar, bytes := (p.map FabProg.bytes).getD 0, hart := s.cur, stamp := st
        reads := (p.map (fun p => (ns.flatMap (p.reads base)).eraseDups)).getD []
        writes := (p.map (fun p => (ns.flatMap (p.writes base)).eraseDups)).getD [] }
    .ok (s.onFab s.coreNum (fun f => let g := { f with cmds := f.cmds ++ [FabCmd.sgo l], next := f.next + a.toNat }; g.letIn g.cmds))

/-- `stwld` with a descriptor and a node (R283). -/
def issueStwld (s : State) (a b iw : Word) : FabIssue :=
  let x := b.toNat
  if (s.fabAt s.coreNum).halt then .trap ⟨cIllegal, iw, 0⟩
  else match checkDesc (s.gangOf s.cur) .source a iw with
    | .error t => .trap t
    | .ok d =>
      if d.cnt ≠ 1 || !(x < 8 || (10 ≤ x && x < 14)) then .trap ⟨cIllegal, iw, 0⟩
      else if s.fabFull then .full
      else
        let (st, s) := s.takeStamp
        .ok (s.onFab s.coreNum (fun f => { f with cmds := f.cmds ++ [.stwld x d s.cur st], issued := true }))

/-- An instruction that takes an entry of the queue. -/
def fabIssue (s : State) (r : FabIssue) (f : Hart → Hart) : Result :=
  withFab s (match r with
    | .trap t => raiseTrap s t
    | .full | .held => wait s .other
    | .ok s => finishHart s f)

def execScfg (a : SReg) (s : State) : Result := fabIssue s (issueScfg s (s.hart.sreg a) (insnWord (.scfg a))) id
def execSgo (d a b : SReg) (s : State) : Result :=
  fabIssue s (issueSgo s (s.hart.sreg a) (s.hart.sreg b) (insnWord (.sgo d a b)))
    (fun h => h.setS d (word (s.fabAt s.coreNum).next))
def execStwld (a b : SReg) (s : State) : Result :=
  fabIssue s (issueStwld s (s.hart.sreg a) (s.hart.sreg b) (insnWord (.stwld a b))) id

/-- FLAGS go to FFLAGS and are cleared; the instruction returns (R276). -/
def returnFab (s : State) (f : Hart → Hart) : Result :=
  let fl := (s.fabAt s.coreNum).flags
  finishHart (s.onFab s.coreNum (fun g => { g with flags := 0 })) (fun h => f (h.raise fl))

/-- What `smark` reports of an invocation: 2 not issued, 1 cancelled, 0 committed; none while it runs (R280). -/
def Fabric.mark (f : Fabric) (n : Nat) : Option Nat :=
  if f.next ≤ n then some 2
  else if f.resolved ≤ n then none
  else some (if f.cancelled.any (fun c => c.1 ≤ n && n < c.2) then 1 else 0)

def execSmark (d a : SReg) (s : State) : Result :=
  withFab s (
    let n := s.hart.sreg a
    if field n 63 32 ≠ 0 then raiseIllegal s (.smark d a)
    else match (s.fabAt s.coreNum).mark n.toNat with
      | some k => returnFab s (fun h => h.setS d (word k))
      | none => wait s (.engine 0x0800000000000000))

/-- FLUSH: queue, invocations, tokens and context state dropped, HALT cleared (R281). -/
def flushFab (core : Nat) (s : State) : State :=
  let s := cancelRest core s
  s.onFab core (fun f => ({ f with cmds := [], halt := false }).fresh s.clock.cycle)

def execSdrain (a : SReg) (s : State) : Result :=
  withFab s (
    let x := s.hart.sreg a
    let f := s.fabAt s.coreNum
    if field x 63 1 ≠ 0 then raiseIllegal s (.sdrain a)
    else if bit x 0 then returnFab (flushFab s.coreNum s) id
    else if f.cmds = [] && f.resolved = f.next && f.quiet then returnFab s id
    else wait s (.engine 0x1000000000000000))

/-- The value of a selector (R282). -/
def Fabric.select (f : Fabric) (k : Nat) : Option Word :=
  if k = 0 then some (word f.stat)
  else if k = 1 then some f.failWord
  else if k ≤ 27 then some (word (f.failCounts.getD (k - 2) 0))
  else if k = 28 then some (word f.next)
  else if k = 29 then some (match f.lastCommit with | some n => word n | none => BitVec.allOnes 64)
  else none

def execSstat (d a : SReg) (s : State) : Result :=
  if !s.hasFab s.cur then raiseTrap s (protectionTrap 0)
  else match (s.fabAt s.coreNum).select (s.hart.sreg a).toNat with
    | some x => finishS s d x
    | none => raiseIllegal s (.sstat d a)

/-- Fabric command records (R284). -/
def execXbatchFabric (d : PReg) (a : BitVec 3) (s : State) : Result :=
  let h := s.hart
  xbatch s d (fun s k =>
    let r := h.batchRecord a.toNat k
    let x := word (recBits r 8 63 0)
    let y := word (recBits r 0x10 63 0)
    if !s.hasFab s.cur || (s.fabAt s.coreNum).fail then .invalid s
    else
      let i := match recBits r 0 7 0 with
        | 0 => issueScfg s x 0
        | 1 => issueSgo s x y 0
        | 5 => issueStwld s x y 0
        | _ => .trap ⟨cIllegal, 0, 0⟩
      match i with
      | .trap _ => .invalid s
      | .full => .full
      | .held => .hold
      | .ok s => .accepted s)

end Sys2Proof.Machine
end

