-- ==== Sys2Proof/Machine/Gangs.lean ====
section
/-! DEFINITION. `texit`, the end of a gang, fault records and the supervisor's fault controls (06 R138, R139; 16 R325, R326, R329 to R332,
R336). -/

namespace Sys2Proof.Machine

/-! ## Retirement (R138) -/

/-- A hart that runs nothing: its registers are discarded, but for what the supervisor keeps on it (R136, R138). -/
def Hart.emptied (h : Hart) : Hart :=
  { trapBase := h.trapBase, trapCause := h.trapCause, trapPc := h.trapPc, trapVal := h.trapVal, trapVec := h.trapVec, rfCorr := h.rfCorr }

/-- The hart is retired and still counts to its gang. -/
def Hart.retire (h : Hart) : Hart := { h.emptied with ctx := h.ctx, gang := h.gang, retired := true, stamp := h.stamp }

/-- Tile instructions of a hart that have not completed. -/
def State.tileBusy (s : State) (n : Nat) : Bool := ((s.coreAt (coreOfHart n)).queueOf n) ≠ []

/-- What retirement waits for: a hart's stores on their way to other dies, and its tile instructions (R138). -/
def State.hartBusy (s : State) (n : Nat) : Bool := s.storesOf n ≠ [] || s.tileBusy n

/-- The hart retires with its loads and stores performed at package scope: those that its core's cache holds are written back (R138). -/
def State.retire (s : State) (n : Nat) : State := (s.cleanLines (coreOfHart n)).onHartAt n Hart.retire

/-- `texit`: matrix failure, then fabric failure, then the waits (R138, R245, R270). -/
def execTexit (s : State) : Result :=
  if s.hart.gang.isNone then raiseIllegal s .texit
  else match reportFail s with
    | some r => r
    | none => match reportFab s with
      | some r => r
      | none => if s.hartBusy s.cur then wait s .other else .next (s.retire s.cur)

/-! ## The end of a gang -/

/-- The harts of a gang. -/
def Gang.harts (core : Nat) (g : Gang) : List Nat := (List.range g.size).map (fun k => core * 8 + g.first + k)

/-- Fabric work that names the grant and is outstanding; a halted fabric holds none (R138). -/
def Fabric.outstanding (f : Fabric) : Bool := !f.halt && (f.cmds ≠ [] || f.resolved ≠ f.next || f.launches ≠ [])

/-- Collective work of a gang (R138). -/
def State.collOutstanding (s : State) (id : Nat) : Bool :=
  s.coll.regs.any (fun p => ((p.2.bind (·.inst)).map (fun x => decide (x.gang = some id))).getD false)

/-- Matrix, fabric or collective work that names the grant, or a credit on its way to one of its barriers. -/
def State.gangBusy (s : State) (core : Nat) (g : Gang) : Bool :=
  let c := s.coreAt core
  c.mats.any (fun m => m.gang = some g.id) || c.copies.any (fun m => m.gang = some g.id) || (g.fab && c.fab.outstanding) ||
    c.credits.any (fun x => g.hasBar x.bar) || s.collOutstanding g.id

/-- The grant is released, but for the harts; the fabric's state is discarded (R137, R138, R275). -/
def releaseGrant (core : Nat) (g : Gang) (s : State) : State :=
  s.onCoreAt core (fun c =>
    { c with fab := if g.fab then {} else c.fab
             bars := c.bars.filter (fun b => !g.hasBar b.1)
             tileFails := c.tileFails.filter (fun f => !(g.harts core).contains f.hart) })

/-- The harts are free, and the gang is gone. -/
def freeGang (core : Nat) (g : Gang) (s : State) : State :=
  ((g.harts core).foldl (fun s n => s.onHartAt n Hart.emptied) s).onCoreAt core (fun c => { c with gangs := SMap.set none c.gangs g.id none })

/-- What is left of a gang at its end, its harts still occupied (R132; log 60). -/
def Gang.atEnd (g : Gang) (left : List Act) : Gang := { g with slots := 0, bars := 0, accs := 0, fab := false, ending := some left }

/-- What a gang's end completes: the record, or a chunk of its record (R139). -/
def Gang.completion (core : Nat) (g : Gang) : Act :=
  ⟨dieOfCore core, g.ctx, if g.ranged then .join g.post.addr g.post.graph else .complete g.post g.parent⟩

/-- The completion of a gang goes on as far as it need not wait; with the last of it the harts are free (R132, R139). -/
def goEnd (core : Nat) (g : Gang) (left : List Act) (s : State) : State :=
  match runActs actTurn s left with
  | (s, []) => freeGang core g s
  | (s, left) => s.onCoreAt core (fun c => { c with gangs := SMap.set none c.gangs g.id (some (g.atEnd left)) })

/-- The record of an abandoned gang (R327, R336). -/
def abandonRecord (core hart : Nat) (g : Gang) : FaultRec :=
  { core := core, hart := hartIndex hart, master := 0, cause := 0, kind := 9, addr := g.post.addr, ctx := g.ctx
    d0 := word g.first, d1 := word g.size }

/-- ABANDON: every command of the gang cancelled, the grant released, a record posted (R336). -/
def abandonGang (core hart : Nat) (g : Gang) (s : State) : State :=
  let s := s.onCoreAt core (fun c =>
    { c with copies := c.copies.filter (fun x => x.gang ≠ some g.id)
             mats := c.mats.filter (fun x => x.gang ≠ some g.id)
             credits := c.credits.filter (fun x => !g.hasBar x.bar) })
  postRecord (freeGang core g (releaseGrant core g s)) (abandonRecord core hart g)

/-- An OP written for a frozen hart of a gang takes effect as soon as its waits allow (R336). -/
def frozenOp (core : Nat) (g : Gang) (s : State) (n : Nat) : State :=
  let h := s.hartAt n
  if h.run ≠ .frozen || h.gang ≠ some g.id then s
  else if h.op = 1 && !s.hartBusy n then s.retire n
  else if h.op = 2 && s.recordRoom core then abandonGang core n g s
  else s

/-- A gang goes on to its end: OPs on its frozen harts, then, with every hart retired and no work left, release and
completion, which goes on in later turns where it must wait. -/
def execGangComplete (core gang : Nat) (s : State) : Result :=
  match (s.coreAt core).gang gang with
  | none => .next s
  | some g =>
    match g.ending with
    | some left => .next (goEnd core g left s)
    | none =>
      if g.state = .saved then .next s
      else
        let s := (g.harts core).foldl (frozenOp core g) s
        if (g.harts core).all (fun n => (s.hartAt n).retired) && !s.gangBusy core g then
          .next (goEnd core g [g.completion core] (releaseGrant core g s))
        else .next s

/-- HARTCTL.OP for a frozen hart that runs a gang (R336). -/
def writeOp (n op : Nat) (s : State) : State :=
  let h := s.hartAt n
  match s.gangOf n with
  | some g => if h.run = .frozen then frozenOp (coreOfHart n) g (s.onHartAt n (fun h => { h with op := op })) n else s
  | none => s

def execRetire (hart : Nat) (s : State) : Result := .next (writeOp hart 1 s)
def execAbandon (hart : Nat) (s : State) : Result := .next (writeOp hart 2 s)

/-! ## Fault records (R326) -/

/-- A record as its 64 bytes. -/
def FaultRec.bytes (r : FaultRec) (seq : Nat) : List Byte :=
  natToBytes 8 (seq % 2 ^ 32 * 2 ^ 32 + dieOfCore r.core * 2 ^ 30 + coreIndex r.core * 2 ^ 24 + r.hart * 2 ^ 21 + r.master * 2 ^ 16 +
    r.cause * 2 ^ 8 + r.kind) ++
  natToBytes 8 r.addr.toNat ++
  natToBytes 8 (r.frozen.toNat * 2 ^ 28 + r.withheld.toNat * 2 ^ 27 + r.bar.isSome.toNat * 2 ^ 26 + r.bar.getD 0 * 2 ^ 16 + r.ctx) ++
  natToBytes 8 r.pc.toNat ++ natToBytes 8 r.d0.toNat ++ natToBytes 8 r.d1.toNat ++ natToBytes 8 r.d2.toNat ++ natToBytes 8 r.time

/-- A stopped command learns the SEQ of its record. -/
def CopyCmd.learn (uid seq : Nat) (c : CopyCmd) : CopyCmd :=
  if c.uid = uid then { c with stop := c.stop.map (fun x => { x with seq := some seq }) } else c

/-- The owner of a record learns its SEQ (R330, R341, R420). -/
def State.learnSeq (s : State) (o : Owner) (seq : Nat) : State :=
  match o with
  | .none => s
  | .copy core uid =>
    s.onCoreAt core (fun c =>
      { c with copies := c.copies.map (CopyCmd.learn uid seq)
               gangs := c.gangs.map (fun g => (g.1, g.2.map (fun x =>
                 { x with saved := { x.saved with copies := x.saved.copies.map (CopyCmd.learn uid seq) } }))) })
  | .dma cmd =>
    { s with host := { s.host with dmas := s.host.dmas.map (fun d =>
        if d.id = cmd then { d with stop := d.stop.map (fun t => { t with seq := some seq }) } else d) } }

/-- A record may enter a die's fault ring. -/
def Die.ringRoom (d : Die) : Bool := d.fren && d.frwr - d.frrd.toNat ≠ 2 ^ d.frsize

/-- The record of a ring entry that a fenced die's bytes drop; a dropped record of that kind leaves none of its own, the model's choice (R354;
log 61). -/
def entryDrop (die pa : Nat) (r : FaultRec) (s : State) : State :=
  if r.kind = 7 && r.master = 6 then s else memDrop die (s.firstLost pa 64) s

/-- The first record of a core's queue, or of the die's outside agents (queue 48), enters the ring; a record for that entry's own loss must find
room (R326, R354). -/
def execFaultRecordEntry (die queue : Nat) (s : State) : Result :=
  let before := s
  let d := s.dieAt die
  let core := coreOf die queue
  let recs := if queue < 48 then (s.coreAt core).records else d.records
  match recs with
  | [] => .next s
  | r :: rest =>
    let pa := d.frbase.toNat + d.frwr % 2 ^ d.frsize * 64
    if !d.ringRoom || !s.stackReady pa then .next s
    else
      let seq := d.frwr % 2 ^ 32
      let s := s.writePhys pa (r.bytes d.frwr)
      let now := s.clock.time
      let s := if queue < 48 then s.onCoreAt core (fun c => Core.addRecord now [] { c with records := rest })
        else s.onDieAt die (fun d => Die.addRecord now [] { d with records := rest })
      let t := entryDrop die pa r ((s.onDieAt die (fun d => { d with frwr := d.frwr + 1 })).learnSeq r.owner seq)
      .next (if before.roomFor t then t else before)

/-! ## FRCTL (R330 to R332, R341) -/

/-- A saved command whose record is named: the decision waits for the restore. -/
def Gang.decide' (seq : Nat) (abort : Bool) (g : Gang) : Gang :=
  { g with saved := { g.saved with copies := g.saved.copies.map (fun c =>
      if (c.stop.bind (·.seq)) = some seq then { c with stop := c.stop.map (fun t => { t with decided := some abort }) } else c) } }

/-- A decision on the stopped command that posted a record of a core; any other SEQ is ignored. -/
def frctlCopy (core seq : Nat) (abort : Bool) (s : State) : State :=
  let s := s.onCoreAt core (fun c => { c with gangs := c.gangs.map (fun g => (g.1, g.2.map (Gang.decide' seq abort))) })
  match (s.coreAt core).copies.find? (fun c => (c.stop.bind (·.seq)) = some seq) with
  | none => s
  | some c => if abort then s.abortCopy core c else s.onCoreAt core (fun k => k.putCopy (retryCopy c))

/-! ## The save-area ring (R325) -/

/-- Save areas that saved gangs of a die hold. -/
def State.areasHeld (s : State) (die : Nat) : Nat :=
  ((List.range 48).map (fun c => ((s.coreAt (coreOf die c)).grants.filter (fun g => g.state = .saved)).length)).sum

/-- An area appended at SAVEWR; an entry on a fenced die is dropped with a record (R354). -/
def pushArea (die : Nat) (pa : Nat) (s : State) : State :=
  let d := s.dieAt die
  let entry := d.saveb.toNat + d.savewr % 512 * 8
  let s := memDrop die (s.firstLost entry 8) (s.writePhys entry (natToBytes 8 pa))
  s.onDieAt die (fun d => { d with savewr := d.savewr + 1 })

/-- The area that SAVEADD names: bits [51:23]. -/
def areaOf (value : Word) : Nat := field value 51 23 * 2 ^ 23

/-- A write of SAVEADD is ignored: its area lies outside backed HBM, or the ring might overfill. -/
def State.areaRefused (s : State) (die : Nat) (value : Word) : Bool :=
  !s.part.backed (areaOf value) 0x800000 || (s.dieAt die).savewr - (s.dieAt die).saverd + s.areasHeld die = 512

/-- A write of SAVEADD: its area is appended, unless it is ignored. -/
def addArea (die : Nat) (value : Word) (s : State) : State :=
  if s.areaRefused die value then s else pushArea die (areaOf value) s

/-- The ring's next entry lies on a stack that is not ready, so that a write of SAVEADD waits (R416). -/
def State.areaHeld (s : State) (die : Nat) (value : Word) : Bool :=
  !s.areaRefused die value && !s.stackReady ((s.dieAt die).saveb.toNat + (s.dieAt die).savewr % 512 * 8)

/-- A write of SAVEADD that has to wait comes again after the next thing that the outside does (R416). -/
def execSaveadd (die : Nat) (value : Word) (s : State) : Result :=
  if s.areaHeld die value then .next { s with inputs := s.inputs.take 1 ++ .saveadd die value :: s.inputs.drop 1 }
  else .next (addArea die value s)

end Sys2Proof.Machine
end

