-- ==== Sys2Proof/Machine/Collect.lean ====
section
/-! DEFINITION. Collectives, first part (19): landing regions, buffers, parts and their chunks, the combine function, messages and their
matching, credits and step faults (R357, R358, R362 to R365, R368 to R371, R374, R376, R379, R384, R387). -/

namespace Sys2Proof.Machine

/-! ## Registrations -/

/-- The registrations with their contexts. -/
def Coll.live (c : Coll) : List (Nat × Reg) := c.regs.filterMap (fun p => p.2.map (fun r => (p.1, r)))

def State.reg (s : State) (i : Nat) : Option Reg := SMap.get none s.coll.regs i
def State.setReg (s : State) (i : Nat) (r : Option Reg) : State :=
  { s with coll := { s.coll with regs := SMap.set none s.coll.regs i r } }
def State.onReg (s : State) (i : Nat) (f : Reg → Reg) : State := s.setReg i ((s.reg i).map f)
def State.onInst (s : State) (i : Nat) (f : Inst → Inst) : State := s.onReg i (fun r => { r with inst := r.inst.map f })

/-- The registration of a GID in a context (R359). -/
def State.findReg (s : State) (ctx gid : Nat) : Option (Nat × Reg) :=
  s.coll.live.find? (fun p => p.2.ctx = ctx && p.2.gid = gid && !p.2.released)

/-- The registration that a message is for: its GID and GEN, and the group rank it goes to as ME (R404). -/
def State.regOfMsg (s : State) (m : Msg) : Option (Nat × Reg) :=
  s.coll.live.find? (fun p => p.2.gid = m.gid && p.2.gen = m.gen && p.2.me = m.toRank && !p.2.released)

/-- Package RANK and LIVE of a group rank. -/
def Reg.member (r : Reg) (p : Nat) : Nat × Bool := r.table.getD p (0, false)

/-- A peer without which a step of an instance completes: lost, or aborted (R373, R383). -/
def Reg.missing (r : Reg) (inst p : Nat) : Bool := !(r.member p).2 || r.aborts.contains (inst, p)

/-! ## Memory by pages -/

/-- The pieces of n bytes at an offset of a list of 4 KiB pages: physical address, place in the bytes, length. -/
def pagePieces (pages : List Nat) (off n : Nat) : List (Nat × Nat × Nat) :=
  (List.range (n / 4096 + 2)).filterMap (fun k =>
    let p := off / 4096 + k
    let lo := max off (p * 4096)
    let hi := min (off + n) ((p + 1) * 4096)
    if lo < hi then some (pages.getD p 0 + lo % 4096, lo - off, hi - lo) else none)

def State.readPages (s : State) (pages : List Nat) (off n : Nat) : List Byte :=
  (pagePieces pages off n).flatMap (fun x => s.readPhys x.1 x.2.2)

def State.writePages (s : State) (pages : List Nat) (off : Nat) (bs : List Byte) : State :=
  (pagePieces pages off bs.length).foldl (fun s x => s.writePhys x.1 ((bs.drop x.2.1).take x.2.2)) s

/-- The engine's own write to a landing region: what falls on a fenced die is lost, with one record (R354; log 59). -/
def State.writeRegion (s : State) (r : Reg) (off : Nat) (bs : List Byte) : State :=
  let t := s.writePages r.pages off bs
  match (pagePieces r.pages off bs.length).findSome? (fun x => if s.onFenced (s.part.key x.1) then some x.1 else none) with
  | some pa => postDieRecord t s.master { dropRecord 63 0 7 pa with ctx := r.ctx }
  | none => t

def State.pagesPoisoned (s : State) (pages : List Nat) (off n : Nat) : Bool :=
  (pagePieces pages off n).any (fun x => s.poisonedRange (s.part.key x.1) x.2.2)

def State.markPages (s : State) (pages : List Nat) (off n : Nat) : State :=
  (pagePieces pages off n).foldl (fun s x =>
    (List.range ((x.1 + x.2.2 - 1) / 16 - x.1 / 16 + 1)).foldl (fun (s : State) k => s.markPoison ((x.1 / 16 + k) * 16)) s) s

/-- The physical pages of n bytes at an address, each pinned, readable and writable; none where one is not (R177, R359, R369). -/
def State.landPages (s : State) (va : Word) : Nat → Nat → Option (List Nat) × State
  | _, 0 => (some [], s)
  | k, n + 1 =>
    let page := va / 4096 * 4096 + word (4096 * k)
    if !canonical page then (none, s)
    else
      match s.translate none s.hart.ctx page with
      | (some x, s) =>
        if x.permits .collective (!s.hart.sup) then
          match s.landPages va (k + 1) n with
          | (some ps, s) => (some (x.pa :: ps), s)
          | r => r
        else (none, s)
      | (none, s) => (none, s)

/-- A page of n bytes at an address has its translation on a stack that is not ready, so the hart's read of it waits (R416). -/
def State.pinHeld (s : State) (va : Word) (n : Nat) : Bool :=
  (List.range ((va.toNat % 4096 + n + 4095) / 4096)).any (fun k =>
    match (s.translate none s.hart.ctx (va / 4096 * 4096 + word (4096 * k))).1 with
    | some x => x.held
    | none => false)

/-- The pages that hold n bytes from an address. -/
def State.pinned (s : State) (va : Word) (n : Nat) : Option (List Nat) × State :=
  s.landPages va 0 ((va.toNat % 4096 + n + 4095) / 4096)

/-! ## Buffers and parts (R362, R368) -/

/-- Bytes [lo, lo + len) of part i of a buffer; no index: the whole. -/
def Buf.part (b : Buf) (i : Option Nat) : Nat × Nat :=
  match i with
  | none => (0, b.bytes)
  | some i => (i * b.bytes / b.parts, (i + 1) * b.bytes / b.parts - i * b.bytes / b.parts)

/-- The part that SEL names (R362). -/
def Buf.selected (b : Buf) (sel rr l : Nat) : Option Nat :=
  if sel = 0 then none
  else if sel = 8 then some (l % b.parts)
  else some (((rr + sel : Int) - 4 - l) % (b.parts : Int)).toNat

/-- A buffer with a part on a fenced die: a step that uses it faults with code 4 (R386). Of a pinned one, only the bytes on that die are
lost (R354). -/
def State.bufFenced (s : State) (b : Buf) : Bool :=
  if b.land then b.pages.any (fun pa => s.onFenced (s.part.key pa)) else (s.dieAt (dieOfCore b.core)).fenced

/-- Lengths of the 4 KiB chunks of n bytes, with the offset of each. -/
def chunkSpans (n : Nat) : List (Nat × Nat) := (List.range ((n + 4095) / 4096)).map (fun k => (4096 * k, min 4096 (n - 4096 * k)))

/-- One chunk of a buffer read with its mark. -/
def State.readChunk (s : State) (b : Buf) (off n : Nat) : Chunk :=
  if b.land then
    { bytes := s.readPages b.pages (b.offset + off) n, poison := s.pagesPoisoned b.pages (b.offset + off) n }
  else if s.bufFenced b then { bytes := List.replicate n 0, poison := true }
  else { bytes := s.readRange b.core b.slot off n, poison := s.rangePoisoned b.core b.slot off n }

def State.readPart (s : State) (b : Buf) (off n : Nat) : List Chunk :=
  (chunkSpans n).map (fun x => s.readChunk b (off + x.1) x.2)

/-- Bytes written to a buffer, marked where poisoned; a fenced die's are dropped (R334, R354). -/
def State.writeBuf (s : State) (b : Buf) (off : Nat) (bs : List Byte) (poison : Bool) : State :=
  if b.land then
    let s := s.writePages b.pages (b.offset + off) bs
    if poison then s.markPages b.pages (b.offset + off) bs.length else s
  else if s.bufFenced b then s
  else
    let s := s.writeRange b.core b.slot off bs
    if poison then s.poisonRange b.core b.slot off bs.length else s

/-- The part keeps its bytes and is marked (R383). -/
def State.markPart (s : State) (b : Buf) (off n : Nat) : State :=
  if b.land then s.markPages b.pages (b.offset + off) n
  else if s.bufFenced b then s
  else s.poisonRange b.core b.slot off n

/-- The first of some bytes of pinned memory that a fenced die holds; a page lies on one die (R171). -/
def State.fencedByte (s : State) (b : Buf) (off n : Nat) : Option Nat :=
  if b.land then (pagePieces b.pages (b.offset + off) n).findSome? (fun x => if s.onFenced (s.part.key x.1) then some x.1 else none)
  else none

/-- The one record of the engine for a write of an instance that loses bytes on a fenced die (R354). -/
def State.noteLost (s : State) (k : Nat) (i : Inst) (xs : List (Buf × Nat × Nat)) : State :=
  match xs.findSome? (fun x => s.fencedByte x.1 x.2.1 x.2.2) with
  | none => s
  | some pa =>
    if (s.dieAt (dieOfHart i.hart)).fenced then s
    else postRecord s { dropRecord (coreOfHart i.hart) (hartIndex i.hart) 7 pa with
      ctx := (((SMap.get none s.coll.regs k).map (·.ctx)).getD 0), pc := i.pc }

/-- Memory of an instance lies on a stack that is not ready: its accesses wait (R416). A landing region's stacks are ready since `cgrp`. -/
def State.instHeld (s : State) (r : Reg) (i : Inst) : Bool :=
  let late := fun (b : Buf) => b.land && b.pages.any (fun pa => !s.stackReady pa)
  r.pages.any (fun pa => !s.stackReady pa) || i.bufs.any (fun b => (b.map late).getD false) ||
    ((i.rep.map (fun p => [p.input, p.out, p.ovf, p.res].any late)).getD false) || ((r.rot.map (fun x => late x.res)).getD false)

/-- A buffer of slots whose gang is saved is not reached until the restore (R342). -/
def State.bufAway (s : State) (i : Inst) (b : Option Buf) : Bool :=
  match b, i.gang with
  | some b, some g => !b.land && (((s.coreAt (coreOfHart i.hart)).gang g).map (fun x => decide (x.state = .saved))).getD false
  | _, _ => false

/-! ## The combine function (R365, R384) -/

/-- A pattern of fp32 as a number in the order of max and min: −0 below +0. -/
def fp32Order (x : Nat) : Int := if 2 ^ 31 ≤ x then -((x % 2 ^ 31 : Nat) : Int) - 1 else (x : Int)

def fp32IsNaN (x : Nat) : Bool := 0x7F800000 < x % 2 ^ 31

/-- One element combined. -/
def combineOne (red x y : Nat) : Nat :=
  match red with
  | 1 => (Ieee.fp32.round .rne false (Num.add .rne (Ieee.fp32.decode false x) (Ieee.fp32.decode false y)).1).1
  | 2 => (Ieee.bf16.round .rne false (Num.add .rne (Ieee.bf16.decode false x) (Ieee.bf16.decode false y)).1).1
  | 6 => x &&& y
  | 7 => x ||| y
  | _ =>
    if fp32IsNaN x || fp32IsNaN y then 0x7FC00000
    else if red = 4 then (if fp32Order x ≤ fp32Order y then x else y)
    else
      let x := if red = 5 then x % 2 ^ 31 else x
      let y := if red = 5 then y % 2 ^ 31 else y
      if fp32Order x ≤ fp32Order y then y else x

/-- Bytes of one element of a reduction. -/
def redSize (red : Nat) : Nat := if red = 2 then 2 else 4

/-- Element k of some bytes. -/
def elemAt (bs : List Byte) (n k : Nat) : Nat := bytesToNat ((bs.drop (n * k)).take n)

/-- combine(x, y) over bytes of one length; without a reduction the result is unstated (log 37). -/
def State.combine (s : State) (red : Nat) (x y : List Byte) : List Byte :=
  if red = 0 then (List.range x.length).map (fun k => Config.freeByte s.clock.tick k)
  else
    let n := redSize red
    (List.range (x.length / n)).flatMap (fun k => natToBytes n (combineOne red (elemAt x n k) (elemAt y n k)))

/-- Exclusion lists joined (R384). -/
def joinExcl (xs ys : List (Nat × Bool)) : List (Nat × Bool) := xs ++ ys.filter (fun y => !xs.contains y)

/-- A chunk after its list is formed: poisoned, without a list, past eight entries (R384). -/
def listed (c : Chunk) (l : List (Nat × Bool)) : Chunk :=
  if 8 < l.length then { c with poison := true, excl := [] } else { c with excl := l }

/-- The incoming chunk combined with the rank's own; a poisoned one is left out and listed (R384). -/
def State.combineChunk (s : State) (red peer me : Nat) (x y : Chunk) : Chunk :=
  let l := joinExcl (joinExcl x.excl y.excl) ((if x.poison then [(peer, true)] else []) ++ if y.poison then [(me, true)] else [])
  let bytes := if x.poison then y.bytes else if y.poison then x.bytes else s.combine red x.bytes y.bytes
  listed { bytes := bytes, poison := x.poison && y.poison } l

/-- The rank's own chunk where the input of a lost peer is missing (R383, R384). -/
def alone (peer : Nat) (y : Chunk) : Chunk := listed y (joinExcl y.excl [(peer, false)])

/-! ## Messages (R364, R370, R376, R379) -/

/-- The physical address of a RANK's entry in the route table (R378). -/
def Coll.routeAt (c : Coll) (q : Nat) : Nat := c.routeb.toNat + 2 * q

/-- The entry lies on a stack that is not ready (R416). -/
def State.routeHeld (s : State) (q : Nat) : Bool := s.part.backed (s.coll.routeAt q) 2 && !s.stackReady (s.coll.routeAt q)

/-- The port to a RANK: its entry of the route table, valid, with the port up (R376, R378). -/
def State.route (s : State) (q : Nat) : Option Nat :=
  let pa := s.coll.routeAt q
  if !s.part.backed pa 2 || s.routeHeld q || s.poisonedKey (s.part.key pa) then none
  else
    let e := bytesToNat (s.readPhys pa 2)
    let port := e % 16
    if e.testBit 15 && s.part.portPres.testBit port && !s.coll.portDown.contains port then some port else none

def msgBytes (m : Msg) : Nat := (m.chunks.map (fun c => c.bytes.length)).sum

/-- The messages that tell a destination of numbers that will not come (R379). -/
def Coll.skipsTo (c : Coll) (port dst : Nat) : List Output :=
  (c.skips.filter (fun x => x.1 = dst)).map (fun x => .msg port { kind := .skip, src := c.rank, dst := dst, seq := x.2 })

/-- A message sent out on the port of its route with its number; none without a route (R376, R379). -/
def State.sendOut (s : State) (m : Msg) : Option State :=
  (s.route m.dst).map (fun port =>
    let n := SMap.get 0 s.coll.sentTo m.dst
    { s with outputs := s.outputs ++ s.coll.skipsTo port m.dst ++ [.msg port { m with seq := n }]
             coll := { s.coll with sentTo := SMap.set 0 s.coll.sentTo m.dst (n + 1)
                                   skips := s.coll.skips.filter (fun x => x.1 ≠ m.dst) } })

/-- A message sent: inside the I/O die, or out; behind others that wait for its destination's route entry, or for that entry itself (R376,
R379, R404, R416). -/
def State.sendMsg (s : State) (m : Msg) : Option State :=
  if m.dst = s.coll.rank then some { s with coll := { s.coll with loop := s.coll.loop ++ [m] } }
  else if s.routeHeld m.dst || s.coll.unsent.any (fun x => x.dst = m.dst) then
    some { s with coll := { s.coll with unsent := s.coll.unsent ++ [m] } }
  else s.sendOut m

/-- The destination of a message that a forwarding package dropped is told its number, so that later ones need not wait for it; now, or with
the next message where there is no route (R379, log 38). -/
def State.tellSkip (s : State) (dst seq : Nat) : State :=
  match s.route dst with
  | some port => { s with outputs := s.outputs ++ [.msg port { kind := .skip, src := s.coll.rank, dst := dst, seq := seq }] }
  | none => { s with coll := { s.coll with skips := s.coll.skips ++ [(dst, seq)] } }

/-- A message of a kind from a registration to a group rank. -/
def Reg.message (r : Reg) (rank : Nat) (kind : MsgKind) (inst p : Nat) : Msg :=
  { kind := kind, src := rank, dst := (r.member p).1, gid := r.gid, gen := r.gen, inst := inst, fromRank := r.me, toRank := p }

/-- The answer that a message has been received; a Square's result wants none. -/
def State.acknowledge (s : State) (m : Msg) : State :=
  if m.kind = .result then s
  else
    let a : Msg := { kind := .ack, src := s.coll.rank, dst := m.src, gid := m.gid, gen := m.gen, inst := m.inst, fromRank := m.toRank
                     toRank := m.fromRank }
    (s.sendMsg a).getD s

/-- Message bytes of an instance in its half of the early area. -/
def Reg.earlyBytes (r : Reg) (inst : Nat) : Nat := ((r.early.filter (fun m => m.inst = inst)).map msgBytes).sum

/-- Early data lands in the half of its instance; how it lies there is not given (R358, R370, log 37). -/
def State.spillEarly (s : State) (r : Reg) (inst : Nat) : State :=
  s.writeRegion r (if inst % 2 = 1 then 0x200000 else 0x300000)
    ((List.range 1048576).map (fun k => Config.freeByte s.clock.tick k))

/-- The table of a registration as numbers. -/
def tableArgs (t : List (Nat × Bool)) : List Nat := t.flatMap (fun x => [x.1, x.2.toNat])
def tableOf : List Nat → List (Nat × Bool)
  | a :: b :: xs => (a, b = 1) :: tableOf xs
  | _ => []

/-- COUNT and TAIL of the log through the last completed instance (R388). -/
def Reg.logSettled (r : Reg) : Nat × Nat := if r.inst.isSome then r.logBase else (r.logCount, r.logTail)

/-- What a donor sends a spare: stage 0 at the fetch, 1 after its `cshrink`; its values, its table, and the log from an offset through the
last completed instance (R388). -/
def State.donate (s : State) (r : Reg) (stage dest tail : Nat) : State :=
  let log := r.logSettled
  (s.sendMsg { kind := .joinData, src := s.coll.rank, dst := dest, gid := r.gid, gen := r.gen
               args := [stage, r.size, r.gen, r.next, r.logFirst, log.1, log.2, r.logFull.toNat, tail] ++ tableArgs r.table
               chunks := [{ bytes := s.readPages r.pages (0x400000 + tail) (log.2 - tail) }] }).getD s

/-- A spare's fetch at its donor (R388); none while no registration of the GID exists. -/
def State.takeFetch (s : State) (m : Msg) : Option State :=
  (s.coll.live.find? (fun p => p.2.gid = m.gid && !p.2.released)).map (fun p => s.donate p.2 0 m.src 0)

/-- What a rank that never accepts a rotation tells the others of its ring: no block has landed here (R403). -/
def noneLanded (rank : Nat) (m : Msg) : Msg :=
  { kind := .progress, src := rank, dst := m.src, gid := m.gid, gen := m.gen, inst := m.inst, fromRank := m.toRank, toRank := m.fromRank
    args := [0] }

def State.answerCount (s : State) (m : Msg) : State := (s.sendMsg (noneLanded s.coll.rank m)).getD s

/-- A count told for an instance that a registration has not accepted and, with a change pending, does not accept in this GEN (R369). -/
def Reg.refuses (r : Reg) (m : Msg) : Bool :=
  m.kind = .progress && r.pending && (r.inst.map (·.num)) ≠ some m.inst && (m.inst + 65536 - r.next % 65536) % 65536 < 32768

/-- The counts that came before a change became pending answered (R403). -/
def State.answerCounts (s : State) (k : Nat) : State :=
  match s.reg k with
  | none => s
  | some r =>
    (r.early.filter r.refuses).foldl State.answerCount (s.onReg k (fun r => { r with early := r.early.filter (fun m => !r.refuses m) }))

/-- A count of an older GEN, for an instance that was not accepted in it, answered (R385, R403). -/
def State.answerOutdated (s : State) (m : Msg) : State :=
  if m.kind = .progress && s.coll.live.any (fun p => p.2.gid = m.gid && !p.2.released &&
      p.2.past.any (fun x => x.gen = m.gen && x.me = m.toRank && decide ((m.inst + 65536 - x.next % 65536) % 65536 < 32768))) then
    s.answerCount m
  else s

/-- A spare's notice at a member, also at one whose GEN is newer than the donor's was at the fetch: a change is pending (R388). -/
def State.takeNotice (s : State) (m : Msg) : Option State :=
  ((s.regOfMsg m).or (s.coll.live.find? (fun p => p.2.gid = m.gid && !p.2.released && p.2.past.any (fun x => x.gen = m.gen && x.me = m.toRank)))).map
    (fun p => (s.onReg p.1 (fun r =>
    { r with pending := true
             joiners := r.joiners ++ [(m.src, if m.args.getD 0 0 = 1 then
               some (if m.args.getD 2 0 = r.logFirst then m.args.getD 1 0 else 0) else none)]
             inst := r.inst.map (fun i => { i with memb := true }) })).answerCounts p.1)

/-- A message of an older GEN than its registration's: it names the ME of that GEN, or the present one (R385). -/
def State.outdated (s : State) (m : Msg) : Bool :=
  s.coll.live.any (fun p => p.2.gid = m.gid && !p.2.released && m.gen < p.2.gen &&
    (p.2.past.any (fun x => x.gen = m.gen && x.me = m.toRank) || (p.2.me = m.toRank && p.2.past.all (fun x => x.gen ≠ m.gen))))

/-- A message dropped for its GEN (R385). -/
def State.dropStale (s : State) (m : Msg) : State := { s with coll := { s.coll with stale := s.coll.stale + 1 } }.acknowledge m

/-- The counts of rotations that are over at this rank, and may not be at others, told to the live members of their rings (R403). -/
def State.tellCounts (s : State) (k : Nat) (pick : RotEnd → Bool) : State :=
  match s.reg k with
  | none => s
  | some r =>
    (r.rots.filter pick).foldl (fun (s : State) x =>
      (x.ring.filter (fun q => q ≠ r.me && (r.member q).2)).foldl (fun (s : State) q =>
        (s.sendMsg { r.message s.coll.rank .progress x.inst q with args := [x.landed] }).getD s) s) s

/-- A message taken by its registration, or none while it must wait at its sender (R370, R383, R385, R404). -/
def State.takeMsg (s : State) (m : Msg) : Option State :=
  if (m.kind = .joinFetch || m.kind = .joinNotice) && s.coll.lost.contains m.src then some (s.acknowledge m)
  else if m.kind = .joinFetch then s.takeFetch m
  else if m.kind = .joinNotice then s.takeNotice m
  else match s.regOfMsg m with
  | none => if s.outdated m then some ((s.answerOutdated m).dropStale m) else none
  | some (k, r) =>
    let ahead := (m.inst + 65536 - r.next % 65536) % 65536
    let now := (r.inst.map (fun x => decide (x.num = m.inst))).getD false
    if s.coll.lost.contains m.src || !(r.member m.fromRank).2 then some (s.acknowledge m)
    else if m.kind = .abortNotice then
      if !now && 1 < ahead && ahead < 32768 then none
      else
        let s := s.tellCounts k (fun x => x.inst = m.inst && x.ring.contains m.fromRank)
        if !now && 32768 ≤ ahead && ahead ≠ 65535 then some s
        else some (s.onReg k (fun r => { r with aborts := (m.inst, m.fromRank) :: r.aborts }))
    else if now then some ((s.onReg k (fun r => { r with early := r.early ++ [m] })).acknowledge m)
    else if r.refuses m then some ((s.answerCount m).acknowledge m)
    else if 32768 ≤ ahead then some (s.acknowledge m)
    else if 1 < ahead || 1048576 < r.earlyBytes m.inst + (msgBytes m) then none
    else
      let s := if (msgBytes m) = 0 then s else s.spillEarly r m.inst
      some ((s.onReg k (fun r => { r with early := r.early ++ [m] })).acknowledge m)

/-- A held message of the same stream is ahead of another. -/
def msgFollows (m x : Msg) : Bool :=
  x.gid = m.gid && x.toRank = m.toRank && x.fromRank = m.fromRank && x.gen = m.gen && x.inst = m.inst

/-- Held messages that may be taken now are, each stream in its order. -/
def retryHeld (s : State) : List Msg → List Msg → State
  | left, [] => { s with coll := { s.coll with held := left } }
  | left, m :: ms =>
    if m.kind = .contribution || left.any (fun x => msgFollows m x) then retryHeld s (left ++ [m]) ms
    else match s.takeMsg m with
      | some s => retryHeld s left ms
      | none => retryHeld s (left ++ [m]) ms

def State.retry (s : State) : State := retryHeld s [] s.coll.held

/-- A message for a registration: taken, or held behind its stream. -/
def State.takeOrHold (s : State) (m : Msg) : State :=
  let hold := { s with coll := { s.coll with held := s.coll.held ++ [m] } }
  if s.coll.held.any (fun x => msgFollows m x) then hold else (s.takeMsg m).getD hold

/-- The first message for an instance that a test accepts, taken out of the registration. -/
def State.pull (s : State) (k : Nat) (test : Msg → Bool) : Option (Msg × State) :=
  (s.reg k).bind (fun r => (r.early.find? test).map (fun m => (m, s.onReg k (fun r => { r with early := r.early.erase m }))))

/-! ## Step faults (R374) -/

/-- A step fault: FAULT, the report, and a record of kind 10 to the issuer's die. -/
def State.stepFault (s : State) (k step code peer : Nat) : State :=
  match s.reg k with
  | none => s
  | some r =>
    match r.inst with
    | none => s
    | some i =>
      let d0 := word (step % 16384 * 2 ^ 48 + i.num * 2 ^ 32 + r.gid)
      let s := s.onInst k (fun i => { i with fault := true, report := if i.report.isSome then i.report else some d0 })
      if (s.dieAt (dieOfHart i.hart)).fenced then s
      else postRecord s { core := coreOfHart i.hart, hart := hartIndex i.hart, master := 7, cause := cCollective, kind := 10
                          addr := i.call, ctx := r.ctx, pc := i.pc, d0 := d0, d1 := word code, d2 := word peer }

/-- A message of the running instance sent to a group rank: discarded for a lost one; without a route a fault of code 3 (R376, R383). -/
def State.sendTo (s : State) (k step : Nat) (kind : MsgKind) (p : Nat) (f : Msg → Msg) : State :=
  match s.reg k with
  | none => s
  | some r =>
    match r.inst with
    | none => s
    | some i =>
      if r.missing i.num p then s
      else match s.sendMsg (f { r.message s.coll.rank kind i.num p with step := step }) with
        | some s => s.onInst k (fun i => { i with unacked := p :: i.unacked })
        | none => s.stepFault k step 3 p

/-! ## Landing (R371, R384, R387) -/

/-- Credits of a part, chunk by chunk, whether or not data arrived. -/
def State.creditPart (s : State) (i : Inst) (n : Nat) : State :=
  (chunkSpans n).foldl (fun s x => s.sendCredit (coreOfHart i.hart) i.bar x.2) s

/-- What a chunk's exclusion list means to the instance. -/
def Inst.noteExcl (i : Inst) (c : Chunk) : Inst :=
  { i with excl := i.excl || c.excl ≠ []
           gone := i.gone ++ (c.excl.map (·.1)).filter (fun x => !i.gone.contains x)
           poisoned := i.poisoned ++ ((c.excl.filter (·.2)).map (·.1)).filter (fun x => !i.poisoned.contains x) }

/-- What a landed chunk's marks mean to the instance. -/
def Inst.noteChunk (c : Chunk) (i : Inst) : Inst := { i.noteExcl c with poison := i.poison || c.poison }

/-- Chunks written to a part from an offset, and the part credited. -/
def State.landChunks (s : State) (k : Nat) (i : Inst) (b : Buf) (off : Nat) (cs : List Chunk) : State :=
  let (_, s) := cs.foldl (fun (p : Nat × State) c =>
    (p.1 + c.bytes.length, (p.2.writeBuf b p.1 c.bytes c.poison).onInst k (Inst.noteChunk c))) (off, s)
  (s.noteLost k i [(b, off, (cs.map (fun c => c.bytes.length)).sum)]).creditPart i ((cs.map (fun c => c.bytes.length)).sum)

/-- A part without its data: unchanged, marked and credited (R374, R383). -/
def State.landMissing (s : State) (k : Nat) (i : Inst) (b : Buf) (off n : Nat) : State :=
  ((s.markPart b off n).onInst k (fun i => { i with poison := true })).creditPart i n

/-- Bytes of the replay log (R387). -/
def Reg.logCap (r : Reg) : Nat := min (2 ^ r.lsz * 0x400000 - 0x400000) 0x100000000

/-- The log header in the control page. -/
def Reg.logHeader (r : Reg) : List Byte :=
  natToBytes 4 r.logFirst ++ natToBytes 4 r.logCount ++ natToBytes 8 r.logTail ++ natToBytes 4 r.logFull.toNat

def State.writeLogHeader (s : State) (k : Nat) : State :=
  match s.reg k with
  | some r => s.writeRegion r 0x40 r.logHeader
  | none => s

/-- A result appended to the log (R387): header of 64 bytes, then the data padded to 64. -/
def State.appendLog (s : State) (k step buf part : Nat) (cs : List Chunk) : State :=
  match s.reg k with
  | none => s
  | some r =>
    match r.inst with
    | none => s
    | some i =>
      if !i.log then s
      else
        let data := cs.flatMap (·.bytes)
        let n := data.length
        let size := 64 + (n + 63) / 64 * 64
        if r.logCap < r.logTail + size then
          (s.onReg k (fun r => { r with logFull := true, inst := r.inst.map (fun i => { i with logFull := true }) })).writeLogHeader k
        else
          let head := natToBytes 4 i.num ++ natToBytes 4 r.gen ++ natToBytes 2 step ++ natToBytes 2 buf ++ natToBytes 4 part ++
            natToBytes 4 n ++ natToBytes 4 (if cs.any (·.poison) then 1 else 0) ++ List.replicate 40 0
          let s := s.writeRegion r (0x400000 + r.logTail) (head ++ data ++ List.replicate (size - 64 - n) 0)
          (s.onReg k (fun r => { r with logTail := r.logTail + size, logCount := r.logCount + 1 })).writeLogHeader k

/-! ## The end of an instance (R372, R382, R384) -/

/-- The status word. -/
def Inst.status (i : Inst) (done : Bool) : Word :=
  word (i.nan.getD 0 * 2 ^ 32 + i.num * 65536 + i.logFull.toNat * 256 + i.fault.toNat * 128 + i.aborted.toNat * 64 +
    i.memb.toNat * 32 + i.nan.isSome.toNat * 16 + i.poison.toNat * 8 + i.excl.toNat * 4 + i.partial'.toNat * 2 + done.toNat)

/-- A mask of group ranks as the 32 KiB of the landing region (R358). -/
def maskBytes (size : Nat) (f : Nat → Bool) : List Byte :=
  (List.range 32768).map (fun b =>
    if size ≤ 8 * b then 0
    else BitVec.ofNat 8 ((List.range 8).foldl (fun t j => if 8 * b + j < size && f (8 * b + j) then t + 2 ^ j else t) 0))

/-- The instance completes at this rank: masks, status; a registration on its way out goes (R386). -/
def State.finishInst (s : State) (k : Nat) : State :=
  match s.reg k with
  | none => s
  | some r =>
    match r.inst with
    | none => s
    | some i =>
      let old := s.readPages r.pages 0x1000 ((r.size + 7) / 8)
      let had := fun (x : Nat) => ((old.getD (x / 8) 0).toNat).testBit (x % 8)
      let s := s.writeRegion r 0x1000 (maskBytes r.size (fun x => had x && !i.gone.contains x))
      let s := s.writeRegion r 0x9000 (maskBytes r.size (fun x => i.poisoned.contains x))
      let s := s.setReg k (if r.released then none else
        some { r with inst := none, last := some ⟨i.num, i.status true, i.report⟩
                      early := r.early.filter (fun m => m.inst ≠ i.num)
                      aborts := (if i.aborted then [(i.num, r.me)] else []) ++
                        r.aborts.filter (fun a => (a.1 + 65536 - i.num % 65536) % 65536 < 32768) })
      s.retry

end Sys2Proof.Machine
end

