-- ==== Sys2Proof/Machine/Square.lean ====
section
/-! DEFINITION. The Square: slots, contributions, results, time-outs, and the removal of ranks (19 R380 to R383). -/

namespace Sys2Proof.Machine

/-- The slot a contribution is for (R380). -/
def sqKey (m : Msg) : SqKey := ⟨m.gid, m.gen, m.inst, m.step, m.chunk, m.base⟩

/-- The group ranks of the scope. -/
def sqScope (m : Msg) : List Nat := (List.range m.span).map (fun k => m.base + k * m.stride)

/-- The live members with their RANKs, as the contributor lists them. -/
def sqPairs : List Nat → List (Nat × Nat)
  | a :: b :: xs => (a, b) :: sqPairs xs
  | _ => []

def State.setSlot (s : State) (k : Nat) (x : Option SqSlot) : State :=
  { s with coll := { s.coll with slots := SMap.set none s.coll.slots k x } }

/-- A floating contribution holds a NaN (R381). -/
def hasNaN (red : Nat) (bs : List Byte) : Bool :=
  let n := redSize red
  1 ≤ red && red ≤ 5 && (List.range (bs.length / n)).any (fun k =>
    let x := elemAt bs n k
    if red = 2 then 0x7F80 < x % 2 ^ 15 else fp32IsNaN x)

/-- The result to every rank of the expected mask, and the slot freed (R382). -/
def State.squareDone (s : State) (k : Nat) (x : SqSlot) (partial' : Bool) : State :=
  let bytes := match x.acc with
    | some b => b
    | none => x.marked.getD []
  let result := fun (p : Nat × Nat) =>
    { kind := .result, src := s.coll.rank, dst := p.2, gid := x.key.gid, gen := x.key.gen, inst := x.key.inst, toRank := p.1
      step := x.key.step, chunk := x.key.chunk, base := x.key.base, chunks := [{ bytes := bytes, poison := x.acc.isNone }]
      args := [partial'.toNat, x.nan.isSome.toNat, x.nan.getD 0, x.arrived.length] ++ x.arrived ++ x.poisoned : Msg }
  let owed := (x.expected.map (·.1)).filter (fun r => !x.arrived.contains r)
  let s := x.expected.foldl (fun s p => (s.sendMsg (result p)).getD s) s
  { s.setSlot k none with coll := { (s.setSlot k none).coll with
      late := if owed = [] then s.coll.late else (x.key, owed) :: s.coll.late
      sqPart := if partial' then s.coll.sqPart + 1 else s.coll.sqPart } }

/-- The slot completes when every expected contribution is there (R382). -/
def State.squareCheck (s : State) (k : Nat) (x : SqSlot) : State :=
  if x.expected.all (fun p => x.arrived.contains p.1) then s.squareDone k x false else s.setSlot k (some x)

/-- A contribution refused with a fault at its contributor, which gets no result for the chunk where it reaches no slot (R381). -/
def State.squareRefuse (s : State) (m : Msg) (code : Nat) (lost : Bool) : State :=
  (s.sendMsg { m with kind := .squareFault, src := s.coll.rank, dst := m.src, fromRank := m.toRank, toRank := m.fromRank, chunks := []
                      args := [code, lost.toNat] }).getD s

/-- A contribution at its slot; one of another length or RED counts as a poisoned one (R374, R381). -/
def State.squareAdd (s : State) (k : Nat) (x : SqSlot) (m : Msg) : State :=
  let s := s.acknowledge m
  match m.chunks with
  | [] => s
  | c :: _ =>
    if x.arrived.contains m.fromRank || !x.scope.contains m.fromRank then s.squareRefuse m 5 (!x.scope.contains m.fromRank)
    else if !x.expected.any (fun p => p.1 = m.fromRank) then s
    else
      let differs := m.red ≠ x.red || c.bytes.length ≠ x.len
      let bytes := if c.bytes.length = x.len then c.bytes else (List.range x.len).map (Config.freeByte s.clock.tick)
      let s := if differs then s.squareRefuse m 2 false else s
      let x := { x with arrived := x.arrived ++ [m.fromRank] }
      s.squareCheck k (if c.poison || differs then
        { x with poisoned := x.poisoned ++ [m.fromRank], marked := some (x.marked.getD bytes) }
      else
        { x with nan := if x.nan.isNone && hasNaN x.red c.bytes then some m.fromRank else x.nan
                 acc := some (match x.acc with
                   | some a => s.combine x.red a c.bytes
                   | none => c.bytes) })

/-- Ranks without which an instance's slots complete: on a lost package, or known to a registration of the package as aborted, lost or
released (R373, R383, R404). -/
def State.sqGone (s : State) (m : Msg) (p q : Nat) : Bool :=
  s.coll.lost.contains q ||
    s.coll.held.any (fun x => x.kind = .abortNotice && x.gid = m.gid && x.gen = m.gen && x.inst = m.inst && x.fromRank = p) ||
    s.coll.live.any (fun r => r.2.gid = m.gid && r.2.gen = m.gen &&
    (r.2.aborts.contains (m.inst, p) || !(r.2.member p).2 ||
      (r.2.me = p && (r.2.inst.map (fun i => i.aborted && i.num = m.inst)).getD false)))

/-- A contribution of a newer GEN than every registration of its GID here waits, as other messages do (R385). -/
def State.sqEarly (s : State) (m : Msg) : Bool :=
  let gens := (s.coll.live.filter (fun r => r.2.gid = m.gid && !r.2.released)).map (fun r => r.2.gen)
  gens ≠ [] && gens.all (fun g => g < m.gen)

/-- A contribution of an older GEN than every registration of its GID here (R385). -/
def State.sqStale (s : State) (m : Msg) : Bool :=
  let gens := (s.coll.live.filter (fun r => r.2.gid = m.gid && !r.2.released)).map (fun r => r.2.gen)
  gens ≠ [] && gens.all (fun g => m.gen < g)

/-- A contribution at its Square: of another GEN, late, at its slot, at a new slot, or waiting at its port for one (R380 to R382, R385). -/
def State.squareIn (s : State) (m : Msg) : State :=
  let key := sqKey m
  if s.sqStale m then s.dropStale m
  else if s.sqEarly m then { s with coll := { s.coll with held := s.coll.held ++ [m] } }
  else match s.coll.late.find? (fun x => x.1 = key && x.2.contains m.fromRank) with
  | some l =>
    let rest := l.2.erase m.fromRank
    let late := s.coll.late.erase l
    { s with coll := { s.coll with sqLate := s.coll.sqLate + 1
                                   late := if rest = [] then late else (key, rest) :: late } }.acknowledge m
  | none =>
    match s.coll.slots.find? (fun p => (p.2.map (fun x => decide (x.key = key))).getD false) with
    | some (k, some x) => s.squareAdd k x m
    | _ =>
      if s.coll.lost.contains m.src || s.coll.live.any (fun r => r.2.gid = m.gid && r.2.gen = m.gen && !(r.2.member m.fromRank).2) then
        s.acknowledge m
      else match (List.range 256).find? (fun k => (SMap.get none s.coll.slots k).isNone) with
        | none => { s with coll := { s.coll with held := s.coll.held ++ [m] } }
        | some k =>
          let expected := (sqPairs m.args).filter (fun p => !s.sqGone m p.1 p.2)
          s.squareAdd k { key := key, red := m.red, len := msgBytes m, acc := none, marked := none, scope := sqScope m
                          expected := expected, arrived := [], poisoned := [], nan := none, since := s.clock.time } m

/-- Contributions that waited for a slot, in their order, again while some of them find one (R380). -/
def retryContributions : Nat → State → State
  | 0, s => s
  | fuel + 1, s =>
    let waiting := s.coll.held.filter (fun m => m.kind = .contribution)
    let s' := waiting.foldl State.squareIn { s with coll := { s.coll with held := s.coll.held.filter (fun m => m.kind ≠ .contribution) } }
    if (s'.coll.held.filter (fun m => m.kind = .contribution)).length < waiting.length then retryContributions fuel s' else s

def State.retrySquare (s : State) : State := retryContributions s.coll.held.length s

/-- A contribution taken, and those that a slot it frees lets in (R380). -/
def State.takeContribution (s : State) (m : Msg) : State := (s.squareIn m).retrySquare

/-- Expected contributors removed from slots that a test picks; slots complete without them (R373, R383). -/
def State.squareRemove (s : State) (pick : SqKey → Nat × Nat → Bool) : State :=
  let s := s.coll.slots.foldl (fun (s : State) p =>
    match p.2 with
    | some x => s.squareCheck p.1 { x with expected := x.expected.filter (fun e => !pick x.key e) }
    | none => s) s
  s.retrySquare

/-- A slot has waited SQTIME: it completes with the contributions present (R382). -/
def execSquareTimeout (slot : Nat) (s : State) : Result :=
  match SMap.get none s.coll.slots slot with
  | some x =>
    if s.coll.sqTime ≠ 0 && x.since + s.coll.sqTime.toNat * 1000 ≤ s.clock.time then
      .next (s.squareDone slot x true).retrySquare
    else .next s
  | none => .next s

end Sys2Proof.Machine
end

