-- ==== Sys2Proof/Machine/Steps.lean ====
section
/-! DEFINITION. Step words and their execution (19 R361 to R365, R373, R374, R380, R383, R389). The steps of one instance run one after
another in program order, one of the overlaps R364 allows (log 38). -/

namespace Sys2Proof.Machine

/-! ## Step words (R361) -/

def stepOp (w : Nat) : Nat := bits w 31 28
def stepPm (w : Nat) : Nat := bits w 27 26
def stepSub (w : Nat) : Nat := bits w 25 24
/-- PEER as a signed offset. -/
def stepK (w : Nat) : Int := toSigned 8 (bits w 23 16)
def stepSrc (w : Nat) : Nat := bits w 15 12
def stepDst (w : Nat) : Nat := bits w 11 8
def stepSel (w : Nat) : Nat := bits w 7 4
def stepRed (w : Nat) : Nat := bits w 3 0

/-- Which of PM and SUB, PEER, SRC, DST, SEL and RED an operation uses (R363). -/
structure StepUse where
  pm : Bool := false
  peer : Bool := false
  src : Bool := false
  dst : Bool := false
  sel : Bool := false
  red : Bool := false

def stepUse (w : Nat) : StepUse :=
  match stepOp w with
  | 1 => { pm := true, peer := true, src := true, sel := true }
  | 2 => { pm := true, peer := true, dst := true, sel := true }
  | 3 => if stepRed w = 0 then { pm := true, peer := true, dst := true, sel := true, red := true }
         else { pm := true, peer := true, src := true, sel := true, red := true }
  | 4 => { pm := true, peer := true, src := true, dst := true, sel := true, red := true }
  | 5 => { pm := true, src := true, dst := true, sel := true }
  | 9 => { pm := true, src := true, dst := true, sel := true, red := true }
  | 10 | 11 => { pm := true, src := true, dst := true }
  | _ => {}

/-- A word with a reserved code or a set unused field (R366). Which fields a ROT word leaves unused is not said: only its reserved codes are
refused (log 38). -/
def stepBad (w : Nat) : Bool :=
  let u := stepUse w
  if stepOp w = 10 then stepPm w = 3 || 11 < stepSrc w || 11 < stepDst w || 8 < stepSel w || 7 < stepRed w
  else if stepOp w = 7 then
    stepPm w = 3 || (stepPm w ≠ 2 && stepSub w ≠ 0) || (if stepPm w = 0 then bits w 23 16 ≠ 0 else bits w 15 0 ≠ 0)
  else
    12 ≤ stepOp w || stepPm w = 3 || (!u.pm && stepPm w ≠ 0) || (stepPm w ≠ 2 && stepSub w ≠ 0) || (!u.peer && bits w 23 16 ≠ 0) ||
      (u.peer && stepPm w = 0 && 7 < bits w 23 16) || (if u.src then 11 < stepSrc w else stepSrc w ≠ 0) ||
      (if u.dst then 11 < stepDst w else stepDst w ≠ 0) || (if u.sel then 8 < stepSel w else stepSel w ≠ 0) ||
      (if u.red then 7 < stepRed w else stepRed w ≠ 0)

/-- Loops of an image: at most four deep, each ENDL with its LOOP (R361, R366). -/
def loopsOk : Nat → List Nat → Bool
  | _, [] => true
  | depth, w :: ws =>
    if stepOp w = 7 then depth < 4 && loopsOk (depth + 1) ws
    else if stepOp w = 8 then 0 < depth && loopsOk (depth - 1) ws
    else loopsOk depth ws

/-! ## Scopes and peers (R362) -/

/-- The scope of a step: its size, ME's relative rank, the first member and the stride. -/
structure StepScope where
  n : Nat
  rr : Nat
  base : Nat
  stride : Nat

def Reg.scope (r : Reg) (pm sub : Nat) : Option StepScope :=
  if pm < 2 then some ⟨r.size, r.me, 0, 1⟩
  else (r.subs.getD sub none).map (fun x => let rr := r.me / x.1 % x.2; ⟨x.2, rr, r.me - rr * x.1, x.1⟩)

def StepScope.member (c : StepScope) (j : Nat) : Nat := c.base + j * c.stride

/-- The member at an offset round the scope. -/
def StepScope.around (c : StepScope) (k : Int) : Nat := c.member (((c.rr : Int) + k) % (c.n : Int)).toNat

/-- The peer of a step at an offset; with a peer list both sides of an RRS are the listed peer (log 38). -/
def Inst.peer (i : Inst) (c : StepScope) (w : Nat) (k : Int) : Nat :=
  if stepPm w = 0 then i.peers.getD (bits w 23 16) 0 else c.around k

/-- The count of a LOOP. -/
def Reg.loopCount (r : Reg) (w : Nat) : Int :=
  match stepPm w with
  | 0 => (bits w 15 0 : Int)
  | 1 => (r.size : Int) + stepK w
  | _ => (((r.subs.getD (stepSub w) none).map (·.2)).getD 0 : Int) + stepK w

/-! ## Derived schedules (R389) -/

/-- A ring step's word: OP, SUB, PEER, SEL and RED, with PM 2 and buffer 0. -/
def ringWord (op sub : Nat) (k : Int) (sel red : Nat) : Nat :=
  op * 2 ^ 28 + 2 * 2 ^ 26 + sub * 2 ^ 24 + (k % 256).toNat * 65536 + sel * 16 + red

/-- The scatter phase of a level over a region, and its gather phase. -/
def ringScatter (sub span red off len : Nat) : List DStep :=
  [⟨ringWord 1 sub 1 4 0, 0, off, len⟩] ++ (List.range (span - 2)).map (fun l => ⟨ringWord 3 sub 1 3 red, l, off, len⟩) ++
    [⟨ringWord 4 sub (-1) 5 red, 0, off, len⟩]

def ringGather (sub span off len : Nat) : List DStep :=
  [⟨ringWord 1 sub 1 5 0, 0, off, len⟩] ++ (List.range (span - 2)).map (fun l => ⟨ringWord 3 sub 1 4 0, l, off, len⟩) ++
    [⟨ringWord 2 sub (-1) 6 0, 0, off, len⟩]

/-- The levels from an offset on: scatter phases in order, then gather phases in descending order. -/
def ringLevels (r : Reg) (red : Nat) : List (Nat × Nat × Nat) → Nat → Nat → List DStep × List DStep
  | [], _, _ => ([], [])
  | (sub, str, span) :: ls, off, len =>
    let own := (r.me / str % span + 1) % span
    let lo := own * len / span
    let (sc, ga) := ringLevels r red ls (off + lo) ((own + 1) * len / span - lo)
    (ringScatter sub span red off len ++ sc, ga ++ ringGather sub span off len)

/-- The defined subgroups as levels, where they nest (R389). -/
def Reg.levels (r : Reg) : Option (List (Nat × Nat × Nat)) :=
  let ls := ((List.range 4).filterMap (fun j => (r.subs.getD j none).map (fun x => (j, x.1, x.2))))
  let ok := ls.foldl (fun (t : Option Nat) l => t.bind (fun str => if l.2.1 = str && 2 ≤ l.2.2 then some (str * l.2.2) else none)) (some 1)
  if (r.subs.getD 0 none).isSome && ok = some r.size then some ls else none

/-- The steps of a derived schedule: 1 allreduce, 2 reduce-scatter, 3 allgather. -/
def Reg.derive (r : Reg) (kind red bytes : Nat) : Option (List DStep) :=
  if bytes % (4 * r.size) ≠ 0 || (kind ≠ 3 && 8 ≤ red) then none
  else r.levels.map (fun ls =>
    let (sc, ga) := ringLevels r red ls 0 bytes
    match kind with
    | 1 => sc ++ ga
    | 2 => sc
    | _ => ga)

/-! ## One step -/

/-- Where a step is: its word, L, and the region of a derived one with its number of parts. -/
structure StepAt where
  word : Nat
  l : Nat
  index : Nat
  region : Option (Nat × Nat)

/-- The instance's next step; none at the end of the store or of the schedule. -/
def State.stepAt (s : State) (i : Inst) : Option StepAt :=
  match i.derived with
  | some ds => ds[i.next]?.map (fun d => ⟨d.word, d.l, i.next, some (d.off, d.len)⟩)
  | none =>
    if 16384 ≤ i.next then none
    else some ⟨SMap.get 0 s.coll.store i.next, (i.loops.head?.map (·.l)).getD 0, i.next, none⟩

/-- The part of a buffer that a step selects: offset, length and index. -/
def StepAt.part (x : StepAt) (c : StepScope) (b : Buf) : Nat × Nat × Nat :=
  match x.region with
  | some (off, len) =>
    let k := (Buf.selected { b with parts := c.n } (stepSel x.word) c.rr x.l).getD 0
    let lo := k * len / c.n
    (off + lo, (k + 1) * len / c.n - lo, k)
  | none =>
    let k := b.selected (stepSel x.word) c.rr x.l
    ((b.part k).1, (b.part k).2, k.getD 0)

/-- On to the next word. -/
def Inst.onward (i : Inst) : Inst := { i with next := i.next + 1, begun := false, fencedStep := false, todo := [], waiting := [], sqRoot := none }
def State.onward (s : State) (k : Nat) : State := s.onInst k Inst.onward

/-- The store word after the ENDL that closes a LOOP whose body starts here. -/
def afterLoop (store : SMap Nat) : Nat → Nat → Nat → Nat
  | 0, p, _ => p
  | fuel + 1, p, depth =>
    let op := stepOp (SMap.get 0 store p)
    if op = 7 then afterLoop store fuel (p + 1) (depth + 1)
    else if op = 8 then (if depth = 0 then p + 1 else afterLoop store fuel (p + 1) (depth - 1))
    else afterLoop store fuel (p + 1) depth

/-- LOOP and ENDL (R361). -/
def State.loopStep (s : State) (k : Nat) (r : Reg) (i : Inst) (w : Nat) : State :=
  if stepOp w = 7 then
    let n := r.loopCount w
    if n ≤ 0 then s.onInst k (fun i => { i with next := afterLoop s.coll.store (16384 - i.next) (i.next + 1) 0 })
    else s.onInst k (fun i => { i with next := i.next + 1, loops := ⟨i.next + 1, n.toNat, 0⟩ :: i.loops })
  else
    match i.loops with
    | [] => s.onward k
    | x :: xs =>
      if x.l + 1 < x.count then s.onInst k (fun i => { i with next := x.start, loops := { x with l := x.l + 1 } :: xs })
      else s.onInst k (fun i => { i with next := i.next + 1, loops := xs })

/-- The message of a peer that a receiving step matches: its chunks, nothing for a missing peer, or not yet there (R364, R383). -/
def State.incoming (s : State) (k : Nat) (r : Reg) (i : Inst) (p : Nat) : Option (Option (List Chunk) × State) :=
  match s.pull k (fun m => m.kind = .data && m.inst = i.num && m.fromRank = p) with
  | some (m, s) => some (some m.chunks, s)
  | none => if r.missing i.num p then some (none, s) else none

def chunksLen (cs : List Chunk) : Nat := (cs.map (fun c => c.bytes.length)).sum

/-- The received part: landed, or left and marked; the chunks that an RRS forwards. -/
def State.receivePart (s : State) (k : Nat) (i : Inst) (step p : Nat) (b : Buf) (off n : Nat) (inp : Option (List Chunk)) :
    List Chunk × State :=
  match inp with
  | some cs =>
    if chunksLen cs = n then (cs, s.landChunks k i b off cs)
    else
      let s := (s.stepFault k step 1 p).landMissing k i b off n
      (s.readPart b off n, s)
  | none =>
    let s := s.landMissing k i b off n
    (s.readPart b off n, s)

/-- The incoming chunks combined with the rank's own, or what stands for them (R374, R383, R384). -/
def State.mergePart (s : State) (k : Nat) (r : Reg) (step p red : Nat) (own : List Chunk) (inp : Option (List Chunk)) : List Chunk × State :=
  let (cs, s) := match inp with
    | none => (own.map (alone p), s)
    | some cs =>
      if chunksLen cs = chunksLen own then
        (own.mapIdx (fun j y => s.combineChunk red p r.me (cs.getD j { bytes := y.bytes, poison := true }) y), s)
      else (own.map (fun y => s.combineChunk red p r.me { bytes := y.bytes, poison := true } y), s.stepFault k step 1 p)
  (cs, cs.foldl (fun s c => s.onInst k (fun i => i.noteExcl c)) s)

/-- A result landed, and logged where the group keeps a log (R387); a part of another length is a fault (R374). -/
def State.landResult (s : State) (k : Nat) (i : Inst) (step p buf : Nat) (b : Buf) (x : Nat × Nat × Nat) (log : Bool) (cs : List Chunk) :
    State :=
  if chunksLen cs = x.2.1 then
    let s := s.landChunks k i b x.1 cs
    if log then s.appendLog k step buf x.2.2 cs else s
  else (s.stepFault k step 1 p).landMissing k i b x.1 x.2.1

/-- SQRED: one contribution sent, or one result landed; to another root again what a lost one has not answered (R380 to R384). -/
def State.squareStep (s : State) (k : Nat) (r : Reg) (i : Inst) (c : StepScope) (x : StepAt) (sb db : Buf) : Option State :=
  let sp := x.part c sb
  let dp := x.part c db
  let live := ((List.range c.n).map c.member).filter (fun p => !r.missing i.num p)
  let root := (((List.range c.n).map c.member).filter (fun p => (r.member p).2)).headD r.me
  if sp.2.1 ≠ dp.2.1 then some (((s.stepFault k x.index 1 0).landMissing k i db dp.1 dp.2.1).onward k)
  else if !i.begun then
    let all := List.range (chunkSpans sp.2.1).length
    some (s.onInst k (fun i => { i with begun := true, todo := all, waiting := all, sqRoot := some root }))
  else if i.sqRoot ≠ some root then
    some (s.onInst k (fun i => { i with todo := i.waiting, sqRoot := some root }))
  else
    match i.todo with
    | j :: js =>
      let len := min 4096 (sp.2.1 - 4096 * j)
      let m : Msg := { r.message s.coll.rank .contribution i.num root with
        step := x.index, chunk := j, red := stepRed x.word, base := c.base, stride := c.stride, span := c.n
        chunks := [s.readChunk sb (sp.1 + 4096 * j) len], args := live.flatMap (fun p => [p, (r.member p).1]) }
      match s.sendMsg m with
      | some s => some (s.onInst k (fun i => { i with todo := js, unacked := root :: i.unacked }))
      | none =>
        some (((s.stepFault k x.index 3 root).landMissing k i db (dp.1 + 4096 * j) len).onInst k (fun i =>
          { i with todo := js, waiting := i.waiting.erase j }))
    | [] =>
      if i.waiting = [] then
        some ((s.appendLog k x.index (stepDst x.word) dp.2.2 (s.readPart db dp.1 dp.2.1)).onward k)
      else
        (s.pull k (fun m => m.kind = .result && m.inst = i.num && m.step = x.index && i.waiting.contains m.chunk)).map (fun (m, s) =>
          let got := (m.args.drop 4).take (m.args.getD 3 0)
          let marked := (m.args.drop 4).drop (m.args.getD 3 0)
          let absent := ((List.range c.n).map c.member).filter (fun p => !got.contains p)
          let cs := m.chunks.map (fun y => { y with excl := marked.map (fun p => (p, true)) })
          let len := min 4096 (dp.2.1 - 4096 * m.chunk)
          let s := if chunksLen cs = len then s.landChunks k i db (dp.1 + 4096 * m.chunk) cs
            else (s.stepFault k x.index 1 m.fromRank).landMissing k i db (dp.1 + 4096 * m.chunk) len
          s.onInst k (fun i =>
            { i with waiting := i.waiting.erase m.chunk
                     partial' := i.partial' || m.args.getD 0 0 = 1
                     nan := if i.nan.isNone && m.args.getD 1 0 = 1 then some (m.args.getD 2 0) else i.nan
                     excl := i.excl || !got.contains r.me
                     gone := i.gone ++ absent.filter (fun p => !i.gone.contains p) }))

/-- A chunk of the SQRED under way without a result: its contribution reached no slot (R374, R376, R381). -/
def State.loseChunk (s : State) (k : Nat) (r : Reg) (i : Inst) (m : Msg) : State :=
  match s.stepAt i with
  | some x =>
    match r.scope (stepPm x.word) (stepSub x.word), i.bufs.getD (stepDst x.word) none with
    | some c, some b =>
      if x.index = m.step && stepOp x.word = 9 && i.waiting.contains m.chunk then
        let dp := x.part c b
        (s.landMissing k i b (dp.1 + 4096 * m.chunk) (min 4096 (dp.2.1 - 4096 * m.chunk))).onInst k (fun i =>
          { i with waiting := i.waiting.erase m.chunk })
      else s
    | _, _ => s
  | none => s

/-- A fault that another package found in a message of the instance (R374, R376, R381). -/
def State.pullFault (s : State) (k : Nat) (r : Reg) (i : Inst) : Option State :=
  (s.pull k (fun m => (m.kind = .noRoute || m.kind = .squareFault) && m.inst = i.num)).map (fun (m, s) =>
    if m.kind = .noRoute then
      let s := (s.stepFault k m.step 3 m.fromRank).onInst k (fun i => { i with unacked := i.unacked.erase m.fromRank })
      if m.args.getD 2 0 = 1 then s.loseChunk k r i m else s
    else
      let s := s.stepFault k m.step (m.args.getD 0 0) m.fromRank
      if m.args.getD 1 0 = 1 then s.loseChunk k r i m else s)

/-- XCHG: one part sent or copied, or one received (R363). -/
def State.exchangeStep (s : State) (k : Nat) (r : Reg) (i : Inst) (c : StepScope) (x : StepAt) (sb db : Buf) : Option State :=
  if !i.begun then
    some (s.onInst k (fun i => { i with begun := true, todo := List.range c.n, waiting := (List.range c.n).filter (· ≠ c.rr) }))
  else
    match i.todo with
    | j :: js =>
      let sp := sb.part (some j)
      let cs := s.readPart sb sp.1 sp.2
      let s := s.onInst k (fun i => { i with todo := js })
      if j = c.rr then
        let dp := db.part (some j)
        some (s.landResult k i x.index 0 0 db (dp.1, dp.2, j) false cs)
      else some (s.sendTo k x.index .data (c.member j) (fun m => { m with chunks := cs }))
    | [] =>
      if i.waiting = [] then some (s.onward k)
      else
        i.waiting.findSome? (fun j =>
          (s.incoming k r i (c.member j)).map (fun (inp, s) =>
            let dp := db.part (some j)
            (s.receivePart k i x.index (c.member j) db dp.1 dp.2 inp).2.onInst k (fun i => { i with waiting := i.waiting.erase j })))

/-- ROT with L = t − 1 as step t of a rotation round the scope (R363, R399; log 38): the SRC part at step 1, and later the block that the
step before received, goes to the next member; the block of the member before lands in DST part L mod PARTS. -/
def State.rotationStep (s : State) (k : Nat) (r : Reg) (i : Inst) (c : StepScope) (x : StepAt) (sb db : Buf) : Option State :=
  if !i.begun then
    let y := if x.l = 0 then ((x.part c sb).1, (x.part c sb).2.1) else db.part (some ((x.l - 1) % db.parts))
    let cs := s.readPart (if x.l = 0 then sb else db) y.1 y.2
    some ((s.onInst k (fun i => { i with begun := true })).sendTo k x.index .data (c.around 1) (fun m => { m with chunks := cs }))
  else
    (s.incoming k r i (c.around (-1))).map (fun (inp, s) =>
      let y := db.part (some (x.l % db.parts))
      (s.receivePart k i x.index (c.around (-1)) db y.1 y.2 inp).2.onward k)

/-- A peer told once that this rank has aborted (R373). -/
def State.tellAbort (s : State) (k : Nat) (p : Nat) : State :=
  match s.reg k with
  | some r =>
    match r.inst with
    | some i =>
      if p = r.me || r.missing i.num p || i.toldPeers.contains p then s
      else ((s.sendMsg (r.message s.coll.rank .abortNotice i.num p)).getD s).onInst k (fun i => { i with toldPeers := p :: i.toldPeers })
    | none => s
  | none => s

/-- A step of an aborted instance: no data, full credit, and notice to its peers (R373). -/
def State.abortStep (s : State) (k : Nat) (r : Reg) (i : Inst) (c : StepScope) (x : StepAt) : State :=
  let w := x.word
  let peers := match stepOp w with
    | 1 | 2 | 4 => [i.peer c w (stepK w)]
    | 3 => [i.peer c w (stepK w), i.peer c w (-stepK w)]
    | 10 => [c.around 1, c.around (-1)]
    | 9 | 11 => (List.range c.n).map c.member
    | _ => []
  let s := peers.foldl (fun s p => s.tellAbort k p) s
  let s := if stepOp w = 9 then s.squareRemove (fun key e => key.gid = r.gid && key.gen = r.gen && key.inst = i.num && e.1 = r.me) else s
  let s := match if (stepUse w).dst then i.bufs.getD (stepDst w) none else none with
    | none => s
    | some b =>
      if stepOp w = 11 then
        (if i.begun then i.waiting ++ i.todo.filter (· = c.rr) else List.range c.n).foldl (fun s j => s.creditPart i (b.part (some j)).2) s
      else if stepOp w = 10 then s.creditPart i (b.part (some (x.l % b.parts))).2
      else if stepOp w = 9 && i.begun then
        i.waiting.foldl (fun s j => s.creditPart i (min 4096 ((x.part c b).2.1 - 4096 * j))) s
      else s.creditPart i (x.part c b).2.1
  s.onward k

/-- A data step; none while it must wait. -/
def State.dataStep (s : State) (k : Nat) (r : Reg) (i : Inst) (c : StepScope) (x : StepAt) : Option State :=
  let w := x.word
  let sb := if (stepUse w).src then i.bufs.getD (stepSrc w) none else none
  let db := if (stepUse w).dst then i.bufs.getD (stepDst w) none else none
  if s.bufAway i sb || s.bufAway i db then none
  else
    let reads := !i.begun || i.todo ≠ []
    let lands := !i.begun || i.waiting ≠ [] || i.todo.contains c.rr || stepOp w ≠ 11
    let fenced := (reads && (sb.map s.bufFenced).getD false) || (lands && (db.map s.bufFenced).getD false)
    let s := if fenced && !i.fencedStep then (s.stepFault k x.index 4 0).onInst k (fun i => { i with fencedStep := true }) else s
    let up := i.peer c w (-stepK w)
    let p := i.peer c w (stepK w)
    match stepOp w, sb, db with
    | 1, some b, _ =>
      let y := x.part c b
      some ((s.sendTo k x.index .data p (fun m => { m with chunks := s.readPart b y.1 y.2.1 })).onward k)
    | 2, _, some b =>
      let y := x.part c b
      (s.incoming k r i p).map (fun (inp, s) => (s.receivePart k i x.index p b y.1 y.2.1 inp).2.onward k)
    | 3, none, some b =>
      let y := x.part c b
      (s.incoming k r i up).map (fun (inp, s) =>
        let (cs, s) := s.receivePart k i x.index up b y.1 y.2.1 inp
        (s.sendTo k x.index .data p (fun m => { m with chunks := cs })).onward k)
    | 3, some b, none =>
      let y := x.part c b
      (s.incoming k r i up).map (fun (inp, s) =>
        let (cs, s) := s.mergePart k r x.index up (stepRed w) (s.readPart b y.1 y.2.1) inp
        (s.sendTo k x.index .data p (fun m => { m with chunks := cs })).onward k)
    | 4, some b, some d =>
      let y := x.part c b
      (s.incoming k r i p).map (fun (inp, s) =>
        let (cs, s) := s.mergePart k r x.index p (stepRed w) (s.readPart b y.1 y.2.1) inp
        (s.landResult k i x.index p (stepDst w) d (x.part c d) true cs).onward k)
    | 5, some b, some d =>
      let y := x.part c b
      some ((s.landResult k i x.index 0 0 d (x.part c d) false (s.readPart b y.1 y.2.1)).onward k)
    | 9, some b, some d => s.squareStep k r i c x b d
    | 10, some b, some d => s.rotationStep k r i c x b d
    | 11, some b, some d => s.exchangeStep k r i c x b d
    | _, _, _ => none

/-- The next step of an instance of a program; none while it must wait. -/
def State.programStep (s : State) (k : Nat) (r : Reg) (i : Inst) : Option State :=
  match s.stepAt i with
  | none => some (s.finishInst k)
  | some x =>
    let op := stepOp x.word
    if op = 0 then some (s.finishInst k)
    else if op = 7 || op = 8 then some (s.loopStep k r i x.word)
    else match r.scope (stepPm x.word) (stepSub x.word) with
      | none => none
      | some c =>
        if i.aborted then some (s.abortStep k r i c x)
        else if op = 6 then (if i.unacked = [] then some (s.onward k) else none)
        else s.dataStep k r i c x

end Sys2Proof.Machine
end

