-- ==== Sys2Proof/Machine/Repart.lean ====
section
/-! DEFINITION. The repartition collective (20 R392 to R397). The lowest live member of G agrees the box and the histogram and tells the
others; when it is lost the next one takes its place, and who holds them already passes them on to it (R397, log 39). -/

namespace Sys2Proof.Machine

/-! ## Records and keys (R393) -/

/-- A finite fp32 pattern as a multiple of 2^−149; none for NaN and infinities. -/
def fp32Int (x : Nat) : Option Int :=
  match Ieee.fp32.decode false x with
  | .fin n m e => some (scaleTo n m e (-149))
  | _ => none

/-- A record of IN: its bytes and the mark of the chunk it was read from. -/
structure Particle where
  bytes : List Byte
  poison : Bool

/-- The four bytes at one of the record's offsets, x, y, z or weight. -/
def Repart.fieldOf (p : Repart) (x : Particle) (k : Nat) : Nat := bytesToNat ((x.bytes.drop (p.offs.getD k 0)).take 4)

/-- The records of IN in input order, as IN was when the exchange began (log 39). -/
def State.particles (s : State) (p : Repart) : List Particle :=
  let cs := p.read.getD (s.readPart p.input 0 p.input.bytes)
  let bytes := cs.flatMap (·.bytes)
  (List.range (p.input.bytes / p.rsz)).map (fun k =>
    { bytes := (bytes.drop (k * p.rsz)).take p.rsz, poison := ((cs[k * p.rsz / 4096]?).map (·.poison)).getD true })

/-- Lower and upper bound of an axis over some patterns, by value; a bound of value zero is +0. -/
def axisBox (xs : List Nat) : Option (Nat × Nat) :=
  match xs.filter (fun x => (fp32Int x).isSome) with
  | [] => none
  | x :: ys =>
    let v := fun (y : Nat) => (fp32Int y).getD 0
    let lo := ys.foldl (fun a b => if v b < v a then b else a) x
    let hi := ys.foldl (fun a b => if v a < v b then b else a) x
    let z := fun (y : Nat) => if v y = 0 then 0 else y
    some (z lo, z hi)

/-- A box as numbers: for each axis whether it has a bound, lo and hi. -/
def boxWords (f : Nat → Option (Nat × Nat)) : List Nat :=
  (List.range 3).flatMap (fun k => match f k with
    | some (lo, hi) => [1, lo, hi]
    | none => [0, 0, 0])

def State.localBox (s : State) (p : Repart) : List Nat :=
  let good := (s.particles p).filter (fun x => !x.poison)
  boxWords (fun k => axisBox (good.map (fun x => p.fieldOf x k)))

/-- The box over all. -/
def joinBoxes (bs : List (List Nat)) : List Nat :=
  boxWords (fun k => axisBox (bs.flatMap (fun b => if b.getD (3 * k) 0 = 1 then [b.getD (3 * k + 1) 0, b.getD (3 * k + 2) 0] else [])))

/-- The quantised coordinate. -/
def quantise (lo hi c : Nat) : Nat :=
  let l := (fp32Int lo).getD 0
  let h := (fp32Int hi).getD 0
  if h = l then 0
  else match fp32Int c with
    | some v => (min (2 ^ 21 - 1) (max 0 (Int.fdiv (2 ^ 21 * (v - l)) (h - l)))).toNat
    | none => if c = 0x7F800000 then 2 ^ 21 - 1 else 0

/-- The bucket: the top four bits of the three quantised coordinates, interleaved. -/
def bucketOf (qx qy qz : Nat) : Nat :=
  (List.range 4).foldl (fun t j =>
    t + (bits qx (17 + j) (17 + j) + 2 * bits qy (17 + j) (17 + j) + 4 * bits qz (17 + j) (17 + j)) * 8 ^ j) 0

def Repart.bucket (p : Repart) (box : List Nat) (x : Particle) : Nat :=
  let q := fun (k : Nat) => quantise (box.getD (3 * k + 1) 0) (box.getD (3 * k + 2) 0) (p.fieldOf x k)
  bucketOf (q 0) (q 1) (q 2)

/-- A weight that counts in BADW: NaN, infinite or negative. -/
def badWeight (w : Nat) : Bool := 0x7F800000 ≤ w % 2 ^ 31 || 0x80000000 < w

def weightOf (w : Nat) : Nat := if badWeight w || w = 0x80000000 then 0 else w

/-! ## The histogram and the owners (R394) -/

def addWeight (h : List Nat) (b w : Nat) : List Nat := h.set b (combineOne 1 (h.getD b 0) w)

def State.localHist (s : State) (p : Repart) (box : List Nat) : List Nat :=
  ((s.particles p).filter (fun x => !x.poison)).foldl (fun h x => addWeight h (p.bucket box x) (weightOf (p.fieldOf x 3)))
    (List.replicate 4096 0)

/-- Histograms combined two at a time, in a free order (R390, log 14). -/
def combineHists (tick : Nat) : Nat → List (List Nat) → List Nat
  | 0, hs => hs.headD []
  | n + 1, hs =>
    let k := Config.order tick n % hs.length
    let rest := hs.eraseIdx k
    match rest with
    | [] => hs.headD []
    | _ =>
      let j := Config.order tick (n + 65536) % rest.length
      let both := (List.range 4096).map (fun b => combineOne 1 ((hs.getD k []).getD b 0) ((rest.getD j []).getD b 0))
      combineHists tick n (both :: rest.eraseIdx j)

/-- The owner of a bucket as a relative rank of G. -/
def ownerOf (h : List Nat) (members b : Nat) : Nat :=
  let v := fun (x : Nat) => ((fp32Int x).getD 0).toNat
  let w := (h.map v).sum
  let p := ((h.take b).map v).sum
  if w = 0 then b * members / 4096 else min (members - 1) (members * p / w)

/-- The owners of this rank's records, in input order; none for a poisoned one. -/
def State.owners (s : State) (p : Repart) (box h : List Nat) : List (Particle × Option Nat) :=
  (s.particles p).map (fun x => (x, if x.poison then none else some (ownerOf h p.members.length (p.bucket box x))))

/-! ## The exchange (R395) -/

def State.onRep (s : State) (k : Nat) (f : Repart → Repart) : State := s.onInst k (fun i => { i with rep := i.rep.map f })

/-- Quotas in ascending source rank. -/
def grantQuotas (cap : Nat) : Nat → List Nat → List Nat
  | _, [] => []
  | used, c :: cs => let g := min c (cap - used); g :: grantQuotas cap (used + g) cs

/-- What a message of the repartition tells. -/
def Repart.note (p : Repart) (m : Msg) : Repart :=
  match m.kind with
  | .box =>
    if m.args.getD 0 0 = 1 then { p with box := if p.box.isSome then p.box else some (m.args.drop 1) }
    else { p with boxes := SMap.set [] p.boxes m.fromRank (m.args.drop 1) }
  | .histogram =>
    if m.args.getD 0 0 = 1 then
      if p.hist.isSome then p
      else
        let n := m.args.getD 1 0
        { p with members := (m.args.drop 2).take n, hist := some ((m.args.drop 2).drop n) }
    else { p with hists := SMap.set [] p.hists m.fromRank (m.args.drop 1) }
  | .counts => { p with counts := SMap.set none p.counts m.fromRank (some (m.args.getD 0 0)) }
  | .quota => { p with quotas := SMap.set none p.quotas m.fromRank (some (m.args.getD 0 0)) }
  | .records => { p with recv := SMap.set none p.recv m.fromRank (some m.chunks) }
  | _ => p

/-- A message to a member; to ME it is noted at once. -/
def State.tellMember (s : State) (k : Nat) (kind : MsgKind) (p : Nat) (args : List Nat) (cs : List Chunk) : State :=
  match s.reg k with
  | none => s
  | some r =>
    if p = r.me then s.onRep k (fun x => x.note { kind := kind, src := 0, dst := 0, fromRank := p, args := args, chunks := cs })
    else s.sendTo k 0 kind p (fun m => { m with args := args, chunks := cs })

/-- Bytes landed in a buffer from byte 0. -/
def State.landBytesAt (s : State) (b : Buf) (off : Nat) (bs : List Byte) (poison : Bool) : State :=
  if bs = [] then s else s.writeBuf b off bs poison

/-- The end: OUT, OVF, RES, one credit, the status (R395 to R397). -/
def State.finishRep (s : State) (k : Nat) (r : Reg) (i : Inst) (p : Repart) : State :=
  let gone := fun (m : Nat) => i.aborted || r.missing i.num m
  let got := if i.aborted then [] else
    (p.members.filter (fun m => m = r.me || !gone m)).flatMap (fun m => ((SMap.get none p.recv m).getD []).flatMap (·.bytes))
  let box := p.box.getD []
  let recs := match p.hist with
    | some h => s.owners p box h
    | none => (s.particles p).map (fun x => (x, none))
  let quota := fun (o : Nat) =>
    let m := p.members.getD o 0
    if m = r.me && !i.aborted then (SMap.get none p.quotas m).getD 0 else if gone m then 0 else (SMap.get none p.quotas m).getD 0
  let (_, stay) := recs.foldl (fun (t : List Nat × List (Particle × Option Nat)) x =>
    match x.2 with
    | none => (t.1, t.2 ++ [x])
    | some o => if (t.1.filter (· = o)).length < quota o then (o :: t.1, t.2) else (t.1, t.2 ++ [x])) ([], [])
  let s := s.noteLost k i [(p.out, 0, got.length), (p.ovf, 0, stay.length * p.rsz), (p.res, 0, 64 + 4 * p.members.length)]
  let s := s.landBytesAt p.out 0 got false
  let (_, s) := stay.foldl (fun (t : Nat × State) x => (t.1 + p.rsz, t.2.landBytesAt p.ovf t.1 x.1.bytes x.1.poison)) (0, s)
  let bad := (recs.filter (fun x => !x.1.poison && badWeight (p.fieldOf x.1 3))).length
  let poisoned := (recs.filter (fun x => x.1.poison)).length
  let w := ((p.hist.getD []).map (fun x => ((fp32Int x).getD 0).toNat)).sum
  let res := natToBytes 4 (got.length / p.rsz) ++ natToBytes 4 stay.length ++ natToBytes 4 bad ++ natToBytes 4 poisoned ++
    (List.range 3).flatMap (fun a => natToBytes 4 (box.getD (3 * a + 1) 0)) ++
    (List.range 3).flatMap (fun a => natToBytes 4 (box.getD (3 * a + 2) 0)) ++
    natToBytes 4 (Ieee.fp32.round .rne false (.fin false w (-149))).1 ++ List.replicate 20 0 ++
    (List.range p.members.length).flatMap (fun o => natToBytes 4 (stay.filter (fun x => x.2 = some o)).length)
  let s := s.landBytesAt p.res 0 res false
  let s := s.onInst k (fun i => { i with poison := i.poison || poisoned ≠ 0 })
  let s := s.sendCredit (coreOfHart i.hart) i.bar (p.out.bytes + p.ovf.bytes + 64 + 4 * r.size)
  s.finishInst k

/-- The kinds of message that a repartition reads. -/
def repKind (m : MsgKind) : Bool := m = .box || m = .histogram || m = .counts || m = .quota || m = .records

/-- What comes next in a repartition at this rank; none while it must wait. -/
def State.repStep (s : State) (k : Nat) (r : Reg) (i : Inst) (p : Repart) : Option State :=
  let live := p.members.filter (fun m => m = r.me || !r.missing i.num m)
  let root := live.headD r.me
  let others := live.filter (· ≠ r.me)
  let fenced := (if i.aborted then [p.input, p.ovf, p.res] else [p.input, p.out, p.ovf, p.res]).any s.bufFenced
  if s.bufAway i (some p.input) || s.bufAway i (some p.out) || s.bufAway i (some p.ovf) then none
  else if fenced && !i.fencedStep then some ((s.stepFault k 0 4 0).onInst k (fun i => { i with fencedStep := true }))
  else if i.aborted then some ((p.members.foldl (fun s m => s.tellAbort k m) s).finishRep k r i p)
  else if !i.begun then
    some (s.onInst k (fun i =>
      { i with begun := true, rep := i.rep.map (fun p => { p with read := some (s.readPart p.input 0 p.input.bytes) }) }))
  else match s.pull k (fun m => repKind m.kind && m.inst = i.num) with
  | some (m, s) => some (s.onRep k (fun p => p.note m))
  | none =>
    match p.box with
    | none =>
      if p.boxTo ≠ some root then
        some ((s.tellMember k .box root (0 :: s.localBox p) []).onRep k (fun p => { p with boxTo := some root }))
      else if root = r.me && live.all (fun m => SMap.get [] p.boxes m ≠ []) then
        some (s.onRep k (fun p => { p with box := some (joinBoxes (live.map (fun m => SMap.get [] p.boxes m))) }))
      else none
    | some b =>
      if p.boxSent ≠ some root && (root = r.me || p.boxTo ≠ some root) then
        let dests := if root = r.me then others else [root]
        some ((dests.foldl (fun s m => s.tellMember k .box m (1 :: b) []) s).onRep k (fun p => { p with boxTo := some root, boxSent := some root }))
      else match p.hist with
      | none =>
        if p.histTo ≠ some root then
          some ((s.tellMember k .histogram root (0 :: s.localHist p b) []).onRep k (fun p => { p with histTo := some root }))
        else if root = r.me && live.all (fun m => SMap.get [] p.hists m ≠ []) then
          let h := combineHists s.clock.tick live.length (live.map (fun m => SMap.get [] p.hists m))
          some (s.onRep k (fun p => { p with hist := some h, members := live }))
        else none
      | some h =>
        if p.histSent ≠ some root && (root = r.me || p.histTo ≠ some root) then
          let dests := if root = r.me then others else [root]
          let args := [1, p.members.length] ++ p.members ++ h
          some ((dests.foldl (fun s m => s.tellMember k .histogram m args []) s).onRep k (fun p => { p with histTo := some root, histSent := some root }))
        else
          let mine := s.owners p b h
          let owned := fun (o : Nat) => mine.filter (fun x => x.2 = some o)
          if !p.countsSent then
            let s := (List.range p.members.length).foldl (fun (s : State) o =>
              s.tellMember k .counts (p.members.getD o 0) [(owned o).length] []) s
            some (s.onRep k (fun p => { p with countsSent := true }))
          else if !p.quotasSent && live.all (fun m => (SMap.get none p.counts m).isSome) then
            let gs := grantQuotas (p.out.bytes / p.rsz) 0 (live.map (fun m => (SMap.get none p.counts m).getD 0))
            let s := (List.range live.length).foldl (fun (s : State) j => s.tellMember k .quota (live.getD j 0) [gs.getD j 0] []) s
            some (s.onRep k (fun p => { p with quotasSent := true }))
          else
            let ready := (List.range p.members.length).find? (fun o =>
              let m := p.members.getD o 0
              !p.recsTo.contains m && live.contains m && (SMap.get none p.quotas m).isSome)
            match ready with
            | some o =>
              let m := p.members.getD o 0
              let cs := ((owned o).take ((SMap.get none p.quotas m).getD 0)).map (fun x => ({ bytes := x.1.bytes } : Chunk))
              some ((s.tellMember k .records m [] cs).onRep k (fun p => { p with recsTo := m :: p.recsTo }))
            | none =>
              if live.all (fun m => p.recsTo.contains m && (SMap.get none p.recv m).isSome) then some (s.finishRep k r i p)
              else none

end Sys2Proof.Machine
end

