-- ==== Sys2Proof/Machine/Rotate.lean ====
section
/-! DEFINITION. The rotation collective (20 R398 to R403) and the collective engine's step. -/

namespace Sys2Proof.Machine

def State.onRot (s : State) (k : Nat) (f : Rotation → Rotation) : State := s.onReg k (fun r => { r with rot := r.rot.map f })

/-- Members of the ring, and the neighbours (R398). -/
def Rotation.size (x : Rotation) : Nat := x.ring.length
def Rotation.down (x : Rotation) : Nat := x.ring.getD ((x.rho + 1) % x.size) 0
def Rotation.up (x : Rotation) : Nat := x.ring.getD ((x.rho + x.size - 1) % x.size) 0

/-- The relative rank whose block step t brings (R399). -/
def Rotation.source (x : Rotation) (t : Nat) : Nat := (x.rho + x.size - t % x.size) % x.size

/-- A block that is passed on and not landed (R402). -/
def Rotation.passes (x : Rotation) (t : Nat) : Bool := x.seen.contains (x.source t) && x.source t ≠ x.rho

/-- The reserved set of step t, as a buffer. -/
def Rotation.setBuf (x : Rotation) (t : Nat) : Buf :=
  let j := (t - 1) % x.sets.length
  { land := false, core := x.core, slot := x.rslot + j * x.bcnt, cnt := x.bcnt, parts := 1, bytes := x.bcnt * 16384 }

/-- Credits for free sets told upstream (R399); without a route a fault of code 3 (R376). -/
def State.sendCredits (s : State) (k n : Nat) : State :=
  match s.reg k with
  | none => s
  | some r =>
    match r.rot with
    | none => s
    | some x =>
      if n = 0 || r.missing x.inst x.up then s
      else match s.sendMsg { r.message s.coll.rank .credit x.inst x.up with args := [n] } with
        | some s => s
        | none => if (r.inst.map (·.num)) = some x.inst then s.stepFault k 0 3 x.up else s

/-- The next block lands in its released set, or is taken to be passed on (R399, R402). -/
def State.landBlock (s : State) (k : Nat) : Option State :=
  match s.reg k with
  | none => none
  | some r =>
    match r.rot, r.inst with
    | some x, some i =>
      let t := x.landed + 1
      let j := (t - 1) % x.sets.length
      let b := x.setBuf t
      if i.kind ≠ .rotation || i.aborted || x.ended || x.size ≤ t then none
      else
        let test := fun (m : Msg) => m.kind = .block && m.inst = i.num && m.step = t
        if x.passes t then
          (s.pull k test).map (fun (m, s) =>
            let s := s.onRot k (fun x => { x with landed := t, pass := if t + 1 < x.size then x.pass ++ [(t, m.chunks)] else x.pass })
            s.sendCredits k 1)
        else if (x.sets.getD j {}).block.isSome || s.bufAway i (some b) then none
        else
          (s.pull k test).map (fun (m, s) =>
            let s := if s.bufFenced b then s.stepFault k 0 4 x.up else s
            let s := if chunksLen m.chunks = b.bytes then
                (m.chunks.foldl (fun (p : Nat × State) c =>
                  (p.1 + c.bytes.length, (p.2.writeBuf b p.1 c.bytes c.poison).onInst k (Inst.noteChunk c))) (0, s)).2
              else (s.stepFault k 0 1 x.up).markPart b 0 b.bytes
            let set : RotSet := { block := some t, reads := 0, since := s.uid, forwarded := x.size ≤ t + 1 }
            let s := s.onRot k (fun x => { x with landed := t, sets := x.sets.set j set })
            s.sendCredit (coreOfHart i.hart) i.bar (x.bcnt * 16384))
    | _, _ => none

/-- The chunks of the next block to send: OWN, a landed set, or one passed on; none while it has not come. -/
def State.nextBlock (s : State) (x : Rotation) : Option (List Chunk) :=
  let t := x.sent
  if t = 0 then some (s.readPart x.own 0 x.own.bytes)
  else if x.landed < t then none
  else match x.pass.find? (fun p => p.1 = t) with
    | some p => some p.2
    | none => some (s.readPart (x.setBuf t) 0 (x.bcnt * 16384))

/-- A block sent downstream, spending a credit; to a lost neighbour it is discarded (R399, R403). -/
def State.sendBlock (s : State) (k : Nat) (r : Reg) (i : Inst) (x : Rotation) : Option State :=
  let lost := r.missing i.num x.down
  if x.size ≤ x.sent + 1 || (x.credits = 0 && !lost) || s.bufAway i (some x.own) then none
  else (s.nextBlock x).map (fun cs =>
    let s := if s.bufFenced x.own then s.stepFault k 0 4 x.down else s
    let s := s.sendTo k 0 .block x.down (fun m => { m with step := x.sent + 1, chunks := cs })
    s.onRot k (fun x =>
      { x with sent := x.sent + 1, credits := x.credits - 1, pass := x.pass.filter (fun p => p.1 ≠ x.sent)
               sets := x.sets.map (fun y => if y.block = some x.sent then { y with forwarded := true } else y) }))

/-- Barrier credits of blocks that will not land (R373, R403). -/
def State.creditBlocks (s : State) (i : Inst) (x : Rotation) : State :=
  ((List.range x.size).filter (fun t => x.landed < t && !x.passes t)).foldl
    (fun (s : State) _ => s.sendCredit (coreOfHart i.hart) i.bar (x.bcnt * 16384)) s

/-- RES written, and the instance over (R401, R403). -/
def State.finishRot (s : State) (k : Nat) (i : Inst) (x : Rotation) (counts : List Nat) : State :=
  let s := if s.bufFenced x.res then s.stepFault k 0 4 0 else s
  let s := if i.aborted || x.ended then s else s.onReg k (fun r =>
    { r with rots := ⟨x.inst, x.ring, x.landed⟩ :: r.rots.filter (fun e => (x.inst + 65536 - e.inst % 65536) % 65536 < 32768) })
  let s := s.noteLost k i [(x.res, 0, 4), (x.res, 0x40, 4 * counts.length)]
  let s := s.writeBuf x.res 0 (natToBytes 4 x.landed) false
  let s := s.writeBuf x.res 0x40 (counts.flatMap (natToBytes 4)) false
  s.finishInst k

/-- The next block has come whole, and waits for its set, or for its gang to be restored (R342, R399). -/
def Reg.blockCome (r : Reg) (i : Inst) (x : Rotation) : Bool :=
  x.landed + 1 < x.size && r.early.any (fun m => m.kind = .block && m.inst = i.num && m.step = x.landed + 1)

/-- What comes next in a rotation at this rank; none while it must wait. -/
def State.rotStep (s : State) (k : Nat) (r : Reg) (i : Inst) (x : Rotation) : Option State :=
  let lost := x.ring.any (fun p => p ≠ r.me && r.missing i.num p)
  let others := x.ring.filter (fun p => p ≠ r.me && !r.missing i.num p)
  let endSets := fun (s : State) => s.onRot k (fun x => { x with ended := true, sets := x.sets.map (fun y => { y with forwarded := true }) })
  if i.aborted then
    let s := x.ring.foldl (fun (s : State) p => s.tellAbort k p) s
    some (((endSets s).creditBlocks i x).finishRot k i x (List.replicate x.size x.landed))
  else match s.pull k (fun m => (m.kind = .credit || m.kind = .progress) && m.inst = i.num) with
  | some (m, s) =>
    some (s.onRot k (fun x =>
      if m.kind = .credit then { x with credits := x.credits + m.args.getD 0 0 }
      else { x with progress := SMap.set none x.progress m.fromRank (some (m.args.getD 0 0)) }))
  | none =>
    match s.landBlock k with
    | some s => some s
    | none =>
      if lost && !x.ended then if r.blockCome i x then none else some ((endSets s).creditBlocks i x)
      else if x.ended then
        if !x.told then
          some ((others.foldl (fun (s : State) p => s.sendTo k 0 .progress p (fun m => { m with args := [x.landed] })) s).onRot k
            (fun x => { x with told := true }))
        else if i.unacked = [] && others.all (fun p => (SMap.get none x.progress p).isSome) then
          some (s.finishRot k i x (x.ring.map (fun p =>
            if p = r.me then x.landed else if r.missing i.num p then 0xFFFFFFFF else (SMap.get none x.progress p).getD 0)))
        else none
      else match s.sendBlock k r i x with
        | some s => some s
        | none =>
          if x.landed + 1 = x.size && x.sent + 1 = x.size && i.unacked = [] then
            some (s.finishRot k i x (List.replicate x.size (x.size - 1)))
          else none

/-- A set whose block has been consumed and forwarded is released, and its credit goes upstream, unless a record of that finds no room (R326,
R400). The set's number is its registration context × 8 + its place. -/
def execSetRelease (set : Nat) (s : State) : Result :=
  let k := set / 8
  match (s.reg k).bind (·.rot) with
  | some x =>
    match x.sets[set % 8]? with
    | some y =>
      if y.block.isSome && x.readsN ≤ y.reads && y.forwarded then
        let t := (s.onRot k (fun x => { x with sets := x.sets.set (set % 8) {} })).sendCredits k 1
        .next (if s.fits t x.core then t else s)
      else .next s
    | none => .next s
  | none => .next s

/-- A step of an instance as the engine takes it: one whose record finds no free entry in its queue is held, and so is one whose memory lies
on a stack that is not ready (R326, R416). -/
def engineStep (s : State) (r : Reg) (i : Inst) (o : Option State) : Result :=
  match o with
  | none => .next s
  | some s' =>
    if s.instHeld r i || !s.roomFor s' || !s.fits s' (coreOfHart i.hart) then .next s
    else .next s'

/-- The engine takes up a fault that another package found, or performs the next step of a registration's instance, a program's or a
rotation's. -/
def execCollectiveStep (reg : Nat) (s : State) : Result :=
  match s.reg reg with
  | none => .next s
  | some r =>
    match r.inst with
    | none => .next s
    | some i =>
      engineStep s r i ((s.pullFault reg r i).or (match i.kind, r.rot with
        | .program, _ => s.programStep reg r i
        | .rotation, some x => s.rotStep reg r i x
        | _, _ => none))

/-- The engine performs the next part of a repartition. -/
def execRepartitionExchange (reg : Nat) (s : State) : Result :=
  match s.reg reg with
  | none => .next s
  | some r =>
    match r.inst with
    | none => .next s
    | some i =>
      match i.rep with
      | some p => if i.kind = .repartition then engineStep s r i ((s.pullFault reg r i).or (s.repStep reg r i p)) else .next s
      | none => .next s

end Sys2Proof.Machine
end

