-- ==== Sys2Proof/Machine/Groups.lean ====
section
/-! DEFINITION. The collective instructions (19 R359, R366, R369, R372, R373, R385, R388; 20 R391, R392, R398): major 0x2E and
`xbatch.coll`. -/

namespace Sys2Proof.Machine

/-! ## Groups (R357, R359, R404) -/

/-- A group entry. -/
structure GroupEntry where
  gid : Nat
  rel : Bool
  log : Bool
  size : Nat
  me : Nat
  gen : Nat
  subs : List (Option (Nat × Nat))
  land : Word
  lsz : Nat
  clean : Bool

def GroupEntry.ofNat (e : Nat) : GroupEntry :=
  let sub := fun (j : Nat) => recBits e (0x10 + 8 * j) 63 0
  { gid := recBits e 0 31 0, rel := recBits e 4 31 31 = 1, log := recBits e 4 30 30 = 1, size := recBits e 4 18 0
    me := recBits e 8 17 0, gen := recBits e 0xC 31 0
    subs := (List.range 4).map (fun j => if (sub j).testBit 63 then some (bits (sub j) 37 19, bits (sub j) 18 0) else none)
    land := sext57 (word (recBits e 0x30 56 22 * 2 ^ 22)), lsz := recBits e 0x30 3 0
    clean := recBits e 4 29 19 = 0 && recBits e 8 31 18 = 0 && (List.range 4).all (fun j => bits (sub j) 62 38 = 0) &&
      recBits e 0x30 63 57 = 0 && recBits e 0x30 21 4 = 0 && recBits e 0x38 63 0 = 0 }

/-- Fields in range and subgroups that divide the group (R357). -/
def GroupEntry.ok (e : GroupEntry) : Bool :=
  e.clean && e.gid ≠ 0 && 1 ≤ e.size && e.size ≤ 262144 && e.me < e.size && e.lsz ≤ 11 &&
    e.subs.all (fun x => match x with
      | some (str, span) => 1 ≤ str && str ≤ 262144 && 1 ≤ span && span ≤ 262144 && e.size % (span * str) = 0
      | none => true)

/-- Rank-table entries read from a region. -/
def State.readTable (s : State) (pages : List Nat) (n : Nat) : List (Nat × Bool) :=
  let bs := s.readPages pages 0x100000 (4 * n)
  (List.range n).map (fun k => let e := elemAt bs 4 k; (e % 2 ^ 18, e.testBit 31))

def tableBytes (t : List (Nat × Bool)) : List Byte := t.flatMap (fun x => natToBytes 4 (x.1 + x.2.toNat * 2 ^ 31))

/-- The five words at the head of the control page (R358). -/
def State.writeControl (s : State) (r : Reg) : State :=
  s.writeRegion r 0 (natToBytes 4 r.gid ++ natToBytes 4 r.size ++ natToBytes 4 r.me ++ natToBytes 4 r.gen ++ natToBytes 4 r.next)

/-- A registration context in use by no registration and kept for no join. -/
def Coll.freeReg (c : Coll) : Option Nat :=
  (List.range 256).find? (fun k => (SMap.get none c.regs k).isNone && !c.joins.any (fun j => j.slot = k && !j.done))

/-- A member is lost to a registration: no longer live, a change pending, the running instance told (R383). -/
def State.loseMember (s : State) (k p : Nat) : State :=
  match s.reg k with
  | none => s
  | some r =>
    if !(r.member p).2 then s
    else
      let s := s.writeRegion r (0x100000 + 4 * p) (natToBytes 4 (r.member p).1)
      ((s.onReg k (fun r =>
        { r with table := r.table.set p ((r.member p).1, false), pending := true
                 inst := r.inst.map (fun i => { i with memb := true, unacked := i.unacked.filter (· ≠ p) }) })).answerCounts k).tellCounts k
          (fun x => x.ring.contains p)

/-- The members of a new or changed registration on packages that are lost are lost to it too (R383, log 61). -/
def State.loseGone (s : State) (k : Nat) : State :=
  match s.reg k with
  | none => s
  | some r =>
    (List.range r.table.length).foldl (fun (s : State) p => if s.coll.lost.contains (r.member p).1 then s.loseMember k p else s) s

/-- A group rank of an earlier GEN of a registration by its present ranks (R385). -/
def Reg.follow (r : Reg) (gen p : Nat) : Option Nat :=
  if r.gen = gen then some p
  else (r.past.findIdx? (fun x => x.gen = gen)).bind (fun n =>
    ((r.past.take (n + 1)).reverse).foldl (fun (q : Option Nat) x => q.bind (fun q => x.kept.findIdx? (· = q))) (some p))

/-- ME that a registration has, or had, in a GEN. -/
def Reg.meAt (r : Reg) (gen : Nat) : Option Nat :=
  if r.gen = gen then some r.me else (r.past.find? (fun x => x.gen = gen)).map (·.me)

/-- The ranks in a GEN of the registrations that a package still has of a GID, but for the one in a context. -/
def Coll.claimed (c : Coll) (gid gen but : Nat) : List Nat :=
  c.live.filterMap (fun p => if p.2.gid = gid && !p.2.released && p.1 ≠ but then p.2.meAt gen else none)

/-- A live member of a registration that lies on its own package and has no registration there: the one of a rank where it is one, else the
first. -/
def Reg.unclaimed (r : Reg) (rank me : Nat) (claimed : List Nat) : Option Nat :=
  let ps := (List.range r.table.length).filter (fun p => r.member p = (rank, true) && !claimed.contains p)
  if ps.contains me then some me else ps.head?

/-- The group rank in a GEN of a registration that is gone: its own where it has been in that GEN, else as the package's others of the GID
have followed it there, else the member there that no registration of the package claims (R404, log 61). -/
def State.rankAt (s : State) (gone : Reg) (gen : Nat) : Option Nat :=
  let others := s.coll.live.filter (fun p => p.2.gid = gone.gid && !p.2.released && p.2.gen = gen)
  ((gone.meAt gen).or (others.findSome? (fun p => p.2.follow gone.gen gone.me))).or
    (others.findSome? (fun p => p.2.unclaimed s.coll.rank gone.me (s.coll.claimed gone.gid gen 256)))

/-- A registration of this package is gone: its rank is lost to the others of the GID, and to the slots of this package's Square (R404). -/
def State.loseLocal (s : State) (gone : Reg) : State :=
  let gens := (s.coll.live.filter (fun p => p.2.gid = gone.gid && !p.2.released)).map (fun p => (p.1, s.rankAt gone p.2.gen))
  (gens.foldl (fun (s : State) x => match x.2 with | some me => s.loseMember x.1 me | none => s) s).squareRemove
    (fun key e => key.gid = gone.gid && e.2 = s.coll.rank && s.rankAt gone key.gen = some e.1)

/-- What an instruction that may start something comes to: a trap, a wait, or a result code. -/
inductive Started
  | trap (t : Trap)
  | hold
  | code (n : Nat)
  deriving DecidableEq, Repr

/-- What was to be started is, with code 0, or waits for the room of its records (R326). -/
def State.started (s t : State) : Started × State := if s.roomFor t && s.fits t s.coreNum then (.code 0, t) else (.hold, s)

/-- The poisoned word of n bytes from an offset of a list of pages that is first met, as an offset (R334). -/
def State.pagesPoison (s : State) (pages : List Nat) (off n : Nat) : Option Nat :=
  ((List.range (n / 16 + 2)).map (fun k => off / 16 * 16 + 16 * k)).find? (fun o => o < off + n && s.poisonedKey (s.part.key (pages.getD (o / 4096) 0 + o % 4096)))

/-- The registration that an entry asks for (R359); the hart reads the rank table as it reads the entry (R334), once all of its region's
stacks are ready (R416). -/
def State.register (s : State) (e : GroupEntry) : Started × State :=
  if !e.ok then (.code 3, s)
  else if s.pinHeld e.land (2 ^ e.lsz * 0x400000) then (.hold, s)
  else match s.pinned e.land (2 ^ e.lsz * 0x400000) with
    | (none, s) => (.code 3, s)
    | (some pages, s) =>
      if pages.any (fun pa => !s.stackReady pa) then (.hold, s)
      else match s.pagesPoison pages 0x100000 (4 * e.size) with
      | some o => (.trap (poisonTrap (e.land + word o)), s)
      | none =>
        let table := s.readTable pages e.size
        let ctx := s.hart.ctx
        let twin := s.coll.live.any (fun p => p.2.gid = e.gid && p.2.me = e.me && p.2.ctx ≠ ctx && !p.2.released)
        if (table.getD e.me (0, false)).1 ≠ s.coll.rank || (!e.rel && twin) then (.code 3, s)
        else
          let put := fun (k : Nat) (s : State) =>
            let r : Reg := { ctx := ctx, gid := e.gid, log := e.log, size := e.size, me := e.me, gen := e.gen
                             subs := e.subs, lsz := e.lsz, pages := pages, table := table }
            s.started ((((s.setReg k (some r)).writeControl r).loseGone k).retry).retrySquare
          match s.findReg ctx e.gid with
          | none =>
            if e.rel then (.code 2, s)
            else match s.coll.freeReg with
              | none => (.code 5, s)
              | some k => put k s
          | some (k, r) =>
            if r.inst.isSome then (.code 1, s)
            else if e.rel then s.started ((s.setReg k none).loseLocal r)
            else put k s

/-- A starting instruction: its trap, its wait, or its code in s[d]. -/
def finishStart (d : SReg) (x : Started × State) : Result :=
  match x with
  | (.trap t, s) => raiseTrap s t
  | (.hold, s) => wait s .other
  | (.code n, s) => finishS s d (word n)

def execCgrp (d a : SReg) (s : State) : Result :=
  match s.loadBlock (s.hart.sreg a) 64 with
  | (.trap t, s) => raiseTrap s t
  | (.hold, s) => wait s .other
  | (.ok bs, s) => finishStart d (s.register (GroupEntry.ofNat (bytesToNat bs)))

/-! ## Programs (R366) -/

/-- n words of four bytes loaded by the hart. -/
def State.loadWords (s : State) (va : Word) : Nat → Loaded × State
  | 0 => (.ok [], s)
  | n + 1 =>
    match s.loadBlock va 4 with
    | (.ok bs, s) =>
      match s.loadWords (va + 4) n with
      | (.ok cs, s) => (.ok (bs ++ cs), s)
      | r => r
    | r => r

/-- The last store word that a program from an entry reaches: its END (R366). -/
def programEnd (store : SMap Nat) : Nat → Nat → Nat
  | 0, p => p
  | fuel + 1, p => if stepOp (SMap.get 0 store p) = 0 then p else programEnd store fuel (p + 1)

def Coll.progEnd (c : Coll) (entry : Nat) : Nat := programEnd c.store (16383 - entry) entry

def execCprg (d a b : SReg) (s : State) : Result :=
  let x := s.hart.sreg b
  let first := field x 13 0
  let count := field x 46 32
  if field x 63 47 ≠ 0 || field x 31 14 ≠ 0 then raiseIllegal s (.cprg d a b)
  else if count = 0 || 16384 < first + count then finishS s d 3
  else match s.loadWords (s.hart.sreg a) count with
    | (.trap t, s) => raiseTrap s t
    | (.hold, s) => wait s .other
    | (.ok bs, s) =>
      let ws := (List.range count).map (fun k => elemAt bs 4 k)
      let busy := s.coll.live.any (fun p => match p.2.inst with
        | some i => i.kind = .program && i.derived.isNone && first ≤ s.coll.progEnd i.entry && i.entry < first + count
        | none => false)
      if ws.any stepBad || !loopsOk 0 ws then finishS s d 3
      else if busy then finishS s d 1
      else
        let store := (List.range count).foldl (fun m k => SMap.set 0 m (first + k) (ws.getD k 0)) s.coll.store
        finishS { s with coll := { s.coll with store := store } } d 0

/-! ## Starting an instance (R368, R369) -/

/-- A buffer descriptor's two words. -/
structure BufWords where
  lo : Nat
  hi : Nat

def BufWords.v (b : BufWords) : Bool := b.lo.testBit 63
def BufWords.land (b : BufWords) : Bool := b.lo.testBit 62
def BufWords.clean (b : BufWords) : Bool := bits b.lo 61 57 = 0 && bits b.hi 63 48 = 0
def BufWords.bytes (b : BufWords) : Nat := bits b.hi 31 0
def BufWords.parts (b : BufWords) : Nat := bits b.hi 47 32
def BufWords.slot (b : BufWords) : Nat := bits b.lo 7 0
def BufWords.cnt (b : BufWords) : Nat := bits b.lo 15 8

def bufAt (r off : Nat) : BufWords := ⟨recBits r off 63 0, recBits r (off + 8) 63 0⟩

/-- The first slot that a set of slot buffers names outside the grant (R137). -/
def State.bufOutside (s : State) (bs : List BufWords) : Option Nat :=
  bs.findSome? (fun b => if b.v && !b.land then slotOutside (s.gangOf s.cur) b.slot b.cnt else none)

/-- A descriptor that holds, translated; the second answer says that a page of pinned memory failed (R368, R369). -/
def State.makeBuf (s : State) (b : BufWords) : Option Buf × Bool × State :=
  let good := b.v && b.clean && b.parts ≠ 0 && b.bytes ≠ 0 && b.bytes % (4 * b.parts) = 0
  if b.v && b.land then
    let va := sext57 (word b.lo)
    match if b.bytes = 0 then (some [], s) else s.pinned va b.bytes with
    | (none, s) => (none, true, s)
    | (some ps, s) =>
      (if good && va.toNat % 4 = 0 then
        some { land := true, offset := va.toNat % 4096, pages := ps, parts := b.parts, bytes := b.bytes } else none, false, s)
  else
    (if good && bits b.lo 56 20 = 0 && b.cnt ≠ 0 && bits b.lo 19 16 ≤ 4 && b.bytes ≤ 16384 * b.cnt then
      some { land := false, core := s.coreNum, slot := b.slot, cnt := b.cnt, lay := bits b.lo 19 16, parts := b.parts, bytes := b.bytes }
    else none, false, s)

/-- A pinned buffer's translation waits for a stack that is not ready (R416). -/
def State.bufsHeld (s : State) (bs : List BufWords) : Bool := bs.any (fun b => b.v && b.land && b.bytes ≠ 0 && s.pinHeld (sext57 (word b.lo)) b.bytes)

def State.makeBufs (s : State) : List BufWords → List (Option Buf) × Bool × State
  | [] => ([], false, s)
  | b :: bs =>
    let (x, f, s) := s.makeBuf b
    let (xs, g, s) := s.makeBufs bs
    (x :: xs, f || g, s)

/-- The barrier of a call block: none with NB; a trap outside the grant (R148). -/
def State.callBar (s : State) (w4 : Nat) : Except Trap (Option Nat) :=
  if w4.testBit 10 then .ok none
  else if barOutside (s.gangOf s.cur) (w4 % 1024) then .error (protectionTrap (w4 % 1024))
  else .ok (some (w4 % 1024))

/-- A step that a registration and its buffers can run (R362, R363, R369). -/
def stepOk (r : Reg) (bufs : List (Option Buf)) (peers : List Nat) (w : Nat) : Bool :=
  let u := stepUse w
  let named := fun (k : Nat) => (bufs.getD k none).isSome
  let parts := fun (k : Nat) => ((bufs.getD k none).map (·.parts)).getD 0
  match (if u.pm || stepOp w = 7 then r.scope (stepPm w) (stepSub w) else some ⟨1, 0, 0, 1⟩) with
  | none => false
  | some c =>
    (!(u.peer && stepPm w = 0) || peers.getD (bits w 23 16) 0 < r.size) && (!u.src || named (stepSrc w)) &&
      (!u.dst || named (stepDst w)) && (stepOp w ≠ 11 || (parts (stepSrc w) = c.n && parts (stepDst w) = c.n)) &&
      (stepOp w ≠ 9 || c.n ≤ 64)

/-- An accepted instance: NEXT, masks, and the log emptied where asked (R369, R387). -/
def State.accept (s : State) (k : Nat) (i : Inst) (snap : Bool) : State :=
  match s.reg k with
  | none => s
  | some r =>
    let r := { r with inst := some i, next := (i.num + 1) % 65536
                      logFirst := if snap then i.num else r.logFirst, logCount := if snap then 0 else r.logCount
                      logTail := if snap then 0 else r.logTail, logFull := if snap then false else r.logFull
                      logBase := if snap then (0, 0) else (r.logCount, r.logTail) }
    let s := (s.setReg k (some r)).writeControl r
    let s := s.writeRegion r 0x1000 (maskBytes r.size (fun p => (r.member p).2))
    let s := s.writeRegion r 0x9000 (List.replicate 32768 0)
    (if snap then s.writeLogHeader k else s).retry

/-- The codes that come before the checks of the block (R369), for a GID in the hart's context. -/
def State.startCode (s : State) (gid : Nat) : Except Nat (Nat × Reg) :=
  match s.findReg s.hart.ctx gid with
  | none => .error 2
  | some (k, r) => if r.pending then .error 4 else if r.inst.isSome then .error 1 else .ok (k, r)

/-- The gang whose grant an instance names (R138). -/
def State.callGang (s : State) (bar : Option Nat) (bs : List (Option Buf)) : Option Nat :=
  if bar.isSome || bs.any (fun b => (b.map (fun b => !b.land)).getD false) then s.hart.gang else none

def State.startProgram (s : State) (va : Word) : Started × State :=
  if va.toNat % 64 ≠ 0 then (.trap ⟨cMisaligned, va, 0⟩, s)
  else match s.loadBlocks va 4 with
  | (.trap t, s) => (.trap t, s)
  | (.hold, s) => (.hold, s)
  | (.ok bytes, s) =>
    let q := bytesToNat bytes
    let w0 := recBits q 0 31 0
    let w4 := recBits q 4 31 0
    let raw := (List.range 12).map (fun b => bufAt q (0x40 + 16 * b))
    match s.callBar w4 with
    | .error t => (.trap t, s)
    | .ok bar =>
      match s.bufOutside raw with
      | some x => (.trap (protectionTrap x), s)
      | none =>
        match s.startCode (recBits q 8 31 0) with
        | .error n => (.code n, s)
        | .ok (k, r) =>
        if s.bufsHeld raw then (.hold, s)
        else
          let (bufs, fails, s) := s.makeBufs raw
          let peers := (List.range 8).map (fun j => recBits q (0x10 + 4 * j) 17 0)
          let clean := bits w0 15 14 = 0 && bits w4 31 21 = 0 && bits w4 14 13 = 0 && recBits q 0xC 31 0 = 0 &&
            (List.range 8).all (fun j => recBits q (0x10 + 4 * j) 31 18 = 0) && recBits q 0x30 127 0 = 0 && raw.all BufWords.clean
          let entry := bits w0 13 0
          let kind := bits w4 16 15
          let num := bits w0 31 16
          let derived := if kind = 0 then none else
            match bufs.getD 0 none with
            | some b => r.derive kind (bits w4 20 17) b.bytes
            | none => none
          let words := (List.range (s.coll.progEnd entry + 1 - entry)).map (fun j => SMap.get 0 s.coll.store (entry + j))
          if num ≠ r.next || !clean || fails || (if kind = 0 then !words.all (stepOk r bufs peers) else derived.isNone) then (.code 3, s)
          else
            let i : Inst := { num := num, kind := .program, call := va, hart := s.cur, pc := s.hart.pc, gang := s.callGang bar bufs
                              bar := bar, log := r.log && w4.testBit 12, entry := entry, next := if kind = 0 then entry else 0
                              derived := derived, bufs := bufs, peers := peers }
            s.started (s.accept k i (r.log && w4.testBit 11))

def execCstart (d a : SReg) (s : State) : Result := finishStart d (s.startProgram (s.hart.sreg a))

/-! ## Repartition and rotation (R391, R392, R398) -/

/-- A result area of 64 + 4 × SIZE bytes in pinned memory. -/
def State.resultArea (s : State) (va : Word) (size : Nat) : Option Buf × State :=
  match s.pinned va (64 + 4 * size) with
  | (some ps, s) => (some { land := true, offset := va.toNat % 4096, pages := ps, parts := 1, bytes := 64 + 4 * size }, s)
  | (none, s) => (none, s)

def execCrepart (d a : SReg) (s : State) : Result :=
  let va := s.hart.sreg a
  if va.toNat % 64 ≠ 0 then raiseTrap s ⟨cMisaligned, va, 0⟩
  else match s.loadBlocks va 2 with
  | (.trap t, s) => raiseTrap s t
  | (.hold, s) => wait s .other
  | (.ok bytes, s) =>
    let q := bytesToNat bytes
    let w4 := recBits q 4 31 0
    let raw := [bufAt q 0x10, bufAt q 0x20, bufAt q 0x30]
    match s.callBar w4 with
    | .error t => raiseTrap s t
    | .ok bar =>
      match s.bufOutside raw with
      | some x => raiseTrap s (protectionTrap x)
      | none =>
        match s.startCode (recBits q 8 31 0) with
        | .error n => finishS s d (word n)
        | .ok (k, r) =>
        let resVa := sext57 (word (recBits q 0x40 63 0))
        if s.bufsHeld raw || s.pinHeld resVa (64 + 4 * r.size) then wait s .other
        else
          let (bufs, fails, s) := s.makeBufs raw
          let (res, s) := s.resultArea resVa r.size
          let rsz := if w4.testBit 11 then 64 else 32
          let offs := (List.range 4).map (fun j => recBits q (0xC + j) 7 0)
          let num := recBits q 0 31 16
          let clean := recBits q 0 15 0 = 0 && bits w4 31 12 = 0 && recBits q 0x40 63 57 = 0 && recBits q 0x48 447 0 = 0 &&
            raw.all BufWords.clean
          match bufs.getD 0 none, bufs.getD 1 none, bufs.getD 2 none, res with
          | some bi, some bo, some bv, some res =>
            let ok := num = r.next && clean && !fails && [bi, bo, bv].all (fun b => b.parts = 1 && b.bytes % rsz = 0) &&
              offs.all (fun o => o % 4 = 0 && o + 4 ≤ rsz) && bi.bytes ≤ bv.bytes && resVa.toNat % 64 = 0
            if !ok then finishS s d 3
            else
              let p : Repart := { rsz := rsz, offs := offs, input := bi, out := bo, ovf := bv, res := res
                                  members := (List.range r.size).filter (fun m => (r.member m).2) }
              let i : Inst := { num := num, kind := .repartition, call := va, hart := s.cur, pc := s.hart.pc
                                gang := s.callGang bar bufs, bar := bar, rep := some p }
              finishStart d (s.started (s.accept k i false))
          | _, _, _, _ => finishS s d 3

/-- Bits of SEEN that are set; a poisoned word of it traps the hart, which reads it as it reads the block (R334, R354). -/
def State.seenRanks (s : State) (b : Buf) (n : Nat) : List Nat :=
  let bs := s.readPages b.pages b.offset ((n + 7) / 8)
  (List.range n).filter (fun k => ((bs.getD (k / 8) 0).toNat).testBit (k % 8))

def execCrot (d a : SReg) (s : State) : Result :=
  let va := s.hart.sreg a
  if va.toNat % 64 ≠ 0 then raiseTrap s ⟨cMisaligned, va, 0⟩
  else match s.loadBlocks va 1 with
  | (.trap t, s) => raiseTrap s t
  | (.hold, s) => wait s .other
  | (.ok bytes, s) =>
    let q := bytesToNat bytes
    let w4 := recBits q 4 31 0
    let wc := recBits q 0xC 31 0
    let own := recBits q 0x10 31 0
    let rw := recBits q 0x14 31 0
    let bcnt := bits wc 23 16
    let nres := bits wc 3 0
    let rslot := bits rw 7 0
    let oslot := bits own 7 0
    let seenVa := word (recBits q 0x18 63 0)
    let resVa := word (recBits q 0x20 63 0)
    match s.callBar w4 with
    | .error t => raiseTrap s t
    | .ok bar =>
      match (slotOutside (s.gangOf s.cur) oslot (bits own 15 8)).or (slotOutside (s.gangOf s.cur) rslot (nres * bcnt)) with
      | some x => raiseTrap s (protectionTrap x)
      | none =>
        match s.startCode (recBits q 8 31 0) with
        | .error n => finishS s d (word n)
        | .ok (k, r) =>
          if (r.rot.map (fun x => x.sets.any (fun y => y.block.isSome))).getD false then finishS s d 1
          else
            let scope := if w4.testBit 12 then r.scope 2 (bits w4 14 13) else r.scope 1 0
            let n := (scope.map (·.n)).getD 1
            if s.pinHeld resVa (64 + 4 * r.size) || (seenVa ≠ 0 && s.pinHeld seenVa ((n + 7) / 8)) then wait s .other
            else
            let (res, s) := s.resultArea resVa r.size
            let (seen, s) := if seenVa = 0 then (some { land := true, parts := 1, bytes := 0 }, s) else
              match s.pinned seenVa ((n + 7) / 8) with
              | (some ps, s) => (some { land := true, offset := seenVa.toNat % 4096, pages := ps, parts := 1, bytes := (n + 7) / 8 : Buf }, s)
              | (none, s) => (none, s)
            let num := recBits q 0 31 16
            let clean := recBits q 0 15 0 = 0 && bits w4 31 15 = 0 && bits w4 11 11 = 0 && bits wc 31 24 = 0 && bits wc 7 4 = 0 &&
              bits own 31 20 = 0 && bits rw 31 12 = 0 && recBits q 0x28 191 0 = 0
            let apart := oslot + bcnt ≤ rslot || rslot + nres * bcnt ≤ oslot
            let range := 1 ≤ bcnt && bcnt ≤ 16 && 1 ≤ bits wc 15 8 && 2 ≤ nres && nres ≤ 8 && bits own 15 8 = bcnt &&
              bits own 19 16 ≤ 4 && bits rw 11 8 ≤ 4
            match scope, res, seen with
            | some c, some res, some seen =>
              if num ≠ r.next || !clean || !range || !apart then finishS s d 3
              else match s.pagesPoison seen.pages seen.offset seen.bytes with
              | some o => raiseTrap s (poisonTrap (seenVa / 4096 * 4096 + word o))
              | none =>
                let x : Rotation :=
                  { core := s.coreNum, gang := s.hart.gang, inst := num, ring := (List.range c.n).map c.member, rho := c.rr, bcnt := bcnt
                    readsN := bits wc 15 8
                    own := { land := false, core := s.coreNum, slot := oslot, cnt := bcnt, lay := bits own 19 16, parts := 1
                             bytes := bcnt * 16384 }
                    rslot := rslot, seen := if seenVa = 0 then [] else s.seenRanks seen c.n, res := res
                    sets := List.replicate nres {} }
                let i : Inst := { num := num, kind := .rotation, call := va, hart := s.cur, pc := s.hart.pc, gang := s.hart.gang, bar := bar }
                let t := (s.accept k i false).onReg k (fun r => { r with rot := some x })
                finishStart d (s.started (t.sendCredits k (if c.n ≤ 1 then 0 else nres)))
            | _, _, _ => finishS s d 3

/-! ## Waiting, polling, aborting (R360, R372 to R374) -/

/-- An instance operand that traps: a reserved bit, or INST beside JN. -/
def instBad (x : Word) : Bool := field x 63 49 ≠ 0 || (bit x 48 && field x 47 32 ≠ 0)

/-- What `cwait` and `cpoll` find. -/
inductive Found
  | nothing
  | fault (d0 : Word) (s : State)
  | running (status : Word)
  | over (status : Word)

/-- The join's status word. -/
def Join.status (j : Join) : Word := word (j.fault.toNat * 128 + j.done.toNat)

def State.findInst (s : State) (x : Word) : Found :=
  let ctx := s.hart.ctx
  let gid := field x 31 0
  if bit x 48 then
    match s.coll.joins.find? (fun j => j.ctx = ctx && j.gid = gid) with
    | some j => if j.done then .over j.status else .running j.status
    | none => .nothing
  else match s.findReg ctx gid with
    | none => .nothing
    | some (k, r) =>
      let num := field x 47 32
      match r.inst.filter (fun i => i.num = num), r.last.filter (fun l => l.num = num) with
      | some i, _ =>
        match i.report with
        | some d0 => .fault d0 (s.onInst k (fun i => { i with report := none }))
        | none => .running (i.status false)
      | none, some l =>
        match l.report with
        | some d0 => .fault d0 (s.onReg k (fun r => { r with last := r.last.map (fun l => { l with report := none }) }))
        | none => .over l.status
      | none, none => .nothing

def execCwait (d a : SReg) (s : State) : Result :=
  let x := s.hart.sreg a
  if instBad x then raiseIllegal s (.cwait d a)
  else match s.findInst x with
    | .nothing => finishS s d 0
    | .fault d0 s => raiseTrap s ⟨cCollective, d0, 0⟩
    | .running _ => wait s (.engine (2 ^ 58))
    | .over w => finishS s d w

def execCpoll (d a : SReg) (s : State) : Result :=
  let x := s.hart.sreg a
  if instBad x then raiseIllegal s (.cpoll d a)
  else match s.findInst x with
    | .nothing => finishS s d 0
    | .fault d0 s => raiseTrap s ⟨cCollective, d0, 0⟩
    | .running w => finishS s d w
    | .over w => finishS s d w

/-- The running instance of an operand is aborted: its result code (R373). -/
def State.abortInst (s : State) (x : Word) : Nat × State :=
  if bit x 48 then (2, s)
  else match s.findReg s.hart.ctx (field x 31 0) with
    | none => (2, s)
    | some (k, r) =>
      if (r.inst.map (·.num)) = some (field x 47 32) then (0, s.onInst k (fun i => { i with aborted := true })) else (2, s)

def execCabort (d a : SReg) (s : State) : Result :=
  let x := s.hart.sreg a
  if instBad x then raiseIllegal s (.cabort d a)
  else let (code, s) := s.abortInst x; finishS s d (word code)

/-- Collective command records (R369): accepted exactly when the instruction would write 0. -/
def execXbatchColl (d : PReg) (a : BitVec 3) (s : State) : Result :=
  let h := s.hart
  xbatch s d (fun s k =>
    let r := h.batchRecord a.toNat k
    let x := word (recBits r 8 63 0)
    match recBits r 0 7 0 with
    | 2 =>
      match s.startProgram x with
      | (.hold, _) => .hold
      | (.code 0, s) => .accepted s
      | (_, s) => .invalid s
    | 5 =>
      if instBad x then .invalid s
      else match s.abortInst x with
        | (0, s) => .accepted s
        | (_, s) => .invalid s
    | _ => .invalid s)

/-! ## Membership (R385, R388) -/

/-- The group after a change: live old ranks, then joiners by RANK (R385). -/
def Reg.shrunk (r : Reg) (rank : Nat) : Reg :=
  let table := r.table.filter (·.2) ++ ((r.joiners.map (·.1)).mergeSort (· ≤ ·)).map (fun q => (q, true))
  { r with gen := (r.gen + 1) % 2 ^ 32, table := table, size := table.length
           me := ((table.findIdx? (fun x => x.1 = rank)).getD 0), subs := [none, none, none, none], pending := false, joiners := [], early := [], rots := [] }

/-- ME of a survivor: the live old ranks below it. -/
def Reg.newMe (r : Reg) : Nat := ((r.table.take r.me).filter (·.2)).length

/-- What a `cshrink` of a registration changes. -/
def Reg.shrink (r : Reg) : Shrink :=
  { gen := r.gen, me := r.me, next := r.next, kept := (List.range r.table.length).filter (fun p => (r.member p).2) }

/-- A membership change taken up by a registration (R385, R388). -/
def State.shrinkReg (s : State) (k : Nat) (r : Reg) : State :=
  let r' := { r.shrunk s.coll.rank with me := r.newMe, past := r.shrink :: r.past }
  let s := (s.setReg k (some r')).writeControl r'
  let s := s.writeRegion r' 0x100000 (tableBytes r'.table)
  let s := { s with coll := { s.coll with stale := s.coll.stale + word r.early.length } }
  let s := r.joiners.foldl (fun s j =>
    let s := match j.2 with
      | some tail => s.donate r' 1 j.1 tail
      | none => s
    (s.sendMsg { kind := .joinAck, src := s.coll.rank, dst := j.1, gid := r.gid, gen := r'.gen, fromRank := r'.me }).getD s) s
  (s.loseGone k).retry.retrySquare

def execCshrink (d a : SReg) (s : State) : Result :=
  let x := s.hart.sreg a
  if field x 63 32 ≠ 0 then raiseIllegal s (.cshrink d a)
  else match s.findReg s.hart.ctx (field x 31 0) with
    | none => finishS s d 2
    | some (k, r) =>
      if !r.pending then finishS s d 2
      else if r.inst.isSome then finishS s d 1
      else finishStart d (s.started (s.shrinkReg k r))

/-- A spare begins its join, once all of its region's stacks are ready (R416); reserved bits count as for `cgrp` (R388). -/
def State.startJoin (s : State) (e : GroupEntry) (x : Word) : Started × State :=
  if !e.clean || e.gid = 0 || 11 < e.lsz then (.code 3, s)
  else if s.pinHeld e.land (2 ^ e.lsz * 0x400000) then (.hold, s)
  else match s.pinned e.land (2 ^ e.lsz * 0x400000) with
    | (none, s) => (.code 3, s)
    | (some pages, s) =>
      if pages.any (fun pa => !s.stackReady pa) then (.hold, s)
      else
      let ctx := s.hart.ctx
      let mine := fun (j : Join) => j.ctx = ctx && j.gid = e.gid
      let known := s.findReg ctx e.gid
      let slot := match known with
        | some (k, _) => some k
        | none => s.coll.freeReg
      match slot with
      | none => (.code 5, s)
      | some k =>
        if (known.map (fun p => p.2.inst.isSome)).getD false || s.coll.joins.any (fun j => mine j && !j.done) then (.code 1, s)
        else
          let j : Join := { ctx := ctx, gid := e.gid, slot := k, donor := field x 17 0, enter := bit x 32, log := e.log, lsz := e.lsz
                            pages := pages, hart := s.cur }
          let ask : Msg := { kind := .joinFetch, src := s.coll.rank, dst := j.donor, gid := e.gid }
          let others := s.coll.joins.filter (fun j => !mine j)
          match s.sendMsg ask with
          | some s => (.code 0, { s with coll := { s.coll with joins := j :: others } })
          | none => (.code 0, { s with coll := { s.coll with joins := { j with fault := true, done := true } :: others } })

def execCjoin (d a b : SReg) (s : State) : Result :=
  let x := s.hart.sreg b
  if field x 63 33 ≠ 0 || field x 31 18 ≠ 0 then raiseIllegal s (.cjoin d a b)
  else match s.loadBlock (s.hart.sreg a) 64 with
    | (.trap t, s) => raiseTrap s t
    | (.hold, s) => wait s .other
    | (.ok bs, s) =>
      finishStart d (s.startJoin (GroupEntry.ofNat (bytesToNat bs)) x)

end Sys2Proof.Machine
end

