-- ==== Sys2Proof/Machine/Messages.lean ====
section
/-! DEFINITION. Arrivals and forwarding of collective messages, ports, and the loss of packages (19 R370, R373, R376, R379, R383, R388). -/

namespace Sys2Proof.Machine

/-! ## Joins at the spare (R388) -/

/-- ME of a spare: its position in the table, found by its package's RANK. Joiners follow every survivor, so it is the last position of that RANK
that no registration of the package claims. -/
def spareMe (table : List (Nat × Bool)) (rank : Nat) (claimed : List Nat) : Nat :=
  (((List.range table.length).reverse.find? (fun p => (table.getD p (0, false)).1 = rank && !claimed.contains p))).getD 0

/-- A registration made for a spare that has joined. -/
def Join.reg (j : Join) (rank : Nat) (claimed final : List Nat) : Reg :=
  let table := tableOf (final.drop 9)
  { ctx := j.ctx, gid := j.gid, log := j.log, size := final.getD 1 0, me := spareMe table rank claimed
    gen := final.getD 2 0, subs := [none, none, none, none], lsz := j.lsz, pages := j.pages, next := final.getD 3 0, table := table
    logFirst := final.getD 4 0, logCount := final.getD 5 0, logTail := final.getD 6 0, logFull := final.getD 7 0 = 1 }

/-- A join whose acknowledgements and final values are all there completes. -/
def State.settleJoin (s : State) (j : Join) : State :=
  match j.final with
  | some f =>
    if j.enter && j.fetched && j.waiting = [] && !j.done then
      let r := j.reg s.coll.rank (s.coll.claimed j.gid (f.getD 2 0) j.slot) f
      let s := (s.setReg j.slot (some r)).writeControl r
      let s := (s.writeRegion r 0x100000 (tableBytes r.table)).loseGone j.slot
      { s with coll := { s.coll with joins := s.coll.joins.map (fun x => if x = j then { j with done := true } else x) } }.retry
    else s
  | none => s

/-- Joins changed, and those that are then complete settled. -/
def State.mapJoins (s : State) (f : Join → Join) : State :=
  let s := { s with coll := { s.coll with joins := s.coll.joins.map f } }
  s.coll.joins.foldl State.settleJoin s

/-- The donor's data at the spare: table and log into its region; with ENTER the notices go out. -/
def State.takeDonation (s : State) (m : Msg) : State :=
  match s.coll.joins.find? (fun j => j.gid = m.gid && j.donor = m.src && !j.done) with
  | none => s
  | some j =>
    let head : Reg := j.reg s.coll.rank [] m.args
    let table := head.table
    let s := s.writeRegion head 0x100000 (tableBytes table)
    let s := s.writeRegion head (0x400000 + m.args.getD 8 0) (m.chunks.flatMap (·.bytes))
    let s := s.writeRegion head 0x40 head.logHeader
    let put := fun (s : State) (j' : Join) =>
      { s with coll := { s.coll with joins := s.coll.joins.map (fun x => if x = j then j' else x) } }
    if m.args.getD 0 0 = 1 then (put s { j with final := some m.args, table := table }).mapJoins id
    else if !j.enter then put s { j with fetched := true, done := true, table := table }
    else
      let live := (List.range table.length).filter (fun p => (table.getD p (0, false)).2)
      let notice := fun (s : State) (p : Nat) =>
        let q := (table.getD p (0, false)).1
        (s.sendMsg { kind := .joinNotice, src := s.coll.rank, dst := q, gid := j.gid, gen := m.gen, toRank := p
                     args := [if q = j.donor then 1 else 0, m.args.getD 6 0, m.args.getD 4 0] }).getD s
      let s := put s { j with fetched := true, table := table, waiting := live.map (fun p => (table.getD p (0, false)).1) }
      live.foldl notice s

/-! ## Handling (R364, R370, R379, R404) -/

/-- A message for an instance's own engine: what its registration makes of it. -/
def State.atInst (s : State) (m : Msg) (f : Nat → State → State) : State :=
  match s.regOfMsg m with
  | some (k, r) => if (r.inst.map (·.num)) = some m.inst then f k s else s
  | none => s

/-- A fault that another package found in a message of an instance, for the engine to take with the instance's next step (R326, R374). -/
def State.noteFault (s : State) (m : Msg) : State := s.atInst m (fun k s => s.onReg k (fun r => { r with early := r.early ++ [m] }))

/-- What a notice of no route says of the message that had none: of a step of an instance, a contribution, a spare's fetch, or of no step. -/
def noticeClass : MsgKind → Nat
  | .contribution => 1
  | .joinFetch => 2
  | .result | .ack | .abortNotice | .joinNotice | .joinAck | .joinData | .noRoute | .squareFault | .skip => 3
  | _ => 0

/-- The notice of a package to the sender of a message that it has no route for (R379). -/
def noRouteNotice (rank : Nat) (m : Msg) : Msg :=
  { m with kind := .noRoute, src := rank, dst := m.src, fromRank := m.toRank, toRank := m.fromRank, hops := 64, chunks := []
           args := [m.seq, m.dst, noticeClass m.kind] }

/-- A message of this package has no route: a step of its instance faults, and a join at whose donor it was to fetch fails (R376, R388). -/
def State.takeNoRoute (s : State) (m : Msg) : State :=
  if m.args.getD 2 0 ≤ 1 then s.noteFault m
  else if m.args.getD 2 0 = 2 then
    s.mapJoins (fun j => if j.gid = m.gid && j.donor = m.args.getD 1 0 && !j.fetched then { j with fault := true, done := true } else j)
  else s

/-- The effect of a message that has come to its package. -/
def State.handle (s : State) (m : Msg) : State :=
  match m.kind with
  | .contribution => s.takeContribution m
  | .ack => s.atInst m (fun k s => s.onInst k (fun i => { i with unacked := i.unacked.erase m.fromRank }))
  | .noRoute => (s.tellSkip (m.args.getD 1 0) (m.args.getD 0 0)).takeNoRoute m
  | .squareFault => s.noteFault m
  | .abortNotice =>
    (s.takeOrHold m).squareRemove (fun key e => key.gid = m.gid && key.gen = m.gen && key.inst = m.inst && e.1 = m.fromRank)
  | .joinData => s.takeDonation m
  | .joinAck => s.mapJoins (fun j => if j.gid = m.gid then { j with waiting := j.waiting.erase m.src } else j)
  | .skip => s
  | _ => s.takeOrHold m

/-- Messages of a sender that are in turn (R379); one whose record finds no room waits (R326). -/
def drainOrder : Nat → Nat → State → State
  | 0, _, s => s
  | fuel + 1, q, s =>
    let n := SMap.get 0 s.coll.gotFrom q
    match s.coll.reorder.find? (fun m => m.src = q && m.seq = n) with
    | none => s
    | some m =>
      let t := { s with coll := { s.coll with reorder := s.coll.reorder.erase m, gotFrom := SMap.set 0 s.coll.gotFrom q (n + 1) } }.handle m
      if s.roomFor t then drainOrder fuel q t else s

/-- A message at its package: one from inside, or one from a port in the order of its sender's numbers (R379, R404). -/
def State.receive (s : State) (m : Msg) : State :=
  if m.dst ≠ s.coll.rank then s
  else if m.src = s.coll.rank then
    match s.coll.loop with
    | x :: rest =>
      let t := { s with coll := { s.coll with loop := rest } }.handle m
      if x = m && s.roomFor t then t else s
    | [] => s
  else if m.seq < SMap.get 0 s.coll.gotFrom m.src then s
  else
    let s := { s with coll := { s.coll with reorder := if s.coll.reorder.contains m then s.coll.reorder else s.coll.reorder ++ [m] } }
    drainOrder (s.coll.reorder.length + 1) m.src s

def execMessageArrival (msg : Msg) (s : State) : Result := .next (s.receive msg)

def execSquareContribution (msg : Msg) (s : State) : Result :=
  if msg.kind = .contribution then .next (s.receive msg) else .next s

def execAbortNoticeArrival (msg : Msg) (s : State) : Result :=
  if msg.kind = .abortNotice then .next (s.receive msg) else .next s

def execJoinNoticeArrival (msg : Msg) (s : State) : Result :=
  if msg.kind = .joinNotice then .next (s.receive msg) else .next s

/-- A block arrives and lands at once where its set is released; else it waits for its set (R399). -/
def execRotationLanding (msg : Msg) (s : State) : Result :=
  if msg.kind = .block then
    let s := s.receive msg
    match s.regOfMsg msg with
    | some (k, r) => match r.inst with
      | some i => engineStep s r i (s.landBlock k)
      | none => .next s
    | none => .next s
  else .next s

/-- A message for another RANK leaves on the port of the package's own route; dropped without one, or at a hop count of 0 (R379). -/
def State.passOn (s : State) (m : Msg) : State :=
  match if m.hops = 0 then none else s.route m.dst with
  | none =>
    let s := { s with coll := { s.coll with fwDrop := s.coll.fwDrop + 1 } }
    (s.sendMsg (noRouteNotice s.coll.rank m)).getD s
  | some port => { s with outputs := s.outputs ++ [.msg port { m with hops := m.hops - 1 }] }

/-- A message that waited for its route entry, the first for its destination: one of this package, or one on its way to another (R376, R379). -/
def State.sendWaiting (s : State) (m : Msg) : State :=
  let s := { s with coll := { s.coll with unsent := s.coll.unsent.erase m } }
  if m.src ≠ s.coll.rank then s.passOn m else (s.sendOut m).getD (s.takeNoRoute (noRouteNotice s.coll.rank m))

/-- A message for another RANK is passed on. One whose route entry lies on a stack that is not ready waits, and so do those behind it; it is
taken up again when the entry can be read (R379, R416). -/
def execMessageForward (msg : Msg) (s : State) : Result :=
  if msg.dst = s.coll.rank then .next s
  else match s.coll.unsent.find? (fun x => x.dst = msg.dst) with
  | some x =>
    if x = msg then .next (if s.routeHeld msg.dst then s else s.sendWaiting msg)
    else if s.coll.unsent.contains msg then .next s
    else .next { s with coll := { s.coll with unsent := s.coll.unsent ++ [msg] } }
  | none =>
    if s.routeHeld msg.dst && msg.hops ≠ 0 then .next { s with coll := { s.coll with unsent := s.coll.unsent ++ [msg] } }
    else .next (s.passOn msg)

/-! ## Loss (R383, R413) -/

/-- A package is lost to the engine. -/
def State.losePackage (s : State) (q : Nat) : State :=
  let s := s.coll.live.foldl (fun (s : State) p =>
    (List.range p.2.table.length).foldl (fun (s : State) m => if (p.2.member m).1 = q then s.loseMember p.1 m else s) s) s
  let s := { s with coll := { s.coll with lost := if s.coll.lost.contains q then s.coll.lost else q :: s.coll.lost }
                    outputs := s.outputs ++ [Output.msix 17] }
  let s := s.squareRemove (fun _ e => e.2 = q)
  (s.mapJoins (fun j => { j with waiting := j.waiting.filter (· ≠ q) })).retry

/-- LOSE (R378, R383). -/
def execLose (rank : Nat) (s : State) : Result := .next (s.losePackage rank)

/-! ## Ports (R376) -/

/-- A replay on a port: PORTERR counts it; whether the replayed flit then comes through is free. -/
def execPortCrcReplay (port : Nat) (s : State) : Result :=
  if !s.part.portPres.testBit port || s.coll.portDown.contains port || 16 ≤ SMap.get 0 s.coll.portFails port then .next s
  else
    let fails := if Config.coin s.clock.tick port then 0 else SMap.get 0 s.coll.portFails port + 1
    .next { s with coll := { s.coll with portErr := word (min 0xFFFFFFFF (s.coll.portErr.toNat + 1))
                                         portFails := SMap.set 0 s.coll.portFails port fails } }

/-- RANKs of members that a port alone leads to. -/
def State.behindPort (s : State) (port : Nat) : List Nat :=
  ((s.coll.live.flatMap (fun p => p.2.table.map (·.1))).eraseDups).filter (fun q => q ≠ s.coll.rank && s.route q = some port)

/-- After 16 failed replays of one flit the port is down, and packages without a live route are lost (R376, R383), once every member's route
entry can be read (R416). -/
def execPortDown (port : Nat) (s : State) : Result :=
  if SMap.get 0 s.coll.portFails port < 16 || s.coll.portDown.contains port ||
      s.coll.live.any (fun p => p.2.table.any (fun x => s.routeHeld x.1)) then .next s
  else
    let gone := s.behindPort port
    let s := { s with coll := { s.coll with portDown := port :: s.coll.portDown } }
    .next (gone.foldl State.losePackage s)

end Sys2Proof.Machine
end

