-- ==== Sys2Proof/Machine/Dies.lean ====
section
/-! DEFINITION. Four dies: hot pages and migration (08 R193, R194), writes between dies, links, and the fencing of a die (18 R348 to R355,
19 R386). -/

namespace Sys2Proof.Machine

/-! ## Hot pages (R193) -/

/-- What a leaf recorded for a hot region comes to: a candidate, a skip, or nothing. -/
def Die.examine (d : Die) (c : HotCount) : Die :=
  let e := c.leaf.toNat
  if c.count < d.thr then d
  else if ptePin e || pteTT e = 6 then { d with hpskip := word (min 0xFFFFFFFF (d.hpskip.toNat + 1)) }
  else if c.level = 1 && pteTT e = 1 && pteMig e then { d with candidates := d.candidates ++ [⟨c.entry, c.leaf, c.die⟩] }
  else d

/-- A tracker's window ends: its counts are examined and restart. -/
def execHotpageWindow (die : Nat) (s : State) : Result :=
  let d := s.dieAt die
  if !d.trackEn || !s.live die || s.clock.time < d.windowAt + d.win * 1000 then .next s
  else .next (s.onDieAt die (fun d => { d.counts.foldl Die.examine d with counts := [], windowAt := s.clock.time }))

/-! ## Migration (R194) -/

/-- The bytes and marks of 2 MiB copied between frames. -/
def State.copyPage2M (s : State) (old new : Nat) : State :=
  (List.range 512).foldl (fun (s : State) b =>
    let from' := s.part.key (old + 4096 * b)
    let dest := s.part.key (new + 4096 * b)
    let s := s.writeKey dest (s.readKey from' 4096)
    (List.range 256).foldl (fun (s : State) w =>
      if s.poisonedKey (from' + 16 * w) then s.markPoison (new + 4096 * b + 16 * w) else s) s) s

/-- The place of the done ring's next record. -/
def Die.doneAt (d : Die) : Nat := d.doneb.toNat + d.donewr % 512 * 32

/-- A record in the done ring. -/
def State.writeDone (s : State) (die : Nat) (old new entry abandoned : Nat) : State :=
  let d := s.dieAt die
  (s.writePhys d.doneAt
    (natToBytes 8 old ++ natToBytes 8 new ++ natToBytes 8 entry ++ natToBytes 8 abandoned)).onDieAt die
    (fun d => { d with donewr := d.donewr + 1 })

/-- Some access to a 2 MiB frame has begun: a write on its way to it, or a careful transfer translated to it (R183, R194). -/
def State.frameBusy (s : State) (frame : Nat) : Bool :=
  let keys := (List.range 512).map (fun b => s.part.key (frame + 4096 * b))
  s.dies.any (fun d => d.2.pending.any (fun w => keys.contains (w.key / 4096 * 4096))) ||
    s.cores.any (fun c => c.2.copies.any (fun x => x.stop.isNone &&
      x.pages.any (fun p => frame ≤ p.2.pa && p.2.pa < frame + 2097152)))

/-- Every entry for the 2 MiB page in a frame leaves every TLB, whatever else of its leaf was cached (R194). -/
def Mem.forget (m : Mem) (frame : Nat) : Mem :=
  { m with tlb := m.tlb.filter (fun e => !(e.1 / 2 ^ 48 % 8 = 1 && pteLeaf e.2 && ptePA e.2 = frame)) }

/-- A migration of a page into a frame taken from the free ring, with its record in the done ring. It is abandoned where the entry has changed,
where a fenced die holds the entry, or where the frame is none. -/
def State.migrate (s : State) (die : Nat) (c : HotPage) (new : Nat) : State :=
  let old := ptePA c.leaf.toNat
  let fits := s.part.inWindow 1 new 2097152 && new % 2097152 = 0
  let lost := s.firstLost c.entry 8
  if s.readPhys64 c.entry ≠ c.leaf.toNat || !fits || lost.isSome then
    memDrop die (lost <|> s.firstLost (s.dieAt die).doneAt 32) (s.writeDone die old new c.entry 1)
  else
    let t := (s.copyPage2M old new).writePhys c.entry (natToBytes 8 (c.leaf.toNat - old + new))
    let t := { t with mem := t.mem.forget old }
    memDrop die (s.firstLost new 2097152 <|> s.firstLost (s.dieAt die).doneAt 32) (t.writeDone die old new c.entry 0)

/-- The first candidate of a die's tracker is migrated toward the die that accesses it, in one step, once the accesses to its page that have
begun are complete and every stack that the migration reaches is ready (R194, R416). Its record goes to the done ring of the tracker's die,
the model's choice (log 61). -/
def execPageMigration (die : Nat) (s : State) : Result :=
  let d := s.dieAt die
  match d.candidates with
  | [] => .next s
  | c :: rest =>
    let old := ptePA c.leaf.toNat
    let t := s.dieAt c.toward
    let free := t.freeb.toNat + t.freerd % 512 * 8
    if !s.live die || 512 ≤ d.donewr - d.donerd.toNat || s.frameBusy old then .next s
    else if t.freewr.toNat = t.freerd || !s.live c.toward then .next (s.onDieAt die (fun d => { d with candidates := rest }))
    else
      let new := bytesToNat (s.readPhys free 8)
      if !([(free, 8), (d.doneAt, 32), (c.entry, 8), (old, 2097152), (new, 2097152)].all (fun p => s.rangeReady p.1 p.2)) then .next s
      else
        let t := ((s.onDieAt die (fun d => { d with candidates := rest })).onDieAt c.toward (fun t => { t with freerd := t.freerd + 1 })).migrate
          die c new
        .next (if s.roomFor t then t else s)

/-! ## Writes between dies (Vector clocks) -/

/-- A die's clock covers the clock a write carries; entries of fenced dies are not tested (R353). -/
def State.covers (s : State) (die : Nat) (w : CrossWrite) : Bool :=
  (List.range 4).all (fun e => (s.dieAt e).fenced || w.clock.getD e 0 ≤ (s.dieAt die).clock.getD e 0)

/-- A write performed at its home, or dropped with a record where a fenced die holds its bytes (R354). -/
def State.performCross (s : State) (w : CrossWrite) : State :=
  if s.onFenced w.key then
    postRecord s (dropRecord (coreOfHart w.hart) (hartIndex w.hart) 0 w.key)
  else s.putScalar (coreOfHart w.hart) w.key w.bytes

/-- Every die learns that one more write of a die is performed. -/
def State.tickClock (s : State) (src : Nat) : State :=
  (List.range 4).foldl (fun (s : State) d => s.onDieAt d (fun t => { t with clock := t.clock.set src (t.clock.getD src 0 + 1) })) s

/-- The first waiting write that the die's clock covers is applied. -/
def execCrossDieWriteApply (die : Nat) (s : State) : Result :=
  match (s.dieAt die).pending.find? (s.covers die) with
  | none => .next s
  | some w =>
    let s := s.onDieAt die (fun d => { d with pending := d.pending.erase w })
    .next ((s.performCross w).tickClock (dieOfHart w.hart))

/-! ## Fencing (R141, R352 to R355, R386) -/

/-- A hart of a fenced die: stopped, with no gang. -/
def Hart.fence (h : Hart) : Hart :=
  if h.run = .free then h else { h with run := .stopped, block := none, gang := none, conv := none, op := 0 }

/-- A core of a fenced die: its engines stop, and what they held is gone. -/
def Core.fence (c : Core) : Core :=
  { c with credits := [], copies := [], tileFails := [], mats := [], matStall := [], fab := {}, records := [], unposted := [], gangs := [] }

/-- The gangs of a die, earliest bound first. -/
def State.dieGangs (s : State) (die : Nat) : List Gang :=
  (((List.range 64).flatMap (fun c => (s.coreAt (coreOf die c)).grants))).mergeSort (fun a b => a.order ≤ b.order)

/-- Records and chunks posted again at the heads of their queues, in the order in which they were bound (R141, R355); those of a record found
invalid are not (R130). The first is the queue's head from now. -/
def reissue (gs : List Gang) (s : State) : State :=
  (List.range 64).foldl (fun (s : State) q =>
    let mine := (gs.filter (fun g => g.queue = q && !g.post.void)).map (·.post)
    if mine = [] then s else s.onQueue q (fun t => { t with front := mine ++ t.front, headSince := s.clock.time })) s

/-- Writes of a fenced die on their way to a live home: those that the home has accepted are applied, and the rest are discarded. A link loses
no flit without those behind it, so the accepted ones are the first few; how many is free (R349, R353, R354). -/
def State.settleWrites (s : State) (die home : Nat) : State :=
  let mine := (s.dieAt home).pending.filter (fun w => dieOfHart w.hart = die)
  let s := s.onDieAt home (fun d => { d with pending := d.pending.filter (fun w => dieOfHart w.hart ≠ die) })
  (mine.take (Config.order s.clock.tick (die * 4 + home) % (mine.length + 1))).foldl State.performCross s

/-- The scalar caches of a fenced die are gone with it, and what they held dirty is not written back (R353, R354). -/
def Mem.dropCaches (m : Mem) (die : Nat) : Mem :=
  { m with lines := m.lines.filter (fun l => dieOfCore l.core ≠ die), dirty := m.dirty.filter (fun l => dieOfCore l.core ≠ die) }

/-- Registrations whose landing region has a page on a fenced die are released, their instances ending as aborted (R386). -/
def State.releaseFenced (s : State) : State :=
  s.coll.live.foldl (fun (s : State) p =>
    if p.2.released || !p.2.pages.any (fun pa => s.onFenced (s.part.key pa)) then s
    else
      let s := match p.2.inst with
        | some _ => s.onReg p.1 (fun (r : Reg) => { r with released := true, inst := r.inst.map (fun (i : Inst) => { i with aborted := true }) })
        | none => s.setReg p.1 none
      s.loseLocal p.2) s

/-- A die is fenced. Posts that it holds stay held and enter their rings (R132, log 55). -/
def fenceDie (die cause : Nat) (s : State) : State :=
  if 4 ≤ die || !s.live die then s
  else
    let gs := s.dieGangs die
    let s := (List.range 512).foldl (fun (s : State) k =>
      if SMap.get Hart.reset s.harts (die * 512 + k) = Hart.reset then s else s.onHartAt (die * 512 + k) Hart.fence) s
    let s := (List.range 64).foldl (fun (s : State) c =>
      if SMap.get Core.reset s.cores (coreOf die c) = Core.reset then s else s.onCoreAt (coreOf die c) Core.fence) s
    let s := s.onDieAt die (fun d => { d with fenced := true, fcause := cause, records := [], unposted := [], counts := [], candidates := [] })
    let s := { s with mem := s.mem.dropCaches die }
    let dropped := (s.dieAt die).pending
    let s := s.onDieAt die (fun d => { d with pending := [] })
    let s := dropped.foldl (fun (s : State) w =>
      if dieOfHart w.hart = die then s else (s.performCross w).tickClock (dieOfHart w.hart)) s
    let s := (List.range 4).foldl (fun (s : State) h => s.settleWrites die h) s
    let up := { s.host with diesUp := s.host.diesUp &&& ~~~(word (2 ^ die)), hbm := s.host.hbm &&& ~~~(word (3 * 4 ^ die))
                            coreRdy := SMap.set 0 s.host.coreRdy die 0 }
    let s := { s with host := up, outputs := s.outputs ++ [Output.msix 17] }
    let s := (List.range 64).foldl (fun (s : State) q => s.onQueue q (fun t => { t with promoted := 0 })) s
    let s := { s with sched := { s.sched with elected := s.clock.time } }
    (reissue gs s).releaseFenced

/-- DIE_FENCE (R352): cause 1 link loss, 2 machine check, 3 management command. -/
def execDieFence (die cause : Nat) (s : State) : Result :=
  if cause = 0 || 3 < cause then .next s else .next (fenceDie die cause s)

/-! ## Links (R348, R349). Link 3 d + k leaves die d: k = 0 to die d + 1, k = 1 to die d + 3, k = 2 to the I/O die. -/

/-- The part has the link: both its ends are present. -/
def Part.hasLink (p : Part) (link : Nat) : Bool :=
  let d := link / 3
  p.present.getD d false && p.links.getD (link % 3) false &&
    (match link % 3 with
     | 0 => p.present.getD ((d + 1) % 4) false
     | 1 => p.present.getD ((d + 3) % 4) false
     | _ => true)

def State.linkUp (s : State) (link : Nat) : Bool :=
  link < 12 && s.live (link / 3) && s.part.hasLink link && !((s.dieAt (link / 3)).linkDown.getD (link % 3) false)

/-- A flit of the link has failed 16 replays, so that the link is to be declared down. -/
def State.linkSpent (s : State) (link : Nat) : Bool := 16 ≤ (s.dieAt (link / 3)).linkFails.getD (link % 3) 0

/-- A replay: LINKERR of the receiving die counts it; whether the replayed flit then comes through is free. After 16 that failed there is
none. -/
def execLinkCrcReplay (link : Nat) (s : State) : Result :=
  if !s.linkUp link || s.linkSpent link then .next s
  else .next (s.onDieAt (link / 3) (fun d =>
    { d with linkErr := word (min 0xFFFFFFFF (d.linkErr.toNat + 1))
             linkFails := d.linkFails.set (link % 3)
               (if Config.coin s.clock.tick link then 0 else d.linkFails.getD (link % 3) 0 + 1) }))

/-- The other end of a link between dies. -/
def linkPeer (link : Nat) : Option Nat :=
  let d := link / 3
  match link % 3 with
  | 0 => some ((d + 1) % 4 * 3 + 1)
  | 1 => some ((d + 3) % 4 * 3)
  | _ => none

def State.dropLink (s : State) (link : Nat) : State :=
  s.onDieAt (link / 3) (fun d => { d with linkDown := d.linkDown.set (link % 3) true })

/-- After 16 failed replays of one flit the link is down; a die without a link to the I/O die is fenced. -/
def execLinkDown (link : Nat) (s : State) : Result :=
  if !s.linkUp link || !s.linkSpent link then .next s
  else
    let s := s.dropLink link
    match linkPeer link with
    | some l => .next (s.dropLink l)
    | none => .next (fenceDie (link / 3) 1 s)

end Sys2Proof.Machine
end

