-- ==== Sys2Proof/Machine/HostDma.lean ====
section
/-! DEFINITION. The host's side: doorbells, rings, submission entries, the host DMA engine and BAR2 (22 R413, R414, R416 to R420). -/

namespace Sys2Proof.Machine

/-! ## Host memory -/

/-- The key of a host bus address (R170). -/
def hostKey (a : Nat) : Nat := hostBase + a

def State.readHost (s : State) (a n : Nat) : List Byte := s.readKey (hostKey a) n
def State.writeHost (s : State) (a : Nat) (bs : List Byte) : State := { s with mem := s.mem.put (hostKey a) bs }

/-- The host's own writes to its memory. -/
def State.hostWrites (s : State) (ws : List (Nat × Byte)) : State := ws.foldl (fun s w => s.writeHost w.1 [w.2]) s

/-! ## Rings (R417, R418) -/

def State.ring (s : State) (r : Nat) : Ring := SMap.get {} s.host.rings r
def State.onRing (s : State) (r : Nat) (f : Ring → Ring) : State :=
  { s with host := { s.host with rings := SMap.set {} s.host.rings r (f (s.ring r)) } }

/-- A doorbell checked against RD (R418). -/
def ringBell (r w : Nat) (s : State) : State :=
  let t := s.ring r
  if t.ovr || w = t.wr then s
  else if w < t.wr || 2 ^ t.rsize < w - t.rd then s.onRing r (fun t => { t with ovr := true })
  else s.onRing r (fun t => { t with wr := w })

def execDoorbell (ring wr : Nat) (mem : List (Nat × BitVec 8)) (s : State) : Result :=
  if 16 ≤ ring then .next s else .next (ringBell ring (wr % 2 ^ 64) (s.hostWrites mem))

/-- RST: WR := RD and OVR := 0 (R417). -/
def restartRing (r : Nat) (s : State) : State := s.onRing r (fun t => { t with wr := t.rd, ovr := false })

def execRst (ring : Nat) (s : State) : Result := if 16 ≤ ring then .next s else .next (restartRing ring s)

/-- SVDB written by the host: the bits it names are set (R416). -/
def execSvdb (value : Word) (s : State) : Result :=
  .next { s with host := { s.host with svdb := s.host.svdb ||| word (field value 3 0) } }

/-! ## Entries (R419) -/

/-- The ring's next entry, where one may be taken: 64 bytes as a number. A COPY waits for the ring's command under way, stopped or frozen as it
may be, and a FENCE entry for the same; every entry waits while a post of the ring has still something to do (R132, R419, R420). -/
def State.nextEntry (s : State) (r : Nat) : Option Nat :=
  let t := s.ring r
  if 16 ≤ r || !t.en || t.ovr || t.wr ≤ t.rd then none
  else
    let e := bytesToNat (s.readHost (t.hbase.toNat + t.rd % 2 ^ t.rsize * 64) 64)
    let busy := s.host.dmas.any (fun d => d.ring = r)
    if s.host.posts.any (fun p => p.ring = r) || (busy && (e.testBit 8 || recBits e 0 7 0 = 2)) then none else some e

def State.takeEntry (s : State) (r : Nat) : State := s.onRing r (fun t => { t with rd := t.rd + 1 })

/-- The completion word, then the MSI-X message (R413, R419). -/
def completeEntry (vector cmpl : Nat) (irq : Bool) (status result : Nat) (s : State) : State :=
  let s := if cmpl = 0 then s else s.writeHost cmpl (natToBytes 4 status ++ natToBytes 4 result)
  if irq then { s with outputs := s.outputs ++ [Output.msix vector] } else s

/-- The first word's reserved bytes. -/
def entryHeadOk (e : Nat) : Bool := recBits e 0 63 10 = 0

def entryDone (r e status result : Nat) (s : State) : State :=
  completeEntry (if recBits e 0 7 0 = 3 then 16 else r) (recBits e 8 63 0) (e.testBit 9) status result s

/-! ## POST (R129, R132, R419, R426) -/

/-- Neither the queue's ring nor the master's held-post buffer has a place for a post. -/
def State.noPlace (s : State) (q : Nat) : Bool := ((s.queue q).full || s.hasHeld q) && 64 ≤ (s.dieAt s.master).held.length

/-- A record posted by the host, validated in a ring's context (R129, R426): its status; none while the post must wait. Where no place is left
a completion waits for one (R132), and an entry's post is refused with status 1 (R419). An address that is not a multiple of 64 or not
canonical is taken as it is, the model's choice (log 57). -/
def hostPost (s : State) (ctx : Nat) (addr : Word) (completion : Bool) : Option (Nat × State × List Act) :=
  if s.schedHeld ctx addr then none
  else match s.recAt ctx addr with
  | (none, s) => some (3, s, [])
  | (some (r, pa), s) =>
    if !s.recValid true r then some (3, s, [])
    else if !(s.queue r.queue).en then some (2, s, [])
    else if !completion && s.noPlace r.queue && !(r.range && r.chunks = 0) then some (1, s, [])
    else ((postValid s s.master r.queue { addr := addr } r pa).filter (fun x => s.roomFor x.1)).map (fun x => (0, x))

/-- What a post of the host has set off goes on as far as it need not wait, on the master distributor's die (R427); with the last of it the
entry or the command is complete (R132). -/
def goHostPost (p : HostPost) (status : Nat) (s : State) : State :=
  let s := { s with host := { s.host with posts := s.host.posts.filter (fun x => x.id ≠ p.id) } }
  match runActs actTurn s (p.acts.map (fun a => { a with die := s.master })) with
  | (s, []) => completeEntry p.ring p.cmpl p.irq status 0 s
  | (s, left) => { s with host := { s.host with posts := s.host.posts ++ [{ p with acts := left }] } }

/-- A new entry of a ring that is a POST, or is of no known type (R419). -/
def newPost (ring : Nat) (s : State) : Result :=
  match s.nextEntry ring with
  | none => .next s
  | some e =>
    let type := recBits e 0 7 0
    if type = 2 || type = 3 then .next s
    else if type ≠ 1 || !entryHeadOk e || recBits e 0x18 319 0 ≠ 0 then .next (entryDone ring e 3 0 (s.takeEntry ring))
    else match hostPost s (s.ring ring).ctx (word (recBits e 0x10 63 0)) false with
      | none => .next s
      | some (status, s, left) =>
        let (id, s) := s.fresh
        .next (goHostPost ⟨ring, id, recBits e 8 63 0, e.testBit 9, left⟩ status (s.takeEntry ring))

/-- A post of the ring that has still something to do goes on; else POST takes the ring's next entry. -/
def execPost (ring : Nat) (s : State) : Result :=
  match s.host.posts.find? (fun p => p.ring = ring) with
  | some p => .next (goHostPost p 0 s)
  | none => newPost ring s

/-! ## COPY and the host DMA engine (R420) -/

/-- COPY takes the ring's next entry when it is one; the engine starts its command. -/
def execCopy (ring : Nat) (s : State) : Result :=
  match s.nextEntry ring with
  | none => .next s
  | some e =>
    if recBits e 0 7 0 ≠ 2 then .next s
    else
      let s := s.takeEntry ring
      let len := recBits e 0x20 31 0
      if !entryHeadOk e || len = 0 || recBits e 0x24 31 1 ≠ 0 || recBits e 0x30 127 0 ≠ 0 then .next (entryDone ring e 3 0 s)
      else
        let (id, s) := s.fresh
        let toHost := recBits e 0x24 0 0 = 1
        let c : Dma := { id := id, ring := ring, ctx := (s.ring ring).ctx, src := word (recBits e 0x10 63 0)
                         dst := word (recBits e 0x18 63 0), len := len, toHost := toHost, postrec := word (recBits e 0x28 63 0)
                         cmpl := word (recBits e 8 63 0), irq := e.testBit 9 }
        .next { s with host := { s.host with dmas := s.host.dmas ++ [c] } }

/-- The device address and the host bus address of a byte of a command. -/
def Dma.device (c : Dma) (k : Nat) : Word := (if c.toHost then c.src else c.dst) + word k
def Dma.hostAt (c : Dma) (k : Nat) : Nat := (if c.toHost then c.dst else c.src).toNat + k

/-- The pieces of a command by device page: first byte and length. -/
def Dma.pieces (c : Dma) : List (Nat × Nat) :=
  let o := (c.device 0).toNat % 4096
  (List.range ((o + c.len + 4095) / 4096)).map (fun p =>
    let lo := p * 4096 - o
    (lo, min c.len ((p + 1) * 4096 - o) - lo))

/-- What a piece meets: its translation, or the kind of its fault. -/
inductive DmaLook
  | ok (x : Xlat)
  | page
  | protect
  deriving DecidableEq, Repr

/-- Translation in the ring's CTX and the copy engine's rows of R179. -/
def State.dmaLook (s : State) (c : Dma) (k : Nat) : DmaLook :=
  let va := c.device k
  if !canonical va then .page
  else match (s.translate none c.ctx va).1 with
    | none => .page
    | some x =>
      if x.permits (if c.toHost then .copyRead else .copyWrite) false && (x.tt ≠ 5 || (s.findCrt x.pa).isSome) then .ok x
      else .protect

/-- Some access of a command has to wait for its stack. -/
def State.dmaWaits (s : State) (c : Dma) : Bool :=
  c.pieces.any (fun p => match s.dmaLook c p.1 with
    | .ok x => !s.xlatReady x
    | _ => false)

/-- Bytes and the marks that go with them moved one piece on; the answer is the physical address of the first word that is marked, or that a
fenced die drops (R334, R354). -/
def State.movePiece (s : State) (c : Dma) (p : Nat × Nat) : Option Nat × State :=
  match s.dmaLook c p.1 with
  | .ok x =>
    if c.toHost then
      let marked := (List.range p.2).filter (fun j =>
        if x.tt = 5 then
          match s.findCrt (x.pa + j) with
          | some k => s.poisonedDecoded k (x.pa + j) 1
          | none => false
        else s.poisonedKey (s.part.key (x.pa + j)))
      let s := s.writeHost (c.hostAt p.1) (s.dataAt x p.2)
      let marks := marked.foldl (fun m j => SMap.set false m (hostKey (c.hostAt (p.1 + j)) / 16) true) s.mem.poison
      (marked.head?.map (fun j => (x.pa + j) / 16 * 16), { s with mem := { s.mem with poison := marks } })
    else
      let marked := (List.range p.2).filter (fun j => s.poisonedKey (hostKey (c.hostAt (p.1 + j))))
      let lost := (List.range p.2).find? (fun j => s.onFenced (s.part.key (x.pa + j)))
      let s := s.writePhys x.pa (s.readHost (c.hostAt p.1) p.2)
      ((marked.head?.map (fun j => hostKey (c.hostAt (p.1 + j)) / 16 * 16)) <|> (lost.map (fun j => (x.pa + j) / 16 * 16)),
        marked.foldl (fun s j => s.markPoison (x.pa + j)) s)
  | _ => (none, s)

/-- Pieces moved in order, with the first such word. -/
def State.movePieces (s : State) (c : Dma) (ps : List (Nat × Nat)) : Option Nat × State :=
  ps.foldl (fun (b, s) p => let (m, s) := s.movePiece c p; (b <|> m, s)) (none, s)

/-- The command's one record of kind 7 (R334, R354). -/
def State.noteDma (s : State) (c : Dma) (marked : Option Nat) : State :=
  match marked with
  | some pa =>
    if c.poisoned then s
    else postDieRecord s s.master { core := 63, master := 9, cause := cMachine, kind := 7, addr := word pa, ctx := c.ctx }
  | none => s

/-- A record of the host DMA engine; the details that the manual does not state of it are free (log 41). -/
def State.dmaRecord (s : State) (c : Dma) (protect : Bool) (addr : Word) : FaultRec :=
  { core := 63, master := 9, cause := if protect then cProtection else cPage, kind := if protect then 2 else 1, addr := addr
    frozen := protect, withheld := true, ctx := c.ctx, d0 := Config.freeWord s.clock.tick 0, d1 := Config.freeWord s.clock.tick 1
    d2 := if protect then (if c.toHost then 0 else 1) else Config.freeWord s.clock.tick 2
    owner := .dma c.id }

def State.dropDma (s : State) (c : Dma) : State :=
  { s with host := { s.host with dmas := s.host.dmas.filter (fun d => d.id ≠ c.id) } }

/-- The pieces that a command has still to move, and the first that it cannot. -/
def Dma.left (c : Dma) : List (Nat × Nat) := c.pieces.filter (fun p => c.moved ≤ p.1)
def State.dmaFault (s : State) (c : Dma) : Option (Nat × Nat) :=
  c.left.find? (fun p => match s.dmaLook c p.1 with | .ok _ => false | _ => true)

/-- The command of a name, where it may go on. -/
def State.dmaAt (s : State) (cmd : Nat) : Option Dma :=
  (s.host.dmas.find? (fun d => d.id = cmd)).filter (fun c => c.stop.isNone && !(s.ring c.ring).frozen && !s.dmaWaits c)

/-- A command without a fault moves its bytes and completes: a record for marked data, POSTREC, whose refusal is the status, and the
completion word (R129, R334, R420). -/
def endDma (cmd : Nat) (s : State) : Result :=
  match s.dmaAt cmd with
  | none => .next s
  | some c =>
    if (s.dmaFault c).isSome then .next s
    else
      let (marked, s1) := s.movePieces c c.left
      let s1 := (s1.noteDma c marked).dropDma c
      let o := if c.postrec = 0 then some (0, s1, []) else hostPost s1 c.ctx c.postrec true
      match o.filter (fun r => s.roomFor r.2.1) with
      | none => .next s
      | some (status, s2, left) => .next (goHostPost ⟨c.ring, c.id, c.cmpl.toNat, c.irq, left⟩ status s2)

/-- A command whose post has still something to do goes on with that; else it moves its bytes (R132, R420). -/
def execHostDmaComplete (cmd : Nat) (s : State) : Result :=
  match s.host.posts.find? (fun p => p.id = cmd) with
  | some p => .next (goHostPost p 0 s)
  | none => endDma cmd s

/-- A command meets a fault: what comes before it has moved, and a record names it (R327, R332, R420). -/
def execHostDmaFault (cmd : Nat) (s : State) : Result :=
  match s.dmaAt cmd with
  | none => .next s
  | some c =>
    match s.dmaFault c with
    | none => .next s
    | some p =>
      let protect := s.dmaLook c p.1 = .protect
      let (marked, s1) := s.movePieces c (c.left.filter (fun q => q.1 < p.1))
      let s1 := s1.noteDma c marked
      let s1 := postDieRecord s1 s1.master (s.dmaRecord c protect (c.device p.1))
      let s1 := { s1 with host := { s1.host with dmas := s1.host.dmas.map (fun d =>
        if d.id = cmd then { d with moved := p.1, stop := some { protect := protect }, poisoned := c.poisoned || marked.isSome } else d) } }
      if !s.roomFor s1 then .next s
      else .next (if protect then s1.onRing c.ring (fun t => { t with frozen := true }) else s1)

/-- The stopped command that posted a record. -/
def State.stoppedDma (s : State) (seq : Nat) : Option Dma := s.host.dmas.find? (fun d => (d.stop.bind (·.seq)) = some seq)

/-- HDFRCTL: a retry resumes the command, an abort completes it with status 4 (R330, R332, R420). -/
def hostDmaControl (seq : Nat) (abort : Bool) (s : State) : State :=
  match s.stoppedDma seq with
  | none => s
  | some c =>
    let s := s.onRing c.ring (fun t => { t with frozen := false })
    if abort then completeEntry c.ring c.cmpl.toNat c.irq 4 0 (s.dropDma c)
    else { s with host := { s.host with dmas := s.host.dmas.map (fun d => if d.id = c.id then { d with stop := none } else d) } }

def execHdfrctlRetry (seq : Nat) (s : State) : Result := .next (hostDmaControl seq false s)
def execHdfrctlAbort (seq : Nat) (s : State) : Result := .next (hostDmaControl seq true s)

/-! ## BAR2 (R414) -/

/-- What the host does of itself: its accesses keep their order (R208, R418). -/
def hostAct : Instr → Bool
  | .hostBar2Access _ | .registerWrite _ _ | .doorbell _ _ _ | .rst _ | .svdb _ => true
  | _ => false

/-- An access that has to wait comes again after the next thing that the outside does but the host, whose later accesses stay behind it. -/
def waitAccess (x : Instr) (rest : List Instr) : List Instr :=
  match rest.dropWhile hostAct with
  | y :: ys => y :: x :: (rest.takeWhile hostAct ++ ys)
  | [] => x :: rest

/-- A host access to device memory at B2BASE + offset, as one to HBM: outside backed HBM a read gives all-ones and a write is dropped; one to
a stack that is not ready waits (R416); a write to bytes of a fenced die is dropped with a record of kind 7 (R354). -/
def bar2Memory (offset : Nat) (a : HostAccess) (s : State) : State :=
  let pa := s.host.b2base.toNat + offset
  if s.host.bar2Size ≤ offset then s
  else if a.width = 0 || !s.part.backed pa a.width then
    let s := { s with host := { s.host with hostErr := s.host.hostErr + 1 } }
    match a.write with
    | some _ => s
    | none => { s with outputs := s.outputs ++ [Output.data (List.replicate a.width 0xFF)] }
  else
    let lost := (List.range a.width).find? (fun j => s.onFenced (s.part.key (pa + j)))
    if !s.stackReady pa || (a.write.isSome && lost.isSome && !s.dieRecordRoom s.master) then
      { s with inputs := waitAccess (.hostBar2Access (.memory offset a)) s.inputs }
    else
      match a.write, lost with
      | some x, none => s.writePhys pa (natToBytes a.width x)
      | some x, some j =>
        postDieRecord (s.writePhys pa (natToBytes a.width x)) s.master
          { core := 63, master := 9, cause := cMachine, kind := 7, addr := word ((pa + j) / 16 * 16) }
      | none, _ => { s with outputs := s.outputs ++ [Output.data (s.readPhys pa a.width)] }

/-- BAR2: an access, or a new size, 1 GiB to 512 GiB in powers of two. -/
def execHostBar2Access (access : Bar2Access) (s : State) : Result :=
  match access with
  | .memory offset a => .next (bar2Memory offset a s)
  | .resize k => if 30 ≤ k && k ≤ 39 then .next { s with host := { s.host with bar2Size := 2 ^ k } } else .next s

end Sys2Proof.Machine
end

