-- ==== Sys2Proof/Machine/Mgmt.lean ====
section
/-! DEFINITION. Management commands, bring-up, reset, test mode, power and cooling (08 R195; 22 R416, R421 to R425). -/

namespace Sys2Proof.Machine

/-! ## Reset and bring-up (R416, R422) -/

/-- Package reset: everything as after reset, but for the part, memory's bytes and marks, repair lists, a staged image, what the outside
does, and the model's own counts (log 43); a staged image is the one that ROM loads from now (R422). -/
def packageReset (s : State) : State :=
  { State.reset with
    part := s.part
    inputs := s.inputs
    uid := s.uid
    outputs := s.outputs
    clock := { cycle := 0, time := 0, tick := s.clock.tick }
    mem := { cells := s.mem.cells, poison := s.mem.poison }
    host := { repairs := s.host.repairs, image := s.host.staged.getD s.host.image, bar2Size := s.host.bar2Size } }

def execPackageReset (s : State) : Result := .next (packageReset s)

/-- ROM accepts an image: signed, and no older than the fused rollback counter (R422). -/
def Part.accepts (p : Part) (image : List Byte) : Bool := Config.imageSigned image && p.rollback ≤ Config.imageVersion image

/-- The image that ROM loads is accepted. -/
def State.firmwareOk (s : State) : Bool := s.part.accepts s.host.image

/-- The supervisor hart of a core that is ready may begin to run. The manual says neither when nor by what it begins (log 18). -/
def startSuper (core : Nat) (s : State) : State :=
  match s.superHart (dieOfCore core) with
  | some n =>
    if coreOfHart n = core && (s.hartAt n).run = .free && Config.coin s.clock.tick n then s.onHartAt n (fun h => { h with run := .running }) else s
  | none => s

/-- A unit passes bring-up. Units 0 to 31 are bits of READY, and 32 + n is core n. With an image that fails, only management comes up, in
recovery mode. -/
def execUnitReady (unit : Nat) (s : State) : Result :=
  if unit = 1 then
    let measured := if s.firmwareOk then Config.sm3 s.host.image else s.host.measured
    .next { s with host := { s.host with mgmt := true, recov := !s.firmwareOk, measured := measured } }
  else if !s.firmwareOk then .next s
  else if unit = 0 then .next { s with host := { s.host with link := true } }
  else if 3 ≤ unit && unit < 11 then
    let j := unit - 3
    if s.live (j / 2) && s.part.hasStack j then
      .next { s with host := { s.host with hbm := s.host.hbm ||| word (2 ^ j) } }
    else .next s
  else if 11 ≤ unit && unit < 15 then
    if s.live (unit - 11) then .next { s with host := { s.host with diesUp := s.host.diesUp ||| word (2 ^ (unit - 11)) } } else .next s
  else if unit = 15 then .next { s with host := { s.host with sq := true } }
  else if 16 ≤ unit && unit < 32 then
    if s.part.portPres.testBit (unit - 16) then .next { s with host := { s.host with ports := s.host.ports ||| word (2 ^ (unit - 16)) } }
    else .next s
  else if 32 ≤ unit && unit < 288 && s.part.hasCore (unit - 32) && s.live (dieOfCore (unit - 32)) then
    let d := dieOfCore (unit - 32)
    let up := SMap.get 0 s.host.coreRdy d ||| word (2 ^ coreIndex (unit - 32))
    .next (startSuper (unit - 32) { s with host := { s.host with coreRdy := SMap.set 0 s.host.coreRdy d up } })
  else .next s

/-! ## Management entries (R419, R421) -/

/-- A management entry's fields. -/
structure MgmtEntry where
  entry : Nat
  cmd : Nat
  arg : Nat → Nat
  resp : Nat

/-- The ring's next entry as a management command that may be taken now: management is ready. -/
def State.mgmtEntry (s : State) (r : Nat) : Option MgmtEntry :=
  match s.nextEntry r with
  | none => none
  | some e =>
    if recBits e 0 7 0 ≠ 3 || !s.host.mgmt then none
    else some ⟨e, recBits e 0x10 15 0, fun k => recBits e (0x18 + 8 * k) 63 0, recBits e 0x38 63 0⟩

/-- What a command comes to: status, result, and the bytes for RESP. -/
structure MgmtDone where
  status : Nat := 0
  result : Nat := 0
  resp : List Byte := []

/-- A command runs: one that is malformed, or that recovery mode does not accept, completes with status 3 (R421, R422). -/
def runMgmt (ring : Nat) (s : State) (mine : Nat → Bool) (f : MgmtEntry → State → MgmtDone × State) : Result :=
  match s.mgmtEntry ring with
  | none => .next s
  | some m =>
    if !mine m.cmd then .next s
    else
      let s := s.takeEntry ring
      if !entryHeadOk m.entry || recBits m.entry 0x12 47 0 ≠ 0 || (s.host.recov && !(m.cmd = 1 || m.cmd = 7 || m.cmd = 10)) then
        .next (entryDone ring m.entry 3 0 s)
      else
        let (d, s) := f m s
        let s := if d.resp = [] then s else s.writeHost m.resp d.resp
        .next (entryDone ring m.entry d.status d.result s)

/-- Some gang runs. -/
def State.anyGang (s : State) : Bool := s.cores.any (fun c => c.2.active ≠ [])

/-- How many of a mask's low n bits are set. -/
def setBits (n mask : Nat) : Nat := ((List.range n).filter mask.testBit).length

/-- The capability counts of a part: cores, dies, stacks and ports (log 15). -/
def Part.counts (p : Part) : List Nat :=
  [((List.range 4).map (fun d => if p.present.getD d false then setBits 48 (p.coreMask.getD d 0) else 0)).sum, (p.present.filter id).length, ((List.range 8).filter p.hasStack).length
   , setBits 16 p.portPres]

/-- IDENT's 64 bytes: the part number as text, the serial, the running firmware's version, and the counts (R421; log 15). -/
def identBytes (p : Part) (image : List Byte) : List Byte :=
  ("FS-6400".toList.map (fun c => BitVec.ofNat 8 c.toNat)) ++ [0] ++ natToBytes 16 Config.serial.toNat ++
    natToBytes 8 (Config.imageVersion image).toNat ++ p.counts.flatMap (natToBytes 8)

/-- IDENT, and any code that names no command. -/
def execIdent (ring : Nat) (s : State) : Result :=
  runMgmt ring s (fun c => c ≤ 1 || 11 < c) (fun m s =>
    if m.cmd ≠ 1 then ({ status := 3 }, s)
    else ({ resp := identBytes s.part s.host.image }, s))

def execSetrank (ring : Nat) (s : State) : Result :=
  runMgmt ring s (· = 2) (fun m s =>
    if 262144 ≤ m.arg 0 then ({ status := 3 }, s)
    else if s.anyGang then ({ status := 5 }, s)
    else ({}, { s with coll := { s.coll with rank := m.arg 0 } }))

def execMgmtFence (ring : Nat) (s : State) : Result :=
  runMgmt ring s (· = 3) (fun m s => if 4 ≤ m.arg 0 then ({ status := 3 }, s) else ({}, fenceDie (m.arg 0) 3 s))

/-- Soft repair: PPRCNT counts it and the stack's list keeps it; data and marks stay as they are (R195). -/
def execMgmtRepair (ring : Nat) (s : State) : Result :=
  runMgmt ring s (· = 4) (fun m s =>
    let j := m.arg 0
    if 8 ≤ j then ({ status := 3 }, s)
    else
      let list := SMap.get [] s.host.repairs j
      if 64 ≤ list.length then ({ result := 1 }, s)
      else
        ({}, { s with host := { s.host with
                repairs := SMap.set [] s.host.repairs j (list ++ [word (m.arg 1)])
                pprcnt := SMap.set 0 s.host.pprcnt j (min 255 (SMap.get 0 s.host.pprcnt j + 1)) } }))

def execReplist (ring : Nat) (s : State) : Result :=
  runMgmt ring s (· = 5) (fun m s =>
    if 8 ≤ m.arg 0 then ({ status := 3 }, s)
    else ({ resp := (SMap.get [] s.host.repairs (m.arg 0)).flatMap (fun x => natToBytes 8 x.toNat) }, s))

/-- The first 192 bytes of an attestation report (R423). -/
def reportBody (nonce0 nonce1 rank : Nat) (firmware : BitVec 256) : List Byte :=
  natToBytes 16 1 ++ natToBytes 8 nonce0 ++ natToBytes 8 nonce1 ++ natToBytes 16 Config.serial.toNat ++ natToBytes 16 rank ++
    natToBytes 32 firmware.toNat ++ natToBytes 32 Config.microcode.toNat ++ natToBytes 64 Config.publicKey.toNat

def execAttest (ring : Nat) (s : State) : Result :=
  runMgmt ring s (· = 6) (fun m s =>
    let body := reportBody (m.arg 0) (m.arg 1) s.coll.rank s.host.measured
    ({ resp := body ++ natToBytes 64 (Config.signature (Config.sm3 body)).toNat }, s))

def execFwstage (ring : Nat) (s : State) : Result :=
  runMgmt ring s (· = 7) (fun m s =>
    let image := s.readHost (m.arg 0) (m.arg 1)
    if s.part.accepts image then ({}, { s with host := { s.host with staged := some image } }) else ({ result := 1 }, s))

def execPowercap (ring : Nat) (s : State) : Result :=
  runMgmt ring s (· = 8) (fun m s =>
    if m.arg 0 < 800 || 2000 < m.arg 0 then ({ status := 3 }, s)
    else ({}, { s with host := { s.host with powerCap := m.arg 0 } }))

/-- TEST enters test mode; leaving it resets the package, after the completion word (R424). -/
def execTest (ring : Nat) (s : State) : Result :=
  match s.mgmtEntry ring with
  | none => .next s
  | some m =>
    let ok := entryHeadOk m.entry && recBits m.entry 0x12 47 0 = 0 && !s.host.recov
    let r := runMgmt ring s (· = 9) (fun m s =>
      if 1 < m.arg 0 then ({ status := 3 }, s)
      else if m.arg 0 = 0 then ({}, s)
      else if s.anyGang then ({ status := 5 }, s)
      else ({}, { s with host := { s.host with test := true } }))
    if ok && m.cmd = 9 && m.arg 0 = 0 && s.host.test then
      match r with
      | .next s => .next (packageReset s)
      | r => r
    else r

/-- RESET: the completion word, then the reset (R421). -/
def execMgmtReset (ring : Nat) (s : State) : Result :=
  match s.mgmtEntry ring with
  | none => .next s
  | some m =>
    let ok := entryHeadOk m.entry && recBits m.entry 0x12 47 0 = 0
    match runMgmt ring s (· = 10) (fun _ s => ({}, s)) with
    | .next s => if m.cmd = 10 && ok then .next (packageReset s) else .next s
    | r => r

def execTelem (ring : Nat) (s : State) : Result :=
  runMgmt ring s (· = 11) (fun _ s =>
    ({ resp := (List.range 16).flatMap (fun k => natToBytes 4 (Config.telemetry s.clock.tick k).toNat) }, s))

/-! ## Power and cooling (R425) -/

/-- The arithmetic clock is lowered: time only. -/
def execThermalThrottle (s : State) : Result := .next { s with host := { s.host with throttled := true } }

/-- The package shuts down and the link goes down. -/
def execThermalShutdown (s : State) : Result := .next { s with off := true, host := { s.host with link := false } }

/-! ## Test registers (R22, R424) -/

/-- Major 0x3F executes in test mode, at supervisor level. -/
def testOnly (s : State) (i : Instr) (r : Result) : Result :=
  if !s.host.test then raiseIllegal s i else if !s.hart.sup then raisePrivilege s i else r

def execDgrd (d a : SReg) (s : State) : Result :=
  testOnly s (.dgrd d a) (finishS s d (if s.hart.sreg a = 0 then Config.serialHash else 0))

def execDgwr (a b : SReg) (s : State) : Result :=
  let x := s.hart.sreg b
  testOnly s (.dgwr a b)
    (if s.hart.sreg a = 1 then
      if field x 11 8 ≤ 8 then finishHart s (fun h => { h with vParity := (field x 5 0, field x 11 8) :: h.vParity }) else finishHart s id
    else if s.hart.sreg a = 2 then finishHart (s.markPoison x.toNat) id
    else finishHart s id)

end Sys2Proof.Machine
end

