-- ==== Sys2Proof/Machine/Special.lean ====
section
/-! DEFINITION. Special registers and the moves of major 0x17 (01 R11 to R15, R19, R23; 04 R91). -/

namespace Sys2Proof.Machine

/-- How a special register answers a write (R11). -/
inductive SrKind
  | rw | ro | clear
  deriving DecidableEq, Repr

/-- The assigned numbers (R11). -/
def srKind (n : Nat) : Option SrKind :=
  if n ≤ 0x0B || (0x10 ≤ n && n ≤ 0x12) || (0x20 ≤ n && n ≤ 0x23) || (0x100 ≤ n && n ≤ 0x105) || (0x110 ≤ n && n ≤ 0x113) then some .rw
  else if n = 0x30 || n = 0x31 || (0x40 ≤ n && n ≤ 0x46) || n = 0x50 || n = 0x51 then some .ro
  else if n = 0x120 || n = 0x121 then some .clear
  else none

/-- A special register as a hart reads it (R11). Every hart reads one TIME, with none of the skew that R14 allows: the model's choice (log 61). -/
def State.readSr (s : State) (hn n : Nat) : Word :=
  let h := s.hartAt hn
  let c := s.coreAt (coreOfHart hn)
  match n with
  | 0x00 => h.mode | 0x01 => h.vl | 0x02 => h.tl | 0x03 => h.tc | 0x04 => h.loopHead | 0x05 => h.loopSz | 0x06 => h.rowIdx
  | 0x07 => h.tileIdx | 0x08 => h.convoy | 0x09 => h.hwm | 0x0A => h.vstart | 0x0B => h.stepArr
  | 0x10 => h.fflags | 0x11 => h.modulus | 0x12 => h.lossBnd
  | 0x20 => h.tlive0 | 0x21 => h.tlive1 | 0x22 => h.tlive2 | 0x23 => h.tlive3
  | 0x30 => s.fabstat hn | 0x31 => s.mdstat hn
  | 0x40 => word (hartIndex hn) | 0x41 => h.gangId | 0x42 => h.gangSize | 0x43 => word (coreIndex (coreOfHart hn))
  | 0x44 => word (dieOfHart hn) | 0x45 => word s.coll.rank | 0x46 => h.taskFp
  | 0x50 => word s.clock.cycle | 0x51 => word s.clock.time
  | 0x100 => word (h.status.toNat + if s.host.test then 256 else 0)
  | 0x101 => h.trapBase | 0x102 => h.trapCause | 0x103 => h.trapPc | 0x104 => h.trapVal | 0x105 => h.trapVec
  | 0x110 => c.barAge | 0x111 => c.ageLim | 0x112 => s.sched.qage | 0x113 => s.coll.sqTime
  | 0x120 => h.rfCorr | 0x121 => (s.dieAt (dieOfHart hn)).hpskip
  | _ => 0

/-- The bits of a register that a write reaches (R4, R11). -/
def srMask (n : Nat) : Nat :=
  match n with
  | 0x00 => 0x1F7F | 0x01 => 0x33FF | 0x02 => 0xFFFF | 0x03 => 0xFFFFFFFF | 0x04 => 0x01FFFFFFFFFFFFFC | 0x05 => 0xBFFF
  | 0x06 => 0xFFFF | 0x07 => 0xFFFFFFFF | 0x08 => 0x81FF | 0x09 => 0x1FF3F | 0x0A => 0x3FF | 0x0B => 1
  | 0x10 => 0xFF | 0x11 => 0xFFFFFFFF | 0x12 => 0xFFFFFFFF
  | 0x100 => 0x1F | 0x101 => 0x01FFFFFFFFFFF000 | 0x102 => 0xFF | 0x103 => 0x01FFFFFFFFFFFFFC | 0x105 => 0x013F03FF
  | 0x110 => 0xFFFFFFFF | 0x111 => 0xFFFFF | 0x112 => 0xFFFF | 0x113 => 0xFFFFFF
  | 0x120 | 0x121 => 0xFFFFFFFF
  | _ => 2 ^ 64 - 1

/-- A loss bound that may be written: 0.0 to 1.0, or −0.0 (R12). -/
def lossBndOk (x : Nat) : Bool := x ≤ 0x3F800000 || x = 0x80000000

/-- A value that a write may not give (R12). -/
def srForbidden (h : Hart) (n : Nat) (x : Word) : Bool :=
  match n with
  | 0x00 => (48 ≤ field x 5 0 && field x 5 0 ≤ 62) || 5 ≤ field x 10 8
  | 0x02 | 0x03 => x = 0
  | 0x06 => h.tl.toNat ≤ x.toNat
  | 0x07 => h.tc.toNat ≤ x.toNat
  | 0x08 => bit x 15 && (field x 8 4 = 0 || 16 < field x 3 0 + field x 8 4)
  | 0x11 => x.toNat % 2 = 0 || x.toNat ≤ 2 ^ 16 || 2 ^ 31 ≤ x.toNat
  | 0x12 => !lossBndOk x.toNat
  | _ => false

/-- What a permitted value is stored as (R12). -/
def srStored (n : Nat) (x : Word) : Word :=
  match n with
  | 0x01 => mkVL (field x 13 12) (min (field x 9 0) (512 / 2 ^ field x 13 12))
  | 0x08 => if bit x 15 then x else 0
  | _ => x

/-- A register of the hart set. -/
def Hart.setSr (h : Hart) (n : Nat) (x : Word) : Hart :=
  match n with
  | 0x00 => { h with mode := x } | 0x01 => { h with vl := x } | 0x02 => { h with tl := x } | 0x03 => { h with tc := x }
  | 0x04 => { h with loopHead := x } | 0x05 => { h with loopSz := x } | 0x06 => { h with rowIdx := x }
  | 0x07 => { h with tileIdx := x } | 0x08 => { h with convoy := x } | 0x09 => { h with hwm := x }
  | 0x0A => { h with vstart := x } | 0x0B => { h with stepArr := x }
  | 0x10 => { h with fflags := x } | 0x11 => { h with modulus := x } | 0x12 => { h with lossBnd := x }
  | 0x20 => { h with tlive0 := x } | 0x21 => { h with tlive1 := x } | 0x22 => { h with tlive2 := x } | 0x23 => { h with tlive3 := x }
  | 0x100 => { h with status := x } | 0x101 => { h with trapBase := x } | 0x102 => { h with trapCause := x }
  | 0x103 => { h with trapPc := x } | 0x104 => { h with trapVal := x } | 0x105 => { h with trapVec := x }
  | 0x120 => { h with rfCorr := x }
  | _ => h

/-- A register set, wherever it is held (R11, R13). -/
def State.setSr (s : State) (n : Nat) (x : Word) : State :=
  match n with
  | 0x110 => s.onCore (fun c => { c with barAge := x })
  | 0x111 => s.onCore (fun c => { c with ageLim := x })
  | 0x112 => { s with sched := { s.sched with qage := x } }
  | 0x113 => { s with coll := { s.coll with sqTime := x } }
  | 0x121 => s.onDieAt (dieOfHart s.cur) (fun d => { d with hpskip := x })
  | _ => s.onHart (fun h => h.setSr n x)

/-- Level and number, before anything else of an access (R11). -/
def srAccess (s : State) (i : Instr) (n : Nat) (k : SrKind → Result) : Result :=
  if 0x100 ≤ n && n ≤ 0x1FF && !s.hart.sup then raisePrivilege s i
  else match srKind n with
    | none => raiseIllegal s i
    | some x => k x

/-- A write: the new value formed from the old, then checked. A register marked "RO, clear" hears only `mclr` (R11, R12, R91). -/
def writeSr (s : State) (i : Instr) (n : Nat) (mclr : Bool) (f : Word → Word) : Result :=
  srAccess s i n (fun k =>
    let x := f (s.readSr s.cur n) &&& word (srMask n)
    match k with
    | .ro => raiseIllegal s i
    | .clear => if mclr then finishHart (s.setSr n x) id else finishHart s id
    | .rw => if srForbidden s.hart n x then raiseIllegal s i else finishHart (s.setSr n (srStored n x)) id)

def execMfs (d : SReg) (n : BitVec 12) (s : State) : Result :=
  srAccess s (.mfs d n) n.toNat (fun _ => finishS s d (s.readSr s.cur n.toNat))
def execMts (a : SReg) (n : BitVec 12) (s : State) : Result := writeSr s (.mts a n) n.toNat false (fun _ => s.hart.sreg a)
def execMset (a : SReg) (n : BitVec 12) (s : State) : Result := writeSr s (.mset a n) n.toNat false (fun x => x ||| s.hart.sreg a)
def execMclr (a : SReg) (n : BitVec 12) (s : State) : Result := writeSr s (.mclr a n) n.toNat true (fun x => x &&& ~~~(s.hart.sreg a))

end Sys2Proof.Machine
end

