-- ==== Sys2Proof/Machine/Preempt.lean ====
section
/-! DEFINITION. Pre-emption: the request, the save and the restore (06 R140; 16 R337 to R343, R428). -/

namespace Sys2Proof.Machine

/-! ## The request (R337) -/

/-- A hart stops where it is: out of a wait, a held arrival withdrawn (R152). -/
def stopHart (s : State) (n : Nat) : State :=
  if (s.hartAt n).run = .running then (withdraw n s).onHartAt n (fun h => { h with run := .stopped, block := none }) else s

/-- A gang is asked to stop; one stopped or saved already, or at its end, ignores it. Its harts stop at their own next points. -/
def requestPreempt (core : Nat) (g : Gang) (s : State) : State :=
  if g.state ≠ .running || g.ending.isSome then s
  else
    s.onCoreAt core (fun c =>
      { c with gangs := SMap.set none c.gangs g.id (some { g with state := .stopping })
               fab := if g.fab then { c.fab.account s.clock.cycle with stopping := true } else c.fab })

/-- The acting hart's gang is to stop, so that the hart stops at the point where it stands. -/
def State.stopDue (s : State) : Bool :=
  (match s.turn with | .hart _ => true | _ => false) && s.hart.run = .running && (s.gangOf s.cur).any (fun g => g.state = .stopping)

/-- A hart that is to stop: a trap or an interrupt due at its point is delivered first, and the hart stops at the handler's first instruction;
else it stops where it stands, and the instruction there has no effect (R324, R337). -/
def heedStop (s : State) (r : Result) : Result :=
  if !s.stopDue then r
  else if s.hart.atEntry then .next (stopHart s s.cur)
  else match s.ageTrap s.cur with
    | some t => .next (stopHart (trapOn s.cur t (withdraw s.cur s)) s.cur)
    | none => match r with
      | .next t => if (t.hartAt s.cur).atEntry || (t.hartAt s.cur).run = .frozen then .next (stopHart t s.cur) else .next (stopHart s s.cur)
      | r => r

/-- A write of PREEMPT: REQ in [3], any hart of the gang in [2:0]. A free hart or the supervisor hart is ignored. -/
def writePreempt (core : Nat) (value : Word) (s : State) : State :=
  let s := s.onCoreAt core (fun c => { c with preHart := field value 2 0 })
  match s.gangOf (core * 8 + field value 2 0) with
  | some g => if bit value 3 then requestPreempt core g s else s
  | none => s

def execPreemptRequest (core : Nat) (value : Word) (s : State) : Result := .next (writePreempt core value s)

/-! ## The distributor's request (R140) -/

/-- The core's grant for a record with one gang's harts, slots, accumulators and fabric free too. -/
def State.wouldFit (s : State) (r : Rec) (core : Nat) (g : Gang) : Bool :=
  let t := (g.harts core).foldl (fun t n => t.onHartAt n Hart.emptied) s
  let t := t.onCoreAt core (fun c => { c with gangs := SMap.set none c.gangs g.id (some { g with state := .saved, prio := 4 }) })
  (t.grantOn r core).isSome

/-- The gangs that the distributor may stop for a record of PRIO 0: those of the die that R134 selects for it, the model's reading of `its die`
(R140; log 57). -/
def State.victims (s : State) (r : Rec) : List (Nat × Gang) :=
  (List.range 48).flatMap (fun c =>
    let core := coreOf (s.dieFor r) c
    ((s.coreAt core).grants.filter (fun g => g.state = .running && g.ending.isNone && r.prio < g.prio && s.wouldFit r core g)).map (fun g => (core, g)))

/-- The numerically highest PRIO first, then the oldest. -/
def pickVictim (xs : List (Nat × Gang)) : Option (Nat × Gang) :=
  xs.foldl (fun b x => match b with
    | none => some x
    | some y => if y.2.prio < x.2.prio || (y.2.prio = x.2.prio && x.2.order < y.2.order) then some x else some y) none

/-- A priority-0 head without a binding for QAGE µs, counted afresh from an election of the master, the model's choice (log 57). -/
def execDistributorPreempt (q : Nat) (s : State) : Result :=
  let t := s.queue q
  match s.head q with
  | none => .next s
  | some p =>
    match (s.recAt t.ctx p.addr).1 with
    | none => .next s
    | some (r, _) =>
      if !s.candidate q || r.prio ≠ 0 || !s.recValid false r || s.clock.time - max (max t.lastServe t.headSince) s.sched.elected < s.qageNs || (s.findGrant r).isSome then .next s
      else match pickVictim (s.victims r) with
        | some (core, g) => .next (requestPreempt core g s)
        | none => .next s

/-! ## When the work of a stopping gang is settled (R337, R338) -/

/-- A piece of a gang's work: what it needs of the slots for its next act, what it holds, and what its own engine puts before it. -/
structure WorkItem where
  /-- Kind and number: 0 copy and matrix work by name, 1 + hart the hart's fabric commands by place. -/
  key : Nat × Nat
  need : Footprint
  keep : Footprint
  behind : List (Nat × Nat) := []

/-- Chunks of a copy command's next act. -/
def CopyCmd.need (c : CopyCmd) : Footprint :=
  let x := [c.dst.slot * 4 + c.next]
  let src := (c.src.map Desc.chunks).getD []
  match c.op with
  | .tst => ⟨c.hart, c.stamp, x, []⟩
  | .tcpy => if c.image.isSome then ⟨c.hart, c.stamp, [], x⟩ else ⟨c.hart, c.stamp, src, []⟩
  | .tpack | .tunpk => ⟨c.hart, c.stamp, src, c.dst.chunks⟩
  | .ttag => ⟨c.hart, c.stamp, [], c.dst.chunks⟩
  | .tld | .tfill => ⟨c.hart, c.stamp, [], x⟩

/-- Fabric work that has still to run. -/
def Fabric.work (f : Fabric) : List WorkItem :=
  (f.launches ++ f.queued).map (fun l =>
    let p : Footprint := ⟨l.hart, l.stamp, l.reads, l.writes⟩
    { key := (1 + l.hart, l.stamp), need := p, keep := p }) ++
  f.cmds.filterMap (fun x => match x with
    | .stwld _ d hart stamp => some { key := (1 + hart, stamp), need := ⟨hart, stamp, d.chunks, []⟩, keep := ⟨hart, stamp, d.chunks, []⟩ }
    | _ => none)

/-- Matrix work of a gang in the engine's order: an instruction is behind the earlier ones that it depends on (R242). -/
def matWork : List MatCmd → List MatCmd → List WorkItem
  | _, [] => []
  | before, x :: xs =>
    let p : Footprint := ⟨x.hart, x.stamp, x.reads, x.writes⟩
    { key := (0, x.uid), need := p, keep := p, behind := (before.filter (fun y => y.conflicts x)).map (fun y => (0, y.uid)) } ::
      matWork (before ++ [x]) xs

/-- Copy, matrix and fabric work of a gang. -/
def Core.work (c : Core) (g : Gang) : List WorkItem :=
  (c.copies.filter (fun x => x.gang = some g.id)).map (fun x => { key := (0, x.uid), need := x.need, keep := x.footprint }) ++
  matWork [] (c.mats.filter (fun x => x.gang = some g.id)) ++ (if g.fab then c.fab.work else [])

/-- The first waits for the second: in their engine, or under R222. -/
def WorkItem.waits (x y : WorkItem) : Bool :=
  x.behind.contains y.key ||
  (x.need.hart = y.keep.hart && y.keep.stamp < x.need.stamp &&
    (overlap y.keep.writes x.need.reads || overlap y.keep.writes x.need.writes || overlap y.keep.reads x.need.writes))

/-- Work that does not go on: commands that a fault stops, later ones of a frozen queue (R328, R332), and the fabric's, which stands at its
markers (R275). -/
def Core.stoppedWork (c : Core) (g : Gang) : List (Nat × Nat) :=
  ((c.copies.filter (fun x => x.gang = some g.id)).filter (fun x =>
    x.stop.isSome || c.copies.any (fun y => y.hart = x.hart && y.stamp < x.stamp && (y.stop.map (·.protect)).getD false))).map
    (fun x => (0, x.uid)) ++ (if g.fab then c.fab.work.map (·.key) else [])

/-- Work that stopped work holds, directly or through other work. -/
def heldWork (items : List WorkItem) : Nat → List (Nat × Nat) → List (Nat × Nat)
  | 0, ids => ids
  | n + 1, ids =>
    heldWork items n (ids ++ (items.filter (fun x =>
      !ids.contains x.key && items.any (fun y => ids.contains y.key && x.waits y))).map (·.key))

/-- Every copy command of the gang is complete, stopped, or held by stopped work. -/
def Core.copiesSettled (c : Core) (g : Gang) : Bool :=
  let items := c.work g
  let held := heldWork items items.length (c.stoppedWork g)
  (c.copies.filter (fun x => x.gang = some g.id)).all (fun x => held.contains (0, x.uid))

/-! ## The save area (R339, R340, R428) -/

/-- The union of the gang's TLIVE registers, a retired hart's not among them (R341). -/
def State.tliveOf (s : State) (core : Nat) (g : Gang) : List Word :=
  (List.range 4).map (fun k => (g.harts core).foldl (fun w n => w ||| s.readSr n (0x20 + k)) 0)

/-- Slot k is live. -/
def slotLive (tl : List Word) (k : Nat) : Bool := bit (tl.getD (k / 64) 0) (k % 64)

/-- The header. -/
def saveHeader (g : Gang) (copies mats : Nat) : List Byte :=
  [g.post.addr.toNat, g.chunkLo, g.chunkHi, g.ctx, g.queue, g.size, g.slot0, g.slots, g.bar0, g.bars, g.acc0, g.accs, g.fab.toNat,
   copies, mats].flatMap (natToBytes 8) ++ List.replicate (0x1000 - 0x78) 0

/-- The special registers of a hart's part, with their places (R340). -/
def savedSrs : List (Nat × Nat) :=
  ((List.range 0x0C ++ [0x10, 0x11, 0x12, 0x20, 0x21, 0x22, 0x23]).map (fun n => (n, 0x100 + n * 8))) ++
  ((List.range 6).map (fun k => (0x100 + k, 0x300 + k * 8)))

/-- A hart's part: pieces with their offsets. -/
def State.hartPart (s : State) (n : Nat) : List (Nat × List Byte) :=
  let h := s.hartAt n
  let nb := field h.hwm 15 8 + 1
  [(0, (List.range 32).flatMap (fun r => natToBytes 8 (h.sreg (BitVec.ofNat 5 r)).toNat))] ++
  savedSrs.map (fun x => (x.2, natToBytes 8 (s.readSr n x.1).toNat)) ++
  [(0x3F8, natToBytes 8 h.pc.toNat), (0x400, (List.range 48).flatMap (fun r => natToBytes 64 (h.preg (BitVec.ofNat 6 r)).toNat)),
   (0x1000, (List.range 64).map (fun r => BitVec.ofNat 8 (h.tag r).code))] ++
  (if bit h.hwm 16 then (List.range (field h.hwm 5 0 + 1)).map (fun r => (0x1400 + 256 * r, natToBytes nb (h.vreg r).toNat)) else [])

/-- Pieces written at an address. -/
def State.writeParts (s : State) (pa : Nat) (xs : List (Nat × List Byte)) : State :=
  xs.foldl (fun s x => (List.range ((x.2.length + 63) / 64)).foldl
    (fun s k => s.writePhys (pa + x.1 + 64 * k) ((x.2.drop (64 * k)).take 64)) s) s

/-- The marks of a slot's window bytes, where the bytes are written (R334). -/
def State.saveMarks (core : Nat) (pa : Nat) (s : State) (slot : Nat) : State :=
  let base := windowKey core (slot * 16384)
  if s.mem.poison = [] then s
  else s.markKeys (((List.range 1024).filter (fun w => s.poisonedKey (base + 16 * w))).filterMap (fun w => s.part.key? (pa + 16 * w)))

/-- The private parts as the engine writes them: copy commands and matrix work, and the fabric where it is granted (R428). -/
def privateParts (tick : Nat) (fab : Bool) : List (Nat × List Byte) :=
  [(0x31000, (List.range 0xA000).map (fun k => Config.privateByte tick (0x31000 + k)))] ++
  (if fab then [(0x80000, (List.range 0x80000).map (fun k => Config.privateByte tick (0x80000 + k)))] else [])

/-- What the engine keeps of a hart. -/
def Hart.kept (h : Hart) : SavedHart :=
  { run := h.run, retired := h.retired, op := h.op, atEntry := h.atEntry, inConvoy := h.conv.isSome, mshape := h.mshape, mfail := h.mfail
    stamp := h.stamp, batch := h.batch, acts := h.acts }

/-- A fabric at rest: ages and windows as spans up to its last act, with which it came to a stand (R263, R268). -/
def Fabric.pause (f : Fabric) : Fabric :=
  { f with headAt := f.headAt.map (fun x => (x.1, f.since - x.2)), windowAt := f.windowAt.map (fun x => (x.1, f.since - x.2)) }

/-- A fabric that goes on from rest. -/
def Fabric.resume (now : Nat) (f : Fabric) : Fabric :=
  { f with headAt := f.headAt.map (fun x => (x.1, now - x.2)), windowAt := f.windowAt.map (fun x => (x.1, now - x.2)), since := now
           stopping := false }

/-- The slots of a grant that are live, by their places in it (R341). -/
def State.liveSlots (s : State) (core : Nat) (g : Gang) : List Nat :=
  (List.range g.slots).filter (fun k => slotLive (s.tliveOf core g) (g.slot0 + k))

/-- The parts of a gang's area, with their offsets (R339 to R341). -/
def State.areaParts (s : State) (core : Nat) (g : Gang) : List (Nat × List Byte) :=
  let c := s.coreAt core
  let mine := fun (x : Option Nat) => x = some g.id
  [(0, saveHeader g (c.copies.filter (fun x => mine x.gang)).length (c.mats.filter (fun x => mine x.gang)).length)] ++
  ((g.harts core).zipIdx).flatMap (fun x =>
    if (s.hartAt x.1).retired then [] else (s.hartPart x.1).map (fun p => (0x1000 + x.2 * 0x6000 + p.1, p.2))) ++
  (List.range g.accs).map (fun k => (0x40000 + 32768 * k,
    (List.range 8192).flatMap (fun e => natToBytes 4 (c.accAt (g.acc0 + k) (e / 64) (e % 64)).toNat))) ++
  [(0x100000, (List.range g.slots).map (fun k => BitVec.ofNat 8 (c.layOf (g.slot0 + k)))),
   (0x100100, (s.tliveOf core g).flatMap (fun w => natToBytes 8 w.toNat))] ++
  (s.liveSlots core g).map (fun k => (0x400000 + 16384 * k, s.mem.cells.bytes (windowKey core ((g.slot0 + k) * 16384)) 16384)) ++
  privateParts s.clock.tick g.fab

/-- The parts of a gang written to an area; those that a fenced die's bytes drop leave one record (R339, R354). -/
def State.saveParts (s : State) (core : Nat) (g : Gang) (pa : Nat) : State :=
  let parts := s.areaParts core g
  let t := (s.liveSlots core g).foldl (fun (t : State) k => t.saveMarks core (pa + 0x400000 + 16384 * k) (g.slot0 + k)) (s.writeParts pa parts)
  memDrop (dieOfCore core) (parts.findSome? (fun p => s.firstLost (pa + p.1) p.2.length)) t

/-- The gang leaves its core, but for its barriers (R337 step 7). -/
def State.parkGang (s : State) (core : Nat) (g : Gang) (pa : Nat) : State :=
  let hs := g.harts core
  let c := s.coreAt core
  let mine := fun (x : Option Nat) => x = some g.id
  let saved : SavedWork :=
    { harts := hs.map (fun n => (s.hartAt n).kept), copies := (c.copies.filter (fun x => mine x.gang)).map CopyCmd.unpaged
      fails := c.tileFails.filter (fun f => hs.contains f.hart), mats := c.mats.filter (fun x => mine x.gang)
      fabric := if g.fab then some c.fab.pause else none, tick := s.clock.tick }
  let s := hs.foldl (fun s n => s.onHartAt n Hart.emptied) s
  s.onCoreAt core (fun c =>
    { c with gangs := SMap.set none c.gangs g.id (some { g with state := .saved, saveArea := pa, saved := saved })
             copies := c.copies.filter (fun x => !mine x.gang), mats := c.mats.filter (fun x => !mine x.gang)
             tileFails := c.tileFails.filter (fun f => !hs.contains f.hart)
             fab := if g.fab then {} else c.fab })

/-- A hart has stopped, and no store of its waits at another die. -/
def State.hartStopped (s : State) (n : Nat) : Bool := (s.hartAt n).run ≠ .running && s.storesOf n = []

/-- A stopping gang whose work is settled is saved, once the die's ring holds an area (R337 steps 2 to 7). -/
def execPreemptSave (core gang : Nat) (s : State) : Result :=
  let die := dieOfCore core
  let d := s.dieAt die
  match (s.coreAt core).gang gang with
  | none => .next s
  | some g =>
    if g.state ≠ .stopping || g.ending.isSome || !(g.harts core).all s.hartStopped || !(s.coreAt core).copiesSettled g || (g.fab && !s.fabricSettled core) || d.saverd = d.savewr then .next s
    else
      let entry := d.saveb.toNat + d.saverd % 512 * 8
      let pa := bytesToNat (s.readPhys entry 8)
      if !s.stackReady entry || !(s.areaParts core g).all (fun p => s.rangeReady (pa + p.1) p.2.length) then .next s
      else
        let t := ((s.onDieAt die (fun d => { d with saverd := d.saverd + 1 })).saveParts core g pa).parkGang core g pa
        .next (if s.roomFor t then t else s)

/-! ## The restore (R343) -/

/-- Bytes of a save area: free where a poison mark or a fenced die has taken them (R334, R354; log 59). -/
def State.readArea (s : State) (pa n : Nat) : List Byte :=
  if s.poisonedPhys pa n then (List.range n).map (fun i => Config.freeByte s.clock.tick (pa + i)) else s.readPhys pa n

/-- The registers of a hart's part whose bytes are marked come with parity errors, so that their next reading is a machine check: scalar,
predicate and vector registers (R334, R335; log 59). -/
def State.markHart (s : State) (pa : Nat) (h : Hart) : Hart :=
  let bad := fun (o n : Nat) => s.poisonedPhys (pa + o) n
  let nb := field h.hwm 15 8 + 1
  { h with
    sParity := (List.range 32).filter (fun r => r ≠ 0 && bad (8 * r) 8)
    pParity := (List.range 48).filter (fun r => bad (0x400 + 64 * r) 64)
    vParity := if bit h.hwm 16 then
        ((List.range (field h.hwm 5 0 + 1)).filter (fun r => bad (0x1400 + 256 * r) nb)).flatMap (fun r => [(r, 0), (r, 1)])
      else [] }

/-- A hart from its part of the area. -/
def State.loadHart (s : State) (g : Gang) (pa k : Nat) (x : SavedHart) (old : Hart) : Hart :=
  let rd := fun (o n : Nat) => bytesToNat (s.readArea (pa + o) n)
  let h : Hart := { ctx := g.ctx, gang := some g.id, gangId := word k, gangSize := word g.size, taskFp := addrField 6 g.post.addr
                    rfCorr := old.rfCorr, mshape := x.mshape, mfail := x.mfail, stamp := x.stamp, op := x.op, atEntry := x.atEntry
                    batch := x.batch, acts := x.acts, run := if x.run = .stopped then .running else x.run }
  if x.retired then { h with retired := true, trapBase := old.trapBase, trapCause := old.trapCause, trapPc := old.trapPc
                             trapVal := old.trapVal, trapVec := old.trapVec }
  else
    let h := (List.range 32).foldl (fun (h : Hart) r => h.setS (BitVec.ofNat 5 r) (word (rd (8 * r) 8))) h
    let h := savedSrs.foldl (fun (h : Hart) e => h.setSr e.1 (word (rd e.2 8) &&& word (srMask e.1))) h
    let h := (List.range 48).foldl (fun (h : Hart) r => h.setP (BitVec.ofNat 6 r) (BitVec.ofNat 512 (rd (0x400 + 64 * r) 64))) h
    let h := (List.range 64).foldl (fun (h : Hart) r => h.setTag r ((Tag.ofCode? (rd (0x1000 + r) 1)).getD .untyped)) h
    let nb := field h.hwm 15 8 + 1
    let h := if bit h.hwm 16 then
        (List.range (field h.hwm 5 0 + 1)).foldl (fun (h : Hart) r => h.setV r (BitVec.ofNat 2048 (rd (0x1400 + 256 * r) nb))) h
      else h
    { s.markHart pa h with
             pc := addrField 2 (word (rd 0x3F8 8))
             conv := if x.inConvoy && bit h.convoy 15 then some ⟨field h.convoy 8 4, field h.convoy 3 0, []⟩ else none }

/-- A granted slot as saved, or zero; its tag, its marks (R341). -/
def State.loadSlot (core ctx pa : Nat) (tl : List Word) (g : Gang) (s : State) (k : Nat) : State :=
  let slot := g.slot0 + k
  let from' := pa + 0x400000 + 16384 * k
  let base := windowKey core (slot * 16384)
  let lay := bytesToNat (s.readArea (pa + 0x100000 + k) 1)
  let t := s.zeroSlot core slot
  let t := if slotLive tl slot then
      let t := { t with mem := { t.mem with cells := t.mem.cells.writeBytes base (s.readPhys from' 16384) } }
      if s.poisonedPhys from' 16384 then
        t.markKeys (((List.range 1024).filter (fun w => s.poisonedPhys (from' + 16 * w) 16)).map (fun w => base + 16 * w))
      else t
    else t
  t.onCoreAt core (fun c => { c with lay := SMap.set 0 c.lay slot (if lay < 5 then lay else 0)
                                     slotCtx := SMap.set none c.slotCtx slot (some ctx) })

/-- Accumulator k of the grant. -/
def State.loadAcc (core ctx pa : Nat) (g : Gang) (s : State) (k : Nat) : State :=
  let a := g.acc0 + k
  let bs := s.readArea (pa + 0x40000 + 32768 * k) 32768
  s.onCoreAt core (fun c =>
    { c with acc := (List.range 8192).foldl
               (fun m e => SMap.set 0 m (a * 8192 + e) (BitVec.ofNat 32 (bytesToNat ((bs.drop (4 * e)).take 4)))) c.acc
             accCtx := SMap.set none c.accCtx a (some ctx) })

/-- A decision of FRCTL recorded while the gang was saved takes effect (R341). -/
def applyDecision (core : Nat) (s : State) (c : CopyCmd) : State :=
  match c.stop.bind (·.decided) with
  | some true => s.abortCopy core c
  | some false => s.onCoreAt core (fun k => k.putCopy (retryCopy c))
  | none => s

/-! An undefined state of the private parts touches nothing outside the grant (R428; log 16). -/

/-- A range of the grant. -/
def Gang.owns (g : Gang) (d : Desc) : Bool :=
  d.cnt ≠ 0 && d.lay < 5 && (List.range d.cnt).all (fun k => g.hasSlot (d.slot + k)) && d.credits.all g.hasBar

/-- A copy command that stays within the grant. -/
def Gang.ownsCopy (g : Gang) (core : Nat) (c : CopyCmd) : Bool :=
  (g.harts core).contains c.hart && c.gang = some g.id && c.ctx = g.ctx && c.user && c.op ≠ .tst && g.owns c.dst && c.src.all g.owns &&
    c.pages = [] && c.next < c.total

/-- A matrix instruction whose ranges hold what its shape asks for (R237, R250 to R254). -/
def MatCmd.fits (c : MatCmd) : Bool :=
  let x := Shape.ofWord c.shape
  shapeFault c.shape = none && x.m ≠ 0 &&
    (match c.op, c.a, c.b, c.out with
     | .mzero, none, none, none => true
     | .mload, some a, none, none => !a.short x.ms
     | .mread, none, none, some d => readParams c.param = none && !d.short x.ms
     | .mma, some a, some b, none => !a.short x.slotsA && !b.short x.slotsB
     | .mmab, some a, some b, none => !a.short x.slotsA && !b.short (1 + x.slotsB)
     | .mmanm, some a, some b, none | .mrem, some a, some b, none => !a.short x.slotsA && !b.short x.slotsTerms
     | .mscan, some a, some b, none => !x.isInt && !a.short x.slotsScan && !b.short x.slotsScan
     | .mdec, some b, none, some d =>
       x.decTag && x.k % ((pattern x.pat).2.1 * x.dot / (pattern x.pat).1) = 0 && !d.short x.slotsTerms && !b.short x.slotsB
     | _, _, _, _ => false)

/-- A matrix instruction that stays within the grant. -/
def Gang.ownsMat (g : Gang) (core : Nat) (c : MatCmd) : Bool :=
  (g.harts core).contains c.hart && c.gang = some g.id && (c.op = .mdec || g.hasAcc c.acc) && c.a.all g.owns && c.b.all g.owns &&
    c.out.all g.owns && c.fits && c = c.touch

/-- A stream program that `scfg` would accept of the gang. -/
def Gang.ownsProg (g : Gang) (p : FabProg) : Bool := p.ctxs.all (fun e => e.node < 26 && badEntry p e = []) && p.outside g = []

/-- A fabric state that stays within the grant. -/
def Gang.ownsFab (g : Gang) (core : Nat) (f : Fabric) : Bool :=
  let launch := fun (l : Launch) => (g.harts core).contains l.hart && l.bar.all g.hasBar
  f.gang = some g.id && f.prog.all g.ownsProg && f.launches.all launch && f.outPorts = [] && f.rm = {} && f.cmds.length ≤ 16 &&
    f.cmds.all (fun c => match c with
      | .scfg p => g.ownsProg p
      | .sgo l => launch l
      | .stwld x d h _ => (x < 8 || (10 ≤ x && x < 14)) && g.owns d && d.cnt = 1 && (g.harts core).contains h)

/-- Private parts that stay within the grant and within the engines' queues. -/
def Gang.ownsWork (g : Gang) (core : Nat) (w : SavedWork) : Bool :=
  w.copies.all (g.ownsCopy core) && (g.harts core).all (fun h => (w.copies.filter (fun c => c.hart = h)).length ≤ 32) &&
    w.fails.all (fun f => (g.harts core).contains f.hart) && w.mats.all (g.ownsMat core) && w.mats.length ≤ 64 &&
    w.harts.all (fun h => h.mshape = 0 || shapeFault h.mshape = none) && w.fabric.all (g.ownsFab core)

/-- The private parts are as the engine wrote them, and carry no mark. -/
def State.privateIntact (s : State) (g : Gang) : Bool :=
  (privateParts g.saved.tick g.fab).all (fun p =>
    s.readPhys (g.saveArea + p.1) p.2.length = p.2 && !s.poisonedPhys (g.saveArea + p.1) p.2.length)

/-- The stacks of the parts of an area that a restore reads, and of the ring's entry that it writes, are ready (R416). -/
def State.areaReady (s : State) (die : Nat) (g : Gang) : Bool :=
  let d := s.dieAt die
  s.stackReady (d.saveb.toNat + d.savewr % 512 * 8) &&
    [(0, 0x1000 + 0x6000 * g.size), (0x31000, 0xA000), (0x40000, 32768 * g.accs), (0x80000, if g.fab then 0x80000 else 0),
     (0x100000, 0x120), (0x400000, 16384 * g.slots)].all (fun p => s.rangeReady (g.saveArea + p.1) p.2)

/-- What a restore takes up again: what was saved, or, where the private parts were changed, a state that nothing defines; a hart's shape and
MDSTAT lie in those parts, its registers do not. -/
def State.restoredWork (s : State) (core : Nat) (g : Gang) : SavedWork :=
  let w := Config.privateWork s.clock.tick
  if s.privateIntact g || !g.ownsWork core w then g.saved
  else
    { g.saved with
      harts := g.saved.harts.mapIdx (fun k h => match w.harts[k]? with
        | some x => { h with mshape := x.mshape, mfail := x.mfail }
        | none => h)
      copies := w.copies.mapIdx (fun k c => { c with uid := s.uid + k }), fails := w.fails
      mats := w.mats.mapIdx (fun k c => { c with uid := s.uid + 4096 + k }), fabric := if g.fab then w.fabric <|> g.saved.fabric else none }

/-- What a gang's grant needs is free again. -/
def State.canRestore (s : State) (core : Nat) (g : Gang) : Bool :=
  let c := s.coreAt core
  let free := s.freeHarts core
  s.usable core && (List.range g.size).all (fun k => free.contains (g.first + k)) &&
    (List.range g.slots).all (fun k => (freeSlots c).contains (g.slot0 + k)) &&
    (List.range g.accs).all (fun k => (freeAccs c).contains (g.acc0 + k)) && !(g.fab && c.active.any (·.fab))

/-- A head of numerically lower PRIO than a saved gang could be bound on the gang's core now: it goes first (R140). -/
def State.betterHead (s : State) (core : Nat) (g : Gang) : Bool :=
  (List.range 64).any (fun q => s.candidate q && match s.head q with
    | some p => (match (s.recAt (s.queue q).ctx p.addr).1 with
        | some (r, _) => s.recValid false r && r.prio < g.prio && (s.findGrant r).any (fun x => x.core = core)
        | none => false)
    | none => false)

/-- A saved gang is restored on its core into the same numbers, once the matrix queue has room for its instructions (R241), and its area goes
back to the ring (R343). -/
def execGangRestore (core gang : Nat) (s : State) : Result :=
  match (s.coreAt core).gang gang with
  | none => .next s
  | some g =>
    let w := s.restoredWork core g
    let queued := (s.coreAt core).mats.length + w.mats.length
    if g.state ≠ .saved || !s.canRestore core g || s.betterHead core g || 64 < queued || !s.areaReady (dieOfCore core) g then .next s
    else
      let pa := g.saveArea
      let tl := (List.range 4).map (fun k => word (bytesToNat (s.readArea (pa + 0x100100 + 8 * k) 8)))
      let before := s
      let s := { s with uid := s.uid + 8192 }
      let s := (w.harts.zipIdx).foldl (fun s x =>
        s.onHartAt (core * 8 + g.first + x.2) (s.loadHart g (pa + 0x1000 + x.2 * 0x6000) x.2 x.1)) s
      let s := (List.range g.slots).foldl (State.loadSlot core g.ctx pa tl g) s
      let s := (List.range g.accs).foldl (State.loadAcc core g.ctx pa g) s
      let s := s.onCoreAt core (fun c =>
        { c with gangs := SMap.set none c.gangs g.id (some { g with state := .running, saved := {}, saveArea := 0 })
                 copies := c.copies ++ w.copies, mats := c.mats ++ w.mats, tileFails := c.tileFails ++ w.fails
                 fab := match w.fabric with | some f => f.resume s.clock.cycle | none => c.fab })
      let s := (w.copies.filter (fun c => (c.stop.bind (·.decided)).isSome)).foldl (applyDecision core) s
      let t := pushArea (dieOfCore core) pa s
      .next (if before.roomFor t then t else before)

end Sys2Proof.Machine
end

