-- ==== Sys2Proof/Machine/Agents.lean ====
section
/-! DEFINITION. The steps that the package's own agents make: each is the meaning that `exec` gives the row of its name. -/

namespace Sys2Proof.Machine

/-- An agent's step. -/
def runEvent (e : Event) (s : State) : Host.Outcome State Fault Refusal :=
  match e with
  | .queueServe => execQueueServe s
  | .queuePromotion x1 => execQueuePromotion x1 s
  | .distributorPreempt x1 => execDistributorPreempt x1 s
  | .heldPostEntry x1 => execHeldPostEntry x1 s
  | .gangComplete x1 x2 => execGangComplete x1 x2 s
  | .engineCredit x1 => execEngineCredit x1 s
  | .barrierAgeExpiry x1 => execBarrierAgeExpiry x1 s
  | .copyChunkDone x1 x2 => execCopyChunkDone x1 x2 s
  | .transferPage x1 x2 => execTransferPage x1 x2 s
  | .protect x1 x2 => execProtect x1 x2 s
  | .matrixExecute x1 x2 => execMatrixExecute x1 x2 s
  | .configPeriod x1 => execConfigPeriod x1 s
  | .contextFire x1 x2 => execContextFire x1 x2 s
  | .inputPortEmit x1 x2 => execInputPortEmit x1 x2 s
  | .outputPortCommit x1 x2 => execOutputPortCommit x1 x2 s
  | .reweight x1 x2 => execReweight x1 x2 s
  | .blockedEdge x1 x2 => execBlockedEdge x1 x2 s
  | .faultRecordEntry x1 x2 => execFaultRecordEntry x1 x2 s
  | .preemptSave x1 x2 => execPreemptSave x1 x2 s
  | .gangRestore x1 x2 => execGangRestore x1 x2 s
  | .hotpageWindow x1 => execHotpageWindow x1 s
  | .pageMigration x1 => execPageMigration x1 s
  | .crossDieWriteApply x1 => execCrossDieWriteApply x1 s
  | .linkDown x1 => execLinkDown x1 s
  | .portDown x1 => execPortDown x1 s
  | .collectiveStep x1 => execCollectiveStep x1 s
  | .messageArrival x1 => execMessageArrival x1 s
  | .messageForward x1 => execMessageForward x1 s
  | .squareContribution x1 => execSquareContribution x1 s
  | .abortNoticeArrival x1 => execAbortNoticeArrival x1 s
  | .joinNoticeArrival x1 => execJoinNoticeArrival x1 s
  | .rotationLanding x1 => execRotationLanding x1 s
  | .squareTimeout x1 => execSquareTimeout x1 s
  | .repartitionExchange x1 => execRepartitionExchange x1 s
  | .setRelease x1 => execSetRelease x1 s
  | .post x1 => execPost x1 s
  | .copy x1 => execCopy x1 s
  | .ident x1 => execIdent x1 s
  | .setrank x1 => execSetrank x1 s
  | .mgmtFence x1 => execMgmtFence x1 s
  | .mgmtRepair x1 => execMgmtRepair x1 s
  | .replist x1 => execReplist x1 s
  | .attest x1 => execAttest x1 s
  | .fwstage x1 => execFwstage x1 s
  | .powercap x1 => execPowercap x1 s
  | .test x1 => execTest x1 s
  | .mgmtReset x1 => execMgmtReset x1 s
  | .telem x1 => execTelem x1 s
  | .hostDmaFault x1 => execHostDmaFault x1 s
  | .hostDmaComplete x1 => execHostDmaComplete x1 s

end Sys2Proof.Machine
end

