-- ==== Sys2Proof/Machine/Fetch.lean ====
section
/-! DEFINITION. Fetching an instruction's word, and what comes of one that cannot be had or is none (03 R56, R57, R61; 04 R86). -/

namespace Sys2Proof.Machine

/-- What a fetch gives. -/
inductive Fetched
  | word (w : Nat)
  | fault (t : Trap)
  /-- The HBM stack is not ready, so the access waits (R416). -/
  | hold
  deriving DecidableEq, Repr

/-- The fetch of one word (R57): translation, permission, poison. -/
def State.fetchAt (s : State) (pc : Word) : Fetched × State :=
  match s.checkAccess .fetch pc 4 with
  | (.error t, s) => (.fault t, s)
  | (.ok x, s) =>
    if !s.stackReady x.pa then (.hold, s)
    else if s.poisonedAccess x 4 then (.fault (poisonTrap pc), s)
    else (.word (bytesToNat (s.readPhys x.pa 4)), s)

/-- What R61 forbids in a convoy: `cvy` and majors 0x16 to 0x18, 0x1A, 0x26 to 0x28, 0x2A to 0x2E. -/
def forbiddenMajor (op : Nat) : Bool :=
  op = 0x01 || op = 0x16 || op = 0x17 || op = 0x18 || op = 0x1A || op = 0x26 || op = 0x27 || op = 0x28 || (0x2A ≤ op && op ≤ 0x2E)

/-- A word that is no instruction (R56); TRAPVAL holds it. -/
def execIllegalInsn (w : Word) (s : State) : Result := raiseTrap s ⟨cIllegal, w, 0⟩

/-- A fetch that fails at the PC (R57, R86). -/
def execFetchFault (s : State) : Result :=
  match s.fetchAt s.hart.pc with
  | (.fault t, s) => raiseTrap s t
  | (_, s) => .next s

end Sys2Proof.Machine
end

