-- ==== Sys2Proof/Machine/Reads.lean ====
section
/-! DEFINITION. Which registers an instruction reads and writes, as the convoy rules (03 R61, R62), the guard (R60) and register parity
(16 R335) need them. -/

namespace Sys2Proof.Machine

/-- The scalar register that a last operand names. -/
def sreadsOf (b : VOrS) : List SReg := match b with | .s r => [r] | .v _ => []

/-- The vector register that a last operand names. -/
def vreadsOf (b : VOrS) : List Nat := match b with | .v r => [r.toNat] | .s _ => []

/-- Scalar registers an instruction reads. -/
def scalarReads (i : Instr) : List SReg :=
  match i with
  | .add _ a b => [a, b]
  | .sub _ a b => [a, b]
  | .and _ a b => [a, b]
  | .or _ a b => [a, b]
  | .xor _ a b => [a, b]
  | .sll _ a b => [a, b]
  | .srl _ a b => [a, b]
  | .sra _ a b => [a, b]
  | .slt _ a b => [a, b]
  | .sltu _ a b => [a, b]
  | .min _ a b => [a, b]
  | .max _ a b => [a, b]
  | .minu _ a b => [a, b]
  | .maxu _ a b => [a, b]
  | .mul _ a b => [a, b]
  | .mulh _ a b => [a, b]
  | .mulhu _ a b => [a, b]
  | .div _ a b => [a, b]
  | .divu _ a b => [a, b]
  | .rem _ a b => [a, b]
  | .remu _ a b => [a, b]
  | .clz _ a => [a]
  | .ctz _ a => [a]
  | .popc _ a => [a]
  | .sextb _ a => [a]
  | .sexth _ a => [a]
  | .sextw _ a => [a]
  | .brev _ a => [a]
  | .bswap _ a => [a]
  | .addi _ a _ => [a]
  | .andi _ a _ => [a]
  | .ori _ a _ => [a]
  | .xori _ a _ => [a]
  | .slti _ a _ => [a]
  | .sltiu _ a _ => [a]
  | .slli _ a _ => [a]
  | .srli _ a _ => [a]
  | .srai _ a _ => [a]
  | .fadd _ a b _ => [a, b]
  | .fsub _ a b _ => [a, b]
  | .fmul _ a b _ => [a, b]
  | .fdiv _ a b _ => [a, b]
  | .fsqrt _ a _ => [a]
  | .fmin _ a b _ => [a, b]
  | .fmax _ a b _ => [a, b]
  | .feq _ a b _ => [a, b]
  | .flt _ a b _ => [a, b]
  | .fle _ a b _ => [a, b]
  | .funord _ a b _ => [a, b]
  | .fcvti _ a _ => [a]
  | .fcvtu _ a _ => [a]
  | .fcvtf _ a _ => [a]
  | .fcvtfu _ a _ => [a]
  | .fcvtw _ a _ => [a]
  | .fclass _ a _ => [a]
  | .fma _ a b _ c => [a, b, c]
  | .fms _ a b _ c => [a, b, c]
  | .fnma _ a b _ c => [a, b, c]
  | .fnms _ a b _ c => [a, b, c]
  | .ld _ a _ _ => [a]
  | .st d a _ _ => [d, a]
  | .br a b _ _ => [a, b]
  | .jr _ a _ => [a]
  | .strip c p q r t => [c, p, q, r, t]
  | .mts a _ => [a]
  | .mset a _ => [a]
  | .mclr a _ => [a]
  | .tlbinv a b => [a, b]
  | .cflush a => [a]
  | .cinval a => [a]
  | .pset _ a _ => [a]
  | .pmvp _ a _ => [a]
  | .vsetl _ a _ => [a]
  | .vhwm a => [a]
  | .vadd _ _ b => sreadsOf b
  | .vsub _ _ b => sreadsOf b
  | .vmul _ _ b => sreadsOf b
  | .vmulh _ _ b => sreadsOf b
  | .vdiv _ _ b => sreadsOf b
  | .vrem _ _ b => sreadsOf b
  | .vmin _ _ b => sreadsOf b
  | .vmax _ _ b => sreadsOf b
  | .vand _ _ b => sreadsOf b
  | .vor _ _ b => sreadsOf b
  | .vxor _ _ b => sreadsOf b
  | .vshl _ _ b => sreadsOf b
  | .vshr _ _ b => sreadsOf b
  | .vabsd _ _ b => sreadsOf b
  | .vsel _ _ b => sreadsOf b
  | .vcmp _ _ b _ => sreadsOf b
  | .vbcast _ a => [a]
  | .vext _ _ b => [b]
  | .vins _ a b => [a, b]
  | .vslup _ _ b => [b]
  | .vsldn _ _ b => [b]
  | .vld _ a _ => [a]
  | .vlds _ a b => [a, b]
  | .vldx _ a _ => [a]
  | .vst _ a _ => [a]
  | .vsts _ a b => [a, b]
  | .vstx _ a _ => [a]
  | .vamoAdd _ a _ _ => [a]
  | .vamoMin _ a _ _ => [a]
  | .vamoMax _ a _ _ => [a]
  | .vamoAnd _ a _ _ => [a]
  | .vamoOr _ a _ _ => [a]
  | .vamoXor _ a _ _ => [a]
  | .vamoSwap _ a _ _ => [a]
  | .vamoFadd _ a _ _ => [a]
  | .vamoFmax _ a _ _ => [a]
  | .amoAdd _ a b _ _ => [a, b]
  | .amoAnd _ a b _ _ => [a, b]
  | .amoOr _ a b _ _ => [a, b]
  | .amoXor _ a b _ _ => [a, b]
  | .amoMin _ a b _ _ => [a, b]
  | .amoMax _ a b _ _ => [a, b]
  | .amoMinu _ a b _ _ => [a, b]
  | .amoMaxu _ a b _ _ => [a, b]
  | .amoSwap _ a b _ _ => [a, b]
  | .cas d a b _ _ => [d, a, b]
  | .binit a b => [a, b]
  | .barrive _ a => [a]
  | .bexpect a b => [a, b]
  | .bwait a b => [a, b]
  | .btest _ a b => [a, b]
  | .step _ a => [a]
  | .spawn _ a => [a]
  | .tgraph _ a b => [a, b]
  | .tld d a _ => [d, a]
  | .tst d a _ => [d, a]
  | .tcpy d a => [d, a]
  | .tfill d a => [d, a]
  | .ttag d => [d]
  | .tpack d a b => [d, a, b]
  | .tunpk d a => [d, a]
  | .twait _ a => [a]
  | .vldt _ a b => [a, b]
  | .vstt _ a b => [a, b]
  | .mshape a => [a]
  | .mzero d => [d]
  | .mread d a b => [d, a, b]
  | .mload d a => [d, a]
  | .mma d a b => [d, a, b]
  | .mmab d a b => [d, a, b]
  | .mdec d a => [d, a]
  | .mmanm d a b => [d, a, b]
  | .mrem d a b => [d, a, b]
  | .mscan d a b => [d, a, b]
  | .scfg a => [a]
  | .sgo _ a b => [a, b]
  | .smark _ a => [a]
  | .sdrain a => [a]
  | .sstat _ a => [a]
  | .stwld a b => [a, b]
  | .cgrp _ a => [a]
  | .cprg _ a b => [a, b]
  | .cstart _ a => [a]
  | .cwait _ a => [a]
  | .cpoll _ a => [a]
  | .cabort _ a => [a]
  | .crepart _ a => [a]
  | .crot _ a => [a]
  | .cjoin _ a b => [a, b]
  | .cshrink _ a => [a]
  | .dgrd _ a => [a]
  | .dgwr a b => [a, b]
  | _ => []

/-- Predicate registers an instruction names as sources. -/
def predReads (i : Instr) : List PReg :=
  match i with
  | .pand _ a b => [a, b]
  | .por _ a b => [a, b]
  | .pxor _ a b => [a, b]
  | .pandn _ a b => [a, b]
  | .pnot _ a => [a]
  | .pset _ _ b => [b]
  | .pcnt _ a b => [a, b]
  | .pfirst _ a b => [a, b]
  | .pmvs _ a b => [a, b]
  | .pmvp _ _ b => [b]
  | .vcomp _ _ b => [b]
  | .vexpd _ _ b => [b]
  | _ => []

/-- Vector registers an instruction reads as operands, the old destination of a merged write among them (R62). -/
def vectorReads (i : Instr) : List Nat :=
  match i with
  | .vadd _ a b | .vsub _ a b | .vmul _ a b | .vmulh _ a b | .vdiv _ a b | .vrem _ a b | .vmin _ a b | .vmax _ a b
    | .vand _ a b | .vor _ a b | .vxor _ a b | .vshl _ a b | .vshr _ a b | .vabsd _ a b | .vsel _ a b | .vcmp _ a b _ => a.toNat :: vreadsOf b
  | .vmov _ a | .vneg _ a | .vabs _ a | .vnot _ a | .vcvt _ a | .vrcp _ a | .vrsq _ a | .vexp2 _ a | .vlog2 _ a | .vpopc _ a
    | .vclz _ a | .vmred _ a | .vext _ a _ | .vsldn _ a _ => [a.toNat]
  | .vfma _ a b c | .vfms _ a b c | .vfnma _ a b c | .vfnms _ a b c => [a.toNat, b.toNat, c.toNat]
  | .vredSum d a | .vredMin d a | .vredMax d a | .vredAmax d a | .vredAnd d a | .vredOr d a | .vredXor d a | .vscanIsum d a
    | .vscanEsum d a | .vscanImax d a | .vslup d a _ | .vcomp d a _ | .vexpd d a _ => [a.toNat, d.toNat]
  | .vperm _ a b => [a.toNat, b.toNat]
  | .vins d _ _ | .vst d _ _ | .vsts d _ _ | .vstt d _ _ => [d.toNat]
  | .vldx _ _ b => [b.toNat]
  | .vstx d _ b => [d.toNat, b.toNat]
  | .vamoAdd d _ b _ | .vamoMin d _ b _ | .vamoMax d _ b _ | .vamoAnd d _ b _ | .vamoOr d _ b _ | .vamoXor d _ b _
    | .vamoSwap d _ b _ | .vamoFadd d _ b _ | .vamoFmax d _ b _ => [d.toNat, b.toNat]
  | .tld _ _ b | .tst _ _ b => [b.toNat]
  | .xbatchCopy _ a | .xbatchFabric _ a | .xbatchColl _ a => (List.range 8).map (fun k => a.toNat * 8 + k)
  | _ => []

/-- The vector register an instruction writes. -/
def vectorDest (i : Instr) : Option Nat :=
  match i with
  | .vadd d _ _ | .vsub d _ _ | .vmul d _ _ | .vmulh d _ _ | .vdiv d _ _ | .vrem d _ _ | .vmin d _ _ | .vmax d _ _
    | .vand d _ _ | .vor d _ _ | .vxor d _ _ | .vshl d _ _ | .vshr d _ _ | .vabsd d _ _ | .vsel d _ _ | .vperm d _ _ | .vslup d _ _ | .vsldn d _ _
  | .vcomp d _ _ | .vexpd d _ _ | .vins d _ _ | .vld d _ _ | .vlds d _ _ | .vldx d _ _ | .vldt d _ _ => some d.toNat
  | .vmov d _ | .vneg d _ | .vabs d _ | .vnot d _ | .vcvt d _ | .vrcp d _ | .vrsq d _ | .vexp2 d _ | .vlog2 d _ | .vpopc d _
    | .vclz d _ | .vmred d _ | .vbcast d _ => some d.toNat
  | .vfma d _ _ _ | .vfms d _ _ _ | .vfnma d _ _ _ | .vfnms d _ _ _ => some d.toNat
  | .vredSum d _ | .vredMin d _ | .vredMax d _ | .vredAmax d _ | .vredAnd d _ | .vredOr d _ | .vredXor d _ | .vscanIsum d _
    | .vscanEsum d _ | .vscanImax d _ => some d.toNat
  | .vamoAdd d _ _ r | .vamoMin d _ _ r | .vamoMax d _ _ r | .vamoAnd d _ _ r | .vamoOr d _ _ r | .vamoXor d _ _ r
    | .vamoSwap d _ _ r | .vamoFadd d _ _ r | .vamoFmax d _ _ r => if r then some d.toNat else none
  | _ => none

/-- The hart with the tags that an instruction writes, where it passes its own checks of tags under the MODE of the convoy; the checks are
those of the meanings (R25, R62, R106 to R113, R119, R122, R123). -/
def tagged (h : Hart) (i : Instr) : Option Hart :=
  let arith := fun (d a : VReg) (b : VOrS) (ok : Tag → Bool) =>
    (h.arithDest d.toNat [.v a.toNat, h.src b] (typeIf ok ([Src.v a.toNat, h.src b].map (h.srcTag a.toNat)))).map (·.2.1)
  let one := fun (d a : VReg) (ok : Tag → Bool) => (h.arithDest d.toNat [.v a.toNat] (tagIf ok (h.tag a.toNat))).map (·.2.1)
  let fused := fun (d a b c : VReg) =>
    (h.arithDest d.toNat [.v a.toNat, .v b.toNat, .v c.toNat]
      (typeIf (· ≠ .mod32) [h.tag a.toNat, h.tag b.toNat, h.tag c.toNat])).map (·.2.1)
  let fold := fun (d a : VReg) (ok : Tag → Bool) => (foldDest h d a ok).map (·.1)
  match i with
  | .vadd d a b | .vsub d a b | .vmul d a b | .vsel d a b => arith d a b (fun _ => true)
  | .vmulh d a b | .vrem d a b => arith d a b Tag.isInt
  | .vdiv d a b | .vmin d a b | .vmax d a b | .vabsd d a b => arith d a b intOrFloat
  | .vshl d a b | .vshr d a b => (h.arithDest d.toNat [.v a.toNat] (shiftType h a b)).map (·.2.1)
  | .vand d a b | .vor d a b | .vxor d a b => bitwiseDest h d a (some b)
  | .vnot d a => bitwiseDest h d a none
  | .vmov d a => (moveDest h d a).map (·.1)
  | .vneg d a | .vabs d a => one d a intOrFloat
  | .vrcp d a | .vrsq d a | .vexp2 d a | .vlog2 d a => one d a Tag.isFloat
  | .vpopc d a | .vclz d a => one d a Tag.isInt
  | .vmred d a => normDest h d a
  | .vfma d a b c | .vfms d a b c | .vfnma d a b c | .vfnms d a b c => fused d a b c
  | .vredSum d a | .vscanIsum d a | .vscanEsum d a => fold d a Tag.numeric
  | .vredMin d a | .vredMax d a | .vredAmax d a | .vscanImax d a => fold d a intOrFloat
  | .vredAnd d a | .vredOr d a | .vredXor d a => fold d a (fun t => t.isInt || t = .untyped)
  | .vperm d a b => if (h.tag b.toNat).isInt then permuteDest h d a else none
  | .vslup d a _ | .vsldn d a _ | .vcomp d a _ | .vexpd d a _ => permuteDest h d a
  | _ => none

/-- The hart as the check of the next word of a convoy takes it: the tags written so far, and VSTART zero once a vector instruction of the
majors that R99 names has completed (R62, R99). -/
def tagsAfter (h : Hart) (w : Nat) (i : Instr) : Hart :=
  let g := (tagged h i).getD h
  if (0x1B ≤ w / 2 ^ 26 && w / 2 ^ 26 ≤ 0x24) || w / 2 ^ 26 = 0x29 then { g with vstart := 0 } else g

end Sys2Proof.Machine
end

