-- ==== Sys2Proof/Machine/Control.lean ====
section
/-! DEFINITION. The convoy header (03 R59 to R63), branches and jumps (04 R83 to R87) and hardware strip-mining (R88 to R90). -/

namespace Sys2Proof.Machine

/-! ## The convoy rules (R61, R62) -/

/-- Functional classes (R61). -/
inductive FuncClass
  | addLogic | multiply | transform | permute | load | store | scalar | predicate
  deriving DecidableEq, Repr

/-- The class of a word, by major opcode and function (R61). -/
def classOf (w : Nat) : Option FuncClass :=
  let fn := w % 128
  match w / 2 ^ 26 with
  | 0x02 | 0x03 | 0x04 | 0x05 | 0x06 | 0x07 | 0x08 | 0x09 | 0x0A | 0x0B | 0x0D | 0x0E => some .scalar
  | 0x0F | 0x20 | 0x21 => some .load
  | 0x10 | 0x22 | 0x23 | 0x24 | 0x25 => some .store
  | 0x19 => some .predicate
  | 0x1B => some (if 2 ≤ fn && fn ≤ 5 then .multiply else .addLogic)
  | 0x1C => some (if fn ≤ 3 then .addLogic else .transform)
  | 0x1D => some .multiply
  | 0x1E => some .addLogic
  | 0x1F => some .permute
  | 0x29 => some (if w % 256 = 0 then .load else .store)
  | _ => none

/-- Control transfers (R61). -/
def isTransfer (w : Nat) : Bool := 0x11 ≤ w / 2 ^ 26 && w / 2 ^ 26 ≤ 0x15

/-- What the check of a convoy has seen so far. -/
structure ConvoyScan where
  hart : Hart
  classes : List FuncClass := []
  reads : List Nat := []
  dests : List Nat := []
  written : List Nat := []

/-- A register, and the next one where it is paired (R62). -/
def pairOf (h : Hart) (r : Nat) : List Nat := if (h.tag r).paired then [r, r + 1] else [r]

/-- Elements of a list without repeats. -/
def distinct (xs : List Nat) : List Nat := xs.foldl (fun l x => if l.contains x then l else l ++ [x]) []

/-- More than `n` distinct registers of one bank (R62). -/
def bankOver (n : Nat) (rs : List Nat) : Bool :=
  (List.range 4).any (fun b => n < ((distinct rs).filter (fun r => r % 4 = b)).length)

/-- One instruction of a convoy: the least reason it breaks, if any, and the scan after it (R62). Each destination counts among the
destinations as its tags before its own write make it: one that takes its paired tag in the convoy counts alone, the model's choice
(log 61). -/
def ConvoyScan.next (c : ConvoyScan) (last : Bool) (w : Nat) (i : Instr) : Option Nat × ConvoyScan :=
  let cls := classOf w
  let reads := c.reads ++ ((vectorReads i).flatMap (pairOf c.hart)).filter (fun r => !c.written.contains r)
  let dest := (vectorDest i).toList
  let dests := c.dests ++ dest.flatMap (pairOf c.hart)
  let after := tagsAfter c.hart w i
  let reason :=
    if (cls.map c.classes.contains).getD false then some 1
    else if bankOver 2 reads then some 2
    else if bankOver 1 dests then some 3
    else if isTransfer w && !last then some 4
    else if forbiddenMajor (w / 2 ^ 26) then some 5
    else none
  (reason, { hart := after, classes := cls.toList ++ c.classes, reads := reads, dests := dests
             written := c.written ++ dest.flatMap (pairOf after) })

/-- The first violation of a list of words, as TRAPVAL gives it (R62). -/
def checkConvoy (c : ConvoyScan) : Nat → List (Nat × Instr) → Option Nat
  | _, [] => none
  | pos, (w, i) :: rest =>
    match c.next rest.isEmpty w i with
    | (some r, _) => some (r * 16 + pos)
    | (none, c') => checkConvoy c' (pos + 1) rest

/-- The words after a header, fetched and decoded one after another (R59). -/
inductive Header
  | words (ws : List (Nat × Instr))
  | trap (t : Trap)
  | hold

/-- Whether a decoded word is one of major 0x3F outside test mode, which is undefined there (R56). -/
def undefinedHere (s : State) (w : Nat) : Bool := w / 2 ^ 26 = 0x3F && !s.host.test

/-- `n` words from an address (R57, R59). Where one word is illegal and a later one cannot be fetched, the lower position decides, the
model's choice (log 54). -/
def readHeader (s : State) (pc : Word) : Nat → Header × State
  | 0 => (.words [], s)
  | n + 1 =>
    match s.fetchAt pc with
    | (.fault t, s) => (.trap t, s)
    | (.hold, s) => (.hold, s)
    | (.word w, s) =>
      match decodeWord w with
      | .error _ => (.trap ⟨cIllegal, word w, 0⟩, s)
      | .ok i =>
        if undefinedHere s w then (.trap ⟨cIllegal, word w, 0⟩, s)
        else match readHeader s (pc + 4) n with
          | (.words ws, s) => (.words ((w, i) :: ws), s)
          | r => r

/-- The code of a rounding mode. -/
def rndCode : Rnd → Nat
  | .rne => 0 | .rtz => 1 | .rdn => 2 | .rup => 3 | .rna => 4

/-- MODE from a header's fields (R15, R59). -/
def modeWord (g : PReg) (p : Bool) (r : Rnd) (s f : Bool) : Word :=
  word (g.toNat + p.toNat * 64 + rndCode r * 256 + s.toNat * 2048 + f.toNat * 4096)

/-- The header: every word checked, then MODE written and the convoy entered (R59). -/
def execCvy (n : BitVec 4) (g : PReg) (p : Bool) (r : Rnd) (sat ftz : Bool) (s : State) : Result :=
  match readHeader s (s.hart.pc + 4) (n.toNat + 1) with
  | (.hold, s) => wait s .other
  | (.trap t, s) => raiseTrap s t
  | (.words ws, s) =>
    match checkConvoy { hart := { s.hart with mode := modeWord g p r sat ftz } } 0 ws with
    | some v => raiseTrap s ⟨cConvoy, word v, 0⟩
    | none =>
      .next (s.onHart (fun h =>
        { h with mode := modeWord g p r sat ftz
                 convoy := mkConvoy (n.toNat + 1) 0
                 conv := some ⟨n.toNat + 1, 0, ws.map (·.1)⟩
                 pc := h.pc + 4
                 atEntry := false
                 block := none }))

/-! ## Transfers (R83 to R87) -/

/-- The condition of a branch (R83). -/
def branchTaken (c : BrCond) (x y : Word) : Bool :=
  match c with
  | .eq => x = y
  | .ne => x ≠ y
  | .lt => x.slt y
  | .ge => !x.slt y
  | .ltu => x.ult y
  | .geu => !x.ult y

/-- Control goes to an address, after a change of registers. -/
def transfer (s : State) (f : Hart → Hart) (pc : Word) : Result := .next (s.onHart (fun h => (f h).goto pc))

def execBr (a b : SReg) (c : BrCond) (o : BitVec 11) (s : State) : Result :=
  let h := s.hart
  if branchTaken c (h.sreg a) (h.sreg b) then transfer s id (h.pc + o.signExtend 64 * 4) else finishHart s id

def execJmp (o : BitVec 26) (s : State) : Result := transfer s id (s.hart.pc + o.signExtend 64 * 4)

def execCall (o : BitVec 26) (s : State) : Result :=
  transfer s (fun h => h.setS 1 (h.pc + 4)) (s.hart.pc + o.signExtend 64 * 4)

def execJr (d a : SReg) (k : BitVec 14) (s : State) : Result :=
  let h := s.hart
  let target := h.sreg a + k.signExtend 64
  if target.toNat % 4 ≠ 0 then raiseTrap s ⟨cMisaligned, target, 0⟩
  else if !canonical target then raiseTrap s ⟨cPage, target, 0⟩
  else transfer s (fun h => h.setS d (h.pc + 4)) target

/-! ## Strip-mining (R88, R89) -/

def execSloop (w : BitVec 2) (z : BitVec 12) (s : State) : Result :=
  finishHart s (fun h =>
    { h with loopHead := addrField 2 (h.pc + 4)
             loopSz := word (32768 + w.toNat * 4096 + z.toNat)
             vl := mkVL w.toNat (min h.vlen (512 / 2 ^ w.toNat))
             rowIdx := 0
             tileIdx := 0 })

/-- A pointer advanced by n elements of its size code, unless it names s0 or code 7 (R89). -/
def stripPointer (n : Nat) (h : Hart) (f : SReg) (code : Nat) : Hart :=
  if f = 0 || code = 7 then h else h.setS f (h.sreg f + word (n * 2 ^ code))

/-- The row and tile indices stepped (R89). -/
def stepIndices (h : Hart) : Hart :=
  if h.rowIdx.toNat + 1 < h.tl.toNat then { h with rowIdx := h.rowIdx + 1 }
  else if h.tileIdx.toNat + 1 < h.tc.toNat then { h with rowIdx := 0, tileIdx := h.tileIdx + 1 }
  else { h with rowIdx := 0, tileIdx := 0 }

def execStrip (c p q r t : SReg) (s : State) : Result :=
  let h := s.hart
  if !bit h.loopSz 15 then raiseIllegal s (.strip c p q r t)
  else
    let n := h.vlen
    let x := h.sreg c - word n
    let h1 := h.setS c x
    let h2 := stripPointer n h1 p (field h.loopSz 2 0)
    let h3 := stripPointer n h2 q (field h.loopSz 5 3)
    let h4 := stripPointer n h3 r (field h.loopSz 8 6)
    let h5 := stepIndices (stripPointer n h4 t (field h.loopSz 11 9))
    if 0 < x.toInt then
      transfer s (fun _ => { h5 with vl := mkVL h.vwCode (min x.toNat (512 / 2 ^ h.vwCode)) }) (sext57 h.loopHead)
    else finishHart s (fun _ => { h5 with loopSz := h5.loopSz &&& ~~~0x8000#64 })

end Sys2Proof.Machine
end

