-- ==== Sys2Proof/Machine/Mmio.lean ====
section
/-! DEFINITION. The register blocks of the MMIO window (08 R173), with the reads and writes that harts make of them and the writes that
the host makes through BAR0: host (22 R415, R417), scheduler (06 R131), memory system (08 R173, R189, R193), die capability (18 R350),
collective (19 R378), core (08 R180; 16 R329) and die fault blocks (16 R325). Offsets are those of R173. -/

namespace Sys2Proof.Machine

/-- A flagAt in its place. -/
def flagAt (b : Bool) (k : Nat) : Nat := if b then 2 ^ k else 0

/-- A mask from a test of each of its bits. -/
def maskOf (n : Nat) (p : Nat → Bool) : Nat := ((List.range n).map (fun k => flagAt (p k) k)).sum

/-! ## Host block (R415, R417) -/

def HostBlk.readReady (h : HostBlk) : Nat :=
  h.ports.toNat % 65536 * 65536 + flagAt h.sq 15 + h.diesUp.toNat % 16 * 2048 + h.hbm.toNat % 256 * 8 + flagAt h.recov 2 + flagAt h.mgmt 1 +
    flagAt h.link 0

def Ring.read (t : Ring) (o : Nat) : Word :=
  match o with
  | 0x00 => t.hbase
  | 0x08 => word (flagAt t.en 63 + flagAt t.ovr 62 + t.ctx * 2 ^ 32 + t.rsize)
  | 0x10 => word t.wr
  | 0x18 => word t.rd
  | 0x20 => if t.ovr then 0x11 else 0
  | _ => 0

def State.readHostBlk (s : State) (o : Nat) : Word :=
  let h := s.host
  if o = 0 then word h.readReady
  else if o < 0x28 then SMap.get 0 h.coreRdy (o / 8 - 1)
  else if o = 0x40 then h.b2base
  else if o = 0x48 then h.svdb
  else if o = 0x50 then h.hostErr
  else if 0x1000 ≤ o && o < 0x1400 then (s.ring ((o - 0x1000) / 64)).read (o % 64)
  else 0

/-- The control register of a ring: RSIZE only while EN was 0 and within 4 to 16; OVR is read-only; RST restarts (R417). -/
def Ring.control (t : Ring) (x : Word) : Ring :=
  let n := field x 4 0
  { t with en := bit x 63, ctx := field x 47 32, rsize := if t.en || n < 4 || 16 < n then t.rsize else n }

def writeRing (r o : Nat) (x : Word) (s : State) : State :=
  match o with
  | 0x00 => s.onRing r (fun t => if t.en then t else { t with hbase := x })
  | 0x08 => let s := s.onRing r (fun t => t.control x); if bit x 61 then restartRing r s else s
  | 0x10 => ringBell r x.toNat s
  | _ => s

/-- The host sets the SVDB bits it names, the supervisor clears those it names (R416). -/
def writeHostBlk (host : Bool) (o : Nat) (x : Word) (s : State) : State :=
  let h := s.host
  if o = 0x40 then { s with host := { h with b2base := x &&& 0x000FFFFFC0000000#64 } }
  else if o = 0x48 then { s with host := { h with svdb := if host then h.svdb ||| (x &&& 15#64) else h.svdb &&& ~~~x } }
  else if o = 0x50 then { s with host := { h with hostErr := 0 } }
  else if o = 0x58 then hostDmaControl (field x 31 0) (bit x 32) s
  else if 0x1000 ≤ o && o < 0x1400 then writeRing ((o - 0x1000) / 64) (o % 64) x s
  else s

/-! ## Scheduler block (R131) -/

def Queue.read (q : Queue) (o : Nat) : Word :=
  match o with
  | 0x00 => q.qbase
  | 0x08 => word (flagAt q.en 63 + flagAt q.careful 62 + q.ctx * 2 ^ 32 + q.size * 2 ^ 16 + q.reserve)
  | 0x10 => word q.qwr
  | _ => word q.qrd

def State.readScheduler (s : State) (o : Nat) : Word :=
  if o < 0x800 then (s.queue (o / 32)).read (o % 32)
  else if o < 0x840 then
    let d := s.dieAt ((o - 0x800) / 16)
    if o % 16 = 0 then word (flagAt d.sven 15 + d.svcore * 256 + d.svhart) else word (maskOf 4 s.live * 16 + s.master)
  else 0

/-- The control register of a queue: while EN is 1, SIZE and RESERVE stay; otherwise a bad one leaves the whole register; EN needs a ring in
backed HBM. -/
def Queue.control (p : Part) (q : Queue) (x : Word) : Queue :=
  let size := if q.en then q.size else field x 20 16
  let reserve := if q.en then q.reserve else field x 15 0
  if size < 6 || 20 < size || 2 ^ size ≤ reserve then q
  else
    { q with en := bit x 63 && p.backed q.qbase.toNat (8 * 2 ^ size), careful := bit x 62, ctx := field x 47 32
             size := size, reserve := reserve }

def writeScheduler (o : Nat) (x : Word) (s : State) : State :=
  if o < 0x800 then
    match o % 32 with
    | 0x00 => s.onQueue (o / 32) (fun q => if q.en then q else { q with qbase := x &&& 0x000FFFFFFFFFFFF8#64 })
    | 0x08 => s.onQueue (o / 32) (fun q => q.control s.part x)
    | _ => s
  else if o < 0x840 && o % 16 = 0 then
    s.onDieAt ((o - 0x800) / 16) (fun d => { d with sven := bit x 15, svcore := field x 13 8, svhart := field x 2 0 })
  else s

/-! ## Memory-system block (R173, R189, R193) -/

def Die.readTracker (d : Die) (o : Nat) : Word :=
  match o with
  | 0x00 => word (d.win * 2 ^ 32 + d.thr * 2 ^ 16 + flagAt d.trackEn 0)
  | 0x08 => d.freeb
  | 0x10 => d.freewr
  | 0x18 => word d.freerd
  | 0x20 => d.doneb
  | 0x28 => word d.donewr
  | 0x30 => d.donerd
  | _ => 0

def State.readMemSystem (s : State) (o : Nat) : Word :=
  if o = 0 then word (s.mem.ctxBase.toNat + flagAt s.mem.ctxEn 0)
  else if o = 8 then word s.part.hbmTop
  else if o < 0x30 then
    let d := (o - 0x10) / 8
    if (s.dieAt d).fenced then 0 else s.part.hbmChan.getD d 0
  else if 0x100 ≤ o && o < 0x900 then SMap.get 0 s.mem.crt ((o - 0x100) / 8)
  else if 0x1000 ≤ o && o < 0x1100 then (s.dieAt ((o - 0x1000) / 64)).readTracker (o % 64)
  else if o = 0x2000 then word (((List.range 8).map (fun j => min 255 (SMap.get 0 s.host.pprcnt j) * 256 ^ j)).sum)
  else 0

/-- Bits of each dword of a CRT entry (R189). -/
def crtMask (j : Nat) : Word :=
  match j with
  | 0 => 0x000FFFFFFFFFF001#64
  | 1 => 0x000FFFFFFFFFF000#64
  | 2 => 0x000FFFFFFFFFFFF8#64
  | _ => 0

/-- A tracker register; WIN and THR take no zero, and a window starts when EN is set. -/
def Die.writeTracker (now : Nat) (o : Nat) (x : Word) (d : Die) : Die :=
  match o with
  | 0x00 =>
    let d' := { d with win := if field x 47 32 = 0 then d.win else field x 47 32
                       thr := if field x 31 16 = 0 then d.thr else field x 31 16, trackEn := bit x 0 }
    if bit x 0 && !d.trackEn then { d' with windowAt := now, counts := [] } else d'
  | 0x08 => { d with freeb := x &&& 0x000FFFFFFFFFF000#64 }
  | 0x10 => { d with freewr := x }
  | 0x20 => { d with doneb := x &&& 0x000FFFFFFFFFF000#64 }
  | 0x30 => { d with donerd := x }
  | _ => d

def writeMemSystem (o : Nat) (x : Word) (s : State) : State :=
  if o = 0 then { s with mem := { s.mem with ctxBase := x &&& 0x000FFFFFFFF00000#64, ctxEn := bit x 0 } }
  else if 0x100 ≤ o && o < 0x900 then
    { s with mem := { s.mem with crt := SMap.set 0 s.mem.crt ((o - 0x100) / 8) (x &&& crtMask (o / 8 % 4)) } }
  else if 0x1000 ≤ o && o < 0x1100 then s.onDieAt ((o - 0x1000) / 64) (Die.writeTracker s.clock.time (o % 64) x)
  else s

/-! ## Die capability blocks (R350) -/

def State.readCapability (s : State) (o : Nat) : Word :=
  let n := o / 64
  let d := s.dieAt n
  let present := s.part.present.getD n false
  let up := fun (k : Nat) => s.part.hasLink (3 * n + k) && !d.linkDown.getD k false
  if 4 ≤ n then 0
  else match o % 64 with
    | 0x00 => word (maskOf 48 (fun c => s.part.hasCore (coreOf n c)))
    | 0x08 => word (d.fcause * 64 + flagAt d.fenced 5 + flagAt present 4 + flagAt (up 2) 2 + flagAt (up 1) 1 + flagAt (up 0) 0)
    | 0x10 => d.linkErr
    | _ => 0

/-- LINKERR hears a supervisor write. -/
def writeCapability (host : Bool) (o : Nat) (s : State) : State :=
  if !host && o / 64 < 4 && o % 64 = 0x10 then s.onDieAt (o / 64) (fun d => { d with linkErr := 0 }) else s

/-! ## Collective block (R378) -/

def State.readCollBlk (s : State) (o : Nat) : Word :=
  let c := s.coll
  match o with
  | 0x00 => c.routeb
  | 0x08 => c.sqLate
  | 0x10 => c.sqPart
  | 0x18 => c.stale
  | 0x28 => word (s.part.portPres * 65536 + maskOf 16 (fun k => s.part.portPres.testBit k && !c.portDown.contains k))
  | 0x30 => c.portErr
  | 0x38 => c.fwDrop
  | _ => 0

def writeCollBlk (o : Nat) (x : Word) (s : State) : State :=
  let c := s.coll
  match o with
  | 0x00 => { s with coll := { c with routeb := x &&& 0x000FFFFFFFFFF000#64 } }
  | 0x08 => { s with coll := { c with sqLate := 0 } }
  | 0x10 => { s with coll := { c with sqPart := 0 } }
  | 0x18 => { s with coll := { c with stale := 0 } }
  | 0x20 => if bit x 31 then s.losePackage (field x 17 0) else s
  | 0x30 => { s with coll := { c with portErr := 0 } }
  | 0x38 => { s with coll := { c with fwDrop := 0 } }
  | _ => s

/-! ## Core blocks (R173, R180, R329) -/

/-- What HARTCTL.STATE reads. -/
def RunState.code : RunState → Nat
  | .free => 0 | .running => 1 | .frozen => 2 | .stopped => 3

/-- A register of a core's block; an absent core's block reads as zero (R351). -/
def State.readCoreBlk (s : State) (core o : Nat) : Word :=
  let c := s.coreAt core
  if !s.part.hasCore core then 0
  else if o < 0x800 then SMap.get 0 c.ranges (o / 8)
  else if o = 0x800 then c.layMis
  else if 0x1000 ≤ o && o < 0x1040 then (s.hartAt (core * 8 + (o - 0x1000) / 8)).trapBase
  else if 0x1040 ≤ o && o < 0x1080 then word ((s.hartAt (core * 8 + (o - 0x1040) / 8)).run.code * 256)
  else if o = 0x1108 then word c.preHart
  else if o = 0x1110 then word c.records.length
  else 0

/-- Bits of each dword of a range entry (R180). -/
def rangeMask (j : Nat) : Word :=
  match j with
  | 0 | 1 => 0x01FFFFFFFFFFF000#64
  | 2 => 0x000FFFFFFFFFF000#64
  | _ => 0x0000FFFF000003FD#64

def writeCoreBlk (core o : Nat) (x : Word) (s : State) : State :=
  if !s.part.hasCore core then s
  else if o < 0x800 then s.onCoreAt core (fun c => { c with ranges := SMap.set 0 c.ranges (o / 8) (x &&& rangeMask (o / 8 % 4)) })
  else if o = 0x800 then s.onCoreAt core (fun c => { c with layMis := 0 })
  else if 0x1000 ≤ o && o < 0x1040 then
    s.onHartAt (core * 8 + (o - 0x1000) / 8) (fun h => { h with trapBase := x &&& 0x01FFFFFFFFFFF000#64 })
  else if 0x1040 ≤ o && o < 0x1080 then
    if field x 1 0 = 1 || field x 1 0 = 2 then writeOp (core * 8 + (o - 0x1040) / 8) (field x 1 0) s else s
  else if o = 0x1100 then frctlCopy core (field x 31 0) (bit x 32) s
  else if o = 0x1108 then writePreempt core x s
  else s

/-! ## Die fault blocks (R325) -/

def Die.readFault (d : Die) (o : Nat) : Word :=
  match o with
  | 0x00 => d.frbase
  | 0x08 => word (flagAt d.fren 63 + d.frsize)
  | 0x10 => word d.frwr
  | 0x18 => d.frrd
  | 0x20 => d.saveb
  | 0x28 => word d.savewr
  | 0x30 => word d.saverd
  | _ => 0

/-- FRSIZE only while EN was 0 and within 6 to 16; EN needs a ring in backed HBM. -/
def Die.faultControl (p : Part) (x : Word) (d : Die) : Die :=
  let size := if d.fren || field x 4 0 < 6 || 16 < field x 4 0 then d.frsize else field x 4 0
  { d with frsize := size, fren := bit x 63 && p.backed d.frbase.toNat (64 * 2 ^ size) }

def writeFault (die o : Nat) (x : Word) (s : State) : State :=
  match o with
  | 0x00 => s.onDieAt die (fun d => if d.fren then d else { d with frbase := x &&& 0x000FFFFFFFFFF000#64 })
  | 0x08 => s.onDieAt die (Die.faultControl s.part x)
  | 0x18 => s.onDieAt die (fun d => { d with frrd := x })
  | 0x20 =>
    let b := x &&& 0x000FFFFFFFFFF000#64
    if s.part.backed b.toNat 4096 then s.onDieAt die (fun d => { d with saveb := b }) else s
  | 0x38 => addArea die x s
  | _ => s

/-! ## The window (R173) -/

/-- A register block and the offset in it. -/
inductive RegBlock
  | host (o : Nat)
  | scheduler (o : Nat)
  | memSystem (o : Nat)
  | capability (o : Nat)
  | coll (o : Nat)
  | core (n o : Nat)
  | fault (die o : Nat)
  | unassigned
  deriving DecidableEq, Repr

/-- The block at an offset of the window. -/
def blockAt (off : Nat) : RegBlock :=
  if off < 0x100000 then .host off
  else if off < 0x200000 then .scheduler (off - 0x100000)
  else if off < 0x300000 then .memSystem (off - 0x200000)
  else if off < 0x400000 then .capability (off - 0x300000)
  else if off < 0x500000 then .coll (off - 0x400000)
  else if 0x10000000 ≤ off && off < 0x14000000 then
    let die := (off - 0x10000000) / 0x1000000
    let o := off % 0x1000000
    if o < 0xC00000 then .core (coreOf die (o / 0x40000)) (o % 0x40000)
    else if 0xF00000 ≤ o then .fault die (o - 0xF00000)
    else .unassigned
  else .unassigned

/-- The bits of a register that is only written, whose reading the manual does not give (log 42); its reserved bits read as zero (R4). -/
def RegBlock.writeMask : RegBlock → Word
  | .host 0x58 | .core _ 0x1100 => 0x1FFFFFFFF#64
  | .coll 0x20 => 0x8003FFFF#64
  | .fault _ 0x38 => 0x000FFFFFFF800000#64
  | _ => 0

/-- The block of a core that the part does not have (R351). -/
def RegBlock.absent (p : Part) : RegBlock → Bool
  | .core n _ => !p.hasCore n
  | _ => false

/-- The dword at an aligned offset. -/
def State.mmioRead (s : State) (off : Nat) : Word :=
  let b := blockAt off
  if b.writeMask ≠ 0 && !b.absent s.part then Config.freeWord s.clock.tick off &&& b.writeMask
  else match b with
    | .host o => s.readHostBlk o
    | .scheduler o => s.readScheduler o
    | .memSystem o => s.readMemSystem o
    | .capability o => s.readCapability o
    | .coll o => s.readCollBlk o
    | .core n o => s.readCoreBlk n o
    | .fault die o => (s.dieAt die).readFault o
    | .unassigned => 0

/-- A dword written at an aligned offset, by the host through BAR0 or by the supervisor. -/
def mmioWrite (host : Bool) (off : Nat) (x : Word) (s : State) : State :=
  match blockAt off with
  | .host o => writeHostBlk host o x s
  | .scheduler o => writeScheduler o x s
  | .memSystem o => writeMemSystem o x s
  | .capability o => writeCapability host o s
  | .coll o => writeCollBlk o x s
  | .core n o => writeCoreBlk n o x s
  | .fault die o => writeFault die o x s
  | .unassigned => s

/-- What a write of less than a dword leaves in the dword's other bytes: the value it reads as, or zero where a write acts on the bits it
sets (log 42). -/
def State.mmioKept (s : State) (off : Nat) : Word :=
  let b := blockAt off
  if b.writeMask ≠ 0 || b = .host 0x48 then 0
  else match b with
    | .core _ o => if 0x1040 ≤ o && o < 0x1080 then 0 else s.mmioRead off
    | _ => s.mmioRead off

/-- `n` bytes at a naturally aligned offset, as a number. -/
def State.mmioLoad (s : State) (off n : Nat) : Nat := (s.mmioRead (off / 8 * 8)).toNat / 2 ^ (8 * (off % 8)) % 2 ^ (8 * n)

/-- The dword that a write of `n` bytes at a naturally aligned offset makes. -/
def State.mmioMerged (s : State) (off n x : Nat) : Word :=
  let old := (s.mmioKept (off / 8 * 8)).toNat
  let lo := 2 ^ (8 * (off % 8))
  let kept := old % lo + old / (lo * 2 ^ (8 * n)) * (lo * 2 ^ (8 * n))
  word (kept + x % 2 ^ (8 * n) * lo)

/-- `n` bytes written at a naturally aligned offset, by the host through BAR0 or by the supervisor. -/
def mmioStore (host : Bool) (off n x : Nat) (s : State) : State := mmioWrite host (off / 8 * 8) (s.mmioMerged off n x) s

/-- The write acts on memory whose stack is not ready, and waits (R325, R416). -/
def State.mmioHeld (s : State) (off n x : Nat) : Bool :=
  match blockAt (off / 8 * 8) with
  | .fault die 0x38 => s.areaHeld die (s.mmioMerged off n x)
  | _ => false

/-- A host access through BAR0; one wider than 8 bytes or not naturally aligned reads as all-ones and has no effect (R414). -/
def execRegisterWrite (offset : Nat) (access : HostAccess) (s : State) : Result :=
  let n := access.width
  let fits := (n = 1 || n = 2 || n = 4 || n = 8) && offset % n = 0
  if 0x1000000 ≤ offset then .next s
  else match access.write with
    | some x => if fits then .next (mmioStore true offset n x s) else .next s
    | none =>
      let bs := if fits then natToBytes n (s.mmioLoad offset n) else List.replicate n 0xFF
      .next { s with outputs := s.outputs ++ [Output.data bs] }

/-- FRCTL (R330). -/
def execFrctlRetry (core seq : Nat) (s : State) : Result := .next (frctlCopy core seq false s)
def execFrctlAbort (core seq : Nat) (s : State) : Result := .next (frctlCopy core seq true s)

end Sys2Proof.Machine
end

