-- ==== Sys2Proof/Machine/ScalarMem.lean ====
section
/-! DEFINITION. Scalar loads and stores (04 R72, R81, R82; 09 R196 to R211): majors 0x0F and 0x10. A store whose home is on another die may
wait there (18, Vector clocks). -/

namespace Sys2Proof.Machine

/-- The bytes of a size (R81). -/
def LdSize.bytes : LdSize → Nat
  | .b | .bu => 1 | .h | .hu => 2 | .w | .wu => 4 | .d => 8

def StSize.bytes : StSize → Nat
  | .b => 1 | .h => 2 | .w => 4 | .d => 8

/-- The extension of a size (R81). -/
def LdSize.extend (z : LdSize) (x : Nat) : Word :=
  match z with
  | .b => (BitVec.ofNat 8 x).signExtend 64
  | .h => (BitVec.ofNat 16 x).signExtend 64
  | .w => (BitVec.ofNat 32 x).signExtend 64
  | .d | .bu | .hu | .wu => word x

/-- ea: the base and a signed offset (R81). -/
def scalarAddr (s : State) (a : SReg) (k : BitVec 11) : Word := s.hart.sreg a + k.signExtend 64

/-! ## A hart's writes that wait at other dies -/

/-- The acting hart's waiting writes. -/
def State.ownPending (s : State) : List CrossWrite := s.storesOf s.cur

/-- A byte as the hart itself sees it: its latest store, else memory's (R198). -/
def forward (ws : List CrossWrite) (key : Nat) (b : Byte) : Byte :=
  ws.foldl (fun b w => if w.key ≤ key && key < w.key + w.bytes.length then w.bytes.getD (key - w.key) 0 else b) b

/-- A waiting write covers some of `n` bytes. -/
def touches (ws : List CrossWrite) (key n : Nat) : Bool := ws.any (fun w => w.key < key + n && key < w.key + w.bytes.length)

/-- The home die, where it is another one and runs. -/
def State.crossHome (s : State) (pa : Nat) : Option Nat :=
  match s.part.place pa with
  | .hbm x => if hbmDie x = dieOfHart s.cur || !s.live (hbmDie x) then none else some (hbmDie x)
  | _ => none

/-- The store leaves for its home, with the clock of the hart's die: its own entry counts the writes sent before. -/
def State.sendWrite (s : State) (home key : Nat) (bs : List Byte) : State :=
  let me := dieOfHart s.cur
  let d := s.dieAt me
  let s := s.onDieAt home (fun t => { t with pending := t.pending ++ [⟨key, bs, s.cur, d.clock.set me d.sent⟩] })
  s.onDieAt me (fun t => { t with sent := t.sent + 1 })

/-! ## Loads -/

/-- The value that a checked load returns, and the state that its caching leaves. -/
def State.loadValue (s : State) (x : Xlat) (n : Nat) : Nat × State :=
  let core := s.coreNum
  if x.tt = 4 then (s.mmioLoad (x.pa - mmioBase) n, s)
  else if x.tt = 5 || (x.tt = 3 && !x.tso) then
    let (l, s) := s.useLine core (x.tt = 5) x.pa
    (bytesToNat ((l.bytes.drop (x.pa % 64)).take n), s)
  else
    let s := s.passLine core x.tt x.pa
    let key := s.part.key x.pa
    let ws := s.ownPending
    (bytesToNat (((s.readKey key n).zipIdx).map (fun p => forward ws (key + p.2) p.1)), s)

def execLd (d a : SReg) (z : LdSize) (k : BitVec 11) (s : State) : Result :=
  let va := scalarAddr s a k
  let n := LdSize.bytes z
  match s.checkAccess .load va n with
  | (.error t, s) => raiseTrap s t
  | (.ok x, s) =>
    let key := (s.part.key? x.pa).getD 0
    if !s.xlatReady x || s.windowHeld key n false then wait s .other
    -- a decoded read sees the hart's own stores (R198, R200, R210)
    else if x.tt = 5 && s.ownPending ≠ [] then wait s .other
    else if s.poisonedAccess x n then
      if touches s.ownPending key n then wait s .other else raiseTrap s (poisonTrap va)
    else
      let (v, s) := s.loadValue x n
      finishS s d (LdSize.extend z v)

/-! ## Stores -/

/-- A register that a store at user level may write: those of the memory-system block, for which the manual names no writer (R173, R179,
R189, R193, R206). Where it names the supervisor as the writer, a store at user level has no effect (log 42). -/
def userWritable (off : Nat) : Bool :=
  match blockAt off with
  | .memSystem o => !(0x1000 ≤ o && o < 0x1100 && (o % 64 / 8 = 2 || o % 64 / 8 = 6))
  | _ => false

/-- A store to a register whose effect on memory has to wait (R416). -/
def State.storeHeld (s : State) (x : Xlat) (n : Nat) (v : Word) : Bool :=
  x.tt = 4 && s.hart.sup && s.mmioHeld (x.pa - mmioBase) n v.toNat

/-- A checked store performed. -/
def State.storeValue (s : State) (x : Xlat) (n : Nat) (v : Word) : State :=
  let bs := natToBytes n v.toNat
  let core := s.coreNum
  let key := s.part.key x.pa
  if x.tt = 4 then if s.hart.sup || userWritable (x.pa - mmioBase) then mmioStore false (x.pa - mmioBase) n v.toNat s else s
  else if x.tt = 3 then if x.tso then (s.passLine core 3 x.pa).writeKey key bs else s.storeLine core x.pa bs
  else if s.onFenced key then s.noteDropped [x]
  else s.putScalar core key bs

def execSt (d a : SReg) (z : StSize) (k : BitVec 11) (s : State) : Result :=
  let va := scalarAddr s a k
  let n := StSize.bytes z
  match s.checkAccess .store va n with
  | (.error t, s) => raiseTrap s t
  | (.ok x, s) =>
    let key := (s.part.key? x.pa).getD 0
    let waiting := s.ownPending ≠ []
    if !s.stackReady x.pa || s.windowHeld key n true || s.dropWaits [x] || s.storeHeld x n (s.hart.sreg d) then wait s .other
    else match s.crossHome x.pa with
      | some home =>
        if waiting || Config.coin s.clock.tick key then
          finishHart (s.sendWrite home key (natToBytes n (s.hart.sreg d).toNat)) id
        else finishHart (s.storeValue x n (s.hart.sreg d)) id
      | none => if waiting then wait s .other else finishHart (s.storeValue x n (s.hart.sreg d)) id

end Sys2Proof.Machine
end

