-- ==== Sys2Proof/Machine/System.lean ====
section
/-! DEFINITION. System instructions (04 R92 to R97) and the entry of an interrupt (16 R322). -/

namespace Sys2Proof.Machine

/-- TRAPPC stays at the instruction and TRAPVAL is zero (R92). -/
def execSysc (s : State) : Result := raiseTrap s ⟨cSyscall, 0, 0⟩
def execBrk (s : State) : Result := raiseTrap s ⟨cBreak, 0, 0⟩

/-- Return from a trap (R93). -/
def execEret (s : State) : Result :=
  if !s.hart.sup then raisePrivilege s .eret else .next (s.onHart Hart.eret)

/-- Suspended until an interrupt is pending, whatever IE holds (R94). -/
def execWfi (s : State) : Result :=
  if !s.hart.sup then raisePrivilege s .wfi
  else if s.pendingFor s.cur then finishHart s id
  else wait s .wfi

/-- A pending interrupt taken between two convoys (R322). TRAPVAL is 1 for the fault-record interrupt and 2 for the host's; with both
pending either may be first (log 23). -/
def execInterruptEntry (s : State) : Result :=
  if !s.takesInterrupt s.cur then .next s
  else
    let die := dieOfHart s.cur
    let which := if !s.hostPending die then 1 else if !s.recordPending die then 2
      else if Config.coin s.clock.tick 0 then 1 else 2
    .next (s.onHart (fun h => h.interrupt which))

/-! ## Fences (R95, R202, R203). Accesses of the model are performed at their step, but for scalar stores that stand in the core's lines of
type 3 and stores on their way to another die. A fence comes to its step when the latter that it waits for are applied (log 24). -/

/-- Scopes with agents outside the core. -/
def beyondCore : Scope → Bool
  | .hart | .core => false
  | .die | .pkg | .sys => true

/-- A fence that holds stores performs those that stand in the core's lines, for agents outside the core to see (R95, R207). -/
def fenceStores (s : State) (x : Scope) : Result := finishHart (if beyondCore x then s.cleanLines s.coreNum else s) id

/-- Earlier loads are performed. -/
def execFenceAcq (_ : Scope) (s : State) : Result := finishHart s id
def execFenceRel (x : Scope) (s : State) : Result := fenceStores s x
def execFenceFull (x : Scope) (s : State) : Result := fenceStores s x

/-! ## Translations (R96) -/

/-- The fields of a cached entry's name, whichever TLB holds it: context, level, index. -/
def tlbFields (slot : Nat) : Nat × Nat × Nat :=
  let key := slot % 2 ^ 67
  (key / 2 ^ 48 / 8, key / 2 ^ 48 % 8, key % 2 ^ 48)

/-- Whether a cached entry may serve an address, a group's first entry its members too. The context entry is no address's: it leaves only with
ALLVA (R96, R174). -/
def tlbCovers (slot va : Nat) : Bool :=
  let (_, level, index) := tlbFields slot
  let g := if level = 0 then 16 else if level = 2 then 4 else 1
  level ≠ 5 && index / g = vaIndex va level / g

/-- A careful transfer goes on under translations that an instruction selects by context, page number and bytes that the leaf translates (R96,
R183). -/
def CopyCmd.keeps (c : CopyCmd) (chosen : Nat → Nat → Nat → Bool) : Bool :=
  c.stop.isNone && c.pages.any (fun p => chosen c.ctx p.1 p.2.size)

/-- Some access that was translated before has still to be performed: a careful transfer, or a store on its way to another die. -/
def State.oldAccesses (s : State) (chosen : Nat → Nat → Nat → Bool) : Bool :=
  s.cores.any (fun p => p.2.copies.any (fun c => c.keeps chosen)) || s.dies.any (fun p => p.2.pending ≠ [])

/-- The selected translations leave every TLB of the package; accesses made under them are performed first (R96). Bits [63:57] of s[a] are
not looked at: a non-canonical s[a] selects what the canonical address with its low bits does, the model's choice (log 54). -/
def execTlbinv (a b : SReg) (s : State) : Result :=
  let h := s.hart
  let x := h.sreg b
  if !h.sup then raisePrivilege s (.tlbinv a b)
  else if field x 63 18 ≠ 0 then raiseIllegal s (.tlbinv a b)
  else
    let va := (h.sreg a).toNat % 2 ^ 57
    let chosen := fun (key : Nat) =>
      (bit x 17 || (tlbFields key).1 = field x 15 0) && (bit x 16 || tlbCovers key va)
    let chosenAt := fun (ctx page size : Nat) =>
      size ≠ 0 && (bit x 17 || ctx = field x 15 0) && (bit x 16 || page * 4096 % 2 ^ 57 / size = va / size)
    if s.oldAccesses chosenAt then wait s .other
    else finishHart { s with mem := { s.mem with tlb := s.mem.tlb.filter (fun e => !chosen e.1) } } id

/-! ## The scalar data cache (R97) -/

/-- A line written back, if dirty, and no longer held, by key and by physical address. -/
def State.flushLine (s : State) (core : Nat) (key : Option Nat) (pa : Nat) : State :=
  let s := match s.mem.lines.find? (fun l => l.core = core && l.line = pa / 64) with
    | some l => (s.writeBack l).dropLine core l.line
    | none => s
  match key with
  | some k => { s with mem := { s.mem with dirty := s.mem.dirty.filter (fun l => !(l.core = core && l.line = k / 64)) } }
  | none => s

/-- The bytes of a dirty line fall back to the home's, unless the cache had already written them back (log 12). -/
def State.loseLine (s : State) (l : DirtyLine) : State :=
  let m := { s.mem with dirty := s.mem.dirty.filter (fun x => !(x.core = l.core && x.line = l.line)) }
  if Config.coin s.clock.tick l.line then { s with mem := m }
  else { s with mem := { m with cells := m.cells.writeBytes (l.line * 64) l.home } }

/-- A line no longer held, its dirty bytes lost. -/
def State.discardLine (s : State) (core : Nat) (key : Option Nat) (pa : Nat) : State :=
  let s := s.dropLine core (pa / 64)
  match key with
  | some k =>
    match s.mem.dirty.find? (fun l => l.core = core && l.line = k / 64) with
    | some l => s.loseLine l
    | none => s
  | none => s

/-- One line, or with s0 named every line of the core's cache. -/
def execCflush (a : SReg) (s : State) : Result :=
  let core := s.coreNum
  if a = 0 then
    let s := (s.mem.lines.filter (fun l => l.core = core)).foldl (fun s l => s.writeBack l) s
    finishHart { s with mem := { s.mem with lines := s.mem.lines.filter (fun l => l.core ≠ core)
                                            dirty := s.mem.dirty.filter (fun l => l.core ≠ core) } } id
  else
    match s.checkAccess .load (s.hart.sreg a) 1 with
    | (.error _, s) => finishHart s id
    | (.ok x, s) =>
      if !s.stackReady x.pa then wait s .other else finishHart (s.flushLine core (s.part.key? x.pa) x.pa) id

/-- Supervisor only; the address is translated as a store's. -/
def execCinval (a : SReg) (s : State) : Result :=
  let core := s.coreNum
  if !s.hart.sup then raisePrivilege s (.cinval a)
  else if a = 0 then
    let s := (s.mem.dirty.filter (fun l => l.core = core)).foldl State.loseLine s
    finishHart { s with mem := { s.mem with lines := s.mem.lines.filter (fun l => l.core ≠ core) } } id
  else
    match s.checkAccess .store (s.hart.sreg a) 1 with
    | (.error t, s) => raiseTrap s t
    | (.ok x, s) =>
      if !s.stackReady x.pa then wait s .other else finishHart (s.discardLine core (s.part.key? x.pa) x.pa) id

end Sys2Proof.Machine
end

