-- ==== Sys2Proof/Machine/VecMove.lean ====
section
/-! DEFINITION. Vector configuration, predicate instructions, permutes, reductions and scans (05 R103 to R105, R115 to R123): majors
0x1A, 0x19 and 0x1F. -/

namespace Sys2Proof.Machine

/-! ## Major 0x1A -/

/-- The tag set, with pairing; reserved codes, side codes and a register that serves as a side register trap (R9, R10, R103). -/
def execVtag (d : VReg) (t : BitVec 6) (s : State) : Result :=
  match Tag.ofCode? t.toNat with
  | none => raiseTag s (.vtag d t)
  | some tag =>
    if tag.isSide || (s.hart.tag d.toNat).isSide then raiseTag s (.vtag d t)
    else match s.hart.retag d.toNat tag with
      | none => raiseTag s (.vtag d t)
      | some h => finishHart s (fun _ => h)

/-- VW and VL set, and VL returned (R104). -/
def execVsetl (d a : SReg) (w : BitVec 2) (s : State) : Result :=
  finishHart s (fun h =>
    let vl := min (h.sreg a).toNat (512 / 2 ^ w.toNat)
    ({ h with vl := mkVL w.toNat vl }).setS d (word vl))

/-- HWM from s[a] (R105). -/
def execVhwm (a : SReg) (s : State) : Result :=
  finishHart s (fun h => { h with hwm := h.sreg a &&& 0x1FF3F#64 })

/-! ## Major 0x19 (R115 to R117) -/

/-- p[d] := f(p[a], p[b]) over all 512 bits. -/
def predTwo (s : State) (d a b : PReg) (f : PWord → PWord → PWord) : Result :=
  finishHart s (fun h => h.setP d (f (h.preg a) (h.preg b)))

def execPand (d a b : PReg) (s : State) : Result := predTwo s d a b (· &&& ·)
def execPor (d a b : PReg) (s : State) : Result := predTwo s d a b (· ||| ·)
def execPxor (d a b : PReg) (s : State) : Result := predTwo s d a b (· ^^^ ·)
def execPandn (d a b : PReg) (s : State) : Result := predTwo s d a b (fun x y => x &&& ~~~y)
def execPnot (d a : PReg) (s : State) : Result := finishHart s (fun h => h.setP d (~~~h.preg a))

/-- Ones in [lo, hi). -/
def onesRange (lo hi : Nat) : PWord := BitVec.ofNat 512 (if lo < hi then 2 ^ hi - 2 ^ lo else 0)

def execPset (d : PReg) (a : SReg) (b : PReg) (s : State) : Result :=
  finishHart s (fun h =>
    let x := h.sreg a
    h.setP d (h.preg b ||| onesRange (min (field x 15 0) 512) (min (field x 31 16) 512)))

def execPcnt (d : SReg) (a b : PReg) (s : State) : Result :=
  finishHart s (fun h => h.setS d (word (popCount 512 (h.preg a &&& h.preg b).toNat)))

def execPfirst (d : SReg) (a b : PReg) (s : State) : Result :=
  finishHart s (fun h => h.setS d (word (trailingZeros 512 (h.preg a &&& h.preg b).toNat)))

/-- The first 64 selected positions, ascending (R117). -/
def selected (p : PWord) : List Nat := ((List.range 512).filter (fun k => p.getLsbD k)).take 64

def execPmvs (d : SReg) (a b : PReg) (s : State) : Result :=
  finishHart s (fun h =>
    let bs := (selected (h.preg b)).map (fun k => (h.preg a).getLsbD k)
    h.setS d (word (bs.foldr (fun b n => 2 * n + b.toNat) 0)))

def execPmvp (d : PReg) (a : SReg) (b : PReg) (s : State) : Result :=
  finishHart s (fun h =>
    h.setP d (((selected (h.preg b)).mapIdx (fun j k => (k, bit (h.sreg a) j))).foldl (fun p e => setBit p e.1 e.2) 0))

/-! ## Major 0x1F -/

/-- Patterns written into d without conversion, at its own width. -/
def Hart.putBits (h : Hart) (d w : Nat) (es : List (Nat × Nat)) : Hart := (h.putPatterns d w es).wrote d w

/-! A side register may be an operand of `vbcast`, `vext` and `vins`, which move elements (R10); R118 does not say so: the model's choice
(log 53). -/

def execVbcast (d : VReg) (a : SReg) (s : State) : Result :=
  let h := s.hart
  if !unpaired h d then raiseTag s (.vbcast d a)
  else
    let w := h.width d.toNat
    finishHart s (fun h => h.putBits d.toNat w ((h.row 0 (h.count w)).map (fun k => (k, (h.sreg a).toNat))))

def execVext (d : SReg) (a : VReg) (b : SReg) (s : State) : Result :=
  let h := s.hart
  if !unpaired h a then raiseTag s (.vext d a b)
  else
    let w := h.width a.toNat
    let k := (h.sreg b).toNat
    let t := h.tag a.toNat
    let x := lane (h.vreg a.toNat) w k
    let r : Word := if k < 2048 / w then (if t.signed then BitVec.ofInt 64 (toSigned w x) else word x) else 0
    finishHart s (fun h => (h.setS d r).restart)

def execVins (d : VReg) (a b : SReg) (s : State) : Result :=
  let h := s.hart
  if !unpaired h d then raiseTag s (.vins d a b)
  else
    let w := h.width d.toNat
    let k := (h.sreg b).toNat
    finishHart s (fun h => h.putBits d.toNat w
      (if k < h.count w && h.active k then [(k, (h.sreg a).toNat)] else []))

/-- A permute of a into d: `es` lists the patterns written, given E and the width. -/
def permute (s : State) (i : Instr) (d a : VReg) (ws : List Nat) (es : Hart → Nat → Nat → List (Nat × Nat)) : Result :=
  let h := s.hart
  match permuteDest h d a with
  | none => raiseTag s i
  | some h1 =>
    let w := h.width a.toNat
    let n := h.count (widest (w :: ws))
    finishHart s (fun _ => h1.putBits d.toNat w (es h n w))

def execVperm (d a b : VReg) (s : State) : Result :=
  let h := s.hart
  let tb := h.tag b.toNat
  if !tb.isInt then raiseTag s (.vperm d a b)
  else permute s (.vperm d a b) d a [h.width b.toNat] (fun h n w => (h.row 0 n).map (fun k =>
    let j := (h.value tb (.v b.toNat) k).toInt
    (k, if 0 ≤ j && j < (2048 / w : Nat) then lane (h.vreg a.toNat) w j.toNat else 0)))

def execVslup (d a : VReg) (b : SReg) (s : State) : Result :=
  permute s (.vslup d a b) d a [] (fun h n w =>
    let m := (h.sreg b).toNat
    ((h.row 0 n).filter (fun k => m ≤ k)).map (fun k => (k, lane (h.vreg a.toNat) w (k - m))))

def execVsldn (d a : VReg) (b : SReg) (s : State) : Result :=
  permute s (.vsldn d a b) d a [] (fun h n w =>
    let m := (h.sreg b).toNat
    (h.row 0 n).map (fun k => (k, if k + m < n then lane (h.vreg a.toNat) w (k + m) else 0)))

/-- Indices below n that p[b] selects (R121). -/
def Hart.picked (h : Hart) (b : PReg) (n : Nat) : List Nat := (List.range n).filter (fun k => (h.preg b).getLsbD k)

def execVcomp (d a : VReg) (b : PReg) (s : State) : Result :=
  permute s (.vcomp d a b) d a [] (fun h n w => (h.picked b n).mapIdx (fun j k => (j, lane (h.vreg a.toNat) w k)))

def execVexpd (d a : VReg) (b : PReg) (s : State) : Result :=
  permute s (.vexpd d a b) d a [] (fun h n w => (h.picked b n).mapIdx (fun j k => (k, lane (h.vreg a.toNat) w j)))

/-! ## Reductions and scans (R49, R50, R122, R123) -/

/-- The accumulation type (R49): fp32 for floats, 64 bits for integers, residues for mod32. -/
def accType (t : Tag) : Tag := if t.isFloat then .fp32 else if t = .mod32 then .mod32 else if t.signed then .int64 else .uint64

/-- A sum of two accumulated values, rounded to the accumulation type under MODE. -/
def sumVals (h : Hart) (a b : Val × FFlags) : Val × FFlags :=
  match a.1, b.1 with
  | .int x, .int y => (.int (x + y), a.2 ||| b.2)
  | x, y =>
    let r := Num.add h.rnd x.toNum y.toNum
    let q := Ieee.fp32.round h.rnd h.ftz r.1
    (.num (Ieee.fp32.decode false q.1), a.2 ||| b.2 ||| r.2 ||| q.2)

/-- Minimum or maximum by R28. -/
def pickVals (fi : Int → Int → Int) (ff : Num → Num → Num × FFlags) (a b : Val × FFlags) : Val × FFlags :=
  let r := onVals fi ff a.1 b.1
  (r.1, a.2 ||| b.2 ||| r.2)

/-- One level of the tree. -/
def pairUp (f : α → α → α) : List α → List α
  | x :: y :: xs => f x y :: pairUp f xs
  | xs => xs

/-- The pairwise tree, level by level (R49); `n` bounds its height. -/
def reduceTree (f : α → α → α) (d : α) : Nat → List α → α
  | 0, xs => xs.headD d
  | n + 1, xs => reduceTree f d n (pairUp f xs)

/-- The smallest q with n ≤ 2^q. -/
def log2Up (n : Nat) : Nat := if n ≤ 1 then 0 else Nat.log2 (n - 1) + 1

/-- Wrapping in 64 bits, or reduction of residues (R49, R122). -/
def foldInt (acc : Tag) (p : Nat) (v : Val × FFlags) : Val × FFlags :=
  match v.1 with
  | .int z => (.int (if acc = .mod32 then z % (p : Int) else acc.intVal (wrap 64 z)), v.2)
  | .num _ => v

/-- What is folded: the identity, an element's entry, and the combination. -/
structure Folding where
  ident : Val
  entry : Val → Val
  combine : Hart → Val × FFlags → Val × FFlags → Val × FFlags
  /-- Minimum and maximum are exact; floating ones ignore NaN, and give it when there is nothing else (R49, R122). Sums are rounded or wrap. -/
  ignoreNaN : Bool

def sumFold (t : Tag) : Folding :=
  ⟨if t.isFloat then .num .zero else .int 0, id, sumVals, false⟩
def minFold (t : Tag) : Folding :=
  ⟨if t.isFloat then .num (.inf false) else .int t.maxInt, id, fun _ => pickVals min Num.min, true⟩
def maxFold (t : Tag) : Folding :=
  ⟨if t.isFloat then .num (.inf true) else .int t.minInt, id, fun _ => pickVals max Num.max, true⟩
def amaxFold (t : Tag) : Folding :=
  ⟨if t.isFloat then .num .zero else .int 0,
    fun v => match v with | .int z => .int z.natAbs | .num x => .num x.abs, fun _ => pickVals max Num.max, true⟩

def Val.isNaN : Val → Bool
  | .num x => x.isNaN
  | .int _ => false

/-- A node's value: a sum of integers wraps or is reduced, a minimum or maximum is exact (R49). -/
def Folding.node (fo : Folding) (acc : Tag) (p : Nat) (v : Val × FFlags) : Val × FFlags := if fo.ignoreNaN then v else foldInt acc p v

/-- The root over the entries of the active elements (R122). -/
def foldRoot (h : Hart) (acc : Tag) (fo : Folding) (n : Nat) (row : List Nat) (v : Nat → Val) : Val × FFlags :=
  let q := log2Up n
  if fo.ignoreNaN && row ≠ [] && row.all (fun k => (v k).isNaN) then
    (.num (.nan false), row.foldl (fun f k => f ||| (v k).toNum.snan) 0)
  else
    reduceTree (fun a b => fo.node acc h.prime (fo.combine h a b)) (fo.ident, 0) q
      ((List.range (2 ^ q)).map (fun k => fo.node acc h.prime (if row.contains k then (fo.entry (v k), 0) else (fo.ident, 0))))

/-- A reduction into element 0 (R122). Where no element is active the identity is converted like any result and raises the flags of that
conversion, the model's choice (R26, R102; log 53). -/
def vecReduce (s : State) (i : Instr) (d a : VReg) (ok : Tag → Bool) (fo : Tag → Folding) : Result :=
  let h := s.hart
  let t := h.tag a.toNat
  match foldDest h d a ok with
  | none => raiseTag s i
  | some (h1, td) =>
    let n := h.count (max (h.width a.toNat) (td.width h.vwBits))
    let row := h.row 0 n
    match h.modCheck t [.v a.toNat] row with
    | .error t => raiseTrap s t
    | .ok fl =>
      let acc := accType t
      let r := foldRoot h acc (fo t) h.vlen row (fun k => h.value t (.v a.toNat) k)
      finishHart s (fun _ =>
        (if h.vlen = 0 then h1 else (h1.putElems d.toNat acc td [0] (fun _ => r)).raise fl).wrote d.toNat (td.width h.vwBits))

def execVredSum (d a : VReg) (s : State) : Result := vecReduce s (.vredSum d a) d a Tag.numeric sumFold
def execVredMin (d a : VReg) (s : State) : Result := vecReduce s (.vredMin d a) d a intOrFloat minFold
def execVredMax (d a : VReg) (s : State) : Result := vecReduce s (.vredMax d a) d a intOrFloat maxFold
def execVredAmax (d a : VReg) (s : State) : Result := vecReduce s (.vredAmax d a) d a intOrFloat amaxFold

/-- A bitwise reduction of integer or untyped patterns (R122). The root of an untyped a converts into a tagged d as an unsigned integer: the
model's choice (log 53). -/
def vecReduceBits (s : State) (i : Instr) (d a : VReg) (ident : Nat → Nat) (f : Nat → Nat → Nat) : Result :=
  let h := s.hart
  let t := h.tag a.toNat
  match foldDest h d a (fun t => t.isInt || t = .untyped) with
  | none => raiseTag s i
  | some (h1, td) =>
    let w := h.width a.toNat
    let n := h.count (max w (td.width h.vwBits))
    let r := (h.row 0 n).foldl (fun x k => f x (lane (h.vreg a.toNat) w k)) (ident w)
    let put := if td = .untyped then h1.putLanes d.toNat w [(0, r)]
      else h1.putElems d.toNat (if t = .untyped then td else t) td [0] (fun _ =>
        exact (.int (if t = .untyped then (r : Int) else t.intVal r)))
    finishHart s (fun _ => (if h.vlen = 0 then h1 else put).wrote d.toNat (td.width h.vwBits))

def execVredAnd (d a : VReg) (s : State) : Result := vecReduceBits s (.vredAnd d a) d a (fun w => 2 ^ w - 1) Nat.land
def execVredOr (d a : VReg) (s : State) : Result := vecReduceBits s (.vredOr d a) d a (fun _ => 0) Nat.lor
def execVredXor (d a : VReg) (s : State) : Result := vecReduceBits s (.vredXor d a) d a (fun _ => 0) Nat.xor

/-- The partials of a scan: each index with the value before and after its element (R50). -/
def scanFrom (h : Hart) (acc : Tag) (fo : Folding) (v : Nat → Val) : Val × FFlags → List Nat → List (Nat × (Val × FFlags) × (Val × FFlags))
  | _, [] => []
  | x, k :: ks =>
    let y := fo.node acc h.prime (fo.combine h x (v k, 0))
    (k, x, y) :: scanFrom h acc fo v y ks

/-- A scan (R123); `before` selects the exclusive form. -/
def vecScan (s : State) (i : Instr) (d a : VReg) (ok : Tag → Bool) (fo : Tag → Folding) (before : Bool) : Result :=
  let h := s.hart
  let t := h.tag a.toNat
  match foldDest h d a ok with
  | none => raiseTag s i
  | some (h1, td) =>
    let n := h.count (max (h.width a.toNat) (td.width h.vwBits))
    let row := h.row 0 n
    match h.modCheck t [.v a.toNat] row with
    | .error t => raiseTrap s t
    | .ok fl =>
      let acc := accType t
      let ps := scanFrom h acc (fo t) (fun k => h.value t (.v a.toNat) k) ((fo t).ident, 0) row
      let at' := fun k => match ps.find? (fun p => p.1 = k) with
        | some p => if before then (p.2.1.1, p.2.2.2) else p.2.2
        | none => ((fo t).ident, 0)
      finishHart s (fun _ => ((h1.putElems d.toNat acc td row at').raise fl).wrote d.toNat (td.width h.vwBits))

def execVscanIsum (d a : VReg) (s : State) : Result := vecScan s (.vscanIsum d a) d a Tag.numeric sumFold false
def execVscanEsum (d a : VReg) (s : State) : Result := vecScan s (.vscanEsum d a) d a Tag.numeric sumFold true
def execVscanImax (d a : VReg) (s : State) : Result := vecScan s (.vscanImax d a) d a intOrFloat maxFold false

end Sys2Proof.Machine
end

