-- ==== Sys2Proof/Machine/Dispatch.lean ====
section
/-! DEFINITION. The meaning of every instruction: one arm for each row of the opcode table. -/

namespace Sys2Proof.Machine

/-- One instruction or step at a state. -/
def exec (i : Instr) (s : State) : Host.Outcome State Fault Refusal :=
  match i with
  | .cvy x1 x2 x3 x4 x5 x6 => Sys2Proof.Machine.execCvy x1 x2 x3 x4 x5 x6 s
  | .add x1 x2 x3 => Sys2Proof.Machine.execAdd x1 x2 x3 s
  | .sub x1 x2 x3 => Sys2Proof.Machine.execSub x1 x2 x3 s
  | .and x1 x2 x3 => Sys2Proof.Machine.execAnd x1 x2 x3 s
  | .or x1 x2 x3 => Sys2Proof.Machine.execOr x1 x2 x3 s
  | .xor x1 x2 x3 => Sys2Proof.Machine.execXor x1 x2 x3 s
  | .sll x1 x2 x3 => Sys2Proof.Machine.execSll x1 x2 x3 s
  | .srl x1 x2 x3 => Sys2Proof.Machine.execSrl x1 x2 x3 s
  | .sra x1 x2 x3 => Sys2Proof.Machine.execSra x1 x2 x3 s
  | .slt x1 x2 x3 => Sys2Proof.Machine.execSlt x1 x2 x3 s
  | .sltu x1 x2 x3 => Sys2Proof.Machine.execSltu x1 x2 x3 s
  | .min x1 x2 x3 => Sys2Proof.Machine.execMin x1 x2 x3 s
  | .max x1 x2 x3 => Sys2Proof.Machine.execMax x1 x2 x3 s
  | .minu x1 x2 x3 => Sys2Proof.Machine.execMinu x1 x2 x3 s
  | .maxu x1 x2 x3 => Sys2Proof.Machine.execMaxu x1 x2 x3 s
  | .mul x1 x2 x3 => Sys2Proof.Machine.execMul x1 x2 x3 s
  | .mulh x1 x2 x3 => Sys2Proof.Machine.execMulh x1 x2 x3 s
  | .mulhu x1 x2 x3 => Sys2Proof.Machine.execMulhu x1 x2 x3 s
  | .div x1 x2 x3 => Sys2Proof.Machine.execDiv x1 x2 x3 s
  | .divu x1 x2 x3 => Sys2Proof.Machine.execDivu x1 x2 x3 s
  | .rem x1 x2 x3 => Sys2Proof.Machine.execRem x1 x2 x3 s
  | .remu x1 x2 x3 => Sys2Proof.Machine.execRemu x1 x2 x3 s
  | .clz x1 x2 => Sys2Proof.Machine.execClz x1 x2 s
  | .ctz x1 x2 => Sys2Proof.Machine.execCtz x1 x2 s
  | .popc x1 x2 => Sys2Proof.Machine.execPopc x1 x2 s
  | .sextb x1 x2 => Sys2Proof.Machine.execSextb x1 x2 s
  | .sexth x1 x2 => Sys2Proof.Machine.execSexth x1 x2 s
  | .sextw x1 x2 => Sys2Proof.Machine.execSextw x1 x2 s
  | .brev x1 x2 => Sys2Proof.Machine.execBrev x1 x2 s
  | .bswap x1 x2 => Sys2Proof.Machine.execBswap x1 x2 s
  | .addi x1 x2 x3 => Sys2Proof.Machine.execAddi x1 x2 x3 s
  | .andi x1 x2 x3 => Sys2Proof.Machine.execAndi x1 x2 x3 s
  | .ori x1 x2 x3 => Sys2Proof.Machine.execOri x1 x2 x3 s
  | .xori x1 x2 x3 => Sys2Proof.Machine.execXori x1 x2 x3 s
  | .slti x1 x2 x3 => Sys2Proof.Machine.execSlti x1 x2 x3 s
  | .sltiu x1 x2 x3 => Sys2Proof.Machine.execSltiu x1 x2 x3 s
  | .slli x1 x2 x3 => Sys2Proof.Machine.execSlli x1 x2 x3 s
  | .srli x1 x2 x3 => Sys2Proof.Machine.execSrli x1 x2 x3 s
  | .srai x1 x2 x3 => Sys2Proof.Machine.execSrai x1 x2 x3 s
  | .lui x1 x2 => Sys2Proof.Machine.execLui x1 x2 s
  | .addpc x1 x2 => Sys2Proof.Machine.execAddpc x1 x2 s
  | .fadd x1 x2 x3 x4 => Sys2Proof.Machine.execFadd x1 x2 x3 x4 s
  | .fsub x1 x2 x3 x4 => Sys2Proof.Machine.execFsub x1 x2 x3 x4 s
  | .fmul x1 x2 x3 x4 => Sys2Proof.Machine.execFmul x1 x2 x3 x4 s
  | .fdiv x1 x2 x3 x4 => Sys2Proof.Machine.execFdiv x1 x2 x3 x4 s
  | .fsqrt x1 x2 x3 => Sys2Proof.Machine.execFsqrt x1 x2 x3 s
  | .fmin x1 x2 x3 x4 => Sys2Proof.Machine.execFmin x1 x2 x3 x4 s
  | .fmax x1 x2 x3 x4 => Sys2Proof.Machine.execFmax x1 x2 x3 x4 s
  | .feq x1 x2 x3 x4 => Sys2Proof.Machine.execFeq x1 x2 x3 x4 s
  | .flt x1 x2 x3 x4 => Sys2Proof.Machine.execFlt x1 x2 x3 x4 s
  | .fle x1 x2 x3 x4 => Sys2Proof.Machine.execFle x1 x2 x3 x4 s
  | .funord x1 x2 x3 x4 => Sys2Proof.Machine.execFunord x1 x2 x3 x4 s
  | .fcvti x1 x2 x3 => Sys2Proof.Machine.execFcvti x1 x2 x3 s
  | .fcvtu x1 x2 x3 => Sys2Proof.Machine.execFcvtu x1 x2 x3 s
  | .fcvtf x1 x2 x3 => Sys2Proof.Machine.execFcvtf x1 x2 x3 s
  | .fcvtfu x1 x2 x3 => Sys2Proof.Machine.execFcvtfu x1 x2 x3 s
  | .fcvtw x1 x2 x3 => Sys2Proof.Machine.execFcvtw x1 x2 x3 s
  | .fclass x1 x2 x3 => Sys2Proof.Machine.execFclass x1 x2 x3 s
  | .fma x1 x2 x3 x4 x5 => Sys2Proof.Machine.execFma x1 x2 x3 x4 x5 s
  | .fms x1 x2 x3 x4 x5 => Sys2Proof.Machine.execFms x1 x2 x3 x4 x5 s
  | .fnma x1 x2 x3 x4 x5 => Sys2Proof.Machine.execFnma x1 x2 x3 x4 x5 s
  | .fnms x1 x2 x3 x4 x5 => Sys2Proof.Machine.execFnms x1 x2 x3 x4 x5 s
  | .ld x1 x2 x3 x4 => Sys2Proof.Machine.execLd x1 x2 x3 x4 s
  | .st x1 x2 x3 x4 => Sys2Proof.Machine.execSt x1 x2 x3 x4 s
  | .br x1 x2 x3 x4 => Sys2Proof.Machine.execBr x1 x2 x3 x4 s
  | .jmp x1 => Sys2Proof.Machine.execJmp x1 s
  | .call x1 => Sys2Proof.Machine.execCall x1 s
  | .jr x1 x2 x3 => Sys2Proof.Machine.execJr x1 x2 x3 s
  | .strip x1 x2 x3 x4 x5 => Sys2Proof.Machine.execStrip x1 x2 x3 x4 x5 s
  | .sloop x1 x2 => Sys2Proof.Machine.execSloop x1 x2 s
  | .mfs x1 x2 => Sys2Proof.Machine.execMfs x1 x2 s
  | .mts x1 x2 => Sys2Proof.Machine.execMts x1 x2 s
  | .mset x1 x2 => Sys2Proof.Machine.execMset x1 x2 s
  | .mclr x1 x2 => Sys2Proof.Machine.execMclr x1 x2 s
  | .sysc => Sys2Proof.Machine.execSysc s
  | .eret => Sys2Proof.Machine.execEret s
  | .brk => Sys2Proof.Machine.execBrk s
  | .wfi => Sys2Proof.Machine.execWfi s
  | .fenceAcq x1 => Sys2Proof.Machine.execFenceAcq x1 s
  | .fenceRel x1 => Sys2Proof.Machine.execFenceRel x1 s
  | .fenceFull x1 => Sys2Proof.Machine.execFenceFull x1 s
  | .tlbinv x1 x2 => Sys2Proof.Machine.execTlbinv x1 x2 s
  | .cflush x1 => Sys2Proof.Machine.execCflush x1 s
  | .cinval x1 => Sys2Proof.Machine.execCinval x1 s
  | .pand x1 x2 x3 => Sys2Proof.Machine.execPand x1 x2 x3 s
  | .por x1 x2 x3 => Sys2Proof.Machine.execPor x1 x2 x3 s
  | .pxor x1 x2 x3 => Sys2Proof.Machine.execPxor x1 x2 x3 s
  | .pandn x1 x2 x3 => Sys2Proof.Machine.execPandn x1 x2 x3 s
  | .pnot x1 x2 => Sys2Proof.Machine.execPnot x1 x2 s
  | .pset x1 x2 x3 => Sys2Proof.Machine.execPset x1 x2 x3 s
  | .pcnt x1 x2 x3 => Sys2Proof.Machine.execPcnt x1 x2 x3 s
  | .pfirst x1 x2 x3 => Sys2Proof.Machine.execPfirst x1 x2 x3 s
  | .pmvs x1 x2 x3 => Sys2Proof.Machine.execPmvs x1 x2 x3 s
  | .pmvp x1 x2 x3 => Sys2Proof.Machine.execPmvp x1 x2 x3 s
  | .vtag x1 x2 => Sys2Proof.Machine.execVtag x1 x2 s
  | .vsetl x1 x2 x3 => Sys2Proof.Machine.execVsetl x1 x2 x3 s
  | .vhwm x1 => Sys2Proof.Machine.execVhwm x1 s
  | .vadd x1 x2 x3 => Sys2Proof.Machine.execVadd x1 x2 x3 s
  | .vsub x1 x2 x3 => Sys2Proof.Machine.execVsub x1 x2 x3 s
  | .vmul x1 x2 x3 => Sys2Proof.Machine.execVmul x1 x2 x3 s
  | .vmulh x1 x2 x3 => Sys2Proof.Machine.execVmulh x1 x2 x3 s
  | .vdiv x1 x2 x3 => Sys2Proof.Machine.execVdiv x1 x2 x3 s
  | .vrem x1 x2 x3 => Sys2Proof.Machine.execVrem x1 x2 x3 s
  | .vmin x1 x2 x3 => Sys2Proof.Machine.execVmin x1 x2 x3 s
  | .vmax x1 x2 x3 => Sys2Proof.Machine.execVmax x1 x2 x3 s
  | .vand x1 x2 x3 => Sys2Proof.Machine.execVand x1 x2 x3 s
  | .vor x1 x2 x3 => Sys2Proof.Machine.execVor x1 x2 x3 s
  | .vxor x1 x2 x3 => Sys2Proof.Machine.execVxor x1 x2 x3 s
  | .vshl x1 x2 x3 => Sys2Proof.Machine.execVshl x1 x2 x3 s
  | .vshr x1 x2 x3 => Sys2Proof.Machine.execVshr x1 x2 x3 s
  | .vabsd x1 x2 x3 => Sys2Proof.Machine.execVabsd x1 x2 x3 s
  | .vsel x1 x2 x3 => Sys2Proof.Machine.execVsel x1 x2 x3 s
  | .vmov x1 x2 => Sys2Proof.Machine.execVmov x1 x2 s
  | .vneg x1 x2 => Sys2Proof.Machine.execVneg x1 x2 s
  | .vabs x1 x2 => Sys2Proof.Machine.execVabs x1 x2 s
  | .vnot x1 x2 => Sys2Proof.Machine.execVnot x1 x2 s
  | .vcvt x1 x2 => Sys2Proof.Machine.execVcvt x1 x2 s
  | .vrcp x1 x2 => Sys2Proof.Machine.execVrcp x1 x2 s
  | .vrsq x1 x2 => Sys2Proof.Machine.execVrsq x1 x2 s
  | .vexp2 x1 x2 => Sys2Proof.Machine.execVexp2 x1 x2 s
  | .vlog2 x1 x2 => Sys2Proof.Machine.execVlog2 x1 x2 s
  | .vpopc x1 x2 => Sys2Proof.Machine.execVpopc x1 x2 s
  | .vclz x1 x2 => Sys2Proof.Machine.execVclz x1 x2 s
  | .vmred x1 x2 => Sys2Proof.Machine.execVmred x1 x2 s
  | .vfma x1 x2 x3 x4 => Sys2Proof.Machine.execVfma x1 x2 x3 x4 s
  | .vfms x1 x2 x3 x4 => Sys2Proof.Machine.execVfms x1 x2 x3 x4 s
  | .vfnma x1 x2 x3 x4 => Sys2Proof.Machine.execVfnma x1 x2 x3 x4 s
  | .vfnms x1 x2 x3 x4 => Sys2Proof.Machine.execVfnms x1 x2 x3 x4 s
  | .vcmp x1 x2 x3 x4 => Sys2Proof.Machine.execVcmp x1 x2 x3 x4 s
  | .vbcast x1 x2 => Sys2Proof.Machine.execVbcast x1 x2 s
  | .vext x1 x2 x3 => Sys2Proof.Machine.execVext x1 x2 x3 s
  | .vins x1 x2 x3 => Sys2Proof.Machine.execVins x1 x2 x3 s
  | .vperm x1 x2 x3 => Sys2Proof.Machine.execVperm x1 x2 x3 s
  | .vslup x1 x2 x3 => Sys2Proof.Machine.execVslup x1 x2 x3 s
  | .vsldn x1 x2 x3 => Sys2Proof.Machine.execVsldn x1 x2 x3 s
  | .vcomp x1 x2 x3 => Sys2Proof.Machine.execVcomp x1 x2 x3 s
  | .vexpd x1 x2 x3 => Sys2Proof.Machine.execVexpd x1 x2 x3 s
  | .vredSum x1 x2 => Sys2Proof.Machine.execVredSum x1 x2 s
  | .vredMin x1 x2 => Sys2Proof.Machine.execVredMin x1 x2 s
  | .vredMax x1 x2 => Sys2Proof.Machine.execVredMax x1 x2 s
  | .vredAmax x1 x2 => Sys2Proof.Machine.execVredAmax x1 x2 s
  | .vredAnd x1 x2 => Sys2Proof.Machine.execVredAnd x1 x2 s
  | .vredOr x1 x2 => Sys2Proof.Machine.execVredOr x1 x2 s
  | .vredXor x1 x2 => Sys2Proof.Machine.execVredXor x1 x2 s
  | .vscanIsum x1 x2 => Sys2Proof.Machine.execVscanIsum x1 x2 s
  | .vscanEsum x1 x2 => Sys2Proof.Machine.execVscanEsum x1 x2 s
  | .vscanImax x1 x2 => Sys2Proof.Machine.execVscanImax x1 x2 s
  | .vld x1 x2 x3 => Sys2Proof.Machine.execVld x1 x2 x3 s
  | .vlds x1 x2 x3 => Sys2Proof.Machine.execVlds x1 x2 x3 s
  | .vldx x1 x2 x3 => Sys2Proof.Machine.execVldx x1 x2 x3 s
  | .vst x1 x2 x3 => Sys2Proof.Machine.execVst x1 x2 x3 s
  | .vsts x1 x2 x3 => Sys2Proof.Machine.execVsts x1 x2 x3 s
  | .vstx x1 x2 x3 => Sys2Proof.Machine.execVstx x1 x2 x3 s
  | .vamoAdd x1 x2 x3 x4 => Sys2Proof.Machine.execVamoAdd x1 x2 x3 x4 s
  | .vamoMin x1 x2 x3 x4 => Sys2Proof.Machine.execVamoMin x1 x2 x3 x4 s
  | .vamoMax x1 x2 x3 x4 => Sys2Proof.Machine.execVamoMax x1 x2 x3 x4 s
  | .vamoAnd x1 x2 x3 x4 => Sys2Proof.Machine.execVamoAnd x1 x2 x3 x4 s
  | .vamoOr x1 x2 x3 x4 => Sys2Proof.Machine.execVamoOr x1 x2 x3 x4 s
  | .vamoXor x1 x2 x3 x4 => Sys2Proof.Machine.execVamoXor x1 x2 x3 x4 s
  | .vamoSwap x1 x2 x3 x4 => Sys2Proof.Machine.execVamoSwap x1 x2 x3 x4 s
  | .vamoFadd x1 x2 x3 x4 => Sys2Proof.Machine.execVamoFadd x1 x2 x3 x4 s
  | .vamoFmax x1 x2 x3 x4 => Sys2Proof.Machine.execVamoFmax x1 x2 x3 x4 s
  | .amoAdd x1 x2 x3 x4 x5 => Sys2Proof.Machine.execAmoAdd x1 x2 x3 x4 x5 s
  | .amoAnd x1 x2 x3 x4 x5 => Sys2Proof.Machine.execAmoAnd x1 x2 x3 x4 x5 s
  | .amoOr x1 x2 x3 x4 x5 => Sys2Proof.Machine.execAmoOr x1 x2 x3 x4 x5 s
  | .amoXor x1 x2 x3 x4 x5 => Sys2Proof.Machine.execAmoXor x1 x2 x3 x4 x5 s
  | .amoMin x1 x2 x3 x4 x5 => Sys2Proof.Machine.execAmoMin x1 x2 x3 x4 x5 s
  | .amoMax x1 x2 x3 x4 x5 => Sys2Proof.Machine.execAmoMax x1 x2 x3 x4 x5 s
  | .amoMinu x1 x2 x3 x4 x5 => Sys2Proof.Machine.execAmoMinu x1 x2 x3 x4 x5 s
  | .amoMaxu x1 x2 x3 x4 x5 => Sys2Proof.Machine.execAmoMaxu x1 x2 x3 x4 x5 s
  | .amoSwap x1 x2 x3 x4 x5 => Sys2Proof.Machine.execAmoSwap x1 x2 x3 x4 x5 s
  | .cas x1 x2 x3 x4 x5 => Sys2Proof.Machine.execCas x1 x2 x3 x4 x5 s
  | .binit x1 x2 => Sys2Proof.Machine.execBinit x1 x2 s
  | .barrive x1 x2 => Sys2Proof.Machine.execBarrive x1 x2 s
  | .bexpect x1 x2 => Sys2Proof.Machine.execBexpect x1 x2 s
  | .bwait x1 x2 => Sys2Proof.Machine.execBwait x1 x2 s
  | .btest x1 x2 x3 => Sys2Proof.Machine.execBtest x1 x2 x3 s
  | .step x1 x2 => Sys2Proof.Machine.execStep x1 x2 s
  | .spawn x1 x2 => Sys2Proof.Machine.execSpawn x1 x2 s
  | .texit => Sys2Proof.Machine.execTexit s
  | .tgraph x1 x2 x3 => Sys2Proof.Machine.execTgraph x1 x2 x3 s
  | .tld x1 x2 x3 => Sys2Proof.Machine.execTld x1 x2 x3 s
  | .tst x1 x2 x3 => Sys2Proof.Machine.execTst x1 x2 x3 s
  | .tcpy x1 x2 => Sys2Proof.Machine.execTcpy x1 x2 s
  | .tfill x1 x2 => Sys2Proof.Machine.execTfill x1 x2 s
  | .ttag x1 => Sys2Proof.Machine.execTtag x1 s
  | .tpack x1 x2 x3 => Sys2Proof.Machine.execTpack x1 x2 x3 s
  | .tunpk x1 x2 => Sys2Proof.Machine.execTunpk x1 x2 s
  | .twait x1 x2 => Sys2Proof.Machine.execTwait x1 x2 s
  | .vldt x1 x2 x3 => Sys2Proof.Machine.execVldt x1 x2 x3 s
  | .vstt x1 x2 x3 => Sys2Proof.Machine.execVstt x1 x2 x3 s
  | .xbatchCopy x1 x2 => Sys2Proof.Machine.execXbatchCopy x1 x2 s
  | .xbatchFabric x1 x2 => Sys2Proof.Machine.execXbatchFabric x1 x2 s
  | .xbatchColl x1 x2 => Sys2Proof.Machine.execXbatchColl x1 x2 s
  | .mshape x1 => Sys2Proof.Machine.execMshape x1 s
  | .mzero x1 => Sys2Proof.Machine.execMzero x1 s
  | .mread x1 x2 x3 => Sys2Proof.Machine.execMread x1 x2 x3 s
  | .mload x1 x2 => Sys2Proof.Machine.execMload x1 x2 s
  | .mfence => Sys2Proof.Machine.execMfence s
  | .mma x1 x2 x3 => Sys2Proof.Machine.execMma x1 x2 x3 s
  | .mmab x1 x2 x3 => Sys2Proof.Machine.execMmab x1 x2 x3 s
  | .mdec x1 x2 => Sys2Proof.Machine.execMdec x1 x2 s
  | .mmanm x1 x2 x3 => Sys2Proof.Machine.execMmanm x1 x2 x3 s
  | .mrem x1 x2 x3 => Sys2Proof.Machine.execMrem x1 x2 x3 s
  | .mscan x1 x2 x3 => Sys2Proof.Machine.execMscan x1 x2 x3 s
  | .scfg x1 => Sys2Proof.Machine.execScfg x1 s
  | .sgo x1 x2 x3 => Sys2Proof.Machine.execSgo x1 x2 x3 s
  | .smark x1 x2 => Sys2Proof.Machine.execSmark x1 x2 s
  | .sdrain x1 => Sys2Proof.Machine.execSdrain x1 s
  | .sstat x1 x2 => Sys2Proof.Machine.execSstat x1 x2 s
  | .stwld x1 x2 => Sys2Proof.Machine.execStwld x1 x2 s
  | .cgrp x1 x2 => Sys2Proof.Machine.execCgrp x1 x2 s
  | .cprg x1 x2 x3 => Sys2Proof.Machine.execCprg x1 x2 x3 s
  | .cstart x1 x2 => Sys2Proof.Machine.execCstart x1 x2 s
  | .cwait x1 x2 => Sys2Proof.Machine.execCwait x1 x2 s
  | .cpoll x1 x2 => Sys2Proof.Machine.execCpoll x1 x2 s
  | .cabort x1 x2 => Sys2Proof.Machine.execCabort x1 x2 s
  | .crepart x1 x2 => Sys2Proof.Machine.execCrepart x1 x2 s
  | .crot x1 x2 => Sys2Proof.Machine.execCrot x1 x2 s
  | .cjoin x1 x2 x3 => Sys2Proof.Machine.execCjoin x1 x2 x3 s
  | .cshrink x1 x2 => Sys2Proof.Machine.execCshrink x1 x2 s
  | .dgrd x1 x2 => Sys2Proof.Machine.execDgrd x1 x2 s
  | .dgwr x1 x2 => Sys2Proof.Machine.execDgwr x1 x2 s
  | .illegalInsn x1 => Sys2Proof.Machine.execIllegalInsn x1 s
  | .doorbell x1 x2 x3 => Sys2Proof.Machine.execDoorbell x1 x2 x3 s
  | .rst x1 => Sys2Proof.Machine.execRst x1 s
  | .svdb x1 => Sys2Proof.Machine.execSvdb x1 s
  | .hostBar2Access x1 => Sys2Proof.Machine.execHostBar2Access x1 s
  | .registerWrite x1 x2 => Sys2Proof.Machine.execRegisterWrite x1 x2 s
  | .unitReady x1 => Sys2Proof.Machine.execUnitReady x1 s
  | .dieFence x1 x2 => Sys2Proof.Machine.execDieFence x1 x2 s
  | .messageArrival x1 => Sys2Proof.Machine.execMessageArrival x1 s
  | .messageForward x1 => Sys2Proof.Machine.execMessageForward x1 s
  | .squareContribution x1 => Sys2Proof.Machine.execSquareContribution x1 s
  | .abortNoticeArrival x1 => Sys2Proof.Machine.execAbortNoticeArrival x1 s
  | .joinNoticeArrival x1 => Sys2Proof.Machine.execJoinNoticeArrival x1 s
  | .rotationLanding x1 => Sys2Proof.Machine.execRotationLanding x1 s
  | .lose x1 => Sys2Proof.Machine.execLose x1 s
  | .linkCrcReplay x1 => Sys2Proof.Machine.execLinkCrcReplay x1 s
  | .linkDown x1 => Sys2Proof.Machine.execLinkDown x1 s
  | .portCrcReplay x1 => Sys2Proof.Machine.execPortCrcReplay x1 s
  | .portDown x1 => Sys2Proof.Machine.execPortDown x1 s
  | .frctlRetry x1 x2 => Sys2Proof.Machine.execFrctlRetry x1 x2 s
  | .frctlAbort x1 x2 => Sys2Proof.Machine.execFrctlAbort x1 x2 s
  | .interruptEntry => Sys2Proof.Machine.execInterruptEntry s
  | .queueServe => Sys2Proof.Machine.execQueueServe s
  | .queuePromotion x1 => Sys2Proof.Machine.execQueuePromotion x1 s
  | .distributorPreempt x1 => Sys2Proof.Machine.execDistributorPreempt x1 s
  | .heldPostEntry x1 => Sys2Proof.Machine.execHeldPostEntry x1 s
  | .gangComplete x1 x2 => Sys2Proof.Machine.execGangComplete x1 x2 s
  | .engineCredit x1 => Sys2Proof.Machine.execEngineCredit x1 s
  | .barrierAgeExpiry x1 => Sys2Proof.Machine.execBarrierAgeExpiry x1 s
  | .copyChunkDone x1 x2 => Sys2Proof.Machine.execCopyChunkDone x1 x2 s
  | .transferPage x1 x2 => Sys2Proof.Machine.execTransferPage x1 x2 s
  | .protect x1 x2 => Sys2Proof.Machine.execProtect x1 x2 s
  | .matrixExecute x1 x2 => Sys2Proof.Machine.execMatrixExecute x1 x2 s
  | .configPeriod x1 => Sys2Proof.Machine.execConfigPeriod x1 s
  | .contextFire x1 x2 => Sys2Proof.Machine.execContextFire x1 x2 s
  | .inputPortEmit x1 x2 => Sys2Proof.Machine.execInputPortEmit x1 x2 s
  | .outputPortCommit x1 x2 => Sys2Proof.Machine.execOutputPortCommit x1 x2 s
  | .reweight x1 x2 => Sys2Proof.Machine.execReweight x1 x2 s
  | .blockedEdge x1 x2 => Sys2Proof.Machine.execBlockedEdge x1 x2 s
  | .faultRecordEntry x1 x2 => Sys2Proof.Machine.execFaultRecordEntry x1 x2 s
  | .retire x1 => Sys2Proof.Machine.execRetire x1 s
  | .abandon x1 => Sys2Proof.Machine.execAbandon x1 s
  | .preemptRequest x1 x2 => Sys2Proof.Machine.execPreemptRequest x1 x2 s
  | .preemptSave x1 x2 => Sys2Proof.Machine.execPreemptSave x1 x2 s
  | .gangRestore x1 x2 => Sys2Proof.Machine.execGangRestore x1 x2 s
  | .saveadd x1 x2 => Sys2Proof.Machine.execSaveadd x1 x2 s
  | .hotpageWindow x1 => Sys2Proof.Machine.execHotpageWindow x1 s
  | .pageMigration x1 => Sys2Proof.Machine.execPageMigration x1 s
  | .crossDieWriteApply x1 => Sys2Proof.Machine.execCrossDieWriteApply x1 s
  | .collectiveStep x1 => Sys2Proof.Machine.execCollectiveStep x1 s
  | .squareTimeout x1 => Sys2Proof.Machine.execSquareTimeout x1 s
  | .repartitionExchange x1 => Sys2Proof.Machine.execRepartitionExchange x1 s
  | .setRelease x1 => Sys2Proof.Machine.execSetRelease x1 s
  | .post x1 => Sys2Proof.Machine.execPost x1 s
  | .copy x1 => Sys2Proof.Machine.execCopy x1 s
  | .hostDmaFault x1 => Sys2Proof.Machine.execHostDmaFault x1 s
  | .hdfrctlRetry x1 => Sys2Proof.Machine.execHdfrctlRetry x1 s
  | .hdfrctlAbort x1 => Sys2Proof.Machine.execHdfrctlAbort x1 s
  | .ident x1 => Sys2Proof.Machine.execIdent x1 s
  | .setrank x1 => Sys2Proof.Machine.execSetrank x1 s
  | .mgmtFence x1 => Sys2Proof.Machine.execMgmtFence x1 s
  | .mgmtRepair x1 => Sys2Proof.Machine.execMgmtRepair x1 s
  | .replist x1 => Sys2Proof.Machine.execReplist x1 s
  | .attest x1 => Sys2Proof.Machine.execAttest x1 s
  | .fwstage x1 => Sys2Proof.Machine.execFwstage x1 s
  | .powercap x1 => Sys2Proof.Machine.execPowercap x1 s
  | .test x1 => Sys2Proof.Machine.execTest x1 s
  | .mgmtReset x1 => Sys2Proof.Machine.execMgmtReset x1 s
  | .telem x1 => Sys2Proof.Machine.execTelem x1 s
  | .packageReset => Sys2Proof.Machine.execPackageReset s
  | .thermalThrottle => Sys2Proof.Machine.execThermalThrottle s
  | .thermalShutdown => Sys2Proof.Machine.execThermalShutdown s
  | .fetchFault => Sys2Proof.Machine.execFetchFault s
  | .hostDmaComplete x1 => Sys2Proof.Machine.execHostDmaComplete x1 s

end Sys2Proof.Machine
end

