-- ==== Sys2Proof/Machine/Moves.lean ====
section
/-! DEFINITION. What a hart does next: an interrupt, or its next word once its registers' parity holds (03 R52, R63; 16 R322, R335). -/

namespace Sys2Proof.Machine

/-- What an agent does in its step. -/
inductive Move
  | idle
  | run (i : Instr)
  /-- An act of the outside. -/
  | outside (i : Instr)
  | agent (e : Event)
  | trap (t : Trap)
  /-- Two failing slices of a vector register (R335). -/
  | freeze (reg : Nat)
  deriving DecidableEq, Repr

/-! ## Register parity (R335) -/

/-- The guard governs the instruction: all that write vector elements or predicate bits one by one, and the batches; not `vext`, `vcomp`,
`vexpd` and the scalar atomics (R60, R118, R121, R163). -/
def guarded (w : Nat) (i : Instr) : Bool :=
  let op := w / 2 ^ 26
  match i with
  | .vext .. | .vcomp .. | .vexpd .. => false
  | _ => (0x1B ≤ op && op ≤ 0x24) || op = 0x29 || op = 0x2A

/-- Predicate registers read, the guard among them. -/
def guardReads (h : Hart) (w : Nat) (i : Instr) : List Nat :=
  (if guarded w i && h.guard ≠ 63 then [h.guard] else []) ++ (predReads i).map (·.toNat)

/-- Scalar registers read: s[d] among them where `step` goes on with an arrival it has made (R160). -/
def Hart.scalarReads (h : Hart) (i : Instr) : List SReg :=
  match i with
  | .step d a => if bit h.stepArr 0 then [d, a] else [a]
  | _ => Machine.scalarReads i

/-- The failing slices of a vector register. -/
def Hart.badSlices (h : Hart) (r : Nat) : List Nat := ((h.vParity.filter (fun p => p.1 = r)).map (·.2)).eraseDups

/-- One failing slice rebuilt: RFCORR counts it, and the register is whole again. -/
def Hart.rebuild (h : Hart) (r : Nat) : Hart :=
  if h.badSlices r = [] then h
  else { h with vParity := h.vParity.filter (fun p => p.1 ≠ r), rfCorr := word (min 0xFFFFFFFF (h.rfCorr.toNat + 1)) }

/-- The word traps before its registers are read: it is undefined outside test mode, or its level does not allow it (R22, R57). -/
def State.turnedAway (s : State) (w : Nat) (i : Instr) : Bool :=
  undefinedHere s w || (!s.hart.sup && (w / 2 ^ 26 = 0x3F || match i with
    | .tlbinv .. | .cinval .. => true
    | .mts _ n | .mset _ n | .mclr _ n => 0x100 ≤ n.toNat && n.toNat ≤ 0x1FF
    | _ => false))

/-- The move once the registers that the instruction reads have been checked. -/
def State.parityMove (s : State) (w : Nat) (i : Instr) : Move × State :=
  let h := s.hart
  if s.turnedAway w i then (.run i, s)
  else match (h.scalarReads i).find? (fun r => h.sParity.contains r.toNat) with
  | some r => (.trap ⟨cMachine, word (2 ^ 63 + r.toNat), 0⟩, s)
  | none =>
    match (guardReads h w i).find? (fun r => h.pParity.contains r) with
    | some r => (.trap ⟨cMachine, word (2 ^ 63 + 256 + r), 0⟩, s)
    | none =>
      let vs := ((vectorReads i).flatMap (pairOf h)).eraseDups
      match vs.find? (fun r => 2 ≤ (h.badSlices r).length) with
      | some r => (.freeze r, s)
      | none => if h.vParity = [] then (.run i, s) else (.run i, s.onHart (fun h => vs.foldl Hart.rebuild h))

/-! ## The next word -/

/-- What may go on while stores of the hart wait at other dies: words that make no write but a scalar store's, and the fences that hold back no
access but a later store's, or that no store to another die concerns (R95, R202, R203; log 24). -/
def goesOn (w : Nat) : Bool :=
  let op := w / 2 ^ 26
  op ≤ 0x15 || op = 0x19 || (0x1B ≤ op && op ≤ 0x1F) ||
    (match decodeWord w with
     | .ok (.fenceAcq _) | .ok (.fenceRel _) | .ok (.fenceFull .hart) => true
     | _ => false)

/-- The move that a word asks for; in a resumed convoy a forbidden word traps (R63). -/
def State.moveOf (s : State) (resumed : Option Nat) (w : Nat) : Move × State :=
  if !goesOn w && s.ownPending ≠ [] then (.idle, s)
  else
    match decodeWord w with
    | .error _ => (.run (.illegalInsn (word w)), s)
    | .ok j =>
      match resumed with
      | some pos =>
        if forbiddenMajor (w / 2 ^ 26) then (.trap ⟨cConvoy, word (5 * 16 + pos), 0⟩, s) else s.parityMove w j
      | none => s.parityMove w j

/-- The instruction that the acting hart waits in. -/
def Hart.waiting (h : Hart) : Option Instr := h.block.bind (·.instr)

/-- The move of a hart that waits in no instruction: its next word. -/
def State.nextWord (s : State) : Move × State :=
  let fresh := fun (resumed : Option Nat) =>
    match s.fetchAt s.hart.pc with
    | (.word w, s) => s.moveOf resumed w
    | (.fault _, _) => (.run .fetchFault, s)
    | (.hold, s) => (.idle, s)
  match s.hart.conv with
  | some ⟨_, _, w :: _⟩ => s.moveOf none w
  | some ⟨_, pos, []⟩ => fresh (some pos)
  | none => fresh none

/-- The acting hart's move: an interrupt at a convoy boundary, the instruction that it waits in, else its next word. -/
def State.hartMove (s : State) : Move × State :=
  if s.hart.run ≠ .running || s.hart.retired then (.idle, s)
  else if s.takesInterrupt s.cur then (.run .interruptEntry, s)
  else match s.hart.waiting with
    | some i => (.run i, s)
    | none => match s.nextWord with
      | (.idle, t) => (.idle, s.withCounts t)
      | r => r

/-- The move of the step. -/
def State.move (s : State) : Move × State :=
  match s.turn with
  | .idle => (.idle, s)
  | .event e => (.agent e, s)
  | .input =>
    match s.inputs with
    | [] => (.idle, s)
    | e :: rest => (.outside e, { s with inputs := rest })
  | .hart h => State.hartMove { s with cur := h }

end Sys2Proof.Machine
end

