-- ==== Sys2Proof/Machine/Schedule.lean ====
section
/-! DEFINITION. What may come next (log 8): the harts that run, the agents' own steps that the state offers, and the outside's next act.
A free value of Config picks one. A step that proves not to be enabled changes nothing. -/

namespace Sys2Proof.Machine

/-- Harts that execute. -/
def State.runnable (s : State) : List Turn :=
  (s.harts.filter (fun p => p.2.run = .running && !p.2.retired)).map (fun p => Turn.hart p.1)

/-- The steps that the queues and the scheduler offer. -/
def State.queueEvents (s : State) : List Event :=
  let qs := (s.sched.queues.filter (fun p => p.2.en && (p.2.front ≠ [] || p.2.qrd < p.2.qwr))).map (·.1)
  (if qs = [] then [] else [Event.queueServe]) ++ qs.flatMap (fun q => [.queuePromotion q, .distributorPreempt q])

/-- Those of a core's gangs. -/
def Core.gangEvents (core : Nat) (c : Core) : List Event :=
  c.gangs.flatMap (fun p => match p.2 with
    | none => []
    | some g => match g.state with
      | .running => [.gangComplete core p.1]
      | .stopping => [.preemptSave core p.1]
      | .saved => [.gangRestore core p.1])

/-- Those of a core's copy and matrix engines, barriers and fault records. -/
def Core.engineEvents (core : Nat) (c : Core) : List Event :=
  (if c.credits = [] then [] else [Event.engineCredit core]) ++
  (((c.copies.map (·.hart)).eraseDups).flatMap (fun h => [.copyChunkDone core h, .transferPage core h, .protect core h])) ++
  ((List.range c.mats.length).map (fun k => .matrixExecute core k)) ++
  (if c.records = [] then [] else [.faultRecordEntry (core / 64) (core % 64)])

/-- Those of a core's stage fabric. -/
def Fabric.events (core : Nat) (f : Fabric) : List Event :=
  let cs := (f.prog.map (·.ctxs)).getD []
  (if f.cmds = [] then [] else [Event.configPeriod core]) ++
  cs.flatMap (fun e => [.contextFire core (e.node * 4 + e.ctx), .inputPortEmit core e.node, .reweight core e.node]) ++
  (if f.launches = [] then [] else ((0 :: cs.map (·.node)).eraseDups).map (fun p => .outputPortCommit core p)) ++
  f.chans.map (fun p => .blockedEdge core p.1)

/-- Those of a die. -/
def Die.events (die : Nat) (d : Die) : List Event :=
  (if d.held = [] then [] else [Event.heldPostEntry die]) ++ (if d.records = [] then [] else [.faultRecordEntry die 48]) ++
  (if d.trackEn then [.hotpageWindow die] else []) ++ (if d.candidates = [] then [] else [.pageMigration die]) ++
  (if d.pending = [] then [] else [.crossDieWriteApply die]) ++
  ((List.range 3).filter (fun k => 16 ≤ d.linkFails.getD k 0)).map (fun k => .linkDown (3 * die + k))

/-- The arrival of a message of this package's own, or of one that waits in turn, under the name of its kind. -/
def arrival (m : Msg) : Event :=
  match m.kind with
  | .contribution => .squareContribution m
  | .abortNotice => .abortNoticeArrival m
  | .joinNotice => .joinNoticeArrival m
  | .block => .rotationLanding m
  | _ => .messageArrival m

/-- Those of the collective engine and the Square. -/
def Coll.events (c : Coll) : List Event :=
  (match c.loop with | [] => [] | m :: _ => [arrival m]) ++
  (c.reorder.filter (fun m => m.seq = SMap.get 0 c.gotFrom m.src)).map arrival ++ c.unsent.map Event.messageForward ++ c.slots.map (fun p => .squareTimeout p.1) ++
  (c.portFails.filter (fun p => 16 ≤ p.2)).map (fun p => .portDown p.1) ++
  c.regs.flatMap (fun p => match p.2 with
    | none => []
    | some r => (match r.inst with | none => [] | some _ => [.collectiveStep p.1, .repartitionExchange p.1]) ++
        (match r.rot with | none => [] | some x => (List.range x.sets.length).map (fun j => .setRelease (p.1 * 8 + j))))

/-- Those of the submission rings and the host DMA engine. -/
def HostBlk.events (h : HostBlk) : List Event :=
  (h.rings.filter (fun p => p.2.en && p.2.rd < p.2.wr)).flatMap (fun p =>
    [Event.post p.1, .copy p.1, .ident p.1, .setrank p.1, .mgmtFence p.1, .mgmtRepair p.1, .replist p.1, .attest p.1, .fwstage p.1
     , .powercap p.1, .test p.1, .mgmtReset p.1, .telem p.1]) ++
  h.dmas.flatMap (fun d => [.hostDmaComplete d.id, .hostDmaFault d.id])

/-- Harts whose wait has an age. -/
def State.ageEvents (s : State) : List Event := (s.harts.filter (fun p => p.2.block.isSome)).map (fun p => .barrierAgeExpiry p.1)

/-- The agents' own steps on offer. -/
def State.events (s : State) : List Event :=
  s.queueEvents ++ s.ageEvents ++ s.cores.flatMap (fun p => p.2.gangEvents p.1 ++ p.2.engineEvents p.1 ++ p.2.fab.events p.1) ++
  s.dies.flatMap (fun p => p.2.events p.1) ++ s.coll.events ++ s.host.events

/-- Every move on offer. -/
def State.candidates (s : State) : List Turn :=
  s.runnable ++ s.events.map Turn.event ++ (if s.inputs = [] then [] else [Turn.input])

/-- The next mover. -/
def State.choose (s : State) : Turn :=
  match s.candidates with
  | [] => .idle
  | [t] => t
  | ts => ts.getD (Config.schedule s.clock.tick % ts.length) .idle

/-- The end of a step: time passes, a line may leave a scalar cache, and the next mover is chosen (log 8, 9, 11). -/
def State.finish (s : State) : State :=
  { s.mayEvict with
    turn := s.choose
    clock := { cycle := s.clock.cycle + Config.cycles s.clock.tick
               time := s.clock.time + Config.nanos s.clock.tick
               tick := s.clock.tick + 1 } }

/-- The end of a step, whatever it answered. -/
def finishStep : Result → Result
  | .next s => .next s.finish
  | .fault f => .fault f
  | .refused r => .refused r

/-! A program placed for the next fetch (log 17). -/

/-- The page of the PC mapped to HBM frame 0 by range entry 0 of the hart's core, for any level, read and execute. -/
def mapFrame (h : Hart) (c : Core) : Core :=
  let base := word (h.pc.toNat / 4096 * 4096)
  let attr := word (0x35 + h.ctx % 65536 * 2 ^ 32)
  { c with ranges := SMap.set 0 (SMap.set 0 (SMap.set 0 (SMap.set 0 c.ranges 0 base) 1 (base + 4096)) 2 0) 3 attr }

/-- A word laid where the next step fetches it. -/
def State.placeWord (s : State) (w : Nat) : State :=
  let quiet := s.takesInterrupt s.cur
  let s := s.onHart (fun h =>
    { h with run := .running, retired := false, conv := none, block := none
             status := if quiet then h.status &&& ~~~2#64 else h.status })
  let s := s.onCore (mapFrame s.hart)
  let s := s.onDieAt 0 (fun d => { d with fenced := false })
  { s with
    turn := .hart s.cur
    host := { s.host with hbm := s.host.hbm ||| 1#64 }
    mem := { s.mem with cells := s.mem.cells.writeN (s.hart.pc.toNat % 4096) 4 w
                        poison := SMap.set false s.mem.poison (s.hart.pc.toNat % 4096 / 16) false } }

end Sys2Proof.Machine
end

