-- ==== Sys2Proof/Machine/Step.lean ====
section
/-! DEFINITION. One step of the package: a hart's next instruction, an agent's own step, or an act of the outside (log 8). -/

namespace Sys2Proof.Machine

/-- One step. After a thermal shutdown there is none (R425). -/
def step (s : State) : Host.Outcome State Fault Refusal :=
  if s.off then .fault .shutDown
  else
    match s.move with
    | (.idle, s) => finishStep (heedStop s (.next s))
    | (.trap t, s) => finishStep (heedStop s (.next (takeTrap t s)))
    | (.freeze r, s) => .next (freeze s.cur 3 0 r s).finish
    | (.agent e, s) => finishStep (runEvent e s)
    | (.outside i, s) => finishStep (exec i s)
    | (.run i, s) => finishStep (heedStop s (keepInstr i s (exec i s)))

/-- The state with a word laid where `step` fetches its next instruction. -/
def State.withFetchWord (s : State) (nbits w : Nat) : State := s.placeWord (w % 2 ^ nbits)

end Sys2Proof.Machine
end

