-- ==== Sys2Proof/Laws/Decode.lean ====
section
/-! SUPPORT. What the fields of an encoded word are, format by format, and what the decoder's field readers answer on them. -/

-- one theorem at a time: many at once would each hold a thread's stack
set_option Elab.async false

namespace Sys2Proof

theorem decodeWord_of_major {w op : Nat} (h : w / 67108864 % 64 = op) : decodeWord w = decodeMajor op w := by subst h; rfl

/-! ## Field readers -/

@[simp] theorem scalarF_toNat (r : SReg) : scalarF r.toNat = .ok r := by
  have h : r.toNat < 32 := r.isLt
  simp [scalarF, h]
@[simp] theorem predF_toNat (r : PReg) (h : r.toNat < 48) : predF r.toNat = .ok r := by simp [predF, h]
@[simp] theorem vecF_toNat (r : VReg) : vecF r.toNat = .ok r := by simp [vecF]
@[simp] theorem unusedF_zero : unusedF 0 = .ok () := rfl
@[simp] theorem vOrSF_field (x : VOrS) : vOrSF (x.x == 1) x.field = .ok x := by
  cases x <;> simp [vOrSF, VOrS.x, VOrS.field, Except.map]
@[simp] theorem guardF_toNat (r : PReg) (h : r.toNat < 48 ∨ r.toNat = 63) : guardF r.toNat = .ok r := by
  simp [guardF, h]
@[simp] theorem rndF_code (r : Rnd) : rndF r.code = .ok r := by cases r <;> rfl
@[simp] theorem ldSizeF_code (r : LdSize) : ldSizeF r.code = .ok r := by cases r <;> rfl
@[simp] theorem stSizeF_code (r : StSize) : stSizeF r.code = .ok r := by cases r <;> rfl
@[simp] theorem condF_code (r : BrCond) : condF r.code = .ok r := by cases r <;> rfl
@[simp] theorem scopeF_code (r : Scope) : scopeF r.code = .ok r := by cases r <;> rfl
@[simp] theorem cmpF_code (r : CmpOp) : cmpF r.code = .ok r := by cases r <;> rfl
@[simp] theorem orderF_code (r : AmoOrder) : orderF r.code = r := by cases r <;> rfl

theorem Rnd.code_lt (r : Rnd) : r.code < 8 := by cases r <;> decide
theorem LdSize.code_lt (r : LdSize) : r.code < 8 := by cases r <;> decide
theorem StSize.code_lt (r : StSize) : r.code < 8 := by cases r <;> decide
theorem BrCond.code_lt (r : BrCond) : r.code < 8 := by cases r <;> decide
theorem Scope.code_lt (r : Scope) : r.code < 8 := by cases r <;> decide
theorem CmpOp.code_lt (r : CmpOp) : r.code < 8 := by cases r <;> decide
theorem AmoOrder.code_lt (r : AmoOrder) : r.code < 4 := by cases r <;> decide
theorem VOrS.field_lt (x : VOrS) : x.field < 64 := by
  cases x with
  | v r => exact r.isLt
  | s r => exact Nat.lt_trans r.isLt (by decide)
theorem VOrS.x_lt (x : VOrS) : x.x < 2 := by cases x <;> simp [VOrS.x]

/-! ## Formats (R53) -/

section
variable {op d a b c fn : Nat}

theorem encR_lt (ho : op < 64) (hd : d < 64) (ha : a < 64) (hb : b < 64) (hf : fn < 256) : encR op d a b fn < 2 ^ 32 := by
  unfold encR; omega
theorem encR_op (ho : op < 64) (hd : d < 64) (ha : a < 64) (hb : b < 64) (hf : fn < 256) :
    encR op d a b fn / 67108864 % 64 = op := by unfold encR; omega
theorem encR_d (hd : d < 64) (ha : a < 64) (hb : b < 64) (hf : fn < 256) : encR op d a b fn / 1048576 % 64 = d := by
  unfold encR; omega
theorem encR_a (ha : a < 64) (hb : b < 64) (hf : fn < 256) : encR op d a b fn / 16384 % 64 = a := by unfold encR; omega
theorem encR_b (hb : b < 64) (hf : fn < 256) : encR op d a b fn / 256 % 64 = b := by unfold encR; omega
theorem encR_fn (hf : fn < 256) : encR op d a b fn % 256 = fn := by unfold encR; omega

theorem encI_op {k : Nat} (ho : op < 64) (hd : d < 64) (ha : a < 64) (hk : k < 16384) : encI op d a k / 67108864 % 64 = op := by
  unfold encI; omega
theorem encI_d {k : Nat} (hd : d < 64) (ha : a < 64) (hk : k < 16384) : encI op d a k / 1048576 % 64 = d := by unfold encI; omega
theorem encI_a {k : Nat} (ha : a < 64) (hk : k < 16384) : encI op d a k / 16384 % 64 = a := by unfold encI; omega
theorem encI_imm {k : Nat} (hk : k < 16384) : encI op d a k % 16384 = k := by unfold encI; omega

theorem encQ_eq : encQ op d a b c fn = encR op d a b (c * 4 + fn) := by unfold encQ encR; omega
theorem encB_eq {o : Nat} : encB op a b c o = encI op a b (c * 2048 + o) := by unfold encB encI; omega

end

end Sys2Proof
end

