-- ==== Sys2Proof/Laws/Store.lean ====
section
/-! SUPPORT. Laws of sparse maps and of memory: read after write, a write elsewhere, the canonical form kept, ranges of bytes. -/

-- one theorem at a time: many at once would each hold a thread's stack
set_option Elab.async false

namespace Sys2Proof.Machine

variable {α : Type}

/-! ## One key -/

theorem SMap.get_erase_self (d : α) (m : SMap α) (k : Nat) : (SMap.erase m k).get d k = d := by
  induction m with
  | nil => rfl
  | cons p m ih =>
    obtain ⟨j, x⟩ := p
    by_cases h : j = k <;> simp [SMap.erase, SMap.get, h, ih]

theorem SMap.get_erase_ne (d : α) (m : SMap α) {j k : Nat} (h : j ≠ k) : (SMap.erase m k).get d j = SMap.get d m j := by
  induction m with
  | nil => rfl
  | cons p m ih =>
    obtain ⟨i, x⟩ := p
    by_cases hk : i = k
    · have : i ≠ j := fun e => h (e ▸ hk)
      simp [SMap.erase, SMap.get, hk, ih]
      intro e; exact absurd e.symm h
    · simp [SMap.erase, SMap.get, hk, ih]

theorem SMap.get_insert_self (d : α) (m : SMap α) (k : Nat) (x : α) (h : ∀ p ∈ m, p.1 ≠ k) : (SMap.insert m k x).get d k = x := by
  induction m with
  | nil => simp [SMap.insert, SMap.get]
  | cons p m ih =>
    obtain ⟨j, y⟩ := p
    have hj : j ≠ k := h (j, y) (by simp)
    by_cases hk : k < j
    · simp [SMap.insert, SMap.get, hk]
    · simp [SMap.insert, SMap.get, hk, hj, ih (fun p hp => h p (by simp [hp]))]

theorem SMap.get_insert_ne (d : α) (m : SMap α) {j k : Nat} (x : α) (h : j ≠ k) : (SMap.insert m k x).get d j = SMap.get d m j := by
  induction m with
  | nil => simp [SMap.insert, SMap.get, h.symm]
  | cons p m ih =>
    obtain ⟨i, y⟩ := p
    by_cases hk : k < i
    · simp [SMap.insert, SMap.get, hk, h.symm]
    · simp [SMap.insert, SMap.get, hk, ih]

theorem SMap.erase_key_ne (m : SMap α) (k : Nat) : ∀ p ∈ SMap.erase m k, p.1 ≠ k := by
  induction m with
  | nil => simp [SMap.erase]
  | cons p m ih =>
    obtain ⟨j, y⟩ := p
    by_cases h : j = k
    · simpa [SMap.erase, h] using ih
    · intro q hq
      simp only [SMap.erase, h, if_false, List.mem_cons] at hq
      rcases hq with rfl | hq
      · exact h
      · exact ih q hq

/-- Reading a key that has been set gives what it was set to. -/
@[simp] theorem SMap.get_set_self [DecidableEq α] (d : α) (m : SMap α) (k : Nat) (x : α) : (SMap.set d m k x).get d k = x := by
  unfold SMap.set
  split
  · subst x; exact SMap.get_erase_self d m k
  · exact SMap.get_insert_self d _ k x (SMap.erase_key_ne m k)

/-- Setting a key leaves every other key alone. -/
@[simp] theorem SMap.get_set_ne [DecidableEq α] (d : α) (m : SMap α) {j k : Nat} (x : α) (h : j ≠ k) :
    (SMap.set d m k x).get d j = SMap.get d m j := by
  unfold SMap.set
  split
  · exact SMap.get_erase_ne d m h
  · rw [SMap.get_insert_ne d _ x h, SMap.get_erase_ne d m h]

theorem SMap.get_set [DecidableEq α] (d : α) (m : SMap α) (j k : Nat) (x : α) :
    (SMap.set d m k x).get d j = if j = k then x else SMap.get d m j := by
  by_cases h : j = k
  · simp [h]
  · simp [h]

/-! ## The canonical form -/

theorem SMap.wfFrom_mono [DecidableEq α] (d : α) (m : SMap α) {lo lo' : Nat} (hl : lo' ≤ lo) (h : SMap.wfFrom d lo m = true) :
    SMap.wfFrom d lo' m = true := by
  cases m with
  | nil => rfl
  | cons p m =>
    obtain ⟨k, x⟩ := p
    simp only [SMap.wfFrom, Bool.and_eq_true, decide_eq_true_eq] at h ⊢
    exact ⟨⟨by omega, h.1.2⟩, h.2⟩

theorem SMap.wfFrom_erase [DecidableEq α] (d : α) (m : SMap α) (k : Nat) : ∀ lo, SMap.wfFrom d lo m = true →
    SMap.wfFrom d lo (SMap.erase m k) = true := by
  induction m with
  | nil => intro lo h; exact h
  | cons p m ih =>
    obtain ⟨j, y⟩ := p
    intro lo h
    simp only [SMap.wfFrom, Bool.and_eq_true, decide_eq_true_eq] at h
    by_cases e : j = k
    · simp only [SMap.erase, e, if_true]
      exact SMap.wfFrom_mono d _ (by omega) (ih _ h.2)
    · simp only [SMap.erase, e, if_false, SMap.wfFrom, Bool.and_eq_true, decide_eq_true_eq]
      exact ⟨h.1, ih _ h.2⟩

theorem SMap.wfFrom_insert [DecidableEq α] (d : α) (m : SMap α) (k : Nat) (x : α) (hx : x ≠ d) (hk : ∀ p ∈ m, p.1 ≠ k) :
    ∀ lo, lo ≤ k → SMap.wfFrom d lo m = true → SMap.wfFrom d lo (SMap.insert m k x) = true := by
  induction m with
  | nil => intro lo hl _; simp [SMap.insert, SMap.wfFrom, hl, hx]
  | cons p m ih =>
    obtain ⟨j, y⟩ := p
    intro lo hl h
    simp only [SMap.wfFrom, Bool.and_eq_true, decide_eq_true_eq] at h
    have hj : j ≠ k := hk (j, y) (by simp)
    by_cases e : k < j
    · simp only [SMap.insert, e, if_true, SMap.wfFrom, Bool.and_eq_true, decide_eq_true_eq]
      exact ⟨⟨hl, hx⟩, ⟨⟨by omega, h.1.2⟩, h.2⟩⟩
    · simp only [SMap.insert, e, if_false, SMap.wfFrom, Bool.and_eq_true, decide_eq_true_eq]
      exact ⟨h.1, ih (fun p hp => hk p (by simp [hp])) _ (by omega) h.2⟩

/-- Setting a key keeps the canonical form. -/
theorem SMap.wf_set [DecidableEq α] (d : α) (m : SMap α) (k : Nat) (x : α) (h : SMap.wf d m = true) : SMap.wf d (SMap.set d m k x) = true := by
  unfold SMap.set
  split
  · exact SMap.wfFrom_erase d m k 0 h
  · exact SMap.wfFrom_insert d _ k x ‹_› (SMap.erase_key_ne m k) 0 (Nat.zero_le _) (SMap.wfFrom_erase d m k 0 h)

theorem SMap.wfFrom_filter [DecidableEq α] (d : α) (f : Nat × α → Bool) (m : SMap α) : ∀ lo, SMap.wfFrom d lo m = true →
    SMap.wfFrom d lo (m.filter f) = true := by
  induction m with
  | nil => intro lo h; exact h
  | cons p m ih =>
    obtain ⟨j, y⟩ := p
    intro lo h
    simp only [SMap.wfFrom, Bool.and_eq_true, decide_eq_true_eq] at h
    by_cases e : f (j, y) = true
    · simp only [List.filter_cons, e, if_true, SMap.wfFrom, Bool.and_eq_true, decide_eq_true_eq]
      exact ⟨h.1, ih _ h.2⟩
    · simp only [List.filter_cons, e]
      exact SMap.wfFrom_mono d _ (by omega) (ih _ h.2)

/-- Dropping entries keeps the canonical form. -/
theorem SMap.wf_filter [DecidableEq α] (d : α) (f : Nat × α → Bool) (m : SMap α) (h : SMap.wf d m = true) :
    SMap.wf d (m.filter f) = true := SMap.wfFrom_filter d f m 0 h

/-! ## Memory -/

/-- A byte read where it was written. -/
@[simp] theorem Memory.read_write_self (m : Memory) (a : Nat) (b : Byte) : (m.write a b).read a = b := SMap.get_set_self _ _ _ _

/-- A byte read elsewhere. -/
@[simp] theorem Memory.read_write_ne (m : Memory) {a c : Nat} (b : Byte) (h : c ≠ a) : (m.write a b).read c = m.read c :=
  SMap.get_set_ne _ _ _ h

theorem Memory.wf_write (m : Memory) (a : Nat) (b : Byte) (h : m.wf = true) : (m.write a b).wf = true := SMap.wf_set _ _ _ _ h

theorem Memory.wf_writeBytes (bs : List Byte) : ∀ (m : Memory) (a : Nat), m.wf = true → (m.writeBytes a bs).wf = true := by
  induction bs with
  | nil => intro m a h; exact h
  | cons b bs ih => intro m a h; exact ih _ _ (m.wf_write a b h)

theorem Memory.wf_writeN : ∀ (n : Nat) (m : Memory) (a x : Nat), m.wf = true → (m.writeN a n x).wf = true
  | 0, _, _, _, h => h
  | n + 1, m, a, _, h => Memory.wf_writeN n _ _ _ (m.wf_write a _ h)

theorem Memory.wf_clear (m : Memory) (lo hi : Nat) (h : m.wf = true) : (m.clear lo hi).wf = true := SMap.wf_filter _ _ _ h

/-- A byte outside the bytes written. -/
theorem Memory.read_writeBytes_out (bs : List Byte) : ∀ (m : Memory) (a c : Nat), c < a ∨ a + bs.length ≤ c →
    (m.writeBytes a bs).read c = m.read c := by
  induction bs with
  | nil => intro m a c _; rfl
  | cons b bs ih =>
    intro m a c h
    simp only [List.length_cons] at h
    rw [Memory.writeBytes, ih _ _ _ (by omega), Memory.read_write_ne _ _ (by omega)]

/-- A byte among the bytes written. -/
theorem Memory.read_writeBytes_in (bs : List Byte) : ∀ (m : Memory) (a i : Nat) (h : i < bs.length),
    (m.writeBytes a bs).read (a + i) = bs[i] := by
  induction bs with
  | nil => intro m a i h; simp at h
  | cons b bs ih =>
    intro m a i h
    cases i with
    | zero => rw [Memory.writeBytes, Memory.read_writeBytes_out _ _ _ _ (by omega)]; simp
    | succ i =>
      rw [Memory.writeBytes, show a + (i + 1) = a + 1 + i by omega, ih _ _ _ (by simpa using h)]; simp

/-- Bytes read back where they were written. -/
theorem Memory.bytes_writeBytes (m : Memory) (a : Nat) (bs : List Byte) : (m.writeBytes a bs).bytes a bs.length = bs := by
  induction bs generalizing m a with
  | nil => rfl
  | cons b bs ih =>
    simp only [Memory.writeBytes, List.length_cons, Memory.bytes]
    rw [ih, Memory.read_writeBytes_out _ _ _ _ (by omega)]
    simp

theorem Memory.bytes_length (m : Memory) (a n : Nat) : (m.bytes a n).length = n := by
  induction n generalizing a with
  | zero => rfl
  | succ n ih => simp [Memory.bytes, ih]

theorem natToBytes_length (n x : Nat) : (natToBytes n x).length = n := by
  induction n generalizing x with
  | zero => rfl
  | succ n ih => simp [natToBytes, ih]

/-- The low bytes of a number, put together again. -/
theorem bytesToNat_natToBytes (n x : Nat) : bytesToNat (natToBytes n x) = x % 256 ^ n := by
  induction n generalizing x with
  | zero => simp [natToBytes, bytesToNat, Nat.mod_one]
  | succ n ih =>
    have e : 256 ^ (n + 1) = 256 * 256 ^ n := Nat.pow_succ'
    rw [natToBytes, bytesToNat, ih, BitVec.toNat_ofNat, e, Nat.mod_mul]

theorem Memory.readN_eq_bytes (m : Memory) (a n : Nat) : m.readN a n = bytesToNat (m.bytes a n) := by
  induction n generalizing a with
  | zero => rfl
  | succ n ih => simp [Memory.readN, Memory.bytes, bytesToNat, ih]

theorem Memory.writeN_eq_writeBytes (n : Nat) : ∀ (m : Memory) (a x : Nat), m.writeN a n x = m.writeBytes a (natToBytes n x) := by
  induction n with
  | zero => intro m a x; rfl
  | succ n ih => intro m a x; simp [Memory.writeN, natToBytes, Memory.writeBytes, ih]

/-- A number read back where it was written. -/
theorem Memory.readN_writeN (m : Memory) (a n x : Nat) : (m.writeN a n x).readN a n = x % 256 ^ n := by
  have h := Memory.bytes_writeBytes m a (natToBytes n x)
  rw [natToBytes_length] at h
  rw [Memory.writeN_eq_writeBytes, Memory.readN_eq_bytes, h, bytesToNat_natToBytes]

end Sys2Proof.Machine
end

