-- ==== Sys2Proof/Laws/State.lean ====
section
/-! SUPPORT. One lemma per field and shared update of State and Hart: what an update leaves, and what it puts in its place. -/

-- one theorem at a time: many at once would each hold a thread's stack
set_option Elab.async false

namespace Sys2Proof.Machine

/-! ## Harts, cores and dies by number -/

@[simp] theorem State.hartAt_setHartAt_self (s : State) (n : Nat) (h : Hart) : (s.setHartAt n h).hartAt n = h := SMap.get_set_self _ _ _ _
@[simp] theorem State.hartAt_setHartAt_ne (s : State) {n k : Nat} (h : Hart) (e : k ≠ n) : (s.setHartAt n h).hartAt k = s.hartAt k :=
  SMap.get_set_ne _ _ _ e
@[simp] theorem State.hartAt_onHartAt_self (s : State) (n : Nat) (f : Hart → Hart) : (s.onHartAt n f).hartAt n = f (s.hartAt n) :=
  SMap.get_set_self _ _ _ _
@[simp] theorem State.hartAt_onHartAt_ne (s : State) {n k : Nat} (f : Hart → Hart) (e : k ≠ n) :
    (s.onHartAt n f).hartAt k = s.hartAt k := SMap.get_set_ne _ _ _ e
@[simp] theorem State.hart_onHart (s : State) (f : Hart → Hart) : (s.onHart f).hart = f s.hart := SMap.get_set_self _ _ _ _
@[simp] theorem State.hartAt_onHart_ne (s : State) (f : Hart → Hart) {k : Nat} (e : k ≠ s.cur) : (s.onHart f).hartAt k = s.hartAt k :=
  SMap.get_set_ne _ _ _ e
@[simp] theorem State.coreAt_onCoreAt_self (s : State) (n : Nat) (f : Core → Core) : (s.onCoreAt n f).coreAt n = f (s.coreAt n) :=
  SMap.get_set_self _ _ _ _
@[simp] theorem State.coreAt_onCoreAt_ne (s : State) {n k : Nat} (f : Core → Core) (e : k ≠ n) :
    (s.onCoreAt n f).coreAt k = s.coreAt k := SMap.get_set_ne _ _ _ e
@[simp] theorem State.dieAt_onDieAt_self (s : State) (n : Nat) (f : Die → Die) : (s.onDieAt n f).dieAt n = f (s.dieAt n) :=
  SMap.get_set_self _ _ _ _
@[simp] theorem State.dieAt_onDieAt_ne (s : State) {n k : Nat} (f : Die → Die) (e : k ≠ n) : (s.onDieAt n f).dieAt k = s.dieAt k :=
  SMap.get_set_ne _ _ _ e
@[simp] theorem State.hartAt_onCoreAt (s : State) (n k : Nat) (f : Core → Core) : (s.onCoreAt n f).hartAt k = s.hartAt k := rfl
@[simp] theorem State.hartAt_onDieAt (s : State) (n k : Nat) (f : Die → Die) : (s.onDieAt n f).hartAt k = s.hartAt k := rfl
@[simp] theorem State.hart_onCoreAt (s : State) (n : Nat) (f : Core → Core) : (s.onCoreAt n f).hart = s.hart := rfl
@[simp] theorem State.hart_onDieAt (s : State) (n : Nat) (f : Die → Die) : (s.onDieAt n f).hart = s.hart := rfl
@[simp] theorem State.coreAt_onHartAt (s : State) (n k : Nat) (f : Hart → Hart) : (s.onHartAt n f).coreAt k = s.coreAt k := rfl
@[simp] theorem State.coreAt_onHart (s : State) (k : Nat) (f : Hart → Hart) : (s.onHart f).coreAt k = s.coreAt k := rfl
@[simp] theorem State.coreAt_onDieAt (s : State) (n k : Nat) (f : Die → Die) : (s.onDieAt n f).coreAt k = s.coreAt k := rfl
@[simp] theorem State.dieAt_onHartAt (s : State) (n k : Nat) (f : Hart → Hart) : (s.onHartAt n f).dieAt k = s.dieAt k := rfl
@[simp] theorem State.dieAt_onHart (s : State) (k : Nat) (f : Hart → Hart) : (s.onHart f).dieAt k = s.dieAt k := rfl
@[simp] theorem State.dieAt_onCoreAt (s : State) (n k : Nat) (f : Core → Core) : (s.onCoreAt n f).dieAt k = s.dieAt k := rfl


/-! ## `State.setHartAt` -/

@[simp] theorem State.setHartAt_part (s : State) (n : Nat) (h : Hart) : (s.setHartAt n h).part = s.part := rfl
@[simp] theorem State.setHartAt_clock (s : State) (n : Nat) (h : Hart) : (s.setHartAt n h).clock = s.clock := rfl
@[simp] theorem State.setHartAt_turn (s : State) (n : Nat) (h : Hart) : (s.setHartAt n h).turn = s.turn := rfl
@[simp] theorem State.setHartAt_inputs (s : State) (n : Nat) (h : Hart) : (s.setHartAt n h).inputs = s.inputs := rfl
@[simp] theorem State.setHartAt_cur (s : State) (n : Nat) (h : Hart) : (s.setHartAt n h).cur = s.cur := rfl
@[simp] theorem State.setHartAt_mem (s : State) (n : Nat) (h : Hart) : (s.setHartAt n h).mem = s.mem := rfl
@[simp] theorem State.setHartAt_cores (s : State) (n : Nat) (h : Hart) : (s.setHartAt n h).cores = s.cores := rfl
@[simp] theorem State.setHartAt_dies (s : State) (n : Nat) (h : Hart) : (s.setHartAt n h).dies = s.dies := rfl
@[simp] theorem State.setHartAt_sched (s : State) (n : Nat) (h : Hart) : (s.setHartAt n h).sched = s.sched := rfl
@[simp] theorem State.setHartAt_coll (s : State) (n : Nat) (h : Hart) : (s.setHartAt n h).coll = s.coll := rfl
@[simp] theorem State.setHartAt_host (s : State) (n : Nat) (h : Hart) : (s.setHartAt n h).host = s.host := rfl
@[simp] theorem State.setHartAt_uid (s : State) (n : Nat) (h : Hart) : (s.setHartAt n h).uid = s.uid := rfl
@[simp] theorem State.setHartAt_off (s : State) (n : Nat) (h : Hart) : (s.setHartAt n h).off = s.off := rfl
@[simp] theorem State.setHartAt_outputs (s : State) (n : Nat) (h : Hart) : (s.setHartAt n h).outputs = s.outputs := rfl

/-! ## `State.onHartAt` -/

@[simp] theorem State.onHartAt_part (s : State) (n : Nat) (f : Hart → Hart) : (s.onHartAt n f).part = s.part := rfl
@[simp] theorem State.onHartAt_clock (s : State) (n : Nat) (f : Hart → Hart) : (s.onHartAt n f).clock = s.clock := rfl
@[simp] theorem State.onHartAt_turn (s : State) (n : Nat) (f : Hart → Hart) : (s.onHartAt n f).turn = s.turn := rfl
@[simp] theorem State.onHartAt_inputs (s : State) (n : Nat) (f : Hart → Hart) : (s.onHartAt n f).inputs = s.inputs := rfl
@[simp] theorem State.onHartAt_cur (s : State) (n : Nat) (f : Hart → Hart) : (s.onHartAt n f).cur = s.cur := rfl
@[simp] theorem State.onHartAt_mem (s : State) (n : Nat) (f : Hart → Hart) : (s.onHartAt n f).mem = s.mem := rfl
@[simp] theorem State.onHartAt_cores (s : State) (n : Nat) (f : Hart → Hart) : (s.onHartAt n f).cores = s.cores := rfl
@[simp] theorem State.onHartAt_dies (s : State) (n : Nat) (f : Hart → Hart) : (s.onHartAt n f).dies = s.dies := rfl
@[simp] theorem State.onHartAt_sched (s : State) (n : Nat) (f : Hart → Hart) : (s.onHartAt n f).sched = s.sched := rfl
@[simp] theorem State.onHartAt_coll (s : State) (n : Nat) (f : Hart → Hart) : (s.onHartAt n f).coll = s.coll := rfl
@[simp] theorem State.onHartAt_host (s : State) (n : Nat) (f : Hart → Hart) : (s.onHartAt n f).host = s.host := rfl
@[simp] theorem State.onHartAt_uid (s : State) (n : Nat) (f : Hart → Hart) : (s.onHartAt n f).uid = s.uid := rfl
@[simp] theorem State.onHartAt_off (s : State) (n : Nat) (f : Hart → Hart) : (s.onHartAt n f).off = s.off := rfl
@[simp] theorem State.onHartAt_outputs (s : State) (n : Nat) (f : Hart → Hart) : (s.onHartAt n f).outputs = s.outputs := rfl

/-! ## `State.onHart` -/

@[simp] theorem State.onHart_part (s : State) (f : Hart → Hart) : (s.onHart f).part = s.part := rfl
@[simp] theorem State.onHart_clock (s : State) (f : Hart → Hart) : (s.onHart f).clock = s.clock := rfl
@[simp] theorem State.onHart_turn (s : State) (f : Hart → Hart) : (s.onHart f).turn = s.turn := rfl
@[simp] theorem State.onHart_inputs (s : State) (f : Hart → Hart) : (s.onHart f).inputs = s.inputs := rfl
@[simp] theorem State.onHart_cur (s : State) (f : Hart → Hart) : (s.onHart f).cur = s.cur := rfl
@[simp] theorem State.onHart_mem (s : State) (f : Hart → Hart) : (s.onHart f).mem = s.mem := rfl
@[simp] theorem State.onHart_cores (s : State) (f : Hart → Hart) : (s.onHart f).cores = s.cores := rfl
@[simp] theorem State.onHart_dies (s : State) (f : Hart → Hart) : (s.onHart f).dies = s.dies := rfl
@[simp] theorem State.onHart_sched (s : State) (f : Hart → Hart) : (s.onHart f).sched = s.sched := rfl
@[simp] theorem State.onHart_coll (s : State) (f : Hart → Hart) : (s.onHart f).coll = s.coll := rfl
@[simp] theorem State.onHart_host (s : State) (f : Hart → Hart) : (s.onHart f).host = s.host := rfl
@[simp] theorem State.onHart_uid (s : State) (f : Hart → Hart) : (s.onHart f).uid = s.uid := rfl
@[simp] theorem State.onHart_off (s : State) (f : Hart → Hart) : (s.onHart f).off = s.off := rfl
@[simp] theorem State.onHart_outputs (s : State) (f : Hart → Hart) : (s.onHart f).outputs = s.outputs := rfl

/-! ## `State.onCoreAt` -/

@[simp] theorem State.onCoreAt_part (s : State) (n : Nat) (f : Core → Core) : (s.onCoreAt n f).part = s.part := rfl
@[simp] theorem State.onCoreAt_clock (s : State) (n : Nat) (f : Core → Core) : (s.onCoreAt n f).clock = s.clock := rfl
@[simp] theorem State.onCoreAt_turn (s : State) (n : Nat) (f : Core → Core) : (s.onCoreAt n f).turn = s.turn := rfl
@[simp] theorem State.onCoreAt_inputs (s : State) (n : Nat) (f : Core → Core) : (s.onCoreAt n f).inputs = s.inputs := rfl
@[simp] theorem State.onCoreAt_cur (s : State) (n : Nat) (f : Core → Core) : (s.onCoreAt n f).cur = s.cur := rfl
@[simp] theorem State.onCoreAt_mem (s : State) (n : Nat) (f : Core → Core) : (s.onCoreAt n f).mem = s.mem := rfl
@[simp] theorem State.onCoreAt_harts (s : State) (n : Nat) (f : Core → Core) : (s.onCoreAt n f).harts = s.harts := rfl
@[simp] theorem State.onCoreAt_dies (s : State) (n : Nat) (f : Core → Core) : (s.onCoreAt n f).dies = s.dies := rfl
@[simp] theorem State.onCoreAt_sched (s : State) (n : Nat) (f : Core → Core) : (s.onCoreAt n f).sched = s.sched := rfl
@[simp] theorem State.onCoreAt_coll (s : State) (n : Nat) (f : Core → Core) : (s.onCoreAt n f).coll = s.coll := rfl
@[simp] theorem State.onCoreAt_host (s : State) (n : Nat) (f : Core → Core) : (s.onCoreAt n f).host = s.host := rfl
@[simp] theorem State.onCoreAt_uid (s : State) (n : Nat) (f : Core → Core) : (s.onCoreAt n f).uid = s.uid := rfl
@[simp] theorem State.onCoreAt_off (s : State) (n : Nat) (f : Core → Core) : (s.onCoreAt n f).off = s.off := rfl
@[simp] theorem State.onCoreAt_outputs (s : State) (n : Nat) (f : Core → Core) : (s.onCoreAt n f).outputs = s.outputs := rfl

/-! ## `State.onCore` -/

@[simp] theorem State.onCore_part (s : State) (f : Core → Core) : (s.onCore f).part = s.part := rfl
@[simp] theorem State.onCore_clock (s : State) (f : Core → Core) : (s.onCore f).clock = s.clock := rfl
@[simp] theorem State.onCore_turn (s : State) (f : Core → Core) : (s.onCore f).turn = s.turn := rfl
@[simp] theorem State.onCore_inputs (s : State) (f : Core → Core) : (s.onCore f).inputs = s.inputs := rfl
@[simp] theorem State.onCore_cur (s : State) (f : Core → Core) : (s.onCore f).cur = s.cur := rfl
@[simp] theorem State.onCore_mem (s : State) (f : Core → Core) : (s.onCore f).mem = s.mem := rfl
@[simp] theorem State.onCore_harts (s : State) (f : Core → Core) : (s.onCore f).harts = s.harts := rfl
@[simp] theorem State.onCore_dies (s : State) (f : Core → Core) : (s.onCore f).dies = s.dies := rfl
@[simp] theorem State.onCore_sched (s : State) (f : Core → Core) : (s.onCore f).sched = s.sched := rfl
@[simp] theorem State.onCore_coll (s : State) (f : Core → Core) : (s.onCore f).coll = s.coll := rfl
@[simp] theorem State.onCore_host (s : State) (f : Core → Core) : (s.onCore f).host = s.host := rfl
@[simp] theorem State.onCore_uid (s : State) (f : Core → Core) : (s.onCore f).uid = s.uid := rfl
@[simp] theorem State.onCore_off (s : State) (f : Core → Core) : (s.onCore f).off = s.off := rfl
@[simp] theorem State.onCore_outputs (s : State) (f : Core → Core) : (s.onCore f).outputs = s.outputs := rfl

/-! ## `State.onDieAt` -/

@[simp] theorem State.onDieAt_part (s : State) (n : Nat) (f : Die → Die) : (s.onDieAt n f).part = s.part := rfl
@[simp] theorem State.onDieAt_clock (s : State) (n : Nat) (f : Die → Die) : (s.onDieAt n f).clock = s.clock := rfl
@[simp] theorem State.onDieAt_turn (s : State) (n : Nat) (f : Die → Die) : (s.onDieAt n f).turn = s.turn := rfl
@[simp] theorem State.onDieAt_inputs (s : State) (n : Nat) (f : Die → Die) : (s.onDieAt n f).inputs = s.inputs := rfl
@[simp] theorem State.onDieAt_cur (s : State) (n : Nat) (f : Die → Die) : (s.onDieAt n f).cur = s.cur := rfl
@[simp] theorem State.onDieAt_mem (s : State) (n : Nat) (f : Die → Die) : (s.onDieAt n f).mem = s.mem := rfl
@[simp] theorem State.onDieAt_harts (s : State) (n : Nat) (f : Die → Die) : (s.onDieAt n f).harts = s.harts := rfl
@[simp] theorem State.onDieAt_cores (s : State) (n : Nat) (f : Die → Die) : (s.onDieAt n f).cores = s.cores := rfl
@[simp] theorem State.onDieAt_sched (s : State) (n : Nat) (f : Die → Die) : (s.onDieAt n f).sched = s.sched := rfl
@[simp] theorem State.onDieAt_coll (s : State) (n : Nat) (f : Die → Die) : (s.onDieAt n f).coll = s.coll := rfl
@[simp] theorem State.onDieAt_host (s : State) (n : Nat) (f : Die → Die) : (s.onDieAt n f).host = s.host := rfl
@[simp] theorem State.onDieAt_uid (s : State) (n : Nat) (f : Die → Die) : (s.onDieAt n f).uid = s.uid := rfl
@[simp] theorem State.onDieAt_off (s : State) (n : Nat) (f : Die → Die) : (s.onDieAt n f).off = s.off := rfl
@[simp] theorem State.onDieAt_outputs (s : State) (n : Nat) (f : Die → Die) : (s.onDieAt n f).outputs = s.outputs := rfl

/-! ## Registers -/

@[simp] theorem Hart.sreg_zero (h : Hart) : h.sreg 0#5 = 0 := rfl
theorem Hart.sreg_setS (h : Hart) (r k : SReg) (x : Word) :
    (h.setS r x).sreg k = if k = 0#5 then 0 else if k = r then x else h.sreg k := by
  change _ = if k = 0 then 0 else if k = r then x else h.sreg k
  unfold Hart.sreg Hart.setS
  by_cases h1 : k = 0
  · rw [if_pos h1, if_pos h1]
  · rw [if_neg h1, if_neg h1, if_neg h1]
    by_cases h2 : r = 0
    · rw [if_pos h2, if_neg (fun e => h1 (e.trans h2))]
    · rw [if_neg h2, SMap.get_set]
      by_cases h3 : k = r
      · rw [if_pos h3, if_pos (congrArg _ h3)]
      · rw [if_neg h3, if_neg (fun q => h3 (BitVec.eq_of_toNat_eq q))]
@[simp] theorem Hart.vreg_setV_self (h : Hart) (r : Nat) (x : VWord) : (h.setV r x).vreg r = x := SMap.get_set_self _ _ _ _
@[simp] theorem Hart.vreg_setV_ne (h : Hart) {r k : Nat} (x : VWord) (e : k ≠ r) : (h.setV r x).vreg k = h.vreg k := SMap.get_set_ne _ _ _ e
@[simp] theorem Hart.tag_setTag_self (h : Hart) (r : Nat) (x : Tag) : (h.setTag r x).tag r = x := SMap.get_set_self _ _ _ _
@[simp] theorem Hart.tag_setTag_ne (h : Hart) {r k : Nat} (x : Tag) (e : k ≠ r) : (h.setTag r x).tag k = h.tag k := SMap.get_set_ne _ _ _ e
@[simp] theorem Hart.preg_setP_self (h : Hart) (r : PReg) (x : PWord) : (h.setP r x).preg r = x := SMap.get_set_self _ _ _ _
@[simp] theorem Hart.preg_setP_ne (h : Hart) {r k : PReg} (x : PWord) (e : k ≠ r) : (h.setP r x).preg k = h.preg k :=
  SMap.get_set_ne _ _ _ (fun q => e (BitVec.eq_of_toNat_eq q))


/-! ## `Hart.setS` -/

@[simp] theorem Hart.setS_v (h : Hart) (r : SReg) (x : Word) : (h.setS r x).v = h.v := by unfold Hart.setS; split <;> rfl
@[simp] theorem Hart.setS_tags (h : Hart) (r : SReg) (x : Word) : (h.setS r x).tags = h.tags := by unfold Hart.setS; split <;> rfl
@[simp] theorem Hart.setS_p (h : Hart) (r : SReg) (x : Word) : (h.setS r x).p = h.p := by unfold Hart.setS; split <;> rfl
@[simp] theorem Hart.setS_pc (h : Hart) (r : SReg) (x : Word) : (h.setS r x).pc = h.pc := by unfold Hart.setS; split <;> rfl
@[simp] theorem Hart.setS_mode (h : Hart) (r : SReg) (x : Word) : (h.setS r x).mode = h.mode := by unfold Hart.setS; split <;> rfl
@[simp] theorem Hart.setS_vl (h : Hart) (r : SReg) (x : Word) : (h.setS r x).vl = h.vl := by unfold Hart.setS; split <;> rfl
@[simp] theorem Hart.setS_tl (h : Hart) (r : SReg) (x : Word) : (h.setS r x).tl = h.tl := by unfold Hart.setS; split <;> rfl
@[simp] theorem Hart.setS_tc (h : Hart) (r : SReg) (x : Word) : (h.setS r x).tc = h.tc := by unfold Hart.setS; split <;> rfl
@[simp] theorem Hart.setS_loopHead (h : Hart) (r : SReg) (x : Word) : (h.setS r x).loopHead = h.loopHead := by unfold Hart.setS; split <;> rfl
@[simp] theorem Hart.setS_loopSz (h : Hart) (r : SReg) (x : Word) : (h.setS r x).loopSz = h.loopSz := by unfold Hart.setS; split <;> rfl
@[simp] theorem Hart.setS_rowIdx (h : Hart) (r : SReg) (x : Word) : (h.setS r x).rowIdx = h.rowIdx := by unfold Hart.setS; split <;> rfl
@[simp] theorem Hart.setS_tileIdx (h : Hart) (r : SReg) (x : Word) : (h.setS r x).tileIdx = h.tileIdx := by unfold Hart.setS; split <;> rfl
@[simp] theorem Hart.setS_convoy (h : Hart) (r : SReg) (x : Word) : (h.setS r x).convoy = h.convoy := by unfold Hart.setS; split <;> rfl
@[simp] theorem Hart.setS_hwm (h : Hart) (r : SReg) (x : Word) : (h.setS r x).hwm = h.hwm := by unfold Hart.setS; split <;> rfl
@[simp] theorem Hart.setS_vstart (h : Hart) (r : SReg) (x : Word) : (h.setS r x).vstart = h.vstart := by unfold Hart.setS; split <;> rfl
@[simp] theorem Hart.setS_stepArr (h : Hart) (r : SReg) (x : Word) : (h.setS r x).stepArr = h.stepArr := by unfold Hart.setS; split <;> rfl
@[simp] theorem Hart.setS_fflags (h : Hart) (r : SReg) (x : Word) : (h.setS r x).fflags = h.fflags := by unfold Hart.setS; split <;> rfl
@[simp] theorem Hart.setS_modulus (h : Hart) (r : SReg) (x : Word) : (h.setS r x).modulus = h.modulus := by unfold Hart.setS; split <;> rfl
@[simp] theorem Hart.setS_lossBnd (h : Hart) (r : SReg) (x : Word) : (h.setS r x).lossBnd = h.lossBnd := by unfold Hart.setS; split <;> rfl
@[simp] theorem Hart.setS_tlive0 (h : Hart) (r : SReg) (x : Word) : (h.setS r x).tlive0 = h.tlive0 := by unfold Hart.setS; split <;> rfl
@[simp] theorem Hart.setS_tlive1 (h : Hart) (r : SReg) (x : Word) : (h.setS r x).tlive1 = h.tlive1 := by unfold Hart.setS; split <;> rfl
@[simp] theorem Hart.setS_tlive2 (h : Hart) (r : SReg) (x : Word) : (h.setS r x).tlive2 = h.tlive2 := by unfold Hart.setS; split <;> rfl
@[simp] theorem Hart.setS_tlive3 (h : Hart) (r : SReg) (x : Word) : (h.setS r x).tlive3 = h.tlive3 := by unfold Hart.setS; split <;> rfl
@[simp] theorem Hart.setS_gangId (h : Hart) (r : SReg) (x : Word) : (h.setS r x).gangId = h.gangId := by unfold Hart.setS; split <;> rfl
@[simp] theorem Hart.setS_gangSize (h : Hart) (r : SReg) (x : Word) : (h.setS r x).gangSize = h.gangSize := by unfold Hart.setS; split <;> rfl
@[simp] theorem Hart.setS_taskFp (h : Hart) (r : SReg) (x : Word) : (h.setS r x).taskFp = h.taskFp := by unfold Hart.setS; split <;> rfl
@[simp] theorem Hart.setS_status (h : Hart) (r : SReg) (x : Word) : (h.setS r x).status = h.status := by unfold Hart.setS; split <;> rfl
@[simp] theorem Hart.setS_trapBase (h : Hart) (r : SReg) (x : Word) : (h.setS r x).trapBase = h.trapBase := by unfold Hart.setS; split <;> rfl
@[simp] theorem Hart.setS_trapCause (h : Hart) (r : SReg) (x : Word) : (h.setS r x).trapCause = h.trapCause := by unfold Hart.setS; split <;> rfl
@[simp] theorem Hart.setS_trapPc (h : Hart) (r : SReg) (x : Word) : (h.setS r x).trapPc = h.trapPc := by unfold Hart.setS; split <;> rfl
@[simp] theorem Hart.setS_trapVal (h : Hart) (r : SReg) (x : Word) : (h.setS r x).trapVal = h.trapVal := by unfold Hart.setS; split <;> rfl
@[simp] theorem Hart.setS_trapVec (h : Hart) (r : SReg) (x : Word) : (h.setS r x).trapVec = h.trapVec := by unfold Hart.setS; split <;> rfl
@[simp] theorem Hart.setS_rfCorr (h : Hart) (r : SReg) (x : Word) : (h.setS r x).rfCorr = h.rfCorr := by unfold Hart.setS; split <;> rfl
@[simp] theorem Hart.setS_ctx (h : Hart) (r : SReg) (x : Word) : (h.setS r x).ctx = h.ctx := by unfold Hart.setS; split <;> rfl
@[simp] theorem Hart.setS_run (h : Hart) (r : SReg) (x : Word) : (h.setS r x).run = h.run := by unfold Hart.setS; split <;> rfl
@[simp] theorem Hart.setS_conv (h : Hart) (r : SReg) (x : Word) : (h.setS r x).conv = h.conv := by unfold Hart.setS; split <;> rfl
@[simp] theorem Hart.setS_atEntry (h : Hart) (r : SReg) (x : Word) : (h.setS r x).atEntry = h.atEntry := by unfold Hart.setS; split <;> rfl
@[simp] theorem Hart.setS_block (h : Hart) (r : SReg) (x : Word) : (h.setS r x).block = h.block := by unfold Hart.setS; split <;> rfl
@[simp] theorem Hart.setS_gang (h : Hart) (r : SReg) (x : Word) : (h.setS r x).gang = h.gang := by unfold Hart.setS; split <;> rfl
@[simp] theorem Hart.setS_retired (h : Hart) (r : SReg) (x : Word) : (h.setS r x).retired = h.retired := by unfold Hart.setS; split <;> rfl
@[simp] theorem Hart.setS_op (h : Hart) (r : SReg) (x : Word) : (h.setS r x).op = h.op := by unfold Hart.setS; split <;> rfl
@[simp] theorem Hart.setS_mshape (h : Hart) (r : SReg) (x : Word) : (h.setS r x).mshape = h.mshape := by unfold Hart.setS; split <;> rfl
@[simp] theorem Hart.setS_mfail (h : Hart) (r : SReg) (x : Word) : (h.setS r x).mfail = h.mfail := by unfold Hart.setS; split <;> rfl
@[simp] theorem Hart.setS_vParity (h : Hart) (r : SReg) (x : Word) : (h.setS r x).vParity = h.vParity := by unfold Hart.setS; split <;> rfl
@[simp] theorem Hart.setS_pParity (h : Hart) (r : SReg) (x : Word) : (h.setS r x).pParity = h.pParity := by unfold Hart.setS; split <;> rfl
@[simp] theorem Hart.setS_stamp (h : Hart) (r : SReg) (x : Word) : (h.setS r x).stamp = h.stamp := by unfold Hart.setS; split <;> rfl
@[simp] theorem Hart.setS_batch (h : Hart) (r : SReg) (x : Word) : (h.setS r x).batch = h.batch := by unfold Hart.setS; split <;> rfl
@[simp] theorem Hart.setS_acts (h : Hart) (r : SReg) (x : Word) : (h.setS r x).acts = h.acts := by unfold Hart.setS; split <;> rfl

/-! ## `Hart.setV` -/

@[simp] theorem Hart.setV_s (h : Hart) (r : Nat) (x : VWord) : (h.setV r x).s = h.s := rfl
@[simp] theorem Hart.setV_tags (h : Hart) (r : Nat) (x : VWord) : (h.setV r x).tags = h.tags := rfl
@[simp] theorem Hart.setV_p (h : Hart) (r : Nat) (x : VWord) : (h.setV r x).p = h.p := rfl
@[simp] theorem Hart.setV_pc (h : Hart) (r : Nat) (x : VWord) : (h.setV r x).pc = h.pc := rfl
@[simp] theorem Hart.setV_mode (h : Hart) (r : Nat) (x : VWord) : (h.setV r x).mode = h.mode := rfl
@[simp] theorem Hart.setV_vl (h : Hart) (r : Nat) (x : VWord) : (h.setV r x).vl = h.vl := rfl
@[simp] theorem Hart.setV_tl (h : Hart) (r : Nat) (x : VWord) : (h.setV r x).tl = h.tl := rfl
@[simp] theorem Hart.setV_tc (h : Hart) (r : Nat) (x : VWord) : (h.setV r x).tc = h.tc := rfl
@[simp] theorem Hart.setV_loopHead (h : Hart) (r : Nat) (x : VWord) : (h.setV r x).loopHead = h.loopHead := rfl
@[simp] theorem Hart.setV_loopSz (h : Hart) (r : Nat) (x : VWord) : (h.setV r x).loopSz = h.loopSz := rfl
@[simp] theorem Hart.setV_rowIdx (h : Hart) (r : Nat) (x : VWord) : (h.setV r x).rowIdx = h.rowIdx := rfl
@[simp] theorem Hart.setV_tileIdx (h : Hart) (r : Nat) (x : VWord) : (h.setV r x).tileIdx = h.tileIdx := rfl
@[simp] theorem Hart.setV_convoy (h : Hart) (r : Nat) (x : VWord) : (h.setV r x).convoy = h.convoy := rfl
@[simp] theorem Hart.setV_hwm (h : Hart) (r : Nat) (x : VWord) : (h.setV r x).hwm = h.hwm := rfl
@[simp] theorem Hart.setV_vstart (h : Hart) (r : Nat) (x : VWord) : (h.setV r x).vstart = h.vstart := rfl
@[simp] theorem Hart.setV_stepArr (h : Hart) (r : Nat) (x : VWord) : (h.setV r x).stepArr = h.stepArr := rfl
@[simp] theorem Hart.setV_fflags (h : Hart) (r : Nat) (x : VWord) : (h.setV r x).fflags = h.fflags := rfl
@[simp] theorem Hart.setV_modulus (h : Hart) (r : Nat) (x : VWord) : (h.setV r x).modulus = h.modulus := rfl
@[simp] theorem Hart.setV_lossBnd (h : Hart) (r : Nat) (x : VWord) : (h.setV r x).lossBnd = h.lossBnd := rfl
@[simp] theorem Hart.setV_tlive0 (h : Hart) (r : Nat) (x : VWord) : (h.setV r x).tlive0 = h.tlive0 := rfl
@[simp] theorem Hart.setV_tlive1 (h : Hart) (r : Nat) (x : VWord) : (h.setV r x).tlive1 = h.tlive1 := rfl
@[simp] theorem Hart.setV_tlive2 (h : Hart) (r : Nat) (x : VWord) : (h.setV r x).tlive2 = h.tlive2 := rfl
@[simp] theorem Hart.setV_tlive3 (h : Hart) (r : Nat) (x : VWord) : (h.setV r x).tlive3 = h.tlive3 := rfl
@[simp] theorem Hart.setV_gangId (h : Hart) (r : Nat) (x : VWord) : (h.setV r x).gangId = h.gangId := rfl
@[simp] theorem Hart.setV_gangSize (h : Hart) (r : Nat) (x : VWord) : (h.setV r x).gangSize = h.gangSize := rfl
@[simp] theorem Hart.setV_taskFp (h : Hart) (r : Nat) (x : VWord) : (h.setV r x).taskFp = h.taskFp := rfl
@[simp] theorem Hart.setV_status (h : Hart) (r : Nat) (x : VWord) : (h.setV r x).status = h.status := rfl
@[simp] theorem Hart.setV_trapBase (h : Hart) (r : Nat) (x : VWord) : (h.setV r x).trapBase = h.trapBase := rfl
@[simp] theorem Hart.setV_trapCause (h : Hart) (r : Nat) (x : VWord) : (h.setV r x).trapCause = h.trapCause := rfl
@[simp] theorem Hart.setV_trapPc (h : Hart) (r : Nat) (x : VWord) : (h.setV r x).trapPc = h.trapPc := rfl
@[simp] theorem Hart.setV_trapVal (h : Hart) (r : Nat) (x : VWord) : (h.setV r x).trapVal = h.trapVal := rfl
@[simp] theorem Hart.setV_trapVec (h : Hart) (r : Nat) (x : VWord) : (h.setV r x).trapVec = h.trapVec := rfl
@[simp] theorem Hart.setV_rfCorr (h : Hart) (r : Nat) (x : VWord) : (h.setV r x).rfCorr = h.rfCorr := rfl
@[simp] theorem Hart.setV_ctx (h : Hart) (r : Nat) (x : VWord) : (h.setV r x).ctx = h.ctx := rfl
@[simp] theorem Hart.setV_run (h : Hart) (r : Nat) (x : VWord) : (h.setV r x).run = h.run := rfl
@[simp] theorem Hart.setV_conv (h : Hart) (r : Nat) (x : VWord) : (h.setV r x).conv = h.conv := rfl
@[simp] theorem Hart.setV_atEntry (h : Hart) (r : Nat) (x : VWord) : (h.setV r x).atEntry = h.atEntry := rfl
@[simp] theorem Hart.setV_block (h : Hart) (r : Nat) (x : VWord) : (h.setV r x).block = h.block := rfl
@[simp] theorem Hart.setV_gang (h : Hart) (r : Nat) (x : VWord) : (h.setV r x).gang = h.gang := rfl
@[simp] theorem Hart.setV_retired (h : Hart) (r : Nat) (x : VWord) : (h.setV r x).retired = h.retired := rfl
@[simp] theorem Hart.setV_op (h : Hart) (r : Nat) (x : VWord) : (h.setV r x).op = h.op := rfl
@[simp] theorem Hart.setV_mshape (h : Hart) (r : Nat) (x : VWord) : (h.setV r x).mshape = h.mshape := rfl
@[simp] theorem Hart.setV_mfail (h : Hart) (r : Nat) (x : VWord) : (h.setV r x).mfail = h.mfail := rfl
@[simp] theorem Hart.setV_vParity (h : Hart) (r : Nat) (x : VWord) : (h.setV r x).vParity = h.vParity := rfl
@[simp] theorem Hart.setV_sParity (h : Hart) (r : Nat) (x : VWord) : (h.setV r x).sParity = h.sParity := rfl
@[simp] theorem Hart.setV_pParity (h : Hart) (r : Nat) (x : VWord) : (h.setV r x).pParity = h.pParity := rfl
@[simp] theorem Hart.setV_stamp (h : Hart) (r : Nat) (x : VWord) : (h.setV r x).stamp = h.stamp := rfl
@[simp] theorem Hart.setV_batch (h : Hart) (r : Nat) (x : VWord) : (h.setV r x).batch = h.batch := rfl
@[simp] theorem Hart.setV_acts (h : Hart) (r : Nat) (x : VWord) : (h.setV r x).acts = h.acts := rfl

/-! ## `Hart.refill` -/

@[simp] theorem Hart.refill_s (h : Hart) (r w : Nat) (ks : List Nat) : (h.refill r w ks).s = h.s := by unfold Hart.refill; split <;> rfl
@[simp] theorem Hart.refill_v (h : Hart) (r w : Nat) (ks : List Nat) : (h.refill r w ks).v = h.v := by unfold Hart.refill; split <;> rfl
@[simp] theorem Hart.refill_tags (h : Hart) (r w : Nat) (ks : List Nat) : (h.refill r w ks).tags = h.tags := by unfold Hart.refill; split <;> rfl
@[simp] theorem Hart.refill_p (h : Hart) (r w : Nat) (ks : List Nat) : (h.refill r w ks).p = h.p := by unfold Hart.refill; split <;> rfl
@[simp] theorem Hart.refill_pc (h : Hart) (r w : Nat) (ks : List Nat) : (h.refill r w ks).pc = h.pc := by unfold Hart.refill; split <;> rfl
@[simp] theorem Hart.refill_mode (h : Hart) (r w : Nat) (ks : List Nat) : (h.refill r w ks).mode = h.mode := by unfold Hart.refill; split <;> rfl
@[simp] theorem Hart.refill_vl (h : Hart) (r w : Nat) (ks : List Nat) : (h.refill r w ks).vl = h.vl := by unfold Hart.refill; split <;> rfl
@[simp] theorem Hart.refill_tl (h : Hart) (r w : Nat) (ks : List Nat) : (h.refill r w ks).tl = h.tl := by unfold Hart.refill; split <;> rfl
@[simp] theorem Hart.refill_tc (h : Hart) (r w : Nat) (ks : List Nat) : (h.refill r w ks).tc = h.tc := by unfold Hart.refill; split <;> rfl
@[simp] theorem Hart.refill_loopHead (h : Hart) (r w : Nat) (ks : List Nat) : (h.refill r w ks).loopHead = h.loopHead := by unfold Hart.refill; split <;> rfl
@[simp] theorem Hart.refill_loopSz (h : Hart) (r w : Nat) (ks : List Nat) : (h.refill r w ks).loopSz = h.loopSz := by unfold Hart.refill; split <;> rfl
@[simp] theorem Hart.refill_rowIdx (h : Hart) (r w : Nat) (ks : List Nat) : (h.refill r w ks).rowIdx = h.rowIdx := by unfold Hart.refill; split <;> rfl
@[simp] theorem Hart.refill_tileIdx (h : Hart) (r w : Nat) (ks : List Nat) : (h.refill r w ks).tileIdx = h.tileIdx := by unfold Hart.refill; split <;> rfl
@[simp] theorem Hart.refill_convoy (h : Hart) (r w : Nat) (ks : List Nat) : (h.refill r w ks).convoy = h.convoy := by unfold Hart.refill; split <;> rfl
@[simp] theorem Hart.refill_hwm (h : Hart) (r w : Nat) (ks : List Nat) : (h.refill r w ks).hwm = h.hwm := by unfold Hart.refill; split <;> rfl
@[simp] theorem Hart.refill_vstart (h : Hart) (r w : Nat) (ks : List Nat) : (h.refill r w ks).vstart = h.vstart := by unfold Hart.refill; split <;> rfl
@[simp] theorem Hart.refill_stepArr (h : Hart) (r w : Nat) (ks : List Nat) : (h.refill r w ks).stepArr = h.stepArr := by unfold Hart.refill; split <;> rfl
@[simp] theorem Hart.refill_fflags (h : Hart) (r w : Nat) (ks : List Nat) : (h.refill r w ks).fflags = h.fflags := by unfold Hart.refill; split <;> rfl
@[simp] theorem Hart.refill_modulus (h : Hart) (r w : Nat) (ks : List Nat) : (h.refill r w ks).modulus = h.modulus := by unfold Hart.refill; split <;> rfl
@[simp] theorem Hart.refill_lossBnd (h : Hart) (r w : Nat) (ks : List Nat) : (h.refill r w ks).lossBnd = h.lossBnd := by unfold Hart.refill; split <;> rfl
@[simp] theorem Hart.refill_tlive0 (h : Hart) (r w : Nat) (ks : List Nat) : (h.refill r w ks).tlive0 = h.tlive0 := by unfold Hart.refill; split <;> rfl
@[simp] theorem Hart.refill_tlive1 (h : Hart) (r w : Nat) (ks : List Nat) : (h.refill r w ks).tlive1 = h.tlive1 := by unfold Hart.refill; split <;> rfl
@[simp] theorem Hart.refill_tlive2 (h : Hart) (r w : Nat) (ks : List Nat) : (h.refill r w ks).tlive2 = h.tlive2 := by unfold Hart.refill; split <;> rfl
@[simp] theorem Hart.refill_tlive3 (h : Hart) (r w : Nat) (ks : List Nat) : (h.refill r w ks).tlive3 = h.tlive3 := by unfold Hart.refill; split <;> rfl
@[simp] theorem Hart.refill_gangId (h : Hart) (r w : Nat) (ks : List Nat) : (h.refill r w ks).gangId = h.gangId := by unfold Hart.refill; split <;> rfl
@[simp] theorem Hart.refill_gangSize (h : Hart) (r w : Nat) (ks : List Nat) : (h.refill r w ks).gangSize = h.gangSize := by unfold Hart.refill; split <;> rfl
@[simp] theorem Hart.refill_taskFp (h : Hart) (r w : Nat) (ks : List Nat) : (h.refill r w ks).taskFp = h.taskFp := by unfold Hart.refill; split <;> rfl
@[simp] theorem Hart.refill_status (h : Hart) (r w : Nat) (ks : List Nat) : (h.refill r w ks).status = h.status := by unfold Hart.refill; split <;> rfl
@[simp] theorem Hart.refill_trapBase (h : Hart) (r w : Nat) (ks : List Nat) : (h.refill r w ks).trapBase = h.trapBase := by unfold Hart.refill; split <;> rfl
@[simp] theorem Hart.refill_trapCause (h : Hart) (r w : Nat) (ks : List Nat) : (h.refill r w ks).trapCause = h.trapCause := by unfold Hart.refill; split <;> rfl
@[simp] theorem Hart.refill_trapPc (h : Hart) (r w : Nat) (ks : List Nat) : (h.refill r w ks).trapPc = h.trapPc := by unfold Hart.refill; split <;> rfl
@[simp] theorem Hart.refill_trapVal (h : Hart) (r w : Nat) (ks : List Nat) : (h.refill r w ks).trapVal = h.trapVal := by unfold Hart.refill; split <;> rfl
@[simp] theorem Hart.refill_trapVec (h : Hart) (r w : Nat) (ks : List Nat) : (h.refill r w ks).trapVec = h.trapVec := by unfold Hart.refill; split <;> rfl
@[simp] theorem Hart.refill_rfCorr (h : Hart) (r w : Nat) (ks : List Nat) : (h.refill r w ks).rfCorr = h.rfCorr := by unfold Hart.refill; split <;> rfl
@[simp] theorem Hart.refill_ctx (h : Hart) (r w : Nat) (ks : List Nat) : (h.refill r w ks).ctx = h.ctx := by unfold Hart.refill; split <;> rfl
@[simp] theorem Hart.refill_run (h : Hart) (r w : Nat) (ks : List Nat) : (h.refill r w ks).run = h.run := by unfold Hart.refill; split <;> rfl
@[simp] theorem Hart.refill_conv (h : Hart) (r w : Nat) (ks : List Nat) : (h.refill r w ks).conv = h.conv := by unfold Hart.refill; split <;> rfl
@[simp] theorem Hart.refill_atEntry (h : Hart) (r w : Nat) (ks : List Nat) : (h.refill r w ks).atEntry = h.atEntry := by unfold Hart.refill; split <;> rfl
@[simp] theorem Hart.refill_block (h : Hart) (r w : Nat) (ks : List Nat) : (h.refill r w ks).block = h.block := by unfold Hart.refill; split <;> rfl
@[simp] theorem Hart.refill_gang (h : Hart) (r w : Nat) (ks : List Nat) : (h.refill r w ks).gang = h.gang := by unfold Hart.refill; split <;> rfl
@[simp] theorem Hart.refill_retired (h : Hart) (r w : Nat) (ks : List Nat) : (h.refill r w ks).retired = h.retired := by unfold Hart.refill; split <;> rfl
@[simp] theorem Hart.refill_op (h : Hart) (r w : Nat) (ks : List Nat) : (h.refill r w ks).op = h.op := by unfold Hart.refill; split <;> rfl
@[simp] theorem Hart.refill_mshape (h : Hart) (r w : Nat) (ks : List Nat) : (h.refill r w ks).mshape = h.mshape := by unfold Hart.refill; split <;> rfl
@[simp] theorem Hart.refill_mfail (h : Hart) (r w : Nat) (ks : List Nat) : (h.refill r w ks).mfail = h.mfail := by unfold Hart.refill; split <;> rfl
@[simp] theorem Hart.refill_sParity (h : Hart) (r w : Nat) (ks : List Nat) : (h.refill r w ks).sParity = h.sParity := by unfold Hart.refill; split <;> rfl
@[simp] theorem Hart.refill_pParity (h : Hart) (r w : Nat) (ks : List Nat) : (h.refill r w ks).pParity = h.pParity := by unfold Hart.refill; split <;> rfl
@[simp] theorem Hart.refill_stamp (h : Hart) (r w : Nat) (ks : List Nat) : (h.refill r w ks).stamp = h.stamp := by unfold Hart.refill; split <;> rfl
@[simp] theorem Hart.refill_batch (h : Hart) (r w : Nat) (ks : List Nat) : (h.refill r w ks).batch = h.batch := by unfold Hart.refill; split <;> rfl
@[simp] theorem Hart.refill_acts (h : Hart) (r w : Nat) (ks : List Nat) : (h.refill r w ks).acts = h.acts := by unfold Hart.refill; split <;> rfl

/-! ## `Hart.setTag` -/

@[simp] theorem Hart.setTag_s (h : Hart) (r : Nat) (x : Tag) : (h.setTag r x).s = h.s := rfl
@[simp] theorem Hart.setTag_v (h : Hart) (r : Nat) (x : Tag) : (h.setTag r x).v = h.v := rfl
@[simp] theorem Hart.setTag_p (h : Hart) (r : Nat) (x : Tag) : (h.setTag r x).p = h.p := rfl
@[simp] theorem Hart.setTag_pc (h : Hart) (r : Nat) (x : Tag) : (h.setTag r x).pc = h.pc := rfl
@[simp] theorem Hart.setTag_mode (h : Hart) (r : Nat) (x : Tag) : (h.setTag r x).mode = h.mode := rfl
@[simp] theorem Hart.setTag_vl (h : Hart) (r : Nat) (x : Tag) : (h.setTag r x).vl = h.vl := rfl
@[simp] theorem Hart.setTag_tl (h : Hart) (r : Nat) (x : Tag) : (h.setTag r x).tl = h.tl := rfl
@[simp] theorem Hart.setTag_tc (h : Hart) (r : Nat) (x : Tag) : (h.setTag r x).tc = h.tc := rfl
@[simp] theorem Hart.setTag_loopHead (h : Hart) (r : Nat) (x : Tag) : (h.setTag r x).loopHead = h.loopHead := rfl
@[simp] theorem Hart.setTag_loopSz (h : Hart) (r : Nat) (x : Tag) : (h.setTag r x).loopSz = h.loopSz := rfl
@[simp] theorem Hart.setTag_rowIdx (h : Hart) (r : Nat) (x : Tag) : (h.setTag r x).rowIdx = h.rowIdx := rfl
@[simp] theorem Hart.setTag_tileIdx (h : Hart) (r : Nat) (x : Tag) : (h.setTag r x).tileIdx = h.tileIdx := rfl
@[simp] theorem Hart.setTag_convoy (h : Hart) (r : Nat) (x : Tag) : (h.setTag r x).convoy = h.convoy := rfl
@[simp] theorem Hart.setTag_hwm (h : Hart) (r : Nat) (x : Tag) : (h.setTag r x).hwm = h.hwm := rfl
@[simp] theorem Hart.setTag_vstart (h : Hart) (r : Nat) (x : Tag) : (h.setTag r x).vstart = h.vstart := rfl
@[simp] theorem Hart.setTag_stepArr (h : Hart) (r : Nat) (x : Tag) : (h.setTag r x).stepArr = h.stepArr := rfl
@[simp] theorem Hart.setTag_fflags (h : Hart) (r : Nat) (x : Tag) : (h.setTag r x).fflags = h.fflags := rfl
@[simp] theorem Hart.setTag_modulus (h : Hart) (r : Nat) (x : Tag) : (h.setTag r x).modulus = h.modulus := rfl
@[simp] theorem Hart.setTag_lossBnd (h : Hart) (r : Nat) (x : Tag) : (h.setTag r x).lossBnd = h.lossBnd := rfl
@[simp] theorem Hart.setTag_tlive0 (h : Hart) (r : Nat) (x : Tag) : (h.setTag r x).tlive0 = h.tlive0 := rfl
@[simp] theorem Hart.setTag_tlive1 (h : Hart) (r : Nat) (x : Tag) : (h.setTag r x).tlive1 = h.tlive1 := rfl
@[simp] theorem Hart.setTag_tlive2 (h : Hart) (r : Nat) (x : Tag) : (h.setTag r x).tlive2 = h.tlive2 := rfl
@[simp] theorem Hart.setTag_tlive3 (h : Hart) (r : Nat) (x : Tag) : (h.setTag r x).tlive3 = h.tlive3 := rfl
@[simp] theorem Hart.setTag_gangId (h : Hart) (r : Nat) (x : Tag) : (h.setTag r x).gangId = h.gangId := rfl
@[simp] theorem Hart.setTag_gangSize (h : Hart) (r : Nat) (x : Tag) : (h.setTag r x).gangSize = h.gangSize := rfl
@[simp] theorem Hart.setTag_taskFp (h : Hart) (r : Nat) (x : Tag) : (h.setTag r x).taskFp = h.taskFp := rfl
@[simp] theorem Hart.setTag_status (h : Hart) (r : Nat) (x : Tag) : (h.setTag r x).status = h.status := rfl
@[simp] theorem Hart.setTag_trapBase (h : Hart) (r : Nat) (x : Tag) : (h.setTag r x).trapBase = h.trapBase := rfl
@[simp] theorem Hart.setTag_trapCause (h : Hart) (r : Nat) (x : Tag) : (h.setTag r x).trapCause = h.trapCause := rfl
@[simp] theorem Hart.setTag_trapPc (h : Hart) (r : Nat) (x : Tag) : (h.setTag r x).trapPc = h.trapPc := rfl
@[simp] theorem Hart.setTag_trapVal (h : Hart) (r : Nat) (x : Tag) : (h.setTag r x).trapVal = h.trapVal := rfl
@[simp] theorem Hart.setTag_trapVec (h : Hart) (r : Nat) (x : Tag) : (h.setTag r x).trapVec = h.trapVec := rfl
@[simp] theorem Hart.setTag_rfCorr (h : Hart) (r : Nat) (x : Tag) : (h.setTag r x).rfCorr = h.rfCorr := rfl
@[simp] theorem Hart.setTag_ctx (h : Hart) (r : Nat) (x : Tag) : (h.setTag r x).ctx = h.ctx := rfl
@[simp] theorem Hart.setTag_run (h : Hart) (r : Nat) (x : Tag) : (h.setTag r x).run = h.run := rfl
@[simp] theorem Hart.setTag_conv (h : Hart) (r : Nat) (x : Tag) : (h.setTag r x).conv = h.conv := rfl
@[simp] theorem Hart.setTag_atEntry (h : Hart) (r : Nat) (x : Tag) : (h.setTag r x).atEntry = h.atEntry := rfl
@[simp] theorem Hart.setTag_block (h : Hart) (r : Nat) (x : Tag) : (h.setTag r x).block = h.block := rfl
@[simp] theorem Hart.setTag_gang (h : Hart) (r : Nat) (x : Tag) : (h.setTag r x).gang = h.gang := rfl
@[simp] theorem Hart.setTag_retired (h : Hart) (r : Nat) (x : Tag) : (h.setTag r x).retired = h.retired := rfl
@[simp] theorem Hart.setTag_op (h : Hart) (r : Nat) (x : Tag) : (h.setTag r x).op = h.op := rfl
@[simp] theorem Hart.setTag_mshape (h : Hart) (r : Nat) (x : Tag) : (h.setTag r x).mshape = h.mshape := rfl
@[simp] theorem Hart.setTag_mfail (h : Hart) (r : Nat) (x : Tag) : (h.setTag r x).mfail = h.mfail := rfl
@[simp] theorem Hart.setTag_vParity (h : Hart) (r : Nat) (x : Tag) : (h.setTag r x).vParity = h.vParity := rfl
@[simp] theorem Hart.setTag_sParity (h : Hart) (r : Nat) (x : Tag) : (h.setTag r x).sParity = h.sParity := rfl
@[simp] theorem Hart.setTag_pParity (h : Hart) (r : Nat) (x : Tag) : (h.setTag r x).pParity = h.pParity := rfl
@[simp] theorem Hart.setTag_stamp (h : Hart) (r : Nat) (x : Tag) : (h.setTag r x).stamp = h.stamp := rfl
@[simp] theorem Hart.setTag_batch (h : Hart) (r : Nat) (x : Tag) : (h.setTag r x).batch = h.batch := rfl
@[simp] theorem Hart.setTag_acts (h : Hart) (r : Nat) (x : Tag) : (h.setTag r x).acts = h.acts := rfl

/-! ## `Hart.setP` -/

@[simp] theorem Hart.setP_s (h : Hart) (r : PReg) (x : PWord) : (h.setP r x).s = h.s := rfl
@[simp] theorem Hart.setP_v (h : Hart) (r : PReg) (x : PWord) : (h.setP r x).v = h.v := rfl
@[simp] theorem Hart.setP_tags (h : Hart) (r : PReg) (x : PWord) : (h.setP r x).tags = h.tags := rfl
@[simp] theorem Hart.setP_pc (h : Hart) (r : PReg) (x : PWord) : (h.setP r x).pc = h.pc := rfl
@[simp] theorem Hart.setP_mode (h : Hart) (r : PReg) (x : PWord) : (h.setP r x).mode = h.mode := rfl
@[simp] theorem Hart.setP_vl (h : Hart) (r : PReg) (x : PWord) : (h.setP r x).vl = h.vl := rfl
@[simp] theorem Hart.setP_tl (h : Hart) (r : PReg) (x : PWord) : (h.setP r x).tl = h.tl := rfl
@[simp] theorem Hart.setP_tc (h : Hart) (r : PReg) (x : PWord) : (h.setP r x).tc = h.tc := rfl
@[simp] theorem Hart.setP_loopHead (h : Hart) (r : PReg) (x : PWord) : (h.setP r x).loopHead = h.loopHead := rfl
@[simp] theorem Hart.setP_loopSz (h : Hart) (r : PReg) (x : PWord) : (h.setP r x).loopSz = h.loopSz := rfl
@[simp] theorem Hart.setP_rowIdx (h : Hart) (r : PReg) (x : PWord) : (h.setP r x).rowIdx = h.rowIdx := rfl
@[simp] theorem Hart.setP_tileIdx (h : Hart) (r : PReg) (x : PWord) : (h.setP r x).tileIdx = h.tileIdx := rfl
@[simp] theorem Hart.setP_convoy (h : Hart) (r : PReg) (x : PWord) : (h.setP r x).convoy = h.convoy := rfl
@[simp] theorem Hart.setP_hwm (h : Hart) (r : PReg) (x : PWord) : (h.setP r x).hwm = h.hwm := rfl
@[simp] theorem Hart.setP_vstart (h : Hart) (r : PReg) (x : PWord) : (h.setP r x).vstart = h.vstart := rfl
@[simp] theorem Hart.setP_stepArr (h : Hart) (r : PReg) (x : PWord) : (h.setP r x).stepArr = h.stepArr := rfl
@[simp] theorem Hart.setP_fflags (h : Hart) (r : PReg) (x : PWord) : (h.setP r x).fflags = h.fflags := rfl
@[simp] theorem Hart.setP_modulus (h : Hart) (r : PReg) (x : PWord) : (h.setP r x).modulus = h.modulus := rfl
@[simp] theorem Hart.setP_lossBnd (h : Hart) (r : PReg) (x : PWord) : (h.setP r x).lossBnd = h.lossBnd := rfl
@[simp] theorem Hart.setP_tlive0 (h : Hart) (r : PReg) (x : PWord) : (h.setP r x).tlive0 = h.tlive0 := rfl
@[simp] theorem Hart.setP_tlive1 (h : Hart) (r : PReg) (x : PWord) : (h.setP r x).tlive1 = h.tlive1 := rfl
@[simp] theorem Hart.setP_tlive2 (h : Hart) (r : PReg) (x : PWord) : (h.setP r x).tlive2 = h.tlive2 := rfl
@[simp] theorem Hart.setP_tlive3 (h : Hart) (r : PReg) (x : PWord) : (h.setP r x).tlive3 = h.tlive3 := rfl
@[simp] theorem Hart.setP_gangId (h : Hart) (r : PReg) (x : PWord) : (h.setP r x).gangId = h.gangId := rfl
@[simp] theorem Hart.setP_gangSize (h : Hart) (r : PReg) (x : PWord) : (h.setP r x).gangSize = h.gangSize := rfl
@[simp] theorem Hart.setP_taskFp (h : Hart) (r : PReg) (x : PWord) : (h.setP r x).taskFp = h.taskFp := rfl
@[simp] theorem Hart.setP_status (h : Hart) (r : PReg) (x : PWord) : (h.setP r x).status = h.status := rfl
@[simp] theorem Hart.setP_trapBase (h : Hart) (r : PReg) (x : PWord) : (h.setP r x).trapBase = h.trapBase := rfl
@[simp] theorem Hart.setP_trapCause (h : Hart) (r : PReg) (x : PWord) : (h.setP r x).trapCause = h.trapCause := rfl
@[simp] theorem Hart.setP_trapPc (h : Hart) (r : PReg) (x : PWord) : (h.setP r x).trapPc = h.trapPc := rfl
@[simp] theorem Hart.setP_trapVal (h : Hart) (r : PReg) (x : PWord) : (h.setP r x).trapVal = h.trapVal := rfl
@[simp] theorem Hart.setP_trapVec (h : Hart) (r : PReg) (x : PWord) : (h.setP r x).trapVec = h.trapVec := rfl
@[simp] theorem Hart.setP_rfCorr (h : Hart) (r : PReg) (x : PWord) : (h.setP r x).rfCorr = h.rfCorr := rfl
@[simp] theorem Hart.setP_ctx (h : Hart) (r : PReg) (x : PWord) : (h.setP r x).ctx = h.ctx := rfl
@[simp] theorem Hart.setP_run (h : Hart) (r : PReg) (x : PWord) : (h.setP r x).run = h.run := rfl
@[simp] theorem Hart.setP_conv (h : Hart) (r : PReg) (x : PWord) : (h.setP r x).conv = h.conv := rfl
@[simp] theorem Hart.setP_atEntry (h : Hart) (r : PReg) (x : PWord) : (h.setP r x).atEntry = h.atEntry := rfl
@[simp] theorem Hart.setP_block (h : Hart) (r : PReg) (x : PWord) : (h.setP r x).block = h.block := rfl
@[simp] theorem Hart.setP_gang (h : Hart) (r : PReg) (x : PWord) : (h.setP r x).gang = h.gang := rfl
@[simp] theorem Hart.setP_retired (h : Hart) (r : PReg) (x : PWord) : (h.setP r x).retired = h.retired := rfl
@[simp] theorem Hart.setP_op (h : Hart) (r : PReg) (x : PWord) : (h.setP r x).op = h.op := rfl
@[simp] theorem Hart.setP_mshape (h : Hart) (r : PReg) (x : PWord) : (h.setP r x).mshape = h.mshape := rfl
@[simp] theorem Hart.setP_mfail (h : Hart) (r : PReg) (x : PWord) : (h.setP r x).mfail = h.mfail := rfl
@[simp] theorem Hart.setP_vParity (h : Hart) (r : PReg) (x : PWord) : (h.setP r x).vParity = h.vParity := rfl
@[simp] theorem Hart.setP_sParity (h : Hart) (r : PReg) (x : PWord) : (h.setP r x).sParity = h.sParity := rfl
@[simp] theorem Hart.setP_stamp (h : Hart) (r : PReg) (x : PWord) : (h.setP r x).stamp = h.stamp := rfl
@[simp] theorem Hart.setP_batch (h : Hart) (r : PReg) (x : PWord) : (h.setP r x).batch = h.batch := rfl
@[simp] theorem Hart.setP_acts (h : Hart) (r : PReg) (x : PWord) : (h.setP r x).acts = h.acts := rfl

/-! ## `Hart.raise` -/

@[simp] theorem Hart.raise_s (h : Hart) (f : FFlags) : (h.raise f).s = h.s := rfl
@[simp] theorem Hart.raise_v (h : Hart) (f : FFlags) : (h.raise f).v = h.v := rfl
@[simp] theorem Hart.raise_tags (h : Hart) (f : FFlags) : (h.raise f).tags = h.tags := rfl
@[simp] theorem Hart.raise_p (h : Hart) (f : FFlags) : (h.raise f).p = h.p := rfl
@[simp] theorem Hart.raise_pc (h : Hart) (f : FFlags) : (h.raise f).pc = h.pc := rfl
@[simp] theorem Hart.raise_mode (h : Hart) (f : FFlags) : (h.raise f).mode = h.mode := rfl
@[simp] theorem Hart.raise_vl (h : Hart) (f : FFlags) : (h.raise f).vl = h.vl := rfl
@[simp] theorem Hart.raise_tl (h : Hart) (f : FFlags) : (h.raise f).tl = h.tl := rfl
@[simp] theorem Hart.raise_tc (h : Hart) (f : FFlags) : (h.raise f).tc = h.tc := rfl
@[simp] theorem Hart.raise_loopHead (h : Hart) (f : FFlags) : (h.raise f).loopHead = h.loopHead := rfl
@[simp] theorem Hart.raise_loopSz (h : Hart) (f : FFlags) : (h.raise f).loopSz = h.loopSz := rfl
@[simp] theorem Hart.raise_rowIdx (h : Hart) (f : FFlags) : (h.raise f).rowIdx = h.rowIdx := rfl
@[simp] theorem Hart.raise_tileIdx (h : Hart) (f : FFlags) : (h.raise f).tileIdx = h.tileIdx := rfl
@[simp] theorem Hart.raise_convoy (h : Hart) (f : FFlags) : (h.raise f).convoy = h.convoy := rfl
@[simp] theorem Hart.raise_hwm (h : Hart) (f : FFlags) : (h.raise f).hwm = h.hwm := rfl
@[simp] theorem Hart.raise_vstart (h : Hart) (f : FFlags) : (h.raise f).vstart = h.vstart := rfl
@[simp] theorem Hart.raise_stepArr (h : Hart) (f : FFlags) : (h.raise f).stepArr = h.stepArr := rfl
@[simp] theorem Hart.raise_modulus (h : Hart) (f : FFlags) : (h.raise f).modulus = h.modulus := rfl
@[simp] theorem Hart.raise_lossBnd (h : Hart) (f : FFlags) : (h.raise f).lossBnd = h.lossBnd := rfl
@[simp] theorem Hart.raise_tlive0 (h : Hart) (f : FFlags) : (h.raise f).tlive0 = h.tlive0 := rfl
@[simp] theorem Hart.raise_tlive1 (h : Hart) (f : FFlags) : (h.raise f).tlive1 = h.tlive1 := rfl
@[simp] theorem Hart.raise_tlive2 (h : Hart) (f : FFlags) : (h.raise f).tlive2 = h.tlive2 := rfl
@[simp] theorem Hart.raise_tlive3 (h : Hart) (f : FFlags) : (h.raise f).tlive3 = h.tlive3 := rfl
@[simp] theorem Hart.raise_gangId (h : Hart) (f : FFlags) : (h.raise f).gangId = h.gangId := rfl
@[simp] theorem Hart.raise_gangSize (h : Hart) (f : FFlags) : (h.raise f).gangSize = h.gangSize := rfl
@[simp] theorem Hart.raise_taskFp (h : Hart) (f : FFlags) : (h.raise f).taskFp = h.taskFp := rfl
@[simp] theorem Hart.raise_status (h : Hart) (f : FFlags) : (h.raise f).status = h.status := rfl
@[simp] theorem Hart.raise_trapBase (h : Hart) (f : FFlags) : (h.raise f).trapBase = h.trapBase := rfl
@[simp] theorem Hart.raise_trapCause (h : Hart) (f : FFlags) : (h.raise f).trapCause = h.trapCause := rfl
@[simp] theorem Hart.raise_trapPc (h : Hart) (f : FFlags) : (h.raise f).trapPc = h.trapPc := rfl
@[simp] theorem Hart.raise_trapVal (h : Hart) (f : FFlags) : (h.raise f).trapVal = h.trapVal := rfl
@[simp] theorem Hart.raise_trapVec (h : Hart) (f : FFlags) : (h.raise f).trapVec = h.trapVec := rfl
@[simp] theorem Hart.raise_rfCorr (h : Hart) (f : FFlags) : (h.raise f).rfCorr = h.rfCorr := rfl
@[simp] theorem Hart.raise_ctx (h : Hart) (f : FFlags) : (h.raise f).ctx = h.ctx := rfl
@[simp] theorem Hart.raise_run (h : Hart) (f : FFlags) : (h.raise f).run = h.run := rfl
@[simp] theorem Hart.raise_conv (h : Hart) (f : FFlags) : (h.raise f).conv = h.conv := rfl
@[simp] theorem Hart.raise_atEntry (h : Hart) (f : FFlags) : (h.raise f).atEntry = h.atEntry := rfl
@[simp] theorem Hart.raise_block (h : Hart) (f : FFlags) : (h.raise f).block = h.block := rfl
@[simp] theorem Hart.raise_gang (h : Hart) (f : FFlags) : (h.raise f).gang = h.gang := rfl
@[simp] theorem Hart.raise_retired (h : Hart) (f : FFlags) : (h.raise f).retired = h.retired := rfl
@[simp] theorem Hart.raise_op (h : Hart) (f : FFlags) : (h.raise f).op = h.op := rfl
@[simp] theorem Hart.raise_mshape (h : Hart) (f : FFlags) : (h.raise f).mshape = h.mshape := rfl
@[simp] theorem Hart.raise_mfail (h : Hart) (f : FFlags) : (h.raise f).mfail = h.mfail := rfl
@[simp] theorem Hart.raise_vParity (h : Hart) (f : FFlags) : (h.raise f).vParity = h.vParity := rfl
@[simp] theorem Hart.raise_sParity (h : Hart) (f : FFlags) : (h.raise f).sParity = h.sParity := rfl
@[simp] theorem Hart.raise_pParity (h : Hart) (f : FFlags) : (h.raise f).pParity = h.pParity := rfl
@[simp] theorem Hart.raise_stamp (h : Hart) (f : FFlags) : (h.raise f).stamp = h.stamp := rfl
@[simp] theorem Hart.raise_batch (h : Hart) (f : FFlags) : (h.raise f).batch = h.batch := rfl
@[simp] theorem Hart.raise_acts (h : Hart) (f : FFlags) : (h.raise f).acts = h.acts := rfl

/-! ## `Hart.convNext` -/

@[simp] theorem Hart.convNext_s (h : Hart) : (h.convNext ).s = h.s := by unfold Hart.convNext; split <;> (try split) <;> rfl
@[simp] theorem Hart.convNext_v (h : Hart) : (h.convNext ).v = h.v := by unfold Hart.convNext; split <;> (try split) <;> rfl
@[simp] theorem Hart.convNext_tags (h : Hart) : (h.convNext ).tags = h.tags := by unfold Hart.convNext; split <;> (try split) <;> rfl
@[simp] theorem Hart.convNext_p (h : Hart) : (h.convNext ).p = h.p := by unfold Hart.convNext; split <;> (try split) <;> rfl
@[simp] theorem Hart.convNext_pc (h : Hart) : (h.convNext ).pc = h.pc := by unfold Hart.convNext; split <;> (try split) <;> rfl
@[simp] theorem Hart.convNext_mode (h : Hart) : (h.convNext ).mode = h.mode := by unfold Hart.convNext; split <;> (try split) <;> rfl
@[simp] theorem Hart.convNext_vl (h : Hart) : (h.convNext ).vl = h.vl := by unfold Hart.convNext; split <;> (try split) <;> rfl
@[simp] theorem Hart.convNext_tl (h : Hart) : (h.convNext ).tl = h.tl := by unfold Hart.convNext; split <;> (try split) <;> rfl
@[simp] theorem Hart.convNext_tc (h : Hart) : (h.convNext ).tc = h.tc := by unfold Hart.convNext; split <;> (try split) <;> rfl
@[simp] theorem Hart.convNext_loopHead (h : Hart) : (h.convNext ).loopHead = h.loopHead := by unfold Hart.convNext; split <;> (try split) <;> rfl
@[simp] theorem Hart.convNext_loopSz (h : Hart) : (h.convNext ).loopSz = h.loopSz := by unfold Hart.convNext; split <;> (try split) <;> rfl
@[simp] theorem Hart.convNext_rowIdx (h : Hart) : (h.convNext ).rowIdx = h.rowIdx := by unfold Hart.convNext; split <;> (try split) <;> rfl
@[simp] theorem Hart.convNext_tileIdx (h : Hart) : (h.convNext ).tileIdx = h.tileIdx := by unfold Hart.convNext; split <;> (try split) <;> rfl
@[simp] theorem Hart.convNext_hwm (h : Hart) : (h.convNext ).hwm = h.hwm := by unfold Hart.convNext; split <;> (try split) <;> rfl
@[simp] theorem Hart.convNext_vstart (h : Hart) : (h.convNext ).vstart = h.vstart := by unfold Hart.convNext; split <;> (try split) <;> rfl
@[simp] theorem Hart.convNext_stepArr (h : Hart) : (h.convNext ).stepArr = h.stepArr := by unfold Hart.convNext; split <;> (try split) <;> rfl
@[simp] theorem Hart.convNext_fflags (h : Hart) : (h.convNext ).fflags = h.fflags := by unfold Hart.convNext; split <;> (try split) <;> rfl
@[simp] theorem Hart.convNext_modulus (h : Hart) : (h.convNext ).modulus = h.modulus := by unfold Hart.convNext; split <;> (try split) <;> rfl
@[simp] theorem Hart.convNext_lossBnd (h : Hart) : (h.convNext ).lossBnd = h.lossBnd := by unfold Hart.convNext; split <;> (try split) <;> rfl
@[simp] theorem Hart.convNext_tlive0 (h : Hart) : (h.convNext ).tlive0 = h.tlive0 := by unfold Hart.convNext; split <;> (try split) <;> rfl
@[simp] theorem Hart.convNext_tlive1 (h : Hart) : (h.convNext ).tlive1 = h.tlive1 := by unfold Hart.convNext; split <;> (try split) <;> rfl
@[simp] theorem Hart.convNext_tlive2 (h : Hart) : (h.convNext ).tlive2 = h.tlive2 := by unfold Hart.convNext; split <;> (try split) <;> rfl
@[simp] theorem Hart.convNext_tlive3 (h : Hart) : (h.convNext ).tlive3 = h.tlive3 := by unfold Hart.convNext; split <;> (try split) <;> rfl
@[simp] theorem Hart.convNext_gangId (h : Hart) : (h.convNext ).gangId = h.gangId := by unfold Hart.convNext; split <;> (try split) <;> rfl
@[simp] theorem Hart.convNext_gangSize (h : Hart) : (h.convNext ).gangSize = h.gangSize := by unfold Hart.convNext; split <;> (try split) <;> rfl
@[simp] theorem Hart.convNext_taskFp (h : Hart) : (h.convNext ).taskFp = h.taskFp := by unfold Hart.convNext; split <;> (try split) <;> rfl
@[simp] theorem Hart.convNext_status (h : Hart) : (h.convNext ).status = h.status := by unfold Hart.convNext; split <;> (try split) <;> rfl
@[simp] theorem Hart.convNext_trapBase (h : Hart) : (h.convNext ).trapBase = h.trapBase := by unfold Hart.convNext; split <;> (try split) <;> rfl
@[simp] theorem Hart.convNext_trapCause (h : Hart) : (h.convNext ).trapCause = h.trapCause := by unfold Hart.convNext; split <;> (try split) <;> rfl
@[simp] theorem Hart.convNext_trapPc (h : Hart) : (h.convNext ).trapPc = h.trapPc := by unfold Hart.convNext; split <;> (try split) <;> rfl
@[simp] theorem Hart.convNext_trapVal (h : Hart) : (h.convNext ).trapVal = h.trapVal := by unfold Hart.convNext; split <;> (try split) <;> rfl
@[simp] theorem Hart.convNext_trapVec (h : Hart) : (h.convNext ).trapVec = h.trapVec := by unfold Hart.convNext; split <;> (try split) <;> rfl
@[simp] theorem Hart.convNext_rfCorr (h : Hart) : (h.convNext ).rfCorr = h.rfCorr := by unfold Hart.convNext; split <;> (try split) <;> rfl
@[simp] theorem Hart.convNext_ctx (h : Hart) : (h.convNext ).ctx = h.ctx := by unfold Hart.convNext; split <;> (try split) <;> rfl
@[simp] theorem Hart.convNext_run (h : Hart) : (h.convNext ).run = h.run := by unfold Hart.convNext; split <;> (try split) <;> rfl
@[simp] theorem Hart.convNext_atEntry (h : Hart) : (h.convNext ).atEntry = h.atEntry := by unfold Hart.convNext; split <;> (try split) <;> rfl
@[simp] theorem Hart.convNext_block (h : Hart) : (h.convNext ).block = h.block := by unfold Hart.convNext; split <;> (try split) <;> rfl
@[simp] theorem Hart.convNext_gang (h : Hart) : (h.convNext ).gang = h.gang := by unfold Hart.convNext; split <;> (try split) <;> rfl
@[simp] theorem Hart.convNext_retired (h : Hart) : (h.convNext ).retired = h.retired := by unfold Hart.convNext; split <;> (try split) <;> rfl
@[simp] theorem Hart.convNext_op (h : Hart) : (h.convNext ).op = h.op := by unfold Hart.convNext; split <;> (try split) <;> rfl
@[simp] theorem Hart.convNext_mshape (h : Hart) : (h.convNext ).mshape = h.mshape := by unfold Hart.convNext; split <;> (try split) <;> rfl
@[simp] theorem Hart.convNext_mfail (h : Hart) : (h.convNext ).mfail = h.mfail := by unfold Hart.convNext; split <;> (try split) <;> rfl
@[simp] theorem Hart.convNext_vParity (h : Hart) : (h.convNext ).vParity = h.vParity := by unfold Hart.convNext; split <;> (try split) <;> rfl
@[simp] theorem Hart.convNext_sParity (h : Hart) : (h.convNext ).sParity = h.sParity := by unfold Hart.convNext; split <;> (try split) <;> rfl
@[simp] theorem Hart.convNext_pParity (h : Hart) : (h.convNext ).pParity = h.pParity := by unfold Hart.convNext; split <;> (try split) <;> rfl
@[simp] theorem Hart.convNext_stamp (h : Hart) : (h.convNext ).stamp = h.stamp := by unfold Hart.convNext; split <;> (try split) <;> rfl
@[simp] theorem Hart.convNext_batch (h : Hart) : (h.convNext ).batch = h.batch := by unfold Hart.convNext; split <;> (try split) <;> rfl
@[simp] theorem Hart.convNext_acts (h : Hart) : (h.convNext ).acts = h.acts := by unfold Hart.convNext; split <;> (try split) <;> rfl

/-! ## `Hart.advance` -/

@[simp] theorem Hart.advance_s (h : Hart) : (h.advance ).s = h.s := Hart.convNext_s h
@[simp] theorem Hart.advance_v (h : Hart) : (h.advance ).v = h.v := Hart.convNext_v h
@[simp] theorem Hart.advance_tags (h : Hart) : (h.advance ).tags = h.tags := Hart.convNext_tags h
@[simp] theorem Hart.advance_p (h : Hart) : (h.advance ).p = h.p := Hart.convNext_p h
@[simp] theorem Hart.advance_mode (h : Hart) : (h.advance ).mode = h.mode := Hart.convNext_mode h
@[simp] theorem Hart.advance_vl (h : Hart) : (h.advance ).vl = h.vl := Hart.convNext_vl h
@[simp] theorem Hart.advance_tl (h : Hart) : (h.advance ).tl = h.tl := Hart.convNext_tl h
@[simp] theorem Hart.advance_tc (h : Hart) : (h.advance ).tc = h.tc := Hart.convNext_tc h
@[simp] theorem Hart.advance_loopHead (h : Hart) : (h.advance ).loopHead = h.loopHead := Hart.convNext_loopHead h
@[simp] theorem Hart.advance_loopSz (h : Hart) : (h.advance ).loopSz = h.loopSz := Hart.convNext_loopSz h
@[simp] theorem Hart.advance_rowIdx (h : Hart) : (h.advance ).rowIdx = h.rowIdx := Hart.convNext_rowIdx h
@[simp] theorem Hart.advance_tileIdx (h : Hart) : (h.advance ).tileIdx = h.tileIdx := Hart.convNext_tileIdx h
@[simp] theorem Hart.advance_hwm (h : Hart) : (h.advance ).hwm = h.hwm := Hart.convNext_hwm h
@[simp] theorem Hart.advance_vstart (h : Hart) : (h.advance ).vstart = h.vstart := Hart.convNext_vstart h
@[simp] theorem Hart.advance_stepArr (h : Hart) : (h.advance ).stepArr = h.stepArr := Hart.convNext_stepArr h
@[simp] theorem Hart.advance_fflags (h : Hart) : (h.advance ).fflags = h.fflags := Hart.convNext_fflags h
@[simp] theorem Hart.advance_modulus (h : Hart) : (h.advance ).modulus = h.modulus := Hart.convNext_modulus h
@[simp] theorem Hart.advance_lossBnd (h : Hart) : (h.advance ).lossBnd = h.lossBnd := Hart.convNext_lossBnd h
@[simp] theorem Hart.advance_tlive0 (h : Hart) : (h.advance ).tlive0 = h.tlive0 := Hart.convNext_tlive0 h
@[simp] theorem Hart.advance_tlive1 (h : Hart) : (h.advance ).tlive1 = h.tlive1 := Hart.convNext_tlive1 h
@[simp] theorem Hart.advance_tlive2 (h : Hart) : (h.advance ).tlive2 = h.tlive2 := Hart.convNext_tlive2 h
@[simp] theorem Hart.advance_tlive3 (h : Hart) : (h.advance ).tlive3 = h.tlive3 := Hart.convNext_tlive3 h
@[simp] theorem Hart.advance_gangId (h : Hart) : (h.advance ).gangId = h.gangId := Hart.convNext_gangId h
@[simp] theorem Hart.advance_gangSize (h : Hart) : (h.advance ).gangSize = h.gangSize := Hart.convNext_gangSize h
@[simp] theorem Hart.advance_taskFp (h : Hart) : (h.advance ).taskFp = h.taskFp := Hart.convNext_taskFp h
@[simp] theorem Hart.advance_status (h : Hart) : (h.advance ).status = h.status := Hart.convNext_status h
@[simp] theorem Hart.advance_trapBase (h : Hart) : (h.advance ).trapBase = h.trapBase := Hart.convNext_trapBase h
@[simp] theorem Hart.advance_trapCause (h : Hart) : (h.advance ).trapCause = h.trapCause := Hart.convNext_trapCause h
@[simp] theorem Hart.advance_trapPc (h : Hart) : (h.advance ).trapPc = h.trapPc := Hart.convNext_trapPc h
@[simp] theorem Hart.advance_trapVal (h : Hart) : (h.advance ).trapVal = h.trapVal := Hart.convNext_trapVal h
@[simp] theorem Hart.advance_trapVec (h : Hart) : (h.advance ).trapVec = h.trapVec := Hart.convNext_trapVec h
@[simp] theorem Hart.advance_rfCorr (h : Hart) : (h.advance ).rfCorr = h.rfCorr := Hart.convNext_rfCorr h
@[simp] theorem Hart.advance_ctx (h : Hart) : (h.advance ).ctx = h.ctx := Hart.convNext_ctx h
@[simp] theorem Hart.advance_run (h : Hart) : (h.advance ).run = h.run := Hart.convNext_run h
@[simp] theorem Hart.advance_gang (h : Hart) : (h.advance ).gang = h.gang := Hart.convNext_gang h
@[simp] theorem Hart.advance_retired (h : Hart) : (h.advance ).retired = h.retired := Hart.convNext_retired h
@[simp] theorem Hart.advance_op (h : Hart) : (h.advance ).op = h.op := Hart.convNext_op h
@[simp] theorem Hart.advance_mshape (h : Hart) : (h.advance ).mshape = h.mshape := Hart.convNext_mshape h
@[simp] theorem Hart.advance_mfail (h : Hart) : (h.advance ).mfail = h.mfail := Hart.convNext_mfail h
@[simp] theorem Hart.advance_vParity (h : Hart) : (h.advance ).vParity = h.vParity := Hart.convNext_vParity h
@[simp] theorem Hart.advance_sParity (h : Hart) : (h.advance ).sParity = h.sParity := Hart.convNext_sParity h
@[simp] theorem Hart.advance_pParity (h : Hart) : (h.advance ).pParity = h.pParity := Hart.convNext_pParity h
@[simp] theorem Hart.advance_stamp (h : Hart) : (h.advance ).stamp = h.stamp := Hart.convNext_stamp h
@[simp] theorem Hart.advance_batch (h : Hart) : (h.advance ).batch = h.batch := Hart.convNext_batch h
@[simp] theorem Hart.advance_acts (h : Hart) : (h.advance ).acts = h.acts := Hart.convNext_acts h

/-! ## `Hart.goto` -/

@[simp] theorem Hart.goto_s (h : Hart) (x : Word) : (h.goto x).s = h.s := by unfold Hart.goto; cases h.conv <;> rfl
@[simp] theorem Hart.goto_v (h : Hart) (x : Word) : (h.goto x).v = h.v := by unfold Hart.goto; cases h.conv <;> rfl
@[simp] theorem Hart.goto_tags (h : Hart) (x : Word) : (h.goto x).tags = h.tags := by unfold Hart.goto; cases h.conv <;> rfl
@[simp] theorem Hart.goto_p (h : Hart) (x : Word) : (h.goto x).p = h.p := by unfold Hart.goto; cases h.conv <;> rfl
@[simp] theorem Hart.goto_mode (h : Hart) (x : Word) : (h.goto x).mode = h.mode := by unfold Hart.goto; cases h.conv <;> rfl
@[simp] theorem Hart.goto_vl (h : Hart) (x : Word) : (h.goto x).vl = h.vl := by unfold Hart.goto; cases h.conv <;> rfl
@[simp] theorem Hart.goto_tl (h : Hart) (x : Word) : (h.goto x).tl = h.tl := by unfold Hart.goto; cases h.conv <;> rfl
@[simp] theorem Hart.goto_tc (h : Hart) (x : Word) : (h.goto x).tc = h.tc := by unfold Hart.goto; cases h.conv <;> rfl
@[simp] theorem Hart.goto_loopHead (h : Hart) (x : Word) : (h.goto x).loopHead = h.loopHead := by unfold Hart.goto; cases h.conv <;> rfl
@[simp] theorem Hart.goto_loopSz (h : Hart) (x : Word) : (h.goto x).loopSz = h.loopSz := by unfold Hart.goto; cases h.conv <;> rfl
@[simp] theorem Hart.goto_rowIdx (h : Hart) (x : Word) : (h.goto x).rowIdx = h.rowIdx := by unfold Hart.goto; cases h.conv <;> rfl
@[simp] theorem Hart.goto_tileIdx (h : Hart) (x : Word) : (h.goto x).tileIdx = h.tileIdx := by unfold Hart.goto; cases h.conv <;> rfl
@[simp] theorem Hart.goto_hwm (h : Hart) (x : Word) : (h.goto x).hwm = h.hwm := by unfold Hart.goto; cases h.conv <;> rfl
@[simp] theorem Hart.goto_vstart (h : Hart) (x : Word) : (h.goto x).vstart = h.vstart := by unfold Hart.goto; cases h.conv <;> rfl
@[simp] theorem Hart.goto_stepArr (h : Hart) (x : Word) : (h.goto x).stepArr = h.stepArr := by unfold Hart.goto; cases h.conv <;> rfl
@[simp] theorem Hart.goto_fflags (h : Hart) (x : Word) : (h.goto x).fflags = h.fflags := by unfold Hart.goto; cases h.conv <;> rfl
@[simp] theorem Hart.goto_modulus (h : Hart) (x : Word) : (h.goto x).modulus = h.modulus := by unfold Hart.goto; cases h.conv <;> rfl
@[simp] theorem Hart.goto_lossBnd (h : Hart) (x : Word) : (h.goto x).lossBnd = h.lossBnd := by unfold Hart.goto; cases h.conv <;> rfl
@[simp] theorem Hart.goto_tlive0 (h : Hart) (x : Word) : (h.goto x).tlive0 = h.tlive0 := by unfold Hart.goto; cases h.conv <;> rfl
@[simp] theorem Hart.goto_tlive1 (h : Hart) (x : Word) : (h.goto x).tlive1 = h.tlive1 := by unfold Hart.goto; cases h.conv <;> rfl
@[simp] theorem Hart.goto_tlive2 (h : Hart) (x : Word) : (h.goto x).tlive2 = h.tlive2 := by unfold Hart.goto; cases h.conv <;> rfl
@[simp] theorem Hart.goto_tlive3 (h : Hart) (x : Word) : (h.goto x).tlive3 = h.tlive3 := by unfold Hart.goto; cases h.conv <;> rfl
@[simp] theorem Hart.goto_gangId (h : Hart) (x : Word) : (h.goto x).gangId = h.gangId := by unfold Hart.goto; cases h.conv <;> rfl
@[simp] theorem Hart.goto_gangSize (h : Hart) (x : Word) : (h.goto x).gangSize = h.gangSize := by unfold Hart.goto; cases h.conv <;> rfl
@[simp] theorem Hart.goto_taskFp (h : Hart) (x : Word) : (h.goto x).taskFp = h.taskFp := by unfold Hart.goto; cases h.conv <;> rfl
@[simp] theorem Hart.goto_status (h : Hart) (x : Word) : (h.goto x).status = h.status := by unfold Hart.goto; cases h.conv <;> rfl
@[simp] theorem Hart.goto_trapBase (h : Hart) (x : Word) : (h.goto x).trapBase = h.trapBase := by unfold Hart.goto; cases h.conv <;> rfl
@[simp] theorem Hart.goto_trapCause (h : Hart) (x : Word) : (h.goto x).trapCause = h.trapCause := by unfold Hart.goto; cases h.conv <;> rfl
@[simp] theorem Hart.goto_trapPc (h : Hart) (x : Word) : (h.goto x).trapPc = h.trapPc := by unfold Hart.goto; cases h.conv <;> rfl
@[simp] theorem Hart.goto_trapVal (h : Hart) (x : Word) : (h.goto x).trapVal = h.trapVal := by unfold Hart.goto; cases h.conv <;> rfl
@[simp] theorem Hart.goto_trapVec (h : Hart) (x : Word) : (h.goto x).trapVec = h.trapVec := by unfold Hart.goto; cases h.conv <;> rfl
@[simp] theorem Hart.goto_rfCorr (h : Hart) (x : Word) : (h.goto x).rfCorr = h.rfCorr := by unfold Hart.goto; cases h.conv <;> rfl
@[simp] theorem Hart.goto_ctx (h : Hart) (x : Word) : (h.goto x).ctx = h.ctx := by unfold Hart.goto; cases h.conv <;> rfl
@[simp] theorem Hart.goto_run (h : Hart) (x : Word) : (h.goto x).run = h.run := by unfold Hart.goto; cases h.conv <;> rfl
@[simp] theorem Hart.goto_gang (h : Hart) (x : Word) : (h.goto x).gang = h.gang := by unfold Hart.goto; cases h.conv <;> rfl
@[simp] theorem Hart.goto_retired (h : Hart) (x : Word) : (h.goto x).retired = h.retired := by unfold Hart.goto; cases h.conv <;> rfl
@[simp] theorem Hart.goto_op (h : Hart) (x : Word) : (h.goto x).op = h.op := by unfold Hart.goto; cases h.conv <;> rfl
@[simp] theorem Hart.goto_mshape (h : Hart) (x : Word) : (h.goto x).mshape = h.mshape := by unfold Hart.goto; cases h.conv <;> rfl
@[simp] theorem Hart.goto_mfail (h : Hart) (x : Word) : (h.goto x).mfail = h.mfail := by unfold Hart.goto; cases h.conv <;> rfl
@[simp] theorem Hart.goto_vParity (h : Hart) (x : Word) : (h.goto x).vParity = h.vParity := by unfold Hart.goto; cases h.conv <;> rfl
@[simp] theorem Hart.goto_sParity (h : Hart) (x : Word) : (h.goto x).sParity = h.sParity := by unfold Hart.goto; cases h.conv <;> rfl
@[simp] theorem Hart.goto_pParity (h : Hart) (x : Word) : (h.goto x).pParity = h.pParity := by unfold Hart.goto; cases h.conv <;> rfl
@[simp] theorem Hart.goto_stamp (h : Hart) (x : Word) : (h.goto x).stamp = h.stamp := by unfold Hart.goto; cases h.conv <;> rfl
@[simp] theorem Hart.goto_batch (h : Hart) (x : Word) : (h.goto x).batch = h.batch := by unfold Hart.goto; cases h.conv <;> rfl
@[simp] theorem Hart.goto_acts (h : Hart) (x : Word) : (h.goto x).acts = h.acts := by unfold Hart.goto; cases h.conv <;> rfl

/-! ## `Hart.noteWrite` -/

@[simp] theorem Hart.noteWrite_s (h : Hart) (d w : Nat) : (h.noteWrite d w).s = h.s := by unfold Hart.noteWrite; split <;> rfl
@[simp] theorem Hart.noteWrite_v (h : Hart) (d w : Nat) : (h.noteWrite d w).v = h.v := by unfold Hart.noteWrite; split <;> rfl
@[simp] theorem Hart.noteWrite_tags (h : Hart) (d w : Nat) : (h.noteWrite d w).tags = h.tags := by unfold Hart.noteWrite; split <;> rfl
@[simp] theorem Hart.noteWrite_p (h : Hart) (d w : Nat) : (h.noteWrite d w).p = h.p := by unfold Hart.noteWrite; split <;> rfl
@[simp] theorem Hart.noteWrite_pc (h : Hart) (d w : Nat) : (h.noteWrite d w).pc = h.pc := by unfold Hart.noteWrite; split <;> rfl
@[simp] theorem Hart.noteWrite_mode (h : Hart) (d w : Nat) : (h.noteWrite d w).mode = h.mode := by unfold Hart.noteWrite; split <;> rfl
@[simp] theorem Hart.noteWrite_vl (h : Hart) (d w : Nat) : (h.noteWrite d w).vl = h.vl := by unfold Hart.noteWrite; split <;> rfl
@[simp] theorem Hart.noteWrite_tl (h : Hart) (d w : Nat) : (h.noteWrite d w).tl = h.tl := by unfold Hart.noteWrite; split <;> rfl
@[simp] theorem Hart.noteWrite_tc (h : Hart) (d w : Nat) : (h.noteWrite d w).tc = h.tc := by unfold Hart.noteWrite; split <;> rfl
@[simp] theorem Hart.noteWrite_loopHead (h : Hart) (d w : Nat) : (h.noteWrite d w).loopHead = h.loopHead := by unfold Hart.noteWrite; split <;> rfl
@[simp] theorem Hart.noteWrite_loopSz (h : Hart) (d w : Nat) : (h.noteWrite d w).loopSz = h.loopSz := by unfold Hart.noteWrite; split <;> rfl
@[simp] theorem Hart.noteWrite_rowIdx (h : Hart) (d w : Nat) : (h.noteWrite d w).rowIdx = h.rowIdx := by unfold Hart.noteWrite; split <;> rfl
@[simp] theorem Hart.noteWrite_tileIdx (h : Hart) (d w : Nat) : (h.noteWrite d w).tileIdx = h.tileIdx := by unfold Hart.noteWrite; split <;> rfl
@[simp] theorem Hart.noteWrite_convoy (h : Hart) (d w : Nat) : (h.noteWrite d w).convoy = h.convoy := by unfold Hart.noteWrite; split <;> rfl
@[simp] theorem Hart.noteWrite_vstart (h : Hart) (d w : Nat) : (h.noteWrite d w).vstart = h.vstart := by unfold Hart.noteWrite; split <;> rfl
@[simp] theorem Hart.noteWrite_stepArr (h : Hart) (d w : Nat) : (h.noteWrite d w).stepArr = h.stepArr := by unfold Hart.noteWrite; split <;> rfl
@[simp] theorem Hart.noteWrite_fflags (h : Hart) (d w : Nat) : (h.noteWrite d w).fflags = h.fflags := by unfold Hart.noteWrite; split <;> rfl
@[simp] theorem Hart.noteWrite_modulus (h : Hart) (d w : Nat) : (h.noteWrite d w).modulus = h.modulus := by unfold Hart.noteWrite; split <;> rfl
@[simp] theorem Hart.noteWrite_lossBnd (h : Hart) (d w : Nat) : (h.noteWrite d w).lossBnd = h.lossBnd := by unfold Hart.noteWrite; split <;> rfl
@[simp] theorem Hart.noteWrite_tlive0 (h : Hart) (d w : Nat) : (h.noteWrite d w).tlive0 = h.tlive0 := by unfold Hart.noteWrite; split <;> rfl
@[simp] theorem Hart.noteWrite_tlive1 (h : Hart) (d w : Nat) : (h.noteWrite d w).tlive1 = h.tlive1 := by unfold Hart.noteWrite; split <;> rfl
@[simp] theorem Hart.noteWrite_tlive2 (h : Hart) (d w : Nat) : (h.noteWrite d w).tlive2 = h.tlive2 := by unfold Hart.noteWrite; split <;> rfl
@[simp] theorem Hart.noteWrite_tlive3 (h : Hart) (d w : Nat) : (h.noteWrite d w).tlive3 = h.tlive3 := by unfold Hart.noteWrite; split <;> rfl
@[simp] theorem Hart.noteWrite_gangId (h : Hart) (d w : Nat) : (h.noteWrite d w).gangId = h.gangId := by unfold Hart.noteWrite; split <;> rfl
@[simp] theorem Hart.noteWrite_gangSize (h : Hart) (d w : Nat) : (h.noteWrite d w).gangSize = h.gangSize := by unfold Hart.noteWrite; split <;> rfl
@[simp] theorem Hart.noteWrite_taskFp (h : Hart) (d w : Nat) : (h.noteWrite d w).taskFp = h.taskFp := by unfold Hart.noteWrite; split <;> rfl
@[simp] theorem Hart.noteWrite_status (h : Hart) (d w : Nat) : (h.noteWrite d w).status = h.status := by unfold Hart.noteWrite; split <;> rfl
@[simp] theorem Hart.noteWrite_trapBase (h : Hart) (d w : Nat) : (h.noteWrite d w).trapBase = h.trapBase := by unfold Hart.noteWrite; split <;> rfl
@[simp] theorem Hart.noteWrite_trapCause (h : Hart) (d w : Nat) : (h.noteWrite d w).trapCause = h.trapCause := by unfold Hart.noteWrite; split <;> rfl
@[simp] theorem Hart.noteWrite_trapPc (h : Hart) (d w : Nat) : (h.noteWrite d w).trapPc = h.trapPc := by unfold Hart.noteWrite; split <;> rfl
@[simp] theorem Hart.noteWrite_trapVal (h : Hart) (d w : Nat) : (h.noteWrite d w).trapVal = h.trapVal := by unfold Hart.noteWrite; split <;> rfl
@[simp] theorem Hart.noteWrite_trapVec (h : Hart) (d w : Nat) : (h.noteWrite d w).trapVec = h.trapVec := by unfold Hart.noteWrite; split <;> rfl
@[simp] theorem Hart.noteWrite_rfCorr (h : Hart) (d w : Nat) : (h.noteWrite d w).rfCorr = h.rfCorr := by unfold Hart.noteWrite; split <;> rfl
@[simp] theorem Hart.noteWrite_ctx (h : Hart) (d w : Nat) : (h.noteWrite d w).ctx = h.ctx := by unfold Hart.noteWrite; split <;> rfl
@[simp] theorem Hart.noteWrite_run (h : Hart) (d w : Nat) : (h.noteWrite d w).run = h.run := by unfold Hart.noteWrite; split <;> rfl
@[simp] theorem Hart.noteWrite_conv (h : Hart) (d w : Nat) : (h.noteWrite d w).conv = h.conv := by unfold Hart.noteWrite; split <;> rfl
@[simp] theorem Hart.noteWrite_atEntry (h : Hart) (d w : Nat) : (h.noteWrite d w).atEntry = h.atEntry := by unfold Hart.noteWrite; split <;> rfl
@[simp] theorem Hart.noteWrite_block (h : Hart) (d w : Nat) : (h.noteWrite d w).block = h.block := by unfold Hart.noteWrite; split <;> rfl
@[simp] theorem Hart.noteWrite_gang (h : Hart) (d w : Nat) : (h.noteWrite d w).gang = h.gang := by unfold Hart.noteWrite; split <;> rfl
@[simp] theorem Hart.noteWrite_retired (h : Hart) (d w : Nat) : (h.noteWrite d w).retired = h.retired := by unfold Hart.noteWrite; split <;> rfl
@[simp] theorem Hart.noteWrite_op (h : Hart) (d w : Nat) : (h.noteWrite d w).op = h.op := by unfold Hart.noteWrite; split <;> rfl
@[simp] theorem Hart.noteWrite_mshape (h : Hart) (d w : Nat) : (h.noteWrite d w).mshape = h.mshape := by unfold Hart.noteWrite; split <;> rfl
@[simp] theorem Hart.noteWrite_mfail (h : Hart) (d w : Nat) : (h.noteWrite d w).mfail = h.mfail := by unfold Hart.noteWrite; split <;> rfl
@[simp] theorem Hart.noteWrite_vParity (h : Hart) (d w : Nat) : (h.noteWrite d w).vParity = h.vParity := by unfold Hart.noteWrite; split <;> rfl
@[simp] theorem Hart.noteWrite_sParity (h : Hart) (d w : Nat) : (h.noteWrite d w).sParity = h.sParity := by unfold Hart.noteWrite; split <;> rfl
@[simp] theorem Hart.noteWrite_pParity (h : Hart) (d w : Nat) : (h.noteWrite d w).pParity = h.pParity := by unfold Hart.noteWrite; split <;> rfl
@[simp] theorem Hart.noteWrite_stamp (h : Hart) (d w : Nat) : (h.noteWrite d w).stamp = h.stamp := by unfold Hart.noteWrite; split <;> rfl
@[simp] theorem Hart.noteWrite_batch (h : Hart) (d w : Nat) : (h.noteWrite d w).batch = h.batch := by unfold Hart.noteWrite; split <;> rfl
@[simp] theorem Hart.noteWrite_acts (h : Hart) (d w : Nat) : (h.noteWrite d w).acts = h.acts := by unfold Hart.noteWrite; split <;> rfl

/-! ## `Hart.wrote` -/

@[simp] theorem Hart.wrote_s (h : Hart) (d w : Nat) : (h.wrote d w).s = h.s := Hart.noteWrite_s h d w
@[simp] theorem Hart.wrote_v (h : Hart) (d w : Nat) : (h.wrote d w).v = h.v := Hart.noteWrite_v h d w
@[simp] theorem Hart.wrote_tags (h : Hart) (d w : Nat) : (h.wrote d w).tags = h.tags := Hart.noteWrite_tags h d w
@[simp] theorem Hart.wrote_p (h : Hart) (d w : Nat) : (h.wrote d w).p = h.p := Hart.noteWrite_p h d w
@[simp] theorem Hart.wrote_pc (h : Hart) (d w : Nat) : (h.wrote d w).pc = h.pc := Hart.noteWrite_pc h d w
@[simp] theorem Hart.wrote_mode (h : Hart) (d w : Nat) : (h.wrote d w).mode = h.mode := Hart.noteWrite_mode h d w
@[simp] theorem Hart.wrote_vl (h : Hart) (d w : Nat) : (h.wrote d w).vl = h.vl := Hart.noteWrite_vl h d w
@[simp] theorem Hart.wrote_tl (h : Hart) (d w : Nat) : (h.wrote d w).tl = h.tl := Hart.noteWrite_tl h d w
@[simp] theorem Hart.wrote_tc (h : Hart) (d w : Nat) : (h.wrote d w).tc = h.tc := Hart.noteWrite_tc h d w
@[simp] theorem Hart.wrote_loopHead (h : Hart) (d w : Nat) : (h.wrote d w).loopHead = h.loopHead := Hart.noteWrite_loopHead h d w
@[simp] theorem Hart.wrote_loopSz (h : Hart) (d w : Nat) : (h.wrote d w).loopSz = h.loopSz := Hart.noteWrite_loopSz h d w
@[simp] theorem Hart.wrote_rowIdx (h : Hart) (d w : Nat) : (h.wrote d w).rowIdx = h.rowIdx := Hart.noteWrite_rowIdx h d w
@[simp] theorem Hart.wrote_tileIdx (h : Hart) (d w : Nat) : (h.wrote d w).tileIdx = h.tileIdx := Hart.noteWrite_tileIdx h d w
@[simp] theorem Hart.wrote_convoy (h : Hart) (d w : Nat) : (h.wrote d w).convoy = h.convoy := Hart.noteWrite_convoy h d w
@[simp] theorem Hart.wrote_stepArr (h : Hart) (d w : Nat) : (h.wrote d w).stepArr = h.stepArr := Hart.noteWrite_stepArr h d w
@[simp] theorem Hart.wrote_fflags (h : Hart) (d w : Nat) : (h.wrote d w).fflags = h.fflags := Hart.noteWrite_fflags h d w
@[simp] theorem Hart.wrote_modulus (h : Hart) (d w : Nat) : (h.wrote d w).modulus = h.modulus := Hart.noteWrite_modulus h d w
@[simp] theorem Hart.wrote_lossBnd (h : Hart) (d w : Nat) : (h.wrote d w).lossBnd = h.lossBnd := Hart.noteWrite_lossBnd h d w
@[simp] theorem Hart.wrote_tlive0 (h : Hart) (d w : Nat) : (h.wrote d w).tlive0 = h.tlive0 := Hart.noteWrite_tlive0 h d w
@[simp] theorem Hart.wrote_tlive1 (h : Hart) (d w : Nat) : (h.wrote d w).tlive1 = h.tlive1 := Hart.noteWrite_tlive1 h d w
@[simp] theorem Hart.wrote_tlive2 (h : Hart) (d w : Nat) : (h.wrote d w).tlive2 = h.tlive2 := Hart.noteWrite_tlive2 h d w
@[simp] theorem Hart.wrote_tlive3 (h : Hart) (d w : Nat) : (h.wrote d w).tlive3 = h.tlive3 := Hart.noteWrite_tlive3 h d w
@[simp] theorem Hart.wrote_gangId (h : Hart) (d w : Nat) : (h.wrote d w).gangId = h.gangId := Hart.noteWrite_gangId h d w
@[simp] theorem Hart.wrote_gangSize (h : Hart) (d w : Nat) : (h.wrote d w).gangSize = h.gangSize := Hart.noteWrite_gangSize h d w
@[simp] theorem Hart.wrote_taskFp (h : Hart) (d w : Nat) : (h.wrote d w).taskFp = h.taskFp := Hart.noteWrite_taskFp h d w
@[simp] theorem Hart.wrote_status (h : Hart) (d w : Nat) : (h.wrote d w).status = h.status := Hart.noteWrite_status h d w
@[simp] theorem Hart.wrote_trapBase (h : Hart) (d w : Nat) : (h.wrote d w).trapBase = h.trapBase := Hart.noteWrite_trapBase h d w
@[simp] theorem Hart.wrote_trapCause (h : Hart) (d w : Nat) : (h.wrote d w).trapCause = h.trapCause := Hart.noteWrite_trapCause h d w
@[simp] theorem Hart.wrote_trapPc (h : Hart) (d w : Nat) : (h.wrote d w).trapPc = h.trapPc := Hart.noteWrite_trapPc h d w
@[simp] theorem Hart.wrote_trapVal (h : Hart) (d w : Nat) : (h.wrote d w).trapVal = h.trapVal := Hart.noteWrite_trapVal h d w
@[simp] theorem Hart.wrote_trapVec (h : Hart) (d w : Nat) : (h.wrote d w).trapVec = h.trapVec := Hart.noteWrite_trapVec h d w
@[simp] theorem Hart.wrote_rfCorr (h : Hart) (d w : Nat) : (h.wrote d w).rfCorr = h.rfCorr := Hart.noteWrite_rfCorr h d w
@[simp] theorem Hart.wrote_ctx (h : Hart) (d w : Nat) : (h.wrote d w).ctx = h.ctx := Hart.noteWrite_ctx h d w
@[simp] theorem Hart.wrote_run (h : Hart) (d w : Nat) : (h.wrote d w).run = h.run := Hart.noteWrite_run h d w
@[simp] theorem Hart.wrote_conv (h : Hart) (d w : Nat) : (h.wrote d w).conv = h.conv := Hart.noteWrite_conv h d w
@[simp] theorem Hart.wrote_atEntry (h : Hart) (d w : Nat) : (h.wrote d w).atEntry = h.atEntry := Hart.noteWrite_atEntry h d w
@[simp] theorem Hart.wrote_block (h : Hart) (d w : Nat) : (h.wrote d w).block = h.block := Hart.noteWrite_block h d w
@[simp] theorem Hart.wrote_gang (h : Hart) (d w : Nat) : (h.wrote d w).gang = h.gang := Hart.noteWrite_gang h d w
@[simp] theorem Hart.wrote_retired (h : Hart) (d w : Nat) : (h.wrote d w).retired = h.retired := Hart.noteWrite_retired h d w
@[simp] theorem Hart.wrote_op (h : Hart) (d w : Nat) : (h.wrote d w).op = h.op := Hart.noteWrite_op h d w
@[simp] theorem Hart.wrote_mshape (h : Hart) (d w : Nat) : (h.wrote d w).mshape = h.mshape := Hart.noteWrite_mshape h d w
@[simp] theorem Hart.wrote_mfail (h : Hart) (d w : Nat) : (h.wrote d w).mfail = h.mfail := Hart.noteWrite_mfail h d w
@[simp] theorem Hart.wrote_vParity (h : Hart) (d w : Nat) : (h.wrote d w).vParity = h.vParity := Hart.noteWrite_vParity h d w
@[simp] theorem Hart.wrote_sParity (h : Hart) (d w : Nat) : (h.wrote d w).sParity = h.sParity := Hart.noteWrite_sParity h d w
@[simp] theorem Hart.wrote_pParity (h : Hart) (d w : Nat) : (h.wrote d w).pParity = h.pParity := Hart.noteWrite_pParity h d w
@[simp] theorem Hart.wrote_stamp (h : Hart) (d w : Nat) : (h.wrote d w).stamp = h.stamp := Hart.noteWrite_stamp h d w
@[simp] theorem Hart.wrote_batch (h : Hart) (d w : Nat) : (h.wrote d w).batch = h.batch := Hart.noteWrite_batch h d w
@[simp] theorem Hart.wrote_acts (h : Hart) (d w : Nat) : (h.wrote d w).acts = h.acts := Hart.noteWrite_acts h d w

/-! ## `Hart.restart` -/

@[simp] theorem Hart.restart_s (h : Hart) : (h.restart ).s = h.s := rfl
@[simp] theorem Hart.restart_v (h : Hart) : (h.restart ).v = h.v := rfl
@[simp] theorem Hart.restart_tags (h : Hart) : (h.restart ).tags = h.tags := rfl
@[simp] theorem Hart.restart_p (h : Hart) : (h.restart ).p = h.p := rfl
@[simp] theorem Hart.restart_pc (h : Hart) : (h.restart ).pc = h.pc := rfl
@[simp] theorem Hart.restart_mode (h : Hart) : (h.restart ).mode = h.mode := rfl
@[simp] theorem Hart.restart_vl (h : Hart) : (h.restart ).vl = h.vl := rfl
@[simp] theorem Hart.restart_tl (h : Hart) : (h.restart ).tl = h.tl := rfl
@[simp] theorem Hart.restart_tc (h : Hart) : (h.restart ).tc = h.tc := rfl
@[simp] theorem Hart.restart_loopHead (h : Hart) : (h.restart ).loopHead = h.loopHead := rfl
@[simp] theorem Hart.restart_loopSz (h : Hart) : (h.restart ).loopSz = h.loopSz := rfl
@[simp] theorem Hart.restart_rowIdx (h : Hart) : (h.restart ).rowIdx = h.rowIdx := rfl
@[simp] theorem Hart.restart_tileIdx (h : Hart) : (h.restart ).tileIdx = h.tileIdx := rfl
@[simp] theorem Hart.restart_convoy (h : Hart) : (h.restart ).convoy = h.convoy := rfl
@[simp] theorem Hart.restart_hwm (h : Hart) : (h.restart ).hwm = h.hwm := rfl
@[simp] theorem Hart.restart_stepArr (h : Hart) : (h.restart ).stepArr = h.stepArr := rfl
@[simp] theorem Hart.restart_fflags (h : Hart) : (h.restart ).fflags = h.fflags := rfl
@[simp] theorem Hart.restart_modulus (h : Hart) : (h.restart ).modulus = h.modulus := rfl
@[simp] theorem Hart.restart_lossBnd (h : Hart) : (h.restart ).lossBnd = h.lossBnd := rfl
@[simp] theorem Hart.restart_tlive0 (h : Hart) : (h.restart ).tlive0 = h.tlive0 := rfl
@[simp] theorem Hart.restart_tlive1 (h : Hart) : (h.restart ).tlive1 = h.tlive1 := rfl
@[simp] theorem Hart.restart_tlive2 (h : Hart) : (h.restart ).tlive2 = h.tlive2 := rfl
@[simp] theorem Hart.restart_tlive3 (h : Hart) : (h.restart ).tlive3 = h.tlive3 := rfl
@[simp] theorem Hart.restart_gangId (h : Hart) : (h.restart ).gangId = h.gangId := rfl
@[simp] theorem Hart.restart_gangSize (h : Hart) : (h.restart ).gangSize = h.gangSize := rfl
@[simp] theorem Hart.restart_taskFp (h : Hart) : (h.restart ).taskFp = h.taskFp := rfl
@[simp] theorem Hart.restart_status (h : Hart) : (h.restart ).status = h.status := rfl
@[simp] theorem Hart.restart_trapBase (h : Hart) : (h.restart ).trapBase = h.trapBase := rfl
@[simp] theorem Hart.restart_trapCause (h : Hart) : (h.restart ).trapCause = h.trapCause := rfl
@[simp] theorem Hart.restart_trapPc (h : Hart) : (h.restart ).trapPc = h.trapPc := rfl
@[simp] theorem Hart.restart_trapVal (h : Hart) : (h.restart ).trapVal = h.trapVal := rfl
@[simp] theorem Hart.restart_trapVec (h : Hart) : (h.restart ).trapVec = h.trapVec := rfl
@[simp] theorem Hart.restart_rfCorr (h : Hart) : (h.restart ).rfCorr = h.rfCorr := rfl
@[simp] theorem Hart.restart_ctx (h : Hart) : (h.restart ).ctx = h.ctx := rfl
@[simp] theorem Hart.restart_run (h : Hart) : (h.restart ).run = h.run := rfl
@[simp] theorem Hart.restart_conv (h : Hart) : (h.restart ).conv = h.conv := rfl
@[simp] theorem Hart.restart_atEntry (h : Hart) : (h.restart ).atEntry = h.atEntry := rfl
@[simp] theorem Hart.restart_block (h : Hart) : (h.restart ).block = h.block := rfl
@[simp] theorem Hart.restart_gang (h : Hart) : (h.restart ).gang = h.gang := rfl
@[simp] theorem Hart.restart_retired (h : Hart) : (h.restart ).retired = h.retired := rfl
@[simp] theorem Hart.restart_op (h : Hart) : (h.restart ).op = h.op := rfl
@[simp] theorem Hart.restart_mshape (h : Hart) : (h.restart ).mshape = h.mshape := rfl
@[simp] theorem Hart.restart_mfail (h : Hart) : (h.restart ).mfail = h.mfail := rfl
@[simp] theorem Hart.restart_vParity (h : Hart) : (h.restart ).vParity = h.vParity := rfl
@[simp] theorem Hart.restart_sParity (h : Hart) : (h.restart ).sParity = h.sParity := rfl
@[simp] theorem Hart.restart_pParity (h : Hart) : (h.restart ).pParity = h.pParity := rfl
@[simp] theorem Hart.restart_stamp (h : Hart) : (h.restart ).stamp = h.stamp := rfl
@[simp] theorem Hart.restart_batch (h : Hart) : (h.restart ).batch = h.batch := rfl
@[simp] theorem Hart.restart_acts (h : Hart) : (h.restart ).acts = h.acts := rfl

/-! ## `Hart.deliver` -/

@[simp] theorem Hart.deliver_s (h : Hart) (t : Trap) : (h.deliver t).s = h.s := rfl
@[simp] theorem Hart.deliver_v (h : Hart) (t : Trap) : (h.deliver t).v = h.v := rfl
@[simp] theorem Hart.deliver_tags (h : Hart) (t : Trap) : (h.deliver t).tags = h.tags := rfl
@[simp] theorem Hart.deliver_p (h : Hart) (t : Trap) : (h.deliver t).p = h.p := rfl
@[simp] theorem Hart.deliver_mode (h : Hart) (t : Trap) : (h.deliver t).mode = h.mode := rfl
@[simp] theorem Hart.deliver_vl (h : Hart) (t : Trap) : (h.deliver t).vl = h.vl := rfl
@[simp] theorem Hart.deliver_tl (h : Hart) (t : Trap) : (h.deliver t).tl = h.tl := rfl
@[simp] theorem Hart.deliver_tc (h : Hart) (t : Trap) : (h.deliver t).tc = h.tc := rfl
@[simp] theorem Hart.deliver_loopHead (h : Hart) (t : Trap) : (h.deliver t).loopHead = h.loopHead := rfl
@[simp] theorem Hart.deliver_loopSz (h : Hart) (t : Trap) : (h.deliver t).loopSz = h.loopSz := rfl
@[simp] theorem Hart.deliver_rowIdx (h : Hart) (t : Trap) : (h.deliver t).rowIdx = h.rowIdx := rfl
@[simp] theorem Hart.deliver_tileIdx (h : Hart) (t : Trap) : (h.deliver t).tileIdx = h.tileIdx := rfl
@[simp] theorem Hart.deliver_hwm (h : Hart) (t : Trap) : (h.deliver t).hwm = h.hwm := rfl
@[simp] theorem Hart.deliver_vstart (h : Hart) (t : Trap) : (h.deliver t).vstart = h.vstart := rfl
@[simp] theorem Hart.deliver_stepArr (h : Hart) (t : Trap) : (h.deliver t).stepArr = h.stepArr := rfl
@[simp] theorem Hart.deliver_fflags (h : Hart) (t : Trap) : (h.deliver t).fflags = h.fflags := rfl
@[simp] theorem Hart.deliver_modulus (h : Hart) (t : Trap) : (h.deliver t).modulus = h.modulus := rfl
@[simp] theorem Hart.deliver_lossBnd (h : Hart) (t : Trap) : (h.deliver t).lossBnd = h.lossBnd := rfl
@[simp] theorem Hart.deliver_tlive0 (h : Hart) (t : Trap) : (h.deliver t).tlive0 = h.tlive0 := rfl
@[simp] theorem Hart.deliver_tlive1 (h : Hart) (t : Trap) : (h.deliver t).tlive1 = h.tlive1 := rfl
@[simp] theorem Hart.deliver_tlive2 (h : Hart) (t : Trap) : (h.deliver t).tlive2 = h.tlive2 := rfl
@[simp] theorem Hart.deliver_tlive3 (h : Hart) (t : Trap) : (h.deliver t).tlive3 = h.tlive3 := rfl
@[simp] theorem Hart.deliver_gangId (h : Hart) (t : Trap) : (h.deliver t).gangId = h.gangId := rfl
@[simp] theorem Hart.deliver_gangSize (h : Hart) (t : Trap) : (h.deliver t).gangSize = h.gangSize := rfl
@[simp] theorem Hart.deliver_taskFp (h : Hart) (t : Trap) : (h.deliver t).taskFp = h.taskFp := rfl
@[simp] theorem Hart.deliver_trapBase (h : Hart) (t : Trap) : (h.deliver t).trapBase = h.trapBase := rfl
@[simp] theorem Hart.deliver_rfCorr (h : Hart) (t : Trap) : (h.deliver t).rfCorr = h.rfCorr := rfl
@[simp] theorem Hart.deliver_ctx (h : Hart) (t : Trap) : (h.deliver t).ctx = h.ctx := rfl
@[simp] theorem Hart.deliver_run (h : Hart) (t : Trap) : (h.deliver t).run = h.run := rfl
@[simp] theorem Hart.deliver_gang (h : Hart) (t : Trap) : (h.deliver t).gang = h.gang := rfl
@[simp] theorem Hart.deliver_retired (h : Hart) (t : Trap) : (h.deliver t).retired = h.retired := rfl
@[simp] theorem Hart.deliver_op (h : Hart) (t : Trap) : (h.deliver t).op = h.op := rfl
@[simp] theorem Hart.deliver_mshape (h : Hart) (t : Trap) : (h.deliver t).mshape = h.mshape := rfl
@[simp] theorem Hart.deliver_mfail (h : Hart) (t : Trap) : (h.deliver t).mfail = h.mfail := rfl
@[simp] theorem Hart.deliver_vParity (h : Hart) (t : Trap) : (h.deliver t).vParity = h.vParity := rfl
@[simp] theorem Hart.deliver_sParity (h : Hart) (t : Trap) : (h.deliver t).sParity = h.sParity := rfl
@[simp] theorem Hart.deliver_pParity (h : Hart) (t : Trap) : (h.deliver t).pParity = h.pParity := rfl
@[simp] theorem Hart.deliver_stamp (h : Hart) (t : Trap) : (h.deliver t).stamp = h.stamp := rfl
@[simp] theorem Hart.deliver_batch (h : Hart) (t : Trap) : (h.deliver t).batch = h.batch := rfl
@[simp] theorem Hart.deliver_acts (h : Hart) (t : Trap) : (h.deliver t).acts = h.acts := rfl
@[simp] theorem Hart.advance_pc (h : Hart) : h.advance.pc = h.pc + 4 := by simp [Hart.advance]
@[simp] theorem Hart.advance_atEntry (h : Hart) : h.advance.atEntry = false := rfl
@[simp] theorem Hart.advance_block (h : Hart) : h.advance.block = none := rfl
@[simp] theorem Hart.goto_pc (h : Hart) (x : Word) : (h.goto x).pc = x := rfl
@[simp] theorem Hart.goto_atEntry (h : Hart) (x : Word) : (h.goto x).atEntry = false := rfl
@[simp] theorem Hart.goto_block (h : Hart) (x : Word) : (h.goto x).block = none := rfl
@[simp] theorem Hart.advance_sreg (h : Hart) (k : SReg) : h.advance.sreg k = h.sreg k := by simp [Hart.sreg]
@[simp] theorem Hart.advance_vreg (h : Hart) (k : Nat) : h.advance.vreg k = h.vreg k := by simp [Hart.vreg]
@[simp] theorem Hart.advance_preg (h : Hart) (k : PReg) : h.advance.preg k = h.preg k := by simp [Hart.preg]
@[simp] theorem Hart.advance_tag (h : Hart) (k : Nat) : h.advance.tag k = h.tag k := by simp [Hart.tag]
@[simp] theorem Hart.goto_sreg (h : Hart) (x : Word) (k : SReg) : (h.goto x).sreg k = h.sreg k := by simp [Hart.sreg]

/-- An instruction that answers through `finishHart` completes. -/
theorem finishHart_eq (s : State) (f : Hart → Hart) : finishHart s f = .next (s.onHart (fun h => (f h).advance)) := rfl
theorem finishS_eq (s : State) (d : SReg) (x : Word) : finishS s d x = .next (s.onHart (fun h => (h.setS d x).advance)) := rfl

end Sys2Proof.Machine
end

