-- ==== Sys2Proof/WellFormed.lean ====
section
/-! DEFINITION. Which terms of Instr stand for something: predicate fields name p0 to p47 (R54) and a convoy header's guard is one of
these or 63 (R56). Every other operand is typed, so nothing else can be ill-formed. -/

namespace Sys2Proof

/-- A predicate register that exists (R54). -/
def predOk (p : PReg) : Bool := p.toNat < 48

/-- A guard field of a convoy header or of MODE (R12, R56). -/
def guardOk (p : PReg) : Bool := p.toNat < 48 || p.toNat = 63

/-- The well-formed instructions. -/
def Instr.wf (i : Instr) : Bool :=
  match i with
  | .cvy _ g _ _ _ _ => guardOk g
  | .add _ _ _ => true
  | .sub _ _ _ => true
  | .and _ _ _ => true
  | .or _ _ _ => true
  | .xor _ _ _ => true
  | .sll _ _ _ => true
  | .srl _ _ _ => true
  | .sra _ _ _ => true
  | .slt _ _ _ => true
  | .sltu _ _ _ => true
  | .min _ _ _ => true
  | .max _ _ _ => true
  | .minu _ _ _ => true
  | .maxu _ _ _ => true
  | .mul _ _ _ => true
  | .mulh _ _ _ => true
  | .mulhu _ _ _ => true
  | .div _ _ _ => true
  | .divu _ _ _ => true
  | .rem _ _ _ => true
  | .remu _ _ _ => true
  | .clz _ _ => true
  | .ctz _ _ => true
  | .popc _ _ => true
  | .sextb _ _ => true
  | .sexth _ _ => true
  | .sextw _ _ => true
  | .brev _ _ => true
  | .bswap _ _ => true
  | .addi _ _ _ => true
  | .andi _ _ _ => true
  | .ori _ _ _ => true
  | .xori _ _ _ => true
  | .slti _ _ _ => true
  | .sltiu _ _ _ => true
  | .slli _ _ _ => true
  | .srli _ _ _ => true
  | .srai _ _ _ => true
  | .lui _ _ => true
  | .addpc _ _ => true
  | .fadd _ _ _ _ => true
  | .fsub _ _ _ _ => true
  | .fmul _ _ _ _ => true
  | .fdiv _ _ _ _ => true
  | .fsqrt _ _ _ => true
  | .fmin _ _ _ _ => true
  | .fmax _ _ _ _ => true
  | .feq _ _ _ _ => true
  | .flt _ _ _ _ => true
  | .fle _ _ _ _ => true
  | .funord _ _ _ _ => true
  | .fcvti _ _ _ => true
  | .fcvtu _ _ _ => true
  | .fcvtf _ _ _ => true
  | .fcvtfu _ _ _ => true
  | .fcvtw _ _ _ => true
  | .fclass _ _ _ => true
  | .fma _ _ _ _ _ => true
  | .fms _ _ _ _ _ => true
  | .fnma _ _ _ _ _ => true
  | .fnms _ _ _ _ _ => true
  | .ld _ _ _ _ => true
  | .st _ _ _ _ => true
  | .br _ _ _ _ => true
  | .jmp _ => true
  | .call _ => true
  | .jr _ _ _ => true
  | .strip _ _ _ _ _ => true
  | .sloop _ _ => true
  | .mfs _ _ => true
  | .mts _ _ => true
  | .mset _ _ => true
  | .mclr _ _ => true
  | .sysc => true
  | .eret => true
  | .brk => true
  | .wfi => true
  | .fenceAcq _ => true
  | .fenceRel _ => true
  | .fenceFull _ => true
  | .tlbinv _ _ => true
  | .cflush _ => true
  | .cinval _ => true
  | .pand d a b => predOk d && predOk a && predOk b
  | .por d a b => predOk d && predOk a && predOk b
  | .pxor d a b => predOk d && predOk a && predOk b
  | .pandn d a b => predOk d && predOk a && predOk b
  | .pnot d a => predOk d && predOk a
  | .pset d _ b => predOk d && predOk b
  | .pcnt _ a b => predOk a && predOk b
  | .pfirst _ a b => predOk a && predOk b
  | .pmvs _ a b => predOk a && predOk b
  | .pmvp d _ b => predOk d && predOk b
  | .vtag _ _ => true
  | .vsetl _ _ _ => true
  | .vhwm _ => true
  | .vadd _ _ _ => true
  | .vsub _ _ _ => true
  | .vmul _ _ _ => true
  | .vmulh _ _ _ => true
  | .vdiv _ _ _ => true
  | .vrem _ _ _ => true
  | .vmin _ _ _ => true
  | .vmax _ _ _ => true
  | .vand _ _ _ => true
  | .vor _ _ _ => true
  | .vxor _ _ _ => true
  | .vshl _ _ _ => true
  | .vshr _ _ _ => true
  | .vabsd _ _ _ => true
  | .vsel _ _ _ => true
  | .vmov _ _ => true
  | .vneg _ _ => true
  | .vabs _ _ => true
  | .vnot _ _ => true
  | .vcvt _ _ => true
  | .vrcp _ _ => true
  | .vrsq _ _ => true
  | .vexp2 _ _ => true
  | .vlog2 _ _ => true
  | .vpopc _ _ => true
  | .vclz _ _ => true
  | .vmred _ _ => true
  | .vfma _ _ _ _ => true
  | .vfms _ _ _ _ => true
  | .vfnma _ _ _ _ => true
  | .vfnms _ _ _ _ => true
  | .vcmp d _ _ _ => predOk d
  | .vbcast _ _ => true
  | .vext _ _ _ => true
  | .vins _ _ _ => true
  | .vperm _ _ _ => true
  | .vslup _ _ _ => true
  | .vsldn _ _ _ => true
  | .vcomp _ _ b => predOk b
  | .vexpd _ _ b => predOk b
  | .vredSum _ _ => true
  | .vredMin _ _ => true
  | .vredMax _ _ => true
  | .vredAmax _ _ => true
  | .vredAnd _ _ => true
  | .vredOr _ _ => true
  | .vredXor _ _ => true
  | .vscanIsum _ _ => true
  | .vscanEsum _ _ => true
  | .vscanImax _ _ => true
  | .vld _ _ _ => true
  | .vlds _ _ _ => true
  | .vldx _ _ _ => true
  | .vst _ _ _ => true
  | .vsts _ _ _ => true
  | .vstx _ _ _ => true
  | .vamoAdd _ _ _ _ => true
  | .vamoMin _ _ _ _ => true
  | .vamoMax _ _ _ _ => true
  | .vamoAnd _ _ _ _ => true
  | .vamoOr _ _ _ _ => true
  | .vamoXor _ _ _ _ => true
  | .vamoSwap _ _ _ _ => true
  | .vamoFadd _ _ _ _ => true
  | .vamoFmax _ _ _ _ => true
  | .amoAdd _ _ _ _ _ => true
  | .amoAnd _ _ _ _ _ => true
  | .amoOr _ _ _ _ _ => true
  | .amoXor _ _ _ _ _ => true
  | .amoMin _ _ _ _ _ => true
  | .amoMax _ _ _ _ _ => true
  | .amoMinu _ _ _ _ _ => true
  | .amoMaxu _ _ _ _ _ => true
  | .amoSwap _ _ _ _ _ => true
  | .cas _ _ _ _ _ => true
  | .binit _ _ => true
  | .barrive _ _ => true
  | .bexpect _ _ => true
  | .bwait _ _ => true
  | .btest _ _ _ => true
  | .step _ _ => true
  | .spawn _ _ => true
  | .texit => true
  | .tgraph _ _ _ => true
  | .tld _ _ _ => true
  | .tst _ _ _ => true
  | .tcpy _ _ => true
  | .tfill _ _ => true
  | .ttag _ => true
  | .tpack _ _ _ => true
  | .tunpk _ _ => true
  | .twait _ _ => true
  | .vldt _ _ _ => true
  | .vstt _ _ _ => true
  | .xbatchCopy d _ => predOk d
  | .xbatchFabric d _ => predOk d
  | .xbatchColl d _ => predOk d
  | .mshape _ => true
  | .mzero _ => true
  | .mread _ _ _ => true
  | .mload _ _ => true
  | .mfence => true
  | .mma _ _ _ => true
  | .mmab _ _ _ => true
  | .mdec _ _ => true
  | .mmanm _ _ _ => true
  | .mrem _ _ _ => true
  | .mscan _ _ _ => true
  | .scfg _ => true
  | .sgo _ _ _ => true
  | .smark _ _ => true
  | .sdrain _ => true
  | .sstat _ _ => true
  | .stwld _ _ => true
  | .cgrp _ _ => true
  | .cprg _ _ _ => true
  | .cstart _ _ => true
  | .cwait _ _ => true
  | .cpoll _ _ => true
  | .cabort _ _ => true
  | .crepart _ _ => true
  | .crot _ _ => true
  | .cjoin _ _ _ => true
  | .cshrink _ _ => true
  | .dgrd _ _ => true
  | .dgwr _ _ => true
  | .illegalInsn _ => true
  | .doorbell _ _ _ => true
  | .rst _ => true
  | .svdb _ => true
  | .hostBar2Access _ => true
  | .registerWrite _ _ => true
  | .unitReady _ => true
  | .dieFence _ _ => true
  | .messageArrival _ => true
  | .messageForward _ => true
  | .squareContribution _ => true
  | .abortNoticeArrival _ => true
  | .joinNoticeArrival _ => true
  | .rotationLanding _ => true
  | .lose _ => true
  | .linkCrcReplay _ => true
  | .linkDown _ => true
  | .portCrcReplay _ => true
  | .portDown _ => true
  | .frctlRetry _ _ => true
  | .frctlAbort _ _ => true
  | .interruptEntry => true
  | .queueServe => true
  | .queuePromotion _ => true
  | .distributorPreempt _ => true
  | .heldPostEntry _ => true
  | .gangComplete _ _ => true
  | .engineCredit _ => true
  | .barrierAgeExpiry _ => true
  | .copyChunkDone _ _ => true
  | .transferPage _ _ => true
  | .protect _ _ => true
  | .matrixExecute _ _ => true
  | .configPeriod _ => true
  | .contextFire _ _ => true
  | .inputPortEmit _ _ => true
  | .outputPortCommit _ _ => true
  | .reweight _ _ => true
  | .blockedEdge _ _ => true
  | .faultRecordEntry _ _ => true
  | .retire _ => true
  | .abandon _ => true
  | .preemptRequest _ _ => true
  | .preemptSave _ _ => true
  | .gangRestore _ _ => true
  | .saveadd _ _ => true
  | .hotpageWindow _ => true
  | .pageMigration _ => true
  | .crossDieWriteApply _ => true
  | .collectiveStep _ => true
  | .squareTimeout _ => true
  | .repartitionExchange _ => true
  | .setRelease _ => true
  | .post _ => true
  | .copy _ => true
  | .hostDmaFault _ => true
  | .hdfrctlRetry _ => true
  | .hdfrctlAbort _ => true
  | .ident _ => true
  | .setrank _ => true
  | .mgmtFence _ => true
  | .mgmtRepair _ => true
  | .replist _ => true
  | .attest _ => true
  | .fwstage _ => true
  | .powercap _ => true
  | .test _ => true
  | .mgmtReset _ => true
  | .telem _ => true
  | .packageReset => true
  | .thermalThrottle => true
  | .thermalShutdown => true
  | .fetchFault => true
  | .hostDmaComplete _ => true

end Sys2Proof
end

