-- ==== Sys2Proof/Safety.lean ====
section
/-! DEFINITION. What counts as a safe step, and the terms in which claims say what an instruction does and what it leaves alone. -/

namespace Sys2Proof.Machine

/-- A step that neither stops the machine nor is refused. -/
def safeStep (s : State) : Prop := ∃ t, step s = .next t

/-- An instruction completes with a next state of which `P` holds. -/
def Completes (i : Instr) (s : State) (P : State → Prop) : Prop := ∃ t, exec i s = .next t ∧ P t

/-! ## What a step leaves alone -/

/-- Nothing but the acting hart changes: no other hart, no byte of memory, no core, die or unit. -/
structure OnlyHart (s t : State) : Prop where
  outside : { t with harts := s.harts } = s
  harts : ∀ n, n ≠ s.cur → t.hartAt n = s.hartAt n
  memory : ∀ a, t.mem.cells.read a = s.mem.cells.read a

/-- The hart with the course of its instructions put aside: the PC, its convoy and CONVOY, and what it waits in. -/
def Hart.still (h : Hart) : Hart := { h with pc := 0, convoy := 0, conv := none, atEntry := false, block := none }

/-- The hart without its scalar registers. -/
def Hart.lessS (h : Hart) : Hart := { h with s := [], sParity := [] }
/-- The hart without its predicate registers. -/
def Hart.lessP (h : Hart) : Hart := { h with p := [], pParity := [] }
/-- The hart without its vector registers and their tags. -/
def Hart.lessV (h : Hart) : Hart := { h with v := [], vParity := [], tags := [] }
/-- The hart without FFLAGS. -/
def Hart.lessFlags (h : Hart) : Hart := { h with fflags := 0 }

/-- The instruction ends and the next word follows: the PC, and the convoy with CONVOY (R19, R60). -/
structure GoesOn (h h' : Hart) : Prop where
  pc : h'.pc = h.pc + 4
  conv : h'.conv = h.convNext.conv
  convoy : h'.convoy = h.convNext.convoy

/-- The only effect is s[d] := x, and the hart goes on; a write to s0 is discarded (R7, R71). -/
structure WritesS (s t : State) (d : SReg) (x : Word) : Prop where
  value : d ≠ 0 → t.hart.sreg d = x
  zero : t.hart.sreg 0 = 0
  others : ∀ r, r ≠ d → t.hart.sreg r = s.hart.sreg r
  goesOn : GoesOn s.hart t.hart
  rest : t.hart.still.lessS = s.hart.still.lessS
  only : OnlyHart s t

/-- The same, with flags raised in FFLAGS (R21). -/
structure WritesSFlags (s t : State) (d : SReg) (x : Word) (f : FFlags) : Prop where
  value : d ≠ 0 → t.hart.sreg d = x
  zero : t.hart.sreg 0 = 0
  others : ∀ r, r ≠ d → t.hart.sreg r = s.hart.sreg r
  flags : t.hart.fflags = s.hart.fflags ||| f.setWidth 64
  goesOn : GoesOn s.hart t.hart
  rest : t.hart.still.lessS.lessFlags = s.hart.still.lessS.lessFlags
  only : OnlyHart s t

/-- The only effect is that p[d] receives x, and the hart goes on. -/
structure WritesP (s t : State) (d : PReg) (x : PWord) : Prop where
  value : t.hart.preg d = x
  others : ∀ r, r ≠ d → t.hart.preg r = s.hart.preg r
  goesOn : GoesOn s.hart t.hart
  rest : t.hart.still.lessP = s.hart.still.lessP
  only : OnlyHart s t

/-- Control goes to an address, with at most a link register written; a convoy ends (R83 to R87). -/
structure GoesTo (s t : State) (link : Option (SReg × Word)) (pc : Word) : Prop where
  pc : t.hart.pc = pc
  regs : ∀ r, t.hart.sreg r = if link.map (·.1) = some r ∧ r ≠ 0 then (link.map (·.2)).getD 0 else s.hart.sreg r
  conv : t.hart.conv = none
  convoy : s.hart.conv ≠ none → t.hart.convoy = 0
  outside : s.hart.conv = none → t.hart.convoy = s.hart.convoy
  rest : t.hart.still.lessS = s.hart.still.lessS
  only : OnlyHart s t

/-! ## Traps -/

/-- A trap of the acting hart is delivered: TRAPBASE is set, and the instruction is not the first after an entry (R321). -/
def CanTrap (s : State) : Prop := s.hart.trapBase ≠ 0 ∧ s.hart.atEntry = false

/-- A trap has been delivered on the acting hart (R23, R321): what is saved, what STATUS becomes, and where the PC goes. -/
structure Trapped (s t : State) (cause : Nat) (val vec : Word) : Prop where
  trapCause : t.hart.trapCause = word cause
  trapPc : t.hart.trapPc = addrField 2 s.hart.pc
  trapVal : t.hart.trapVal = val
  trapVec : t.hart.trapVec = vec
  sup : bit t.hart.status 0 = true
  ie : bit t.hart.status 1 = false
  psup : bit t.hart.status 3 = bit s.hart.status 0
  pie : bit t.hart.status 4 = bit s.hart.status 1
  careful : bit t.hart.status 2 = bit s.hart.status 2
  pc : t.hart.pc = sext57 s.hart.trapBase + word (cause * 64)
  entry : t.hart.atEntry = true
  convoy : t.hart.convoy = s.hart.trapConvoy
  conv : t.hart.conv = none
  rest : { t.hart.still with trapCause := 0, trapPc := 0, trapVal := 0, trapVec := 0, status := 0 } =
    { s.hart.still with trapCause := 0, trapPc := 0, trapVal := 0, trapVec := 0, status := 0 }
  only : OnlyHart s t

/-! ## Vector instructions -/

/-- HWM after a write of register d, of width w and perhaps paired, by a hart (R20). -/
def hwmAfter (h : Hart) (d w : Nat) (pair : Bool) : Word :=
  if h.vlen = 0 then h.hwm
  else word (65536 + max (field h.hwm 15 8) ((min h.vlen (2048 / w) * w - 1) / 8) * 256 + max (field h.hwm 5 0) (if pair then d + 1 else d))

/-- The hart without what an instruction of the vector file may write: the file, its tags, FFLAGS, HWM and VSTART. -/
def Hart.lessVec (h : Hart) : Hart := { h.lessV.lessFlags with hwm := 0, vstart := 0 }

/-- An unpaired register d of tag `tag` is written, element by element: `f k` is the new pattern of element k, or none where it keeps its
old one. Other registers, their tags and everything else stay (R8, R16, R20, R21, R99). -/
structure VecWrites (s t : State) (d : VReg) (tag : Tag) (f : Nat → Option Nat) (flags : FFlags) : Prop where
  elems : ∀ k, k < 2048 / tag.width s.hart.vwBits → lane (t.hart.vreg d.toNat) (tag.width s.hart.vwBits) k =
    ((f k).map (· % 2 ^ tag.width s.hart.vwBits)).getD (lane (s.hart.vreg d.toNat) (tag.width s.hart.vwBits) k)
  others : ∀ r, r ≠ d.toNat → t.hart.vreg r = s.hart.vreg r
  tagged : t.hart.tag d.toNat = tag
  tags : ∀ r, r ≠ d.toNat → t.hart.tag r = s.hart.tag r
  flags : t.hart.fflags = s.hart.fflags ||| flags.setWidth 64
  hwm : t.hart.hwm = hwmAfter s.hart d.toNat (tag.width s.hart.vwBits) false
  vstart : t.hart.vstart = 0
  goesOn : GoesOn s.hart t.hart
  rest : t.hart.still.lessVec = s.hart.still.lessVec
  only : OnlyHart s t

/-- A pair d, d + 1 of tag `tag` is written block by block: each block that lies below n receives its exact results converted as one
block, and the others stay (R36, R38, R101, log 22). -/
structure BlockWrites (s t : State) (d : VReg) (tag : Tag) (n : Nat) (res : Nat → Val × FFlags) (flags : FFlags) : Prop where
  main : t.hart.vreg d.toNat = (s.hart.putBlocks d.toNat tag n res).vreg d.toNat
  side : t.hart.vreg (d.toNat + 1) = (s.hart.putBlocks d.toNat tag n res).vreg (d.toNat + 1)
  others : ∀ r, r ≠ d.toNat → r ≠ d.toNat + 1 → t.hart.vreg r = s.hart.vreg r
  tagged : t.hart.tag d.toNat = tag
  tags : ∀ r, r ≠ d.toNat → r ≠ d.toNat + 1 → r ≠ d.toNat + 2 → t.hart.tag r = s.hart.tag r
  flags : t.hart.fflags = (s.hart.putBlocks d.toNat tag n res).fflags ||| flags.setWidth 64
  hwm : t.hart.hwm = hwmAfter s.hart d.toNat (tag.width s.hart.vwBits) true
  vstart : t.hart.vstart = 0
  goesOn : GoesOn s.hart t.hart
  rest : t.hart.still.lessVec = s.hart.still.lessVec
  only : OnlyHart s t

/-- Element k is executed: it lies from VSTART to E − 1 and the guard selects it (R16, R17, R98). -/
def Hart.runs (h : Hart) (w k : Nat) : Bool := h.first ≤ k && k < min h.vlen (2048 / w) && h.active k

/-- A result of operation type `op` converted once into tag `t`, with its flags (R26). -/
def Hart.converted (h : Hart) (op t : Tag) (r : Val × FFlags) : Nat × FFlags :=
  ((roundTo h.arith h.prime op t r.1).1, r.2 ||| (roundTo h.arith h.prime op t r.1).2)

/-- The flags of the executed elements together. -/
def Hart.rowFlags (h : Hart) (w : Nat) (g : Nat → FFlags) : FFlags :=
  (h.row h.first (h.count w)).foldl (fun f k => f ||| g k) 0

/-- An arithmetic instruction writes d: every executed element receives its result converted once, or every whole block does (R26, R101). -/
def VecArith (s t : State) (d : VReg) (op tag : Tag) (w : Nat) (flags : FFlags) (res : Nat → Val × FFlags) : Prop :=
  if tag.paired then BlockWrites s t d tag (s.hart.count w) res flags
  else VecWrites s t d tag (fun k => if s.hart.runs w k then some (s.hart.converted op tag (res k)).1 else none)
    (flags ||| s.hart.rowFlags w (fun k => (s.hart.converted op tag (res k)).2))

/-- The tag rules let an arithmetic instruction of operation type `op` write d, whose tag is then `tag` (R10, R25, R26, R100, R101). -/
def Hart.accepts (h : Hart) (d : VReg) (srcs : List Src) (op tag : Tag) : Prop :=
  (h.takeDest d.toNat op).map (·.2) = some tag ∧ converts op tag = true ∧ h.blocksOk tag = true ∧ scalarFormOk h srcs = true

/-! ## Barriers -/

/-- Barrier k of a core stands as `b` after an event, evaluated with nothing held (R149): with all arrivals in and nothing pending the phase is
over, the count starts again, and every hart of the core that waited for its end goes on. Other barriers, the rest of the cores and every
other hart but `me` are as before. -/
def BarrierStands (s t : State) (me : Option Nat) (core k : Nat) (b : Barrier) : Prop :=
  let done := b.arr = b.exp ∧ b.pend = 0 ∧ b.broken = false ∧ b.exp ≠ 0
  let ph := (b.phase + 1) % 65536
  (t.coreAt core).bar k = (if done then { b with phase := ph, arr := 0 } else b) ∧
  (∀ j, j ≠ k → (t.coreAt core).bar j = (s.coreAt core).bar j) ∧
  { t.coreAt core with bars := [] } = { s.coreAt core with bars := [] } ∧
  (∀ c, c ≠ core → t.coreAt c = s.coreAt c) ∧
  ∀ n, some n ≠ me → t.hartAt n = match (s.hartAt n).block with
    | some ⟨.phase k' p st, _, _⟩ =>
      if n / 8 = core ∧ k' = k ∧ done ∧ p ≠ ph then ({ s.hartAt n with stepArr := if st then 0 else (s.hartAt n).stepArr }).advance
      else s.hartAt n
    | _ => s.hartAt n

/-- The harts of the arrivals that a barrier holds are different harts of its core, each blocked in its arrival (R149). -/
def BarrierHolds (s : State) (core k : Nat) (b : Barrier) : Prop :=
  (b.held.map (·.hart)).Nodup ∧ ∀ x ∈ b.held, x.hart / 8 = core ∧ (s.hartAt x.hart).block.map (·.wait) = some (.held k x.d x.step)

/-- A barrier whose count `b` is full ends its phase with arrivals held (R149). They are admitted oldest first, EXP to a phase; each phase that
they fill is over too. An admitted hart has its phase in s[d]; its `barrive` is complete, and its `step` waits for the end of that phase, or
goes on where that is over. Harts that waited for another phase than the last new one, or for any phase but the only new one, go on. -/
def Admits (s t : State) (me : Option Nat) (core k : Nat) (b : Barrier) : Prop :=
  let rounds := b.held.length / b.exp + 1
  let ph := fun (r : Nat) => (b.phase + r) % 65536
  (t.coreAt core).bar k = { b with phase := ph rounds, arr := b.held.length % b.exp, held := [] } ∧
  (∀ j, j ≠ k → (t.coreAt core).bar j = (s.coreAt core).bar j) ∧ (∀ c, c ≠ core → t.coreAt c = s.coreAt c) ∧
  (∀ j x, b.held[j]? = some x → let h := s.hartAt x.hart; let h' := t.hartAt x.hart; let r := j / b.exp + 1
    (x.d ≠ 0 → h'.sreg x.d = word (ph r)) ∧ (∀ q, q ≠ x.d → h'.sreg q = h.sreg q) ∧
    (x.step = false ∨ r < rounds → GoesOn h h') ∧ (x.step = true → r < rounds → h'.stepArr = 0) ∧
    (x.step = true → r = rounds → h'.pc = h.pc ∧ h'.stepArr = 1 ∧ h'.block.map (·.wait) = some (.phase k (ph r) true))) ∧
  ∀ n, some n ≠ me → (∀ x ∈ b.held, x.hart ≠ n) → t.hartAt n = match (s.hartAt n).block with
    | some ⟨.phase k' p st, _, _⟩ =>
      if n / 8 = core ∧ k' = k ∧ (p ≠ ph 1 ∨ 1 < rounds) then ({ s.hartAt n with stepArr := if st then 0 else (s.hartAt n).stepArr }).advance
      else s.hartAt n
    | _ => s.hartAt n

/-! ## The host's rings -/

/-- RD has moved past a ring's next entry. -/
def State.pastEntry (s : State) (ring : Nat) : State := s.onRing ring (fun t => { t with rd := t.rd + 1 })

/-- Entry e of a ring is done after `s`: with CMPL not zero the completion word holds the status and the result, and with IRQ the message of
the ring, or vector 16 for a management entry, is sent (R413, R419). -/
structure EntryDone (s t : State) (ring e status result : Nat) : Prop where
  rest : { t with mem := s.mem, outputs := s.outputs } = s
  memory : ∀ a, t.mem.cells.read a =
    if recBits e 8 63 0 ≠ 0 ∧ hostKey (recBits e 8 63 0) ≤ a ∧ a < hostKey (recBits e 8 63 0) + 8 then
      BitVec.ofNat 8 ((status % 2 ^ 32 + result % 2 ^ 32 * 2 ^ 32) / 256 ^ (a - hostKey (recBits e 8 63 0)))
    else s.mem.cells.read a
  outputs : t.outputs = s.outputs ++ (if e.testBit 9 then [Output.msix (if recBits e 0 7 0 = 3 then 16 else ring)] else [])

/-! ## Who moves next -/

/-- What moves next is on offer (log 8): a hart that runs and has not retired, a step that the state offers its agents, an act of the outside
that waits, or nothing where nothing is on offer. A frozen, stopped, free or retired hart has no turn (R327, R336). -/
def State.turnLegal (s : State) : Prop :=
  match s.turn with
  | .hart n => ∃ h, (n, h) ∈ s.harts ∧ h.run = .running ∧ h.retired = false
  | .event e => e ∈ s.events
  | .input => s.inputs ≠ []
  | .idle => s.candidates = []

end Sys2Proof.Machine
end

