-- ==== Sys2Proof/Laws/Ops.lean ====
section
/-! SUPPORT. What the shared endings of a meaning do, said once each in the terms of Safety. -/

-- one theorem at a time: many at once would each hold a thread's stack
set_option Elab.async false

namespace Sys2Proof.Machine

theorem Hart.sreg_setS_self (h : Hart) {r : SReg} (x : Word) (hr : r ≠ 0) : (h.setS r x).sreg r = x := by
  have h0 : ¬ r = 0#5 := hr
  rw [Hart.sreg_setS, if_neg h0, if_pos rfl]

theorem Hart.sreg_setS_ne (h : Hart) {r k : SReg} (x : Word) (e : k ≠ r) : (h.setS r x).sreg k = h.sreg k := by
  rw [Hart.sreg_setS, if_neg e]
  split
  · next h0 => subst h0; rfl
  · rfl

theorem onHart_onlyHart (s : State) (f : Hart → Hart) : OnlyHart s (s.onHart f) :=
  ⟨rfl, fun _ hn => State.hartAt_onHart_ne s f hn, fun _ => rfl⟩

theorem goesOn_advance (h h' : Hart) (hp : h'.pc = h.pc) (hv : h'.conv = h.conv) (hc : h'.convoy = h.convoy) : GoesOn h h'.advance := by
  refine ⟨by simp [Hart.advance, hp], ?_, ?_⟩ <;> simp only [Hart.advance, Hart.convNext, hv] <;> split <;>
    first
      | rfl
      | (split <;> rfl)
      | simp [hv, hc]

theorem still_advance (h : Hart) : h.advance.still = h.still := by
  simp only [Hart.advance, Hart.still, Hart.convNext]
  split
  · rfl
  · split <;> rfl

theorem Hart.setS_still_lessS (h : Hart) (d : SReg) (x : Word) : (h.setS d x).still.lessS = h.still.lessS := by
  unfold Hart.setS
  split <;> rfl

theorem Hart.setP_still_lessP (h : Hart) (d : PReg) (x : PWord) : (h.setP d x).still.lessP = h.still.lessP := rfl

/-- What `finishS` answers: s[d] written, and nothing else. -/
theorem finishS_writes (s : State) (d : SReg) (x : Word) : ∃ t, finishS s d x = .next t ∧ WritesS s t d x := by
  refine ⟨_, rfl, ⟨?_, rfl, ?_, ?_, ?_, onHart_onlyHart s _⟩⟩
  · intro hd; rw [State.hart_onHart, Hart.advance_sreg, Hart.sreg_setS_self _ _ hd]
  · intro r hr; rw [State.hart_onHart, Hart.advance_sreg, Hart.sreg_setS_ne _ _ hr]
  · rw [State.hart_onHart]
    exact goesOn_advance _ _ (by unfold Hart.setS; split <;> rfl) (by unfold Hart.setS; split <;> rfl) (by unfold Hart.setS; split <;> rfl)
  · rw [State.hart_onHart, still_advance, Hart.setS_still_lessS]

/-- What a flag-raising write of s[d] does. -/
theorem finishFlags_writes (s : State) (d : SReg) (x : Word) (f : FFlags) :
    ∃ t, finishHart s (fun h => (h.raise f).setS d x) = .next t ∧ WritesSFlags s t d x f := by
  refine ⟨_, rfl, ⟨?_, rfl, ?_, ?_, ?_, ?_, onHart_onlyHart s _⟩⟩
  · intro hd; rw [State.hart_onHart, Hart.advance_sreg, Hart.sreg_setS_self _ _ hd]
  · intro r hr; rw [State.hart_onHart, Hart.advance_sreg, Hart.sreg_setS_ne _ _ hr]; rfl
  · rw [State.hart_onHart]; simp only [Hart.advance_fflags, Hart.setS_fflags]; rfl
  · rw [State.hart_onHart]
    exact goesOn_advance _ _ (by unfold Hart.setS; split <;> rfl) (by unfold Hart.setS; split <;> rfl) (by unfold Hart.setS; split <;> rfl)
  · rw [State.hart_onHart, still_advance, Hart.setS_still_lessS]; rfl

/-- What a write of p[d] does. -/
theorem finishP_writes (s : State) (d : PReg) (x : PWord) :
    ∃ t, finishHart s (fun h => h.setP d x) = .next t ∧ WritesP s t d x := by
  refine ⟨_, rfl, ⟨?_, ?_, ?_, ?_, onHart_onlyHart s _⟩⟩
  · simp [Hart.preg, Hart.setP]
  · intro r hr
    have : r.toNat ≠ d.toNat := fun h => hr (BitVec.eq_of_toNat_eq h)
    simp [Hart.preg, Hart.setP, this]
  · rw [State.hart_onHart]; exact goesOn_advance _ _ rfl rfl rfl
  · rw [State.hart_onHart, still_advance]; rfl

/-! ## Traps -/

theorem bit_word (n k : Nat) (h : k < 64) : bit (word n) k = n.testBit k := by
  unfold bit word
  rw [BitVec.getLsbD_ofNat]; simp only [h, decide_true, Bool.true_and]
/-- STATUS at a trap or interrupt entry, bit by bit (R23). -/
theorem statusEnter_bits (w : Word) : bit (statusEnter w) 0 = true ∧ bit (statusEnter w) 1 = false ∧
    bit (statusEnter w) 2 = bit w 2 ∧ bit (statusEnter w) 3 = bit w 0 ∧ bit (statusEnter w) 4 = bit w 1 := by
  unfold statusEnter
  rw [bit_word _ _ (by decide), bit_word _ _ (by decide), bit_word _ _ (by decide), bit_word _ _ (by decide), bit_word _ _ (by decide)]
  generalize w.toNat / 32 = q
  simp only [Nat.testBit_eq_decide_div_mod_eq]
  cases bit w 0 <;> cases bit w 1 <;> cases bit w 2 <;> refine ⟨?_, ?_, ?_, ?_, ?_⟩ <;> simp <;> omega
/-- What taking a trap does, once TRAPBASE is set and the instruction is not the first after an entry (R321). -/
theorem takeTrap_trapped (s : State) (c : Nat) (v vec : Word) (hc : CanTrap s) : Trapped s (takeTrap ⟨c, v, vec⟩ s) c v vec := by
  have e : takeTrap ⟨c, v, vec⟩ s = s.onHart (fun h => h.deliver ⟨c, v, vec⟩) := by
    unfold takeTrap trapOn
    have h1 : ¬ (s.hartAt s.cur).trapBase = 0 := hc.1
    have h2 : (s.hartAt s.cur).atEntry = false := hc.2
    simp only [h1, h2, if_false]; rfl
  obtain ⟨b0, b1, b2, b3, b4⟩ := statusEnter_bits s.hart.status
  rw [e]
  constructor <;> first | (rw [State.hart_onHart]; first | rfl | exact b0 | exact b1 | exact b2 | exact b3 | exact b4) | exact onHart_onlyHart _ _

end Sys2Proof.Machine
end

