-- ==== Sys2Proof/Certificates/Slice0/Obligations.lean ====
section
/-! DEFINITION. The statements for the provers: what an instruction or the machine does, by the rules of the spec. -/

open Sys2Proof Sys2Proof.Machine

/-! ## Encoding -/

/-- R52, R53, R64: the words that the manual works out in its own examples (after R63 and R79, in R85, R91 and R95), and the all-zero word, decode to
what the manual says they are. -/
def Obligations.ManualWordsDecode : Prop :=
  decodeWord 0x04850000 = .ok (.cvy 2 5 false .rne false false) ∧
  decodeWord 0x6C804202 = .ok (.vmul 8 1 (.v 2)) ∧
  decodeWord 0x6CD20500 = .ok (.vadd 13 8 (.v 5)) ∧
  decodeWord 0x88D10000 = .ok (.vst 13 4 0) ∧
  decodeWord 0x385187A0 = .ok (.fma 5 6 7 true 8) ∧
  decodeWord 0x38518720 = .ok (.fma 5 6 7 false 8) ∧
  decodeWord 0x50004000 = .ok (.jr 0 1 0) ∧
  decodeWord 0x5C505000 = .ok (.mfs 5 0x050) ∧
  decodeWord 0x6006C008 = .ok (.fenceFull .pkg) ∧
  (∀ i, decodeWord 0 ≠ .ok i)

/-- R53 to R56, R64: every instruction that has a word decodes back from it, with every operand at every value its field admits, and the word has 32
bits. -/
def Obligations.DecodeOfEncode : Prop :=
  ∀ (i : Instr) (w : Nat), i.wf = true → encode i = some w → w < 2 ^ 32 ∧ decodeWord w = .ok i

/-- R54, R56, R64: a word that decodes is the encoding of a well-formed instruction, so no two words mean the same instruction and no bit of a word
is without a meaning: a reserved field that is not zero, a register field out of range or a code that the map does not list is rejected. -/
def Obligations.EncodeOfDecode : Prop :=
  ∀ (i : Instr) (w : Nat), w < 2 ^ 32 → decodeWord w = .ok i → i.wf = true ∧ encode i = some w

/-! ## Scalar integer instructions -/

/-- R73: the operations of major 0x02 on two registers. Each completes in every state, its one effect being s[d]; s0 reads as zero and discards
writes. R31, R73: division. Quotients truncate toward zero; a zero divisor gives the quotient all ones and leaves the dividend as the remainder; the
most negative dividend over −1 gives itself with remainder zero. None traps. -/
def Obligations.AluResults : Prop :=
  (
  ∀ (s : State) (d a b : SReg), let x := s.hart.sreg a; let y := s.hart.sreg b
    Completes (.add d a b) s (WritesS s · d (word (x.toNat + y.toNat))) ∧
    Completes (.sub d a b) s (WritesS s · d (BitVec.ofInt 64 (x.toInt - y.toInt))) ∧
    Completes (.and d a b) s (WritesS s · d (x &&& y)) ∧
    Completes (.or d a b) s (WritesS s · d (x ||| y)) ∧
    Completes (.xor d a b) s (WritesS s · d (x ^^^ y)) ∧
    Completes (.sll d a b) s (WritesS s · d (word (x.toNat * 2 ^ (y.toNat % 64)))) ∧
    Completes (.srl d a b) s (WritesS s · d (word (x.toNat / 2 ^ (y.toNat % 64)))) ∧
    Completes (.sra d a b) s (WritesS s · d (BitVec.ofInt 64 (x.toInt / 2 ^ (y.toNat % 64)))) ∧
    Completes (.slt d a b) s (WritesS s · d (if x.toInt < y.toInt then 1 else 0)) ∧
    Completes (.sltu d a b) s (WritesS s · d (if x.toNat < y.toNat then 1 else 0)) ∧
    Completes (.min d a b) s (WritesS s · d (BitVec.ofInt 64 (min x.toInt y.toInt))) ∧
    Completes (.max d a b) s (WritesS s · d (BitVec.ofInt 64 (max x.toInt y.toInt))) ∧
    Completes (.minu d a b) s (WritesS s · d (word (min x.toNat y.toNat))) ∧
    Completes (.maxu d a b) s (WritesS s · d (word (max x.toNat y.toNat))) ∧
    Completes (.mul d a b) s (WritesS s · d (word (x.toNat * y.toNat))) ∧
    Completes (.mulh d a b) s (WritesS s · d (BitVec.ofInt 64 (x.toInt * y.toInt / 2 ^ 64))) ∧
    Completes (.mulhu d a b) s (WritesS s · d (word (x.toNat * y.toNat / 2 ^ 64)))) ∧
  (
  ∀ (s : State) (d a b : SReg), let x := s.hart.sreg a; let y := s.hart.sreg b
    Completes (.div d a b) s (WritesS s · d
      (if y = 0 then BitVec.allOnes 64 else if x = BitVec.intMin 64 ∧ y = -1 then BitVec.intMin 64 else BitVec.ofInt 64 (x.toInt.tdiv y.toInt))) ∧
    Completes (.divu d a b) s (WritesS s · d (if y = 0 then BitVec.allOnes 64 else word (x.toNat / y.toNat))) ∧
    Completes (.rem d a b) s (WritesS s · d (if y = 0 then x else BitVec.ofInt 64 (x.toInt.tmod y.toInt))) ∧
    Completes (.remu d a b) s (WritesS s · d (if y = 0 then x else word (x.toNat % y.toNat))))

/-- R73: the counts of leading zero bits, trailing zero bits and one bits, each said by what it counts; sign extension of the low 8, 16 or 32 bits;
the reversal of bits and of bytes. -/
def Obligations.OneSourceResults : Prop :=
  ∀ (s : State) (d a : SReg), let y := s.hart.sreg a; let x := y.toNat
    (x = 0 → Completes (.clz d a) s (WritesS s · d 64) ∧ Completes (.ctz d a) s (WritesS s · d 64)) ∧
    (∀ n, n < 64 → 2 ^ (63 - n) ≤ x → x < 2 ^ (64 - n) → Completes (.clz d a) s (WritesS s · d (word n))) ∧
    (∀ n, n < 64 → x % 2 ^ n = 0 → x / 2 ^ n % 2 = 1 → Completes (.ctz d a) s (WritesS s · d (word n))) ∧
    Completes (.popc d a) s (WritesS s · d (word ((List.range 64).map (fun k => x / 2 ^ k % 2)).sum)) ∧
    Completes (.sextb d a) s (WritesS s · d (BitVec.ofInt 64 (Int.bmod x (2 ^ 8)))) ∧
    Completes (.sexth d a) s (WritesS s · d (BitVec.ofInt 64 (Int.bmod x (2 ^ 16)))) ∧
    Completes (.sextw d a) s (WritesS s · d (BitVec.ofInt 64 (Int.bmod x (2 ^ 32)))) ∧
    Completes (.brev d a) s (fun t => WritesS s t d (t.hart.sreg d) ∧
      (d ≠ 0 → ∀ k, k < 64 → (t.hart.sreg d).getLsbD k = y.getLsbD (63 - k))) ∧
    Completes (.bswap d a) s (fun t => WritesS s t d (t.hart.sreg d) ∧
      (d ≠ 0 → ∀ k, k < 8 → (t.hart.sreg d).toNat / 256 ^ k % 256 = x / 256 ^ (7 - k) % 256))

/-- R74 to R76: the immediate forms, with a sign-extended 14-bit immediate, a shift amount below 64, or a sign-extended 20-bit immediate shifted left
by 14. -/
def Obligations.ImmediateResults : Prop :=
  ∀ (s : State) (d a : SReg) (k : BitVec 14) (n : BitVec 6) (u : BitVec 20), let x := s.hart.sreg a
    Completes (.addi d a k) s (WritesS s · d (BitVec.ofInt 64 (x.toInt + k.toInt))) ∧
    Completes (.andi d a k) s (WritesS s · d (x &&& BitVec.ofInt 64 k.toInt)) ∧
    Completes (.ori d a k) s (WritesS s · d (x ||| BitVec.ofInt 64 k.toInt)) ∧
    Completes (.xori d a k) s (WritesS s · d (x ^^^ BitVec.ofInt 64 k.toInt)) ∧
    Completes (.slti d a k) s (WritesS s · d (if x.toInt < k.toInt then 1 else 0)) ∧
    Completes (.sltiu d a k) s (WritesS s · d (if x.toNat < (BitVec.ofInt 64 k.toInt).toNat then 1 else 0)) ∧
    Completes (.slli d a n) s (WritesS s · d (word (x.toNat * 2 ^ n.toNat))) ∧
    Completes (.srli d a n) s (WritesS s · d (word (x.toNat / 2 ^ n.toNat))) ∧
    Completes (.srai d a n) s (WritesS s · d (BitVec.ofInt 64 (x.toInt / 2 ^ n.toNat))) ∧
    Completes (.lui d u) s (WritesS s · d (BitVec.ofInt 64 (u.toInt * 2 ^ 14))) ∧
    Completes (.addpc d u) s (WritesS s · d (BitVec.ofInt 64 (s.hart.pc.toInt + u.toInt * 2 ^ 14)))

/-! ## Scalar floating point -/

/-- R77 to R79: the arithmetic of majors 0x0D and 0x0E on exact values. Each completes in every state: the exact result is rounded once under
MODE.RND and MODE.FTZ, the flags of the operation and of the rounding are raised, and nothing else changes. `wide` selects fp64, else fp32 from the
low half. -/
def Obligations.FloatArithmetic : Prop :=
  ∀ (s : State) (d a b c : SReg) (wide : Bool),
    let h := s.hart
    let f := scalarFormat wide
    let v := fun r => f.decode h.ftz ((h.sreg r).toNat % 2 ^ f.width)
    let rounded := fun (i : Instr) (r : Machine.Num × FFlags) =>
      Completes i s (WritesSFlags s · d (word (f.round h.rnd h.ftz r.1).1) (r.2 ||| (f.round h.rnd h.ftz r.1).2))
    rounded (.fadd d a b wide) (Machine.Num.add h.rnd (v a) (v b)) ∧
    rounded (.fsub d a b wide) (Machine.Num.add h.rnd (v a) (v b).neg) ∧
    rounded (.fmul d a b wide) (Machine.Num.mul (v a) (v b)) ∧
    rounded (.fdiv d a b wide) (Machine.Num.div (v a) (v b)) ∧
    rounded (.fsqrt d a wide) (Machine.Num.sqrt (v a)) ∧
    rounded (.fmin d a b wide) (Machine.Num.min (v a) (v b)) ∧
    rounded (.fmax d a b wide) (Machine.Num.max (v a) (v b)) ∧
    rounded (.fma d a b wide c) (Machine.Num.fma h.rnd (v a) (v b) (v c)) ∧
    rounded (.fms d a b wide c) (Machine.Num.fma h.rnd (v a) (v b) (v c).neg) ∧
    rounded (.fnma d a b wide c) (Machine.Num.fma h.rnd (v a).neg (v b) (v c)) ∧
    rounded (.fnms d a b wide c) (Machine.Num.fma h.rnd (v a).neg (v b) (v c).neg)

/-- R26, R77, R78: conversions between a scalar's formats. To an integer, the value is rounded under MODE.RND into the 64-bit range; from an integer
and between the widths it is rounded once. -/
def Obligations.FloatConversions : Prop :=
  ∀ (s : State) (d a : SReg) (wide : Bool),
    let h := s.hart
    let x := h.sreg a
    let f := scalarFormat wide
    let v := fun (g : Ieee) => g.decode h.ftz (x.toNat % 2 ^ g.width)
    let rounded := fun (i : Instr) (r : Machine.Num) =>
      Completes i s (WritesSFlags s · d (word (f.round h.rnd h.ftz r).1) (f.round h.rnd h.ftz r).2)
    let toInt := fun (i : Instr) (lo hi : Int) =>
      Completes i s (WritesSFlags s · d (BitVec.ofInt 64 (roundToInt h.rnd lo hi (v f)).1) (roundToInt h.rnd lo hi (v f)).2)
    toInt (.fcvti d a wide) (-(2 ^ 63)) (2 ^ 63 - 1) ∧
    toInt (.fcvtu d a wide) 0 (2 ^ 64 - 1) ∧
    rounded (.fcvtf d a wide) (.ofInt x.toInt) ∧
    rounded (.fcvtfu d a wide) (.ofInt x.toNat) ∧
    rounded (.fcvtw d a wide) (v (scalarFormat (!wide)))

/-- R28, R78: compares write 1 or 0 to all 64 bits and raise NV for a signalling NaN only. On a NaN every compare but `funord` writes 0, and `funord`
writes 1. R80: `fclass` writes a mask with exactly one bit, chosen by sign, exponent and fraction of the pattern, and raises no flag. -/
def Obligations.FloatCompares : Prop :=
  (
  ∀ (s : State) (d a b : SReg) (wide : Bool),
    let h := s.hart
    let f := scalarFormat wide
    let v := fun r => f.decode h.ftz ((h.sreg r).toNat % 2 ^ f.width)
    let nan := (v a).isNaN || (v b).isNaN
    let answers := fun (i : Instr) (x : Bool) =>
      Completes i s (WritesSFlags s · d (if x then 1 else 0)
        (if v a = .nan true ∨ v b = .nan true then fNV else 0))
    answers (.feq d a b wide) (!nan && !(v a).lt (v b) && !(v b).lt (v a)) ∧
    answers (.flt d a b wide) (!nan && (v a).lt (v b)) ∧
    answers (.fle d a b wide) (!nan && !(v b).lt (v a)) ∧
    answers (.funord d a b wide) nan) ∧
  (
  ∀ (s : State) (d a : SReg) (wide : Bool),
    let e := if wide then 11 else 8
    let m := if wide then 52 else 23
    let x := (s.hart.sreg a).toNat % 2 ^ (1 + e + m)
    let neg := x / 2 ^ (e + m) = 1
    let ex := x / 2 ^ m % 2 ^ e
    let fr := x % 2 ^ m
    ∀ k, k < 10 →
      ((k = 0 ∧ neg ∧ ex = 2 ^ e - 1 ∧ fr = 0) ∨
        (k = 1 ∧ neg ∧ 0 < ex ∧ ex < 2 ^ e - 1) ∨
        (k = 2 ∧ neg ∧ ex = 0 ∧ fr ≠ 0) ∨
        (k = 3 ∧ neg ∧ ex = 0 ∧ fr = 0) ∨
        (k = 4 ∧ ¬neg ∧ ex = 0 ∧ fr = 0) ∨
        (k = 5 ∧ ¬neg ∧ ex = 0 ∧ fr ≠ 0) ∨
        (k = 6 ∧ ¬neg ∧ 0 < ex ∧ ex < 2 ^ e - 1) ∨
        (k = 7 ∧ ¬neg ∧ ex = 2 ^ e - 1 ∧ fr = 0) ∨
        (k = 8 ∧ ex = 2 ^ e - 1 ∧ fr ≠ 0 ∧ fr < 2 ^ (m - 1)) ∨
        (k = 9 ∧ ex = 2 ^ e - 1 ∧ 2 ^ (m - 1) ≤ fr)) →
      Completes (.fclass d a wide) s (WritesS s · d (word (2 ^ k))))

/-! ## Transfers and strip-mining -/

/-- R83 to R85: branches, jumps and calls go where they say: the PC, the link register, and nothing else but the end of a convoy. A branch not taken
goes on to the next word. -/
def Obligations.TransfersGo : Prop :=
  ∀ (s : State) (a b d : SReg) (o : BitVec 11) (j : BitVec 26) (k : BitVec 14),
    let x := s.hart.sreg a
    let y := s.hart.sreg b
    let branch := fun (c : BrCond) (taken : Prop) =>
      (taken → Completes (.br a b c o) s (GoesTo s · none (s.hart.pc + BitVec.ofInt 64 (o.toInt * 4)))) ∧
      (¬taken → Completes (.br a b c o) s (WritesS s · 0 0))
    branch .eq (x = y) ∧ branch .ne (x ≠ y) ∧
    branch .lt (x.toInt < y.toInt) ∧ branch .ge (y.toInt ≤ x.toInt) ∧
    branch .ltu (x.toNat < y.toNat) ∧ branch .geu (y.toNat ≤ x.toNat) ∧
    Completes (.jmp j) s (GoesTo s · none (s.hart.pc + BitVec.ofInt 64 (j.toInt * 4))) ∧
    Completes (.call j) s (GoesTo s · (some (1, s.hart.pc + 4)) (s.hart.pc + BitVec.ofInt 64 (j.toInt * 4))) ∧
    (let target := x + BitVec.ofInt 64 k.toInt;
      target.toNat % 4 = 0 → canonical target = true →
      Completes (.jr d a k) s (GoesTo s · (some (d, s.hart.pc + 4)) target))

/-- R88: `sloop` opens a loop at the next word, clips VL to the loop width and clears the row and tile indices. R89: `strip` with distinct count and
pointers: the count falls by VL, each pointer rises by the bytes its size code gives unless it is s0 or has code 7, the indices step, and the loop
goes on while the count is positive. -/
def Obligations.StripMiningLoops : Prop :=
  (
  ∀ (s : State) (w : BitVec 2) (z : BitVec 12),
    Completes (.sloop w z) s (fun t =>
      t.hart.loopHead = addrField 2 (s.hart.pc + 4) ∧
      t.hart.loopSz = word (2 ^ 15 + w.toNat * 2 ^ 12 + z.toNat) ∧
      field t.hart.vl 13 12 = w.toNat ∧ field t.hart.vl 9 0 = min (field s.hart.vl 9 0) (512 / 2 ^ w.toNat) ∧
      t.hart.rowIdx = 0 ∧ t.hart.tileIdx = 0 ∧
      GoesOn s.hart t.hart ∧ OnlyHart s t ∧
      { t.hart.still with loopHead := 0, loopSz := 0, vl := 0, rowIdx := 0, tileIdx := 0 } =
        { s.hart.still with loopHead := 0, loopSz := 0, vl := 0, rowIdx := 0, tileIdx := 0 })) ∧
  (
  ∀ (s : State) (c p q r t : SReg),
    let h := s.hart
    let n := field h.vl 9 0
    let x := h.sreg c - word n
    let moved := fun (f : SReg) (k : Nat) =>
      if f = 0 ∨ field h.loopSz (3 * k + 2) (3 * k) = 7 then h.sreg f else h.sreg f + word (n * 2 ^ field h.loopSz (3 * k + 2) (3 * k))
    bit h.loopSz 15 = true →
    [c, p, q, r, t].Pairwise (fun a b => a ≠ b ∨ a = 0) →
    Completes (.strip c p q r t) s (fun u =>
      (c ≠ 0 → u.hart.sreg c = x) ∧
      u.hart.sreg p = moved p 0 ∧ u.hart.sreg q = moved q 1 ∧ u.hart.sreg r = moved r 2 ∧ u.hart.sreg t = moved t 3 ∧
      (∀ k, k ∉ [c, p, q, r, t] → u.hart.sreg k = h.sreg k) ∧
      (u.hart.rowIdx, u.hart.tileIdx) =
        (if h.rowIdx.toNat + 1 < h.tl.toNat then (h.rowIdx + 1, h.tileIdx)
          else if h.tileIdx.toNat + 1 < h.tc.toNat then (0, h.tileIdx + 1) else (0, 0)) ∧
      (0 < x.toInt → u.hart.pc = sext57 h.loopHead ∧ u.hart.loopSz = h.loopSz ∧
        field u.hart.vl 13 12 = field h.vl 13 12 ∧ field u.hart.vl 9 0 = min x.toNat (512 / 2 ^ field h.vl 13 12)) ∧
      (x.toInt ≤ 0 → u.hart.pc = h.pc + 4 ∧ bit u.hart.loopSz 15 = false ∧ u.hart.vl = h.vl) ∧
      OnlyHart s u ∧
      { u.hart.still.lessS with rowIdx := 0, tileIdx := 0, loopSz := 0, vl := 0 } =
        { h.still.lessS with rowIdx := 0, tileIdx := 0, loopSz := 0, vl := 0 }))

/-- R85, R89: `jr` to an address that is not a multiple of 4 traps MISALIGNED, and to one that is not canonical PAGE_FAULT, with the address in
TRAPVAL; TRAPPC is the `jr` and no register is written. `strip` with no loop open traps ILLEGAL_INSN with its word in TRAPVAL and steps nothing. -/
def Obligations.TransferTraps : Prop :=
  ∀ (s : State) (a c d p q r : SReg) (k : BitVec 14), let target := s.hart.sreg a + BitVec.ofInt 64 k.toInt;
    CanTrap s →
    (target.toNat % 4 ≠ 0 → Completes (.jr d a k) s (Trapped s · 0x04 target 0)) ∧
    (target.toNat % 4 = 0 → canonical target = false → Completes (.jr d a k) s (Trapped s · 0x05 target 0)) ∧
    (bit s.hart.loopSz 15 = false → ∀ w, encode (.strip c p q r d) = some w →
      Completes (.strip c p q r d) s (Trapped s · 0x01 (word w) 0))

/-! ## Special registers -/

/-- R11, R91: `mfs` of an assigned number, at supervisor level or below 0x100, writes the register's value to s[d] and changes nothing else. -/
def Obligations.SpecialRegisterReads : Prop :=
  ∀ (s : State) (d : SReg) (n : BitVec 12), srKind n.toNat ≠ none → (s.hart.sup = true ∨ n.toNat < 0x100) →
    Completes (.mfs d n) s (WritesS s · d (s.readSr s.cur n.toNat))

/-- R4, R11 to R13, R91: a write of a writable special register. `mts` gives the source, `mset` the old value or it, `mclr` the old value and not it;
only the register's own bits are written; a permitted value reads back as R12 stores it (a VL above VLMAX as VLMAX, a CONVOY without ACTIVE as zero);
and no other special register but CONVOY, no scalar, vector or predicate register, no other hart and no byte of memory changes. CONVOY follows the
course of the convoy (R19), so a write of it is stated outside one. -/
def Obligations.SpecialRegisterWrites : Prop :=
  ∀ (s : State) (a : SReg) (n : BitVec 12), let x := s.hart.sreg a; let old := s.readSr s.cur n.toNat
    srKind n.toNat = some .rw → (s.hart.sup = true ∨ n.toNat < 0x100) → (n.toNat = 0x008 → s.hart.conv = none) →
    ∀ (i : Instr) (y : Word), (i, y) ∈ [(Instr.mts a n, x), (.mset a n, old ||| x), (.mclr a n, old &&& ~~~x)] →
      let z := y &&& word (srMask n.toNat)
      srForbidden s.hart n.toNat z = false →
      Completes i s (fun t =>
        t.readSr s.cur n.toNat &&& word (srMask n.toNat) = srStored n.toNat z ∧
        (∀ m, m ≠ n.toNat → m ≠ 0x008 → t.readSr s.cur m = s.readSr s.cur m) ∧
        t.hart.pc = s.hart.pc + 4 ∧ t.hart.conv = s.hart.convNext.conv ∧
        (t.hart.s, t.hart.v, t.hart.tags, t.hart.p) = (s.hart.s, s.hart.v, s.hart.tags, s.hart.p) ∧
        (∀ k, k ≠ s.cur → t.hartAt k = s.hartAt k) ∧
        (∀ b, t.mem.cells.read b = s.mem.cells.read b))

/-- R11, R12, R22: what an access to a special register may not do. At user level every number from 0x100 to 0x1FF traps PRIVILEGE, assigned or not;
elsewhere a number that is not assigned, a write of a read-only register, and an `mts`, `mset` or `mclr` that would give a value that R12 forbids trap ILLEGAL_INSN. TRAPVAL is the
word, and nothing else changes. R11: the counters marked "RO, clear" ignore `mts` and `mset`, and `mclr` clears the bits it names. -/
def Obligations.SpecialRegisterTraps : Prop :=
  (
  ∀ (s : State) (a : SReg) (n : BitVec 12) (i : Instr) (w : Nat),
    CanTrap s → i ∈ [Instr.mfs a n, .mts a n, .mset a n, .mclr a n] → encode i = some w →
    let user := s.hart.sup = false ∧ 0x100 ≤ n.toNat ∧ n.toNat ≤ 0x1FF
    (user → Completes i s (Trapped s · 0x0F (word w) 0)) ∧
    (¬user → srKind n.toNat = none → Completes i s (Trapped s · 0x01 (word w) 0)) ∧
    (¬user → srKind n.toNat = some .ro → i ≠ .mfs a n → Completes i s (Trapped s · 0x01 (word w) 0)) ∧
    -- what a write would give: the source, the old value with its bits set, or with them cleared
    let old := s.readSr s.cur n.toNat
    (¬user → ∀ y, (i, y) ∈ [(Instr.mts a n, s.hart.sreg a), (.mset a n, old ||| s.hart.sreg a), (.mclr a n, old &&& ~~~ s.hart.sreg a)] →
      let x := y.toNat
      ((n.toNat = 0x000 ∧ ((48 ≤ x % 64 ∧ x % 64 ≤ 62) ∨ 5 ≤ x / 256 % 8)) ∨
        (n.toNat = 0x002 ∧ x % 2 ^ 16 = 0) ∨
        (n.toNat = 0x003 ∧ x % 2 ^ 32 = 0) ∨
        (n.toNat = 0x011 ∧ (x % 2 = 0 ∨ x % 2 ^ 32 ≤ 2 ^ 16 ∨ 2 ^ 31 ≤ x % 2 ^ 32)) ∨
        (n.toNat = 0x012 ∧ 0x3F800000 < x % 2 ^ 32 ∧ x % 2 ^ 32 ≠ 0x80000000) ∨
        (n.toNat = 0x006 ∧ s.hart.tl.toNat ≤ x % 2 ^ 16) ∨
        (n.toNat = 0x007 ∧ s.hart.tc.toNat ≤ x % 2 ^ 32) ∨
        (n.toNat = 0x008 ∧ x / 2 ^ 15 % 2 = 1 ∧ (x / 16 % 32 = 0 ∨ 16 < x % 16 + x / 16 % 32))) →
      Completes i s (Trapped s · 0x01 (word w) 0))) ∧
  (
  ∀ (s : State) (a : SReg) (n : BitVec 12), srKind n.toNat = some .clear → s.hart.sup = true →
    Completes (.mts a n) s (WritesS s · 0 0) ∧ Completes (.mset a n) s (WritesS s · 0 0) ∧
    Completes (.mclr a n) s (fun t =>
      t.readSr s.cur n.toNat = s.readSr s.cur n.toNat &&& ~~~(s.hart.sreg a) &&& 0xFFFFFFFF#64 ∧
      (∀ m, m ≠ n.toNat → m ≠ 0x008 → t.readSr s.cur m = s.readSr s.cur m) ∧ GoesOn s.hart t.hart ∧
      { t.hart.still with rfCorr := 0 } = { s.hart.still with rfCorr := 0 } ∧ (∀ k, k ≠ s.cur → t.hartAt k = s.hartAt k) ∧
      t.mem = s.mem ∧ t.cores = s.cores ∧ t.sched = s.sched ∧ t.coll = s.coll ∧ t.host = s.host ∧
      ∀ d, { t.dieAt d with hpskip := 0 } = { s.dieAt d with hpskip := 0 }))

/-- R11: the reset values of the special registers, as every hart reads them. RANK is set by management, so its value here is the model's (log 5) and
is not stated. Every bit of the register files is zero, and every tag untyped. -/
def Obligations.SpecialRegistersAtReset : Prop :=
  ∀ k, k < 2048 →
    (∀ n ∈ [0x001, 0x004, 0x005, 0x006, 0x007, 0x008, 0x009, 0x00A, 0x00B, 0x010, 0x012, 0x020, 0x021, 0x022, 0x023, 0x030, 0x031,
        0x041, 0x046, 0x050, 0x051, 0x101, 0x102, 0x103, 0x104, 0x105, 0x120, 0x121], State.reset.readSr k n = 0) ∧
    (∀ p ∈ [(0x000, 0x3F), (0x002, 1), (0x003, 1), (0x011, 0x78000001), (0x042, 1), (0x100, 1), (0x110, 0x01000000), (0x111, 0xFFFFF),
        (0x112, 100), (0x113, 2000)], State.reset.readSr k p.1 = word p.2) ∧
    State.reset.readSr k 0x040 = word (k % 8) ∧ State.reset.readSr k 0x043 = word (k / 8 % 64) ∧
    State.reset.readSr k 0x044 = word (k / 512) ∧
    (∀ r, (State.reset.hartAt k).sreg r = 0) ∧ (∀ r, (State.reset.hartAt k).vreg r = 0) ∧
    (∀ r, (State.reset.hartAt k).preg r = 0) ∧ (∀ r, (State.reset.hartAt k).tag r = .untyped)

/-! ## Traps, interrupts and system instructions -/

/-- R56, R86, R92, R321: the traps that are an instruction's whole effect. `sysc` traps SYSCALL and `brk` BREAKPOINT, with TRAPVAL zero; a word that
is no instruction traps ILLEGAL_INSN with the word in TRAPVAL; a fetch that faults traps at the PC, and unless a poisoned word is the cause (R334)
TRAPVAL holds that address. R22: at user level `eret`, `wfi`, `tlbinv` and `cinval` trap PRIVILEGE with the word in TRAPVAL. -/
def Obligations.TrapsAreTaken : Prop :=
  (
  (∀ s : State, CanTrap s → Completes .sysc s (Trapped s · 0x09 0 0) ∧ Completes .brk s (Trapped s · 0x08 0 0)) ∧
  (∀ (s : State) (w : Word), CanTrap s → Completes (.illegalInsn w) s (Trapped s · 0x01 w 0)) ∧
  (∀ (s s' : State) (c : Nat) (v vec : Word), CanTrap s' → s.fetchAt s.hart.pc = (.fault ⟨c, v, vec⟩, s') →
    Completes .fetchFault s (Trapped s' · c v vec) ∧ (c = 0x10 ∨ v = s.hart.pc))) ∧
  (
  ∀ (s : State) (a b : SReg) (i : Instr) (w : Nat), i ∈ [Instr.eret, .wfi, .tlbinv a b, .cinval a] → encode i = some w →
    s.hart.sup = false → CanTrap s → Completes i s (Trapped s · 0x0F (word w) 0))

/-- R321, R336: a trap with TRAPBASE zero (reason 1) or of the first instruction after an entry (reason 2) freezes the hart: it keeps every register
and its PC, runs no more, and a record of kind 8 with the reason joins its core's queue, or waits for a free entry of it where the queue holds 16
(R326). Stated of `sysc`, whose only effect is the trap. -/
def Obligations.TrapWithoutHandlerFreezes : Prop :=
  ∀ s : State, ¬CanTrap s →
    Completes .sysc s (fun t =>
      t.hart = { s.hart with run := .frozen, block := none } ∧
      (∀ k, k ≠ s.cur → t.hartAt k = s.hartAt k) ∧
      (∃ r : FaultRec, r.kind = 8 ∧ r.frozen = true ∧ r.cause = 0x09 ∧ r.hart = s.cur % 8 ∧ r.pc = s.hart.pc ∧ r.ctx = s.hart.ctx ∧
        r.d0 = (if s.hart.trapBase = 0 then 1 else 2) ∧
        (s.recordRoom s.coreNum = true → (s.coreAt s.coreNum).unposted = [] →
          (t.coreAt s.coreNum).records = (s.coreAt s.coreNum).records ++ [{ r with time := s.clock.time }] ∧ (t.coreAt s.coreNum).unposted = []) ∧
        (s.recordRoom s.coreNum = false →
          (t.coreAt s.coreNum).records = (s.coreAt s.coreNum).records ∧
          (t.coreAt s.coreNum).unposted = (s.coreAt s.coreNum).unposted ++ [r])) ∧
      { t with harts := s.harts, cores := s.cores } = s)

/-- R93, R23: `eret` at supervisor level restores SUP and IE, goes to TRAPPC, and takes up the rest of an interrupted convoy. MODE, the trap
registers, VSTART and every register of the hart's files stay. -/
def Obligations.EretReturns : Prop :=
  ∀ s : State, s.hart.sup = true →
    Completes .eret s (fun t =>
      t.hart.pc = sext57 s.hart.trapPc ∧
      bit t.hart.status 0 = bit s.hart.status 3 ∧ bit t.hart.status 1 = bit s.hart.status 4 ∧
      (∀ k, 2 ≤ k → bit t.hart.status k = bit s.hart.status k) ∧
      t.hart.conv = (if bit s.hart.convoy 15 then some ⟨field s.hart.convoy 8 4, field s.hart.convoy 3 0, []⟩ else none) ∧
      t.hart.convoy = s.hart.convoy ∧
      { t.hart.still with status := 0 } = { s.hart.still with status := 0 } ∧ OnlyHart s t)

/-- R94: `wfi` with an interrupt pending for the hart completes at once, whatever IE holds; without one the hart stays at it and waits. R322: an
interrupt that is pending for the supervisor hart of its die, with IE set and TRAPBASE not zero, is taken between two convoys: TRAPPC holds the next
word's address (past a `wfi` that the hart waits in, R94), TRAPVAL tells which interrupt, STATUS changes as for a trap, TRAPCAUSE and TRAPVEC stay,
and the PC goes to TRAPBASE + 0x800. With both pending, which comes first is the model's free choice (log 23). -/
def Obligations.WfiWaitsForInterrupt : Prop :=
  (
  ∀ s : State, s.hart.sup = true →
    (s.pendingFor s.cur = true → Completes .wfi s (WritesS s · 0 0)) ∧
    (s.pendingFor s.cur = false → Completes .wfi s (fun t =>
      t.hart.pc = s.hart.pc ∧ t.hart.block.map (·.wait) = some .wfi ∧ { t.hart with block := s.hart.block } = s.hart ∧ OnlyHart s t))) ∧
  (
  ∀ s : State, let die := s.cur / 512
    s.superHart die = some s.cur → s.hart.ie = true → s.hart.trapBase ≠ 0 → s.hart.conv = none →
    (s.recordPending die = true ∨ s.hostPending die = true) →
    Completes .interruptEntry s (fun t =>
      t.hart.trapPc = addrField 2 (if s.hart.block.map (·.wait) = some .wfi then s.hart.pc + 4 else s.hart.pc) ∧
      ((t.hart.trapVal = 1 ∧ s.recordPending die = true) ∨ (t.hart.trapVal = 2 ∧ s.hostPending die = true)) ∧
      t.hart.convoy = 0 ∧ t.hart.pc = sext57 s.hart.trapBase + 0x800 ∧
      bit t.hart.status 0 = true ∧ bit t.hart.status 1 = false ∧ bit t.hart.status 2 = bit s.hart.status 2 ∧
      bit t.hart.status 3 = bit s.hart.status 0 ∧ bit t.hart.status 4 = true ∧
      t.hart.atEntry = true ∧
      { t.hart.still with trapPc := 0, trapVal := 0, status := 0 } = { s.hart.still with trapPc := 0, trapVal := 0, status := 0 } ∧
      OnlyHart s t))

/-- R95: a fence completes and changes no register. One that holds loads, or has the scope of a hart or core, changes no byte of memory; one that
holds stores at a wider scope writes back what the core's scalar stores have left in its lines of type 3. That any other earlier access is performed
by then is the model's own order (log 24). R96: `tlbinv` at supervisor level leaves no cached translation of the selected context and address in any
TLB of the package, and every other one stays; accesses already translated are performed first; a set bit of s[b][63:18] traps ILLEGAL_INSN. Nothing
else changes. That a non-canonical s[a] is taken by its low 57 bits is the model's choice (log 54; R96 is silent). R97: `cflush` and `cinval` of one
line, and of every line where s0 is named. After either the core holds the line no more, clean or dirty. `cflush` leaves every byte of memory as it
was for a line of coherent memory, and writes back the bytes stored in one of type 3 or 5; `cinval` loses those, and of a coherent line
either leaves memory or gives each byte of the line the value that its home held before the core's stores (that a cache may have written a dirty line
back earlier is the model's free choice, log 12). `cflush` of an address that does not translate, or that the hart may not read, has no effect;
`cinval` traps there as a store would. -/
def Obligations.FencesAndMaintenance : Prop :=
  (
  ∀ s : State,
    (∀ x : Scope, Completes (.fenceAcq x) s (WritesS s · 0 0)) ∧
    (∀ x ∈ [Scope.hart, .core], ∀ i ∈ [Instr.fenceRel x, .fenceFull x], Completes i s (WritesS s · 0 0)) ∧
    (∀ x ∈ [Scope.die, .pkg, .sys], ∀ i ∈ [Instr.fenceRel x, .fenceFull x], Completes i s (fun t =>
      WritesS (s.cleanLines (s.cur / 8)) t 0 0 ∧ (∀ r, t.hart.sreg r = s.hart.sreg r) ∧
      (∀ l ∈ t.mem.lines, l.core = s.cur / 8 → ∀ k, l.dirty.getD k false = false)))) ∧
  (
  ∀ (s : State) (a b : SReg), let x := s.hart.sreg b
    let selected := fun (key : Nat) =>
      (bit x 17 || (tlbFields key).1 = field x 15 0) && (bit x 16 || tlbCovers key ((s.hart.sreg a).toNat % 2 ^ 57))
    let old := fun (ctx page size : Nat) =>
      size ≠ 0 && (bit x 17 || ctx = field x 15 0) && (bit x 16 || page * 4096 % 2 ^ 57 / size = (s.hart.sreg a).toNat % 2 ^ 57 / size)
    s.hart.sup = true →
    (field x 63 18 = 0 → s.oldAccesses old = true → Completes (.tlbinv a b) s (fun t =>
      t.hart.pc = s.hart.pc ∧ t.hart.block ≠ none ∧ { t.hart with block := s.hart.block } = s.hart ∧ OnlyHart s t)) ∧
    (field x 63 18 = 0 → s.oldAccesses old = false → Completes (.tlbinv a b) s (fun t =>
      (∀ e, e ∈ t.mem.tlb ↔ e ∈ s.mem.tlb ∧ selected e.1 = false) ∧
      t.hart.pc = s.hart.pc + 4 ∧ t.hart.still = s.hart.still ∧ (∀ k, k ≠ s.cur → t.hartAt k = s.hartAt k) ∧
      { t with harts := s.harts, mem := { t.mem with tlb := s.mem.tlb } } = s)) ∧
    (field x 63 18 ≠ 0 → CanTrap s → ∀ w, encode (.tlbinv a b) = some w → Completes (.tlbinv a b) s (Trapped s · 0x01 (word w) 0))) ∧
  (
  -- memory with the stored bytes of lines of types 3 and 5 written back, in their order; a fenced die's bytes stay (R354)
  let back := fun (s : State) (ls : List HeldLine) (b : Nat) =>
    match ((ls.flatMap (fun l => (List.range 64).map (fun i => (l, i)))).filter (fun p =>
      p.1.dirty.getD p.2 false && s.part.key (p.1.line * 64 + p.2) == b && !s.onFenced b)).getLast? with
    | some p => p.1.bytes.getD p.2 0
    | none => s.mem.cells.read b
  (∀ s : State, let core := s.cur / 8; let mine := s.mem.lines.filter (fun l => l.core = core)
    let goes := fun (t : State) => t.mem.lines = s.mem.lines.filter (fun l => l.core ≠ core) ∧ (∀ l ∈ t.mem.dirty, l.core ≠ core) ∧
      t.hart.pc = s.hart.pc + 4 ∧ t.hart.still = s.hart.still ∧ t.cores = s.cores ∧ t.dies = s.dies ∧ ∀ n, n ≠ s.cur → t.hartAt n = s.hartAt n
    Completes (.cflush 0) s (fun t => goes t ∧ ∀ b, t.mem.cells.read b = back s mine b) ∧
    (s.hart.sup = true → Completes (.cinval 0) s (fun t => goes t ∧ ∀ b, t.mem.cells.read b = s.mem.cells.read b ∨
      ∃ l ∈ s.mem.dirty, l.core = core ∧ l.line * 64 ≤ b ∧ b < l.line * 64 + l.home.length ∧
        t.mem.cells.read b = l.home.getD (b - l.line * 64) 0))) ∧
  (∀ (s s' : State) (a : SReg) (e : Trap), a ≠ 0 → s.checkAccess .load (s.hart.sreg a) 1 = (.error e, s') →
    Completes (.cflush a) s (WritesS s' · 0 0)) ∧
  -- `cinval` traps as a byte's store would
  (∀ (s : State) (a : SReg), let va := s.hart.sreg a; let tr := s.translate (some (s.cur / 8)) s.hart.ctx va
    CanTrap s → s.hart.sup = true → a ≠ 0 →
      (canonical va = false → Completes (.cinval a) s (Trapped s · 0x05 va 0)) ∧
      (canonical va = true → tr.1 = none → Completes (.cinval a) s (Trapped s · 0x05 va 0)) ∧
      (canonical va = true → ∀ x, tr.1 = some x → x.permits .store false = false → Completes (.cinval a) s (Trapped tr.2 · 0x06 va 0))) ∧
  ∀ (s s' : State) (a : SReg) (x : Xlat) (k : Nat), let core := s.cur / 8
    let goes := fun (t : State) =>
      t.hart.pc = s'.hart.pc + 4 ∧ t.hart.still = s'.hart.still ∧ (∀ l ∈ t.mem.dirty, ¬(l.core = core ∧ l.line = k / 64)) ∧
      t.mem.lines = s'.mem.lines.filter (fun l => !(l.core = core && l.line = x.pa / 64)) ∧ t.cores = s'.cores ∧ t.dies = s'.dies ∧
      ∀ n, n ≠ s.cur → t.hartAt n = s'.hartAt n
    a ≠ 0 → s'.part.key? x.pa = some k → s'.stackReady x.pa = true →
    (s.checkAccess .load (s.hart.sreg a) 1 = (.ok x, s') →
      (∀ l, s'.mem.lines.find? (fun l => l.core = core && l.line = x.pa / 64) = some l →
        Completes (.cflush a) s (fun t => goes t ∧ ∀ b, t.mem.cells.read b = back s' [l] b)) ∧
      (s'.mem.lines.find? (fun l => l.core = core && l.line = x.pa / 64) = none →
        Completes (.cflush a) s (fun t => goes t ∧ ∀ b, t.mem.cells.read b = s'.mem.cells.read b))) ∧
    (s.hart.sup = true → s.checkAccess .store (s.hart.sreg a) 1 = (.ok x, s') →
      Completes (.cinval a) s (fun t => goes t ∧
        ((∀ b, t.mem.cells.read b = s'.mem.cells.read b) ∨
          ∃ l ∈ s'.mem.dirty, l.core = core ∧ l.line = k / 64 ∧ t.mem.cells = s'.mem.cells.writeBytes (l.line * 64) l.home))))

/-! ## Predicates and vector configuration -/

/-- R115 to R117: the predicate instructions act on all 512 bits, whatever VL, VSTART and the guard hold, and write one register. `pset` lays ones
from lo to below hi over p[b]; `pcnt` counts and `pfirst` finds the common ones; `pmvs` and `pmvp` move bits through the first 64 positions that p[b]
selects, in ascending order. -/
def Obligations.PredicateResults : Prop :=
  ∀ (s : State) (d a b : PReg) (r x : SReg),
    let h := s.hart; let p := h.preg a; let q := h.preg b; let y := (h.sreg x).toNat
    let both := (List.range 512).filter (fun k => p.getLsbD k && q.getLsbD k)
    let chosen := (List.range 512).filter (fun k => q.getLsbD k)
    Completes (.pand d a b) s (WritesP s · d (p &&& q)) ∧
    Completes (.por d a b) s (WritesP s · d (p ||| q)) ∧
    Completes (.pxor d a b) s (WritesP s · d (p ^^^ q)) ∧
    Completes (.pandn d a b) s (WritesP s · d (p &&& ~~~q)) ∧
    Completes (.pnot d a) s (WritesP s · d (~~~p)) ∧
    Completes (.pset d x b) s (fun t => WritesP s t d (t.hart.preg d) ∧
      ∀ k, k < 512 → (t.hart.preg d).getLsbD k = ((decide (y % 2 ^ 16 ≤ k) && decide (k < y / 2 ^ 16 % 2 ^ 16)) || q.getLsbD k)) ∧
    Completes (.pcnt r a b) s (WritesS s · r (word both.length)) ∧
    Completes (.pfirst r a b) s (WritesS s · r (word (both.headD 512))) ∧
    Completes (.pmvs r a b) s (fun t => WritesS s t r (t.hart.sreg r) ∧ (r ≠ 0 →
      ∀ j, j < 64 → (t.hart.sreg r).getLsbD j = match chosen[j]? with | some k => p.getLsbD k | none => false)) ∧
    Completes (.pmvp d x b) s (fun t => WritesP s t d (t.hart.preg d) ∧
      ∀ k, k < 512 → (t.hart.preg d).getLsbD k =
        (q.getLsbD k && decide ((chosen.filter (· < k)).length < 64) && (h.sreg x).getLsbD (chosen.filter (· < k)).length))

/-- R9, R10, R103 to R105: `vtag` sets a tag and the tags that pairing brings with it, and leaves the contents; a reserved code, a side code, a side
register and a pair at v63 trap OPERAND_TAG with the word in TRAPVAL. `vsetl` sets VW and VL, clipped to VLMAX, and returns VL. `vhwm` sets HWM's
fields. -/
def Obligations.VectorConfiguration : Prop :=
  ∀ (s : State) (v : VReg) (d a : SReg) (c : BitVec 6) (w : BitVec 2), let h := s.hart; let x := h.sreg a
    (∀ tag, Tag.ofCode? c.toNat = some tag → tag.isSide = false → (h.tag v.toNat).isSide = false → (tag.paired = true → v ≠ 63) →
      Completes (.vtag v c) s (fun t =>
        t.hart.tag v.toNat = tag ∧
        (tag.paired = true → t.hart.tag (v.toNat + 1) = tag.side ∧
          ((h.tag (v.toNat + 1)).paired = true → t.hart.tag (v.toNat + 2) = .untyped)) ∧
        (tag.paired = false → (h.tag v.toNat).paired = true → t.hart.tag (v.toNat + 1) = .untyped) ∧
        (tag.paired = false → (h.tag v.toNat).paired = false → t.hart.tag (v.toNat + 1) = h.tag (v.toNat + 1)) ∧
        (tag.paired = false → t.hart.tag (v.toNat + 2) = h.tag (v.toNat + 2)) ∧
        (∀ r, r ∉ [v.toNat, v.toNat + 1, v.toNat + 2] → t.hart.tag r = h.tag r) ∧
        (∀ r, t.hart.vreg r = h.vreg r) ∧ GoesOn h t.hart ∧ { t.hart.still with tags := [] } = { h.still with tags := [] } ∧ OnlyHart s t)) ∧
    (((Tag.ofCode? c.toNat).map (·.isSide) ≠ some false ∨ (h.tag v.toNat).isSide = true ∨
        ((Tag.ofCode? c.toNat).map (·.paired) = some true ∧ v = 63)) → CanTrap s → ∀ n, encode (.vtag v c) = some n →
      Completes (.vtag v c) s (Trapped s · 0x03 (word n) 0)) ∧
    Completes (.vsetl d a w) s (fun t =>
      field t.hart.vl 13 12 = w.toNat ∧ field t.hart.vl 9 0 = min x.toNat (512 / 2 ^ w.toNat) ∧
      (d ≠ 0 → t.hart.sreg d = word (min x.toNat (512 / 2 ^ w.toNat))) ∧ (∀ r, r ≠ d → t.hart.sreg r = h.sreg r) ∧
      GoesOn h t.hart ∧ { t.hart.still.lessS with vl := 0 } = { h.still.lessS with vl := 0 } ∧ OnlyHart s t) ∧
    Completes (.vhwm a) s (fun t =>
      bit t.hart.hwm 16 = bit x 16 ∧ field t.hart.hwm 15 8 = field x 15 8 ∧ field t.hart.hwm 5 0 = field x 5 0 ∧
      t.hart.hwm.toNat < 2 ^ 17 ∧
      GoesOn h t.hart ∧ { t.hart.still with hwm := 0 } = { h.still with hwm := 0 } ∧ OnlyHart s t)

/-! ## Vector arithmetic -/

/-- R25, R26, R98 to R102, R106, R109, R111, R113: the arithmetic of majors 0x1B, 0x1C and 0x1D. Where the tags give an operation type that the
instruction accepts and the destination takes it, and no residue is out of range, every executed element of d receives the exact result of its row in
the manual's tables, converted once into d's tag; a paired d receives whole blocks. Nothing else is written but FFLAGS, HWM and VSTART. The model's own are that a
block cut by E is not written (log 22) and that an integer result widens by the signedness of its operation type (log 20). -/
def Obligations.VectorArithmeticResults : Prop :=
  ∀ (s : State) (d a b c : VReg) (o : VOrS) (op tag : Tag) (fl : FFlags), let h := s.hart
    let does := fun (i : Instr) (srcs : List Src) (ok : Bool) (f : List Val → Val × FFlags) =>
      let ts := srcs.map (h.srcTag a.toNat)
      let w := widest (tag.width h.vwBits :: h.srcWidths srcs)
      opType ts = some op → ok = true → h.accepts d srcs op tag → h.modCheck op srcs (h.row h.first (h.count w)) = .ok fl →
      Completes i s (VecArith s · d op tag w fl (fun k => f ((srcs.zip ts).map (fun p => h.value p.2 p.1 k))))
    let two := fun (g : Val → Val → Val × FFlags) (vs : List Val) => g (vs.getD 0 (.int 0)) (vs.getD 1 (.int 0))
    let one := fun (g : Val → Val × FFlags) (vs : List Val) => g (vs.getD 0 (.int 0))
    let fused := fun (np na : Bool) (vs : List Val) => match vs with
      | [.int x, .int y, .int z] => (.int ((if np then -(x * y) else x * y) + (if na then -z else z)), 0)
      | [x, y, z] => let r := Machine.Num.fma h.rnd (if np then x.toNum.neg else x.toNum) y.toNum (if na then z.toNum.neg else z.toNum)
        (.num r.1, r.2)
      | _ => (.int 0, 0)
    let ab := [Src.v a.toNat, h.src o]
    does (.vadd d a o) ab true (two (onVals (· + ·) (Machine.Num.add h.rnd))) ∧
    does (.vsub d a o) ab true (two (onVals (· - ·) (fun x y => Machine.Num.add h.rnd x y.neg))) ∧
    does (.vmul d a o) ab true (two (onVals (· * ·) Machine.Num.mul)) ∧
    does (.vmulh d a o) ab op.isInt (two (fun x y => (highHalf op x y, 0))) ∧
    does (.vdiv d a o) ab (op.isInt || op.isFloat) (two (onVals (intQuot op) Machine.Num.div)) ∧
    does (.vrem d a o) ab op.isInt (two (onVals intRem Machine.Num.div)) ∧
    does (.vmin d a o) ab (op.isInt || op.isFloat) (two (onVals min Machine.Num.min)) ∧
    does (.vmax d a o) ab (op.isInt || op.isFloat) (two (onVals max Machine.Num.max)) ∧
    does (.vabsd d a o) ab (op.isInt || op.isFloat) (two (onVals (fun x y => (x - y).natAbs)
      (fun x y => let r := Machine.Num.add h.rnd x y.neg; (r.1.abs, r.2)))) ∧
    does (.vneg d a) [.v a.toNat] (op.isInt || op.isFloat) (one (onVal (- ·) (fun x => (x.neg, 0)))) ∧
    does (.vabs d a) [.v a.toNat] (op.isInt || op.isFloat) (one (onVal (fun x => (x.natAbs : Int)) (fun x => (x.abs, 0)))) ∧
    does (.vrcp d a) [.v a.toNat] op.isFloat (one (onVal id Machine.Num.rcp)) ∧
    does (.vrsq d a) [.v a.toNat] op.isFloat (one (onVal id Machine.Num.rsqrt)) ∧
    does (.vexp2 d a) [.v a.toNat] op.isFloat (one (onVal id Machine.Num.exp2)) ∧
    does (.vlog2 d a) [.v a.toNat] op.isFloat (one (onVal id Machine.Num.log2)) ∧
    (∀ p ∈ [(Instr.vfma d a b c, false, false), (.vfms d a b c, false, true), (.vfnma d a b c, true, false), (.vfnms d a b c, true, true)],
      does p.1 [.v a.toNat, .v b.toNat, .v c.toNat] (op ≠ .mod32) (fused p.2.1 p.2.2))

/-- R10, R25, R100, R101, R102, R106 to R114, R119, R121 to R123, R125, R127, R165: a vector instruction whose tags its rule does not allow traps
OPERAND_TAG with the word in TRAPVAL and has no other effect. The sources may have no common operation type, or one that the instruction does not
list; the destination may not take it; a paired register may stand where none may, or need whole blocks where the row has none. R45: under SAT = 0 an
active element of a mod32 operation with an input at or above MODULUS traps MOD_RANGE; TRAPVEC names the lowest such element and, of it, the first
such input: the register, with SCAL for a scalar. Nothing else changes. The model's own choices (log 53) are the traps of `vcmp` unord and ord on mod32,
of untyped `vpopc` and `vclz` into a tagged destination that is no integer, and of permutes of a side register, and which of two such inputs is named. -/
def Obligations.VectorOperandTagTraps : Prop :=
  (
  ∀ (s : State) (d a b c : VReg) (o : VOrS) (p : PReg) (r x : SReg) (k : BitVec 11) (rel : CmpOp) (ret : Bool), let h := s.hart
    let ta := h.tag a.toNat; let td := h.tag d.toNat
    let ab := [Src.v a.toNat, h.src o]; let abc := [Src.v a.toNat, .v b.toNat, .v c.toNat]
    -- no operation type that `ok` lists, or no destination for it
    let untyped := fun (srcs : List Src) (ok : Tag → Bool) =>
      ∀ t, opType (srcs.map (h.srcTag a.toNat)) = some t → ok t = true → ¬∃ tag, h.accepts d srcs t tag
    let amounts := match o with | .v q => (h.tag q.toNat).isInt | .s _ => true
    let unfoldable := fun (ok : Tag → Bool) =>
      ok ta = false ∨ ta.paired = true ∨ td.paired = true ∨ ¬∃ tag, (h.takeDest d.toNat ta).map (·.2) = some tag ∧ converts ta tag = true
    let both := fun (t : Tag) => t.isInt || t.isFloat
    let any := fun (_ : Tag) => true
    let words := fun (t : Tag) => t = .int32 || t = .uint32 || t = .int64 || t = .uint64
    let forms : List (Instr × Prop) :=
      [(.vadd d a o, untyped ab any), (.vsub d a o, untyped ab any), (.vmul d a o, untyped ab any), (.vmulh d a o, untyped ab Tag.isInt),
        (.vdiv d a o, untyped ab both), (.vrem d a o, untyped ab Tag.isInt), (.vmin d a o, untyped ab both), (.vmax d a o, untyped ab both),
        (.vabsd d a o, untyped ab both), (.vsel d a o, untyped ab any)] ++
      [(.vshl d a o, amounts = true → untyped [.v a.toNat] Tag.isInt), (.vshr d a o, amounts = true → untyped [.v a.toNat] Tag.isInt)] ++
      [(.vneg d a, untyped [.v a.toNat] both), (.vabs d a, untyped [.v a.toNat] both), (.vrcp d a, untyped [.v a.toNat] Tag.isFloat),
        (.vrsq d a, untyped [.v a.toNat] Tag.isFloat), (.vexp2 d a, untyped [.v a.toNat] Tag.isFloat),
        (.vlog2 d a, untyped [.v a.toNat] Tag.isFloat)] ++
      [(.vpopc d a, ta ≠ .untyped ∧ untyped [.v a.toNat] Tag.isInt ∨ ta = .untyped ∧ td ≠ .untyped ∧ td.isInt = false),
        (.vclz d a, ta ≠ .untyped ∧ untyped [.v a.toNat] Tag.isInt ∨ ta = .untyped ∧ td ≠ .untyped ∧ td.isInt = false)] ++
      [(.vfma d a b c, untyped abc (· ≠ .mod32)), (.vfms d a b c, untyped abc (· ≠ .mod32)), (.vfnma d a b c, untyped abc (· ≠ .mod32)),
        (.vfnms d a b c, untyped abc (· ≠ .mod32))] ++
      [(.vcvt d a, convertible ta td = false ∨ h.blocksOk td = false),
        (.vcmp p a o rel, opType (ab.map (h.srcTag a.toNat)) = none ∨ scalarFormOk h ab = false ∨
          opType (ab.map (h.srcTag a.toNat)) = some .mod32 ∧ rel ≠ .eq ∧ rel ≠ .ne)] ++
      [(.vredSum d a, unfoldable Tag.numeric), (.vredMin d a, unfoldable both), (.vredMax d a, unfoldable both), (.vredAmax d a, unfoldable both),
        (.vscanIsum d a, unfoldable Tag.numeric), (.vscanEsum d a, unfoldable Tag.numeric), (.vscanImax d a, unfoldable both)] ++
      [(.vredAnd d a, unfoldable (fun t => t.isInt || t = .untyped)), (.vredOr d a, unfoldable (fun t => t.isInt || t = .untyped)),
        (.vredXor d a, unfoldable (fun t => t.isInt || t = .untyped))] ++
      [(.vand d a o, bitwiseDest h d a (some o) = none), (.vor d a o, bitwiseDest h d a (some o) = none),
        (.vxor d a o, bitwiseDest h d a (some o) = none), (.vnot d a, bitwiseDest h d a none = none), (.vmov d a, moveDest h d a = none),
        (.vmred d a, normDest h d a = none)] ++
      [(.vperm d a b, (h.tag b.toNat).isInt = false ∨ permuteDest h d a = none), (.vslup d a x, permuteDest h d a = none),
        (.vsldn d a x, permuteDest h d a = none), (.vcomp d a p, permuteDest h d a = none), (.vexpd d a p, permuteDest h d a = none),
        (.vbcast d x, td.paired = true), (.vins d r x, td.paired = true), (.vext r a x, ta.paired = true)] ++
      [(.vld d r k, h.blocksOk td = false), (.vst d r k, h.blocksOk td = false), (.vlds d r x, td.paired = true ∨ h.width d.toNat = 4),
        (.vsts d r x, td.paired = true ∨ h.width d.toNat = 4),
        (.vldx d r b, td.paired = true ∨ h.width d.toNat = 4 ∨ (h.tag b.toNat).isInt = false),
        (.vstx d r b, td.paired = true ∨ h.width d.toNat = 4 ∨ (h.tag b.toNat).isInt = false)] ++
      [(.vamoAdd d r b ret, words td = false ∨ (h.tag b.toNat).isInt = false), (.vamoMin d r b ret, words td = false ∨ (h.tag b.toNat).isInt = false),
        (.vamoMax d r b ret, words td = false ∨ (h.tag b.toNat).isInt = false), (.vamoAnd d r b ret, words td = false ∨ (h.tag b.toNat).isInt = false),
        (.vamoOr d r b ret, words td = false ∨ (h.tag b.toNat).isInt = false), (.vamoXor d r b ret, words td = false ∨ (h.tag b.toNat).isInt = false),
        (.vamoSwap d r b ret, (words td = false ∧ td ≠ .fp32) ∨ (h.tag b.toNat).isInt = false),
        (.vamoFadd d r b ret, td ≠ .fp32 ∨ (h.tag b.toNat).isInt = false), (.vamoFmax d r b ret, td ≠ .fp32 ∨ (h.tag b.toNat).isInt = false)]
    CanTrap s → ∀ f ∈ forms, f.2 → ∀ w, encode f.1 = some w → Completes f.1 s (Trapped s · 0x03 (word w) 0)) ∧
  (
  ∀ (s : State) (d a : VReg) (p : PReg) (o : VOrS) (k : Nat), let h := s.hart; let srcs := [Src.v a.toNat, h.src o]
    let x := fun j => h.bitsOf .mod32 (.v a.toNat) j
    let y := fun j => h.bitsOf .mod32 (h.src o) j
    let traps := fun (i : Instr) (lo w : Nat) (two : Bool) =>
      let runs := fun j => lo ≤ j ∧ j < min h.vlen (2048 / w) ∧ h.active j = true
      let bad := fun j => h.prime ≤ x j ∨ (two = true ∧ h.prime ≤ y j)
      runs k → bad k → (∀ j, j < k → runs j → ¬bad j) →
      Completes i s (Trapped s · 0x07 0 (if h.prime ≤ x k then vecWord false a.toNat k
        else match o with | .v r => vecWord false r.toNat k | .s r => vecWord true r.toNat k))
    CanTrap s → h.sat = false →
    (opType (srcs.map (h.srcTag a.toNat)) = some .mod32 →
      (∀ tag, h.accepts d srcs .mod32 tag → ∀ i ∈ [Instr.vadd d a o, .vsub d a o, .vmul d a o],
        traps i h.first (widest (tag.width h.vwBits :: h.srcWidths srcs)) true) ∧
      (∀ c ∈ [CmpOp.eq, .ne], traps (.vcmp p a o c) h.first (widest (h.srcWidths srcs)) true)) ∧
    (h.tag a.toNat = .mod32 →
      (convertible .mod32 (h.tag d.toNat) = true → traps (.vcvt d a) h.first (max 32 (h.width d.toNat)) false) ∧
      (h.tag d.toNat = .untyped ∨ h.tag d.toNat = .mod32 →
        ∀ i ∈ [Instr.vredSum d a, .vscanIsum d a, .vscanEsum d a], traps i 0 32 false)))

/-- R102, R106 to R110, R112: the vector operations with a rule of their own for operands. Shifts take their type from a and their amount from b
modulo the width; `vsel` takes a where the guard selects and b elsewhere; the bitwise operations and `vmov` act on patterns, which idle bytes of a side
register do not take (R10; log 53 says of which operations); counts count a's pattern (of an untyped a into an integer d: R109); `vcvt` converts a's
values; `vmred` renormalises whole blocks, but not a zero or NaN block (R37, R42; log 52). The model's own too are that a
block cut by E is not written (log 22) and that an integer result widens by the signedness of its operation type (log 20). -/
def Obligations.VectorOtherResults : Prop :=
  ∀ (s : State) (d a : VReg) (o : VOrS) (tag : Tag), let h := s.hart; let ta := h.tag a.toNat; let td := h.tag d.toNat
    let x := fun k => lane (h.vreg a.toNat) (h.width a.toNat) k
    let srcs := [Src.v a.toNat, h.src o]
    let writesBits := fun (i : Instr) (t : Tag) (w : Nat) (f : Nat → Nat) =>
      Completes i s (VecWrites s · d t (fun k => if h.runs w k then some (f k) else none) 0)
    -- what a copy of n elements and m side bytes into the pair of d leaves alone
    let wholeBlocks := fun (t : State) (tag : Tag) (m n : Nat) =>
      t.hart.tag d.toNat = tag ∧ (∀ r, r ≠ d.toNat → r ≠ d.toNat + 1 → r ≠ d.toNat + 2 → t.hart.tag r = h.tag r) ∧
      (∀ r, r ≠ d.toNat → r ≠ d.toNat + 1 → t.hart.vreg r = h.vreg r) ∧
      (∀ k, n ≤ k → k < 2048 / tag.width 0 → lane (t.hart.vreg d.toNat) (tag.width 0) k = lane (h.vreg d.toNat) (tag.width 0) k) ∧
      (∀ j, m ≤ j → j < 256 → lane (t.hart.vreg (d.toNat + 1)) 8 j =
        if n ≠ 0 ∧ (if tag = .e2m1x then 32 else 2) ≤ j then 0 else lane (h.vreg (d.toNat + 1)) 8 j) ∧
      t.hart.fflags = h.fflags ∧ t.hart.hwm = hwmAfter h d.toNat (tag.width 0) true ∧ t.hart.vstart = 0 ∧ GoesOn h t.hart ∧
      t.hart.still.lessVec = h.still.lessVec ∧ OnlyHart s t
    -- shifts
    (let amount := fun k => match o with
        | .v r => lane (h.vreg r.toNat) (h.width r.toNat) k % ta.width 0
        | .s r => (h.sreg r).toNat % 64 % ta.width 0
      let ok := match o with | .v r => (h.tag r.toNat).isInt | .s _ => true
      let w := widest (tag.width h.vwBits :: h.srcWidths srcs)
      let value := fun k => (h.value ta (.v a.toNat) k).toInt
      ta.isInt = true → ok = true → (h.takeDest d.toNat ta).map (·.2) = some tag → converts ta tag = true → h.blocksOk tag = true →
      Completes (.vshl d a o) s (VecArith s · d ta tag w 0 (fun k => (.int (value k * 2 ^ amount k), 0))) ∧
      Completes (.vshr d a o) s (VecArith s · d ta tag w 0 (fun k => (.int (value k / 2 ^ amount k), 0)))) ∧
    -- vsel; an element that takes b's value raises no flag
    (∀ op, opType (srcs.map (h.srcTag a.toNat)) = some op → h.accepts d srcs op tag →
      let w := widest (tag.width h.vwBits :: h.srcWidths srcs)
      let inRow := fun k => h.first ≤ k && k < min h.vlen (2048 / w)
      let pick := fun k => if h.active k then h.value ta (.v a.toNat) k else h.value (h.srcTag a.toNat (h.src o)) (h.src o) k
      (op ≠ .mod32 → tag.paired = true → Completes (.vsel d a o) s (BlockWrites s · d tag (h.count w) (fun k => (pick k, 0)) 0)) ∧
      (op ≠ .mod32 → tag.paired = false → Completes (.vsel d a o) s (VecWrites s · d tag
        (fun k => if inRow k then some (h.converted op tag (pick k, 0)).1 else none)
        (h.rowFlags w (fun k => (h.converted op tag (pick k, 0)).2)))) ∧
      (op = .mod32 → Completes (.vsel d a o) s (VecWrites s · d .mod32 (fun k => if inRow k then
        some (if h.active k then x k else match o with | .v r => lane (h.vreg r.toNat) 32 k | .s r => (h.sreg r).toNat % 2 ^ 32) else none) 0))) ∧
    -- bitwise, on patterns of one width
    (let w := h.width a.toNat
      let y := fun k => match o with | .v r => lane (h.vreg r.toNat) w k | .s r => (h.sreg r).toNat % 2 ^ w
      let t := if td = .untyped ∧ ta.isSide = false then ta else td
      ta.paired = false → (td = .untyped ∨ (td.paired = false ∧ td.width h.vwBits = w)) → t.width h.vwBits = w →
      (match o with | .v r => (h.tag r.toNat).paired = false ∧ h.width r.toNat = w | .s _ => True) →
      writesBits (.vand d a o) t w (fun k => t.holdAt k (x k &&& y k)) ∧ writesBits (.vor d a o) t w (fun k => t.holdAt k (x k ||| y k)) ∧
      writesBits (.vxor d a o) t w (fun k => t.holdAt k (x k ^^^ y k)) ∧ writesBits (.vnot d a) t w (fun k => t.holdAt k (2 ^ w - 1 - x k))) ∧
    -- counts of an integer register
    (ta.isInt = true → (h.takeDest d.toNat ta).map (·.2) = some tag → converts ta tag = true → h.blocksOk tag = true →
      let w := widest [tag.width h.vwBits, h.width a.toNat]
      Completes (.vpopc d a) s (VecArith s · d ta tag w 0 (fun k => (.int (popCount (ta.width 0) (x k)), 0))) ∧
      Completes (.vclz d a) s (VecArith s · d ta tag w 0 (fun k => (.int (leadingZeros (ta.width 0) (x k)), 0)))) ∧
    -- counts of an untyped register
    (ta = .untyped →
      (td = .untyped → writesBits (.vpopc d a) .untyped h.vwBits (fun k => popCount h.vwBits (x k)) ∧
        writesBits (.vclz d a) .untyped h.vwBits (fun k => leadingZeros h.vwBits (x k))) ∧
      (td.isInt = true → let w := max h.vwBits (td.width 0)
        Completes (.vpopc d a) s (VecArith s · d td td w 0 (fun k => (.int (popCount h.vwBits (x k)), 0))) ∧
        Completes (.vclz d a) s (VecArith s · d td td w 0 (fun k => (.int (leadingZeros h.vwBits (x k)), 0))))) ∧
    -- vmov of an unpaired register; idle bytes of a side register write as zero
    (∀ t, ((ta.isSide = false ∧ (td = ta ∨ td = .untyped) ∧ t = ta) ∨ (ta.isSide = true ∧ td = .untyped ∧ h.vwBits = 8 ∧ t = .untyped) ∨
        (ta = .untyped ∧ td.isSide = true ∧ t = td)) → t.paired = false →
      writesBits (.vmov d a) t (max (t.width h.vwBits) (h.width a.toNat)) (fun k => t.holdAt k (x k))) ∧
    -- vmov of whole blocks
    (ta.paired = true → (td = ta ∨ (td = .untyped ∧ d ≠ 63)) → h.blocksOk ta = true → Completes (.vmov d a) s (fun t =>
      let n := h.count (ta.width 0)
      wholeBlocks t ta (n / ta.block * (if ta = .e2m1x then 2 else 1)) n ∧
      (∀ k, k < n → lane (t.hart.vreg d.toNat) (ta.width 0) k = x k) ∧
      (∀ j, j < n / ta.block * (if ta = .e2m1x then 2 else 1) →
        lane (t.hart.vreg (d.toNat + 1)) 8 j = lane (h.vreg (a.toNat + 1)) 8 j))) ∧
    -- vcvt
    (convertible ta td = true → h.blocksOk td = true →
      let w := max (h.width a.toNat) (h.width d.toNat)
      ∀ fl, h.modCheck ta [.v a.toNat] (h.row h.first (h.count w)) = .ok fl →
      Completes (.vcvt d a) s (VecArith s · d ta td w fl (fun k => (h.value ta (.v a.toNat) k, 0)))) ∧
    -- vmred, element by element of each block below VL
    (ta = .bfp16 → (h.takeDest d.toNat .bfp16).map (·.2) = some .bfp16 → h.guard = 63 → h.first = 0 → h.vlen % 64 = 0 → h.vlen ≤ 128 →
      Completes (.vmred d a) s (fun t => wholeBlocks t .bfp16 (h.vlen / 64) h.vlen ∧ ∀ b, b < h.vlen / 64 →
        let e := lane (h.vreg (a.toNat + 1)) 8 b
        let m := fun j => lane (h.vreg a.toNat) 16 (b * 64 + j)
        let r := normBlock ((List.range 64).map (fun j => max (-32767) (toSigned 16 (m j)))) e
        lane (t.hart.vreg (d.toNat + 1)) 8 b = (if e = 0 ∨ e = 255 then e else r.2 % 256) ∧
        ∀ j, j < 64 → lane (t.hart.vreg d.toNat) 16 (b * 64 + j) = if e = 0 ∨ e = 255 then m j else wrap 16 (r.1.getD j 0)))

/-- R28, R114: `vcmp` writes bit k of p[d] for every executed element k and leaves the others. A compare with NaN is false but for ne and unord.
FFLAGS gets NV where an executed element meets a signalling NaN, and else nothing but what a residue raises (R45).
The constant answers of ord and unord on signed integers are the model's choice (log 53; R114 gives them for unsigned and mod32). -/
def Obligations.CompareResults : Prop :=
  ∀ (s : State) (d : PReg) (a : VReg) (o : VOrS) (c : CmpOp) (op : Tag) (fl : FFlags), let h := s.hart
    let srcs := [Src.v a.toNat, h.src o]
    let w := widest (h.srcWidths srcs)
    opType (srcs.map (h.srcTag a.toNat)) = some op → scalarFormOk h srcs = true →
    (op = .mod32 → c = .eq ∨ c = .ne) →
    h.modCheck op srcs (h.row h.first (h.count w)) = .ok fl →
    Completes (.vcmp d a o c) s (fun t =>
      (∀ k, k < 512 → (t.hart.preg d).getLsbD k =
        if h.runs w k then
          match h.value (h.tag a.toNat) (.v a.toNat) k, h.value (h.srcTag a.toNat (h.src o)) (h.src o) k with
          | .int x, .int y => (match c with
            | .eq => decide (x = y) | .ne => decide (x ≠ y) | .lt => decide (x < y) | .le => decide (x ≤ y) | .gt => decide (y < x)
            | .ge => decide (y ≤ x) | .unord => false | .ord => true)
          | x, y => (match c with
            | .eq => x.toNum.eq y.toNum | .ne => !x.toNum.eq y.toNum | .lt => x.toNum.lt y.toNum
            | .le => x.toNum.lt y.toNum || x.toNum.eq y.toNum | .gt => y.toNum.lt x.toNum | .ge => y.toNum.lt x.toNum || x.toNum.eq y.toNum
            | .unord => x.toNum.isNaN || y.toNum.isNaN | .ord => !(x.toNum.isNaN || y.toNum.isNaN))
        else (h.preg d).getLsbD k) ∧
      (let quiet := fun (k : Nat) => h.value (h.tag a.toNat) (.v a.toNat) k ≠ .num (.nan true) ∧
          h.value (h.srcTag a.toNat (h.src o)) (h.src o) k ≠ .num (.nan true)
       ((∀ k, h.runs w k = true → quiet k) → t.hart.fflags = h.fflags ||| fl.setWidth 64) ∧
        ∀ k, h.runs w k = true → ¬ quiet k → t.hart.fflags = h.fflags ||| (fl ||| fNV).setWidth 64) ∧
      (∀ r, r ≠ d → t.hart.preg r = h.preg r) ∧ t.hart.vstart = 0 ∧ GoesOn h t.hart ∧
      { t.hart.still.lessP.lessFlags with vstart := 0 } = { h.still.lessP.lessFlags with vstart := 0 } ∧ OnlyHart s t)

/-- R99, R118 to R121: the permutes move patterns, start at element 0 whatever VSTART holds, and set it to zero. `vcomp` and `vexpd` are governed by
p[b] and not by the guard. That `vbcast`, `vins` and `vext` take side registers and the other permutes do not is the model's choice (log 53). -/
def Obligations.PermuteResults : Prop :=
  ∀ (s : State) (d a b : VReg) (g : PReg) (r x y : SReg), let h := s.hart; let ta := h.tag a.toNat
    let from0 := fun w k => decide (k < min h.vlen (2048 / w)) && h.active k
    let wd := h.width d.toNat
    let wa := h.width a.toNat
    let n := min h.vlen (2048 / wa)
    let e := fun k => lane (h.vreg a.toNat) wa k
    let m := (h.sreg y).toNat
    let below := fun k => ((List.range k).filter (fun j => (h.preg g).getLsbD j)).length
    let writes := fun (i : Instr) (t : Tag) (f : Nat → Option Nat) => Completes i s (VecWrites s · d t f 0)
    let movable := ta.paired = false ∧ ta.isSide = false ∧ (h.tag d.toNat = ta ∨ h.tag d.toNat = .untyped)
    ((h.tag d.toNat).paired = false →
      writes (.vbcast d x) (h.tag d.toNat) (fun k => if from0 wd k then some ((h.tag d.toNat).holdAt k (h.sreg x).toNat) else none) ∧
      writes (.vins d x y) (h.tag d.toNat) (fun k => if k = m ∧ from0 wd k = true then some ((h.tag d.toNat).holdAt k (h.sreg x).toNat) else none)) ∧
    (ta.paired = false → Completes (.vext r a y) s (fun t =>
      (r ≠ 0 → t.hart.sreg r = if m < 2048 / wa then (if ta.signed then BitVec.ofInt 64 (Int.bmod (e m) (2 ^ wa)) else word (e m)) else 0) ∧
      (∀ q, q ≠ r → t.hart.sreg q = h.sreg q) ∧ t.hart.vstart = 0 ∧ GoesOn h t.hart ∧
      { t.hart.still.lessS with vstart := 0 } = { h.still.lessS with vstart := 0 } ∧ OnlyHart s t)) ∧
    (movable →
      ((h.tag b.toNat).isInt = true → writes (.vperm d a b) ta (fun k =>
        let j := (h.value (h.tag b.toNat) (.v b.toNat) k).toInt
        if from0 (max wa (h.width b.toNat)) k then some (if 0 ≤ j ∧ j < (2048 / wa : Nat) then e j.toNat else 0) else none)) ∧
      writes (.vslup d a y) ta (fun k => if m ≤ k ∧ from0 wa k = true then some (e (k - m)) else none) ∧
      writes (.vsldn d a y) ta (fun k => if from0 wa k then some (if k + m < n then e (k + m) else 0) else none) ∧
      writes (.vcomp d a g) ta (fun j => (((List.range n).filter (fun k => (h.preg g).getLsbD k))[j]?).map e) ∧
      writes (.vexpd d a g) ta (fun k => if k < n ∧ (h.preg g).getLsbD k = true then some (e (below k)) else none))

/-- R49, R50, R122, R123: reductions and scans. First those of integers into a's own tag, stated by what they compute: with VL > 0 element 0 of d
receives the folding of the executed elements, an identity where there is none, converted into d's tag; a scan gives each executed element its
running value, or for `esum` the one before it; sums wrap in 64 bits, minima and maxima are exact. Then those of every numeric tag into every tag that
takes them: a sum is the pairwise tree over 2^q positions, +0 or zero where no element is executed, each node of floats rounded once to fp32, of
integers wrapped to 64 bits, of residues reduced; a floating minimum or maximum ignores NaN and is NaN only where every executed element is; a scan
goes in ascending order with one rounding a step. With VL = 0 only d's tag and VSTART change. Last the bitwise ones, of integers by a conversion of
the root, of untyped registers by the pattern (into a tagged d as an unsigned integer: the model's choice, log 53). That `vred.min` and `vred.max` over
no executed element raise the flags of the identity's conversion is the model's choice as well, against R102's words (log 53). -/
def Obligations.ReductionResults : Prop :=
  (
  ∀ (s : State) (d a : VReg), let h := s.hart; let t := h.tag a.toNat
    let w := h.width a.toNat
    let x := fun k => lane (h.vreg a.toNat) w k
    let row := (List.range (min h.vlen (2048 / w))).filter h.active
    let acc := if t.signed then Tag.int64 else Tag.uint64
    let zs := row.map (fun k => t.intVal (x k))
    let wrapped := fun z => acc.intVal (wrap 64 z)
    t.isInt = true → (h.tag d.toNat = t ∨ h.tag d.toNat = .untyped) → 0 < h.vlen →
    let root := fun (i : Instr) (z : Int) =>
      Completes i s (VecWrites s · d t (fun k => if k = 0 then some (roundTo h.arith h.prime acc t (.int z)).1 else none)
        (roundTo h.arith h.prime acc t (.int z)).2)
    let scan := fun (i : Instr) (f : List Int → Int) (before : Bool) =>
      Completes i s (VecWrites s · d t (fun k => if row.contains k then
        some (roundTo h.arith h.prime acc t (.int (f ((row.filter (fun j => j < k || (j = k && !before))).map (fun j => t.intVal (x j)))))).1
        else none) 0)
    root (.vredSum d a) (wrapped zs.sum) ∧
    root (.vredMin d a) (zs.foldl min t.maxInt) ∧
    root (.vredMax d a) (zs.foldl max t.minInt) ∧
    root (.vredAmax d a) ((zs.map (fun z => (z.natAbs : Int))).foldl max 0) ∧
    (∀ p ∈ [(Instr.vredAnd d a, 2 ^ w - 1, Nat.land), (.vredOr d a, 0, Nat.lor), (.vredXor d a, 0, Nat.xor)],
      Completes p.1 s (VecWrites s · d t (fun k => if k = 0 then some ((row.map x).foldl p.2.2 p.2.1) else none) 0)) ∧
    scan (.vscanIsum d a) (fun l => wrapped l.sum) false ∧
    scan (.vscanEsum d a) (fun l => wrapped l.sum) true ∧
    scan (.vscanImax d a) (fun l => l.foldl max t.minInt) false) ∧
  (
  ∀ (s : State) (d a : VReg) (tag : Tag) (fl : FFlags), let h := s.hart; let t := h.tag a.toNat
    let n := min h.vlen (2048 / max (h.width a.toNat) (tag.width h.vwBits))
    let row := (List.range n).filter h.active
    let v := fun k => h.value t (.v a.toNat) k
    let acc := if t.isFloat then Tag.fp32 else if t = .mod32 then .mod32 else if t.signed then .int64 else .uint64
    let exactly := fun (fi : Int → Int → Int) (ff : Machine.Num → Machine.Num → Machine.Num × FFlags) (x y : Val × FFlags) => match x.1, y.1 with
      | .int i, .int j => (Val.int (fi i j), x.2 ||| y.2)
      | i, j => (Val.num (ff i.toNum j.toNum).1, x.2 ||| y.2 ||| (ff i.toNum j.toNum).2)
    let plus := fun (x y : Val × FFlags) => match x.1, y.1 with
      | .int i, .int j => (Val.int (if t = .mod32 then (i + j) % h.prime else acc.intVal (wrap 64 (i + j))), x.2 ||| y.2)
      | i, j => let r := Machine.Num.add h.rnd i.toNum j.toNum; let u := Ieee.fp32.round h.rnd h.ftz r.1
        (Val.num (Ieee.fp32.decode false u.1), x.2 ||| y.2 ||| r.2 ||| u.2)
    let tree := fun (f : Val × FFlags → Val × FFlags → Val × FFlags) (ident : Val) (entry : Val → Val) =>
      reduceTree f (ident, 0) (log2Up h.vlen) ((List.range (2 ^ log2Up h.vlen)).map (fun k => (if row.contains k then entry (v k) else ident, (0 : FFlags))))
    let extreme := fun f ident entry => if row ≠ [] ∧ (∀ k ∈ row, (v k).isNaN = true) then
      (Val.num (.nan false), row.foldl (fun f k => f ||| (v k).toNum.snan) 0) else tree f ident entry
    let zero := if t.isFloat then Val.num .zero else .int 0
    let magnitude := fun (v : Val) => match v with | .int z => Val.int z.natAbs | .num x => .num x.abs
    t.numeric = true → t.paired = false → tag.paired = false → (h.takeDest d.toNat t).map (·.2) = some tag → converts t tag = true →
    let root := fun (i : Instr) (fl : FFlags) (r : Val × FFlags) =>
      (0 < h.vlen → Completes i s (VecWrites s · d tag (fun k => if k = 0 then some (h.converted acc tag r).1 else none)
        (fl ||| (h.converted acc tag r).2))) ∧
      (h.vlen = 0 → Completes i s (VecWrites s · d tag (fun _ => none) 0))
    let running := fun (f : Val × FFlags → Val × FFlags → Val × FFlags) (ident : Val) (ks : List Nat) =>
      ks.foldl (fun x k => f x (v k, 0)) (ident, (0 : FFlags))
    let scan := fun (i : Instr) (fl : FFlags) (f : Val × FFlags → Val × FFlags → Val × FFlags) (ident : Val) (before : Bool) =>
      let g := fun k => let upTo := running f ident (row.filter (· ≤ k))
        if before then ((running f ident (row.filter (· < k))).1, upTo.2) else upTo
      Completes i s (VecWrites s · d tag (fun k => if row.contains k then some (h.converted acc tag (g k)).1 else none)
        (fl ||| row.foldl (fun f k => f ||| (h.converted acc tag (g k)).2) 0))
    (h.modCheck t [.v a.toNat] row = .ok fl →
      root (.vredSum d a) fl (tree plus zero id) ∧ scan (.vscanIsum d a) fl plus zero false ∧ scan (.vscanEsum d a) fl plus zero true) ∧
    (t ≠ .mod32 →
      let least := if t.isFloat then Val.num (.inf true) else .int t.minInt
      root (.vredMin d a) 0 (extreme (exactly min Machine.Num.min) (if t.isFloat then .num (.inf false) else .int t.maxInt) id) ∧
      root (.vredMax d a) 0 (extreme (exactly max Machine.Num.max) least id) ∧
      root (.vredAmax d a) 0 (extreme (exactly max Machine.Num.max) zero magnitude) ∧
      scan (.vscanImax d a) 0 (exactly max Machine.Num.max) least false)) ∧
  (
  ∀ (s : State) (d a : VReg) (tag : Tag), let h := s.hart; let t := h.tag a.toNat
    let w := h.width a.toNat
    let row := (List.range (min h.vlen (2048 / max w (tag.width h.vwBits)))).filter h.active
    t = .untyped ∨ t.isInt = true → tag.paired = false → (h.takeDest d.toNat t).map (·.2) = some tag → converts t tag = true → 0 < h.vlen →
    ∀ p ∈ [(Instr.vredAnd d a, 2 ^ w - 1, Nat.land), (.vredOr d a, 0, Nat.lor), (.vredXor d a, 0, Nat.xor)],
      let r := (row.map (fun k => lane (h.vreg a.toNat) w k)).foldl p.2.2 p.2.1
      let q := if t = .untyped then h.converted tag tag (.int r, 0) else h.converted t tag (.int (t.intVal r), 0)
      Completes p.1 s (VecWrites s · d tag (fun k => if k = 0 then some (if tag = .untyped then r else q.1) else none)
        (if tag = .untyped then 0 else q.2)))

/-! ## Memory -/

/-- R72, R81, R198: a scalar load whose access is allowed, whose stack is up, whose tile slot is free and whose data is clean returns the value at ea
= s[a] + imm11, extended by its size. Of ordinary memory (types 0, 1, 2 and 6, and 3 with TSO), with no store of the hart under way to another die,
the value is the little-endian number of the bytes at the translated address; the load leaves every cache alone, but that a line of type 3 it passes
by is written back first (R207). Of type 5 the stack of the block's mask is up too (R416). A load of poisoned data traps
MACHINE_CHECK with the address of its 16-byte word (R334). -/
def Obligations.ScalarLoads : Prop :=
  ∀ (s s' : State) (d a : SReg) (z : LdSize) (k : BitVec 11) (x : Xlat),
    let va := s.hart.sreg a + BitVec.ofInt 64 k.toInt
    let n := match z with | .b => 1 | .bu => 1 | .h => 2 | .hu => 2 | .w => 4 | .wu => 4 | .d => 8
    let key := s'.part.key x.pa
    let ext := fun (v : Nat) => match z with
      | .b => BitVec.ofInt 64 (Int.bmod v (2 ^ 8))
      | .h => BitVec.ofInt 64 (Int.bmod v (2 ^ 16))
      | .w => BitVec.ofInt 64 (Int.bmod v (2 ^ 32))
      | _ => word v
    let p := s'.passLine (s'.cur / 8) x.tt x.pa
    s.checkAccess .load va n = (.ok x, s') → s'.xlatReady x = true → s'.windowHeld key n false = false → (x.tt = 5 → s'.ownPending = []) →
    (s'.poisonedAccess x n = false →
      Completes (.ld d a z k) s (WritesS (s'.loadValue x n).2 · d (ext (s'.loadValue x n).1)) ∧
      (x.tt ≠ 4 → x.tt ≠ 5 → (x.tt = 3 → x.tso = true) → s'.ownPending = [] →
        Completes (.ld d a z k) s
          (WritesS p · d (ext ((List.range n).map (fun j => (p.mem.cells.read (key + j)).toNat * 256 ^ j)).sum)))) ∧
    (s'.poisonedAccess x n = true → touches s'.ownPending key n = false → CanTrap s' →
      Completes (.ld d a z k) s (Trapped s' · 0x10 (word (va.toNat / 16 * 16)) 0))

/-- R81, R82, R184: a scalar store whose access is allowed, whose stack is up and whose tile slot is free completes, and no register changes. To
ordinary memory the bytes from the translated address become the low bytes of s[d] and no other byte changes, at once or, where the home is another
running die, when that die applies the write that it then holds last (R198; which, is free: log 24). Bytes of a fenced die keep their values (R354).
Where the core's cache is full, the line that leaves to make room is written back first (R82, log 11); one of type 3 with TSO writes back a line that
it passes by (R207). A store to a register block is the register's own (at user level only in the block for which the manual names no writer, the
model's choice: log 42), or waits while what it writes to memory must wait for its stack (R416), and one of type 3
without TSO goes to the core's line. -/
def Obligations.ScalarStores : Prop :=
  ∀ (s s' : State) (d a : SReg) (z : StSize) (k : BitVec 11) (x : Xlat),
    let va := s.hart.sreg a + BitVec.ofInt 64 k.toInt
    let n := match z with | .b => 1 | .h => 2 | .w => 4 | .d => 8
    let key := s'.part.key x.pa
    let v := s.hart.sreg d
    let byte := fun (j : Nat) => BitVec.ofNat 8 (v.toNat / 256 ^ j)
    let goes := fun (u t : State) =>
      GoesOn s.hart t.hart ∧ t.hart.still = s.hart.still ∧ ∀ c, c ≠ s.cur → t.hartAt c = u.hartAt c
    s.checkAccess .store va n = (.ok x, s') → s'.stackReady x.pa = true → s'.windowHeld key n true = false → s'.dropWaits [x] = false →
    s'.ownPending = [] →
    let room := if s'.mem.dirty.any (fun l => l.core = s'.cur / 8 && l.line = key / 64) then s' else s'.makeRoom (s'.cur / 8)
    let passed := s'.passLine (s'.cur / 8) 3 x.pa
    (x.tt ≠ 3 → x.tt ≠ 4 → s'.onFenced key = false → Completes (.st d a z k) s (fun t =>
      goes s' t ∧
      ((∀ b, t.mem.cells.read b = if key ≤ b ∧ b < key + n then byte (b - key) else room.mem.cells.read b) ∨
        ∃ home w, s'.crossHome x.pa = some home ∧ t.mem = s'.mem ∧ (t.dieAt home).pending = (s'.dieAt home).pending ++ [w] ∧
          w.key = key ∧ w.bytes = (List.range n).map byte ∧ w.hart = s.cur))) ∧
    (x.tt = 3 → x.tso = true → s'.crossHome x.pa = none → s'.onFenced key = false → Completes (.st d a z k) s (fun t =>
      goes s' t ∧ ∀ b, t.mem.cells.read b = if key ≤ b ∧ b < key + n then byte (b - key) else passed.mem.cells.read b)) ∧
    (x.tt = 3 → x.tso = false → s'.crossHome x.pa = none → x.pa % 64 + n ≤ 64 → Completes (.st d a z k) s (fun t =>
      goes s' t ∧ ∃ l ∈ t.mem.lines, l.core = s.cur / 8 ∧ l.line = x.pa / 64 ∧
        ∀ j, j < n → l.bytes.getD (x.pa % 64 + j) 0 = byte j)) ∧
    (x.tt = 4 → s'.storeHeld x n v = true → Completes (.st d a z k) s (fun t => t.hart.still = s.hart.still ∧ t.hart.pc = s.hart.pc ∧
      t.mem = s'.mem ∧ t.cores = s'.cores ∧ t.dies = s'.dies ∧ t.host = s'.host ∧ ∀ c, c ≠ s.cur → t.hartAt c = s.hartAt c)) ∧
    (x.tt = 4 → s'.storeHeld x n v = false → s'.crossHome x.pa = none → Completes (.st d a z k) s (fun t =>
      let u := if s.hart.sup || userWritable (x.pa - mmioBase) then mmioStore false (x.pa - mmioBase) n v.toNat s' else s'
      t.hart.pc = u.hart.pc + 4 ∧ t.mem = u.mem ∧ t.cores = u.cores ∧ t.dies = u.dies ∧ t.sched = u.sched ∧ t.coll = u.coll ∧ t.host = u.host)) ∧
    (x.tt ≠ 3 → x.tt ≠ 4 → s'.part.key? x.pa = some key → s'.onFenced key = true → s'.crossHome x.pa = none →
      Completes (.st d a z k) s (fun t => goes s' t ∧ t.mem = s'.mem ∧ ((s'.coreAt s'.coreNum).unposted = [] →
        (t.coreAt s'.coreNum).records.length = (s'.coreAt s'.coreNum).records.length + 1)))

/-- R72, R126, R162, R179: the traps of a scalar load, store or atomic, in their order: MISALIGNED, PAGE_FAULT for an address that is not canonical
or has no translation, PROTECTION; TRAPVAL is the address. Nothing else changes but what a walk caches. -/
def Obligations.AccessTraps : Prop :=
  ∀ (s : State) (d a b : SReg) (k : BitVec 11) (o : AmoOrder),
    let ea := s.hart.sreg a + BitVec.ofInt 64 k.toInt
    let forms : List (Instr × Word × Nat × Access) :=
      [(.ld d a .b k, ea, 1, .load), (.ld d a .bu k, ea, 1, .load), (.ld d a .h k, ea, 2, .load), (.ld d a .hu k, ea, 2, .load),
        (.ld d a .w k, ea, 4, .load), (.ld d a .wu k, ea, 4, .load), (.ld d a .d k, ea, 8, .load), (.st d a .b k, ea, 1, .store),
        (.st d a .h k, ea, 2, .store), (.st d a .w k, ea, 4, .store), (.st d a .d k, ea, 8, .store)] ++
      [(false, 4), (true, 8)].flatMap (fun z => [Instr.amoAdd d a b o z.1, .amoAnd d a b o z.1, .amoOr d a b o z.1, .amoXor d a b o z.1,
        .amoMin d a b o z.1, .amoMax d a b o z.1, .amoMinu d a b o z.1, .amoMaxu d a b o z.1, .amoSwap d a b o z.1, .cas d a b o z.1].map
          (fun i => (i, s.hart.sreg a, z.2, Access.atomic)))
    CanTrap s → ∀ f ∈ forms,
      let va := f.2.1; let n := f.2.2.1; let tr := s.translate (some (s.cur / 8)) s.hart.ctx va
      (va.toNat % n ≠ 0 → Completes f.1 s (Trapped s · 0x04 va 0)) ∧
      (va.toNat % n = 0 → canonical va = false → Completes f.1 s (Trapped s · 0x05 va 0)) ∧
      (va.toNat % n = 0 → canonical va = true → tr.1 = none → Completes f.1 s (Trapped s · 0x05 va 0)) ∧
      (va.toNat % n = 0 → canonical va = true → ∀ x, tr.1 = some x → x.permits f.2.2.2 (!s.hart.sup) = false →
        Completes f.1 s (Trapped tr.2 · 0x06 va 0))

/-- R162, R163: a scalar atomic whose access is allowed, on clean memory of a die that is not fenced, returns the old value sign-extended and writes
the new one; `cas` writes only where the old value is s[d]'s. No other byte and no other register changes, but that a release first writes back what
the core's scalar stores have left in its lines of type 3 (R164, R203). A location of a fenced die keeps its
value, whatever is returned (R354, log 26). -/
def Obligations.AtomicResults : Prop :=
  ∀ (s s' : State) (d a b : SReg) (o : AmoOrder) (z : Bool) (x : Xlat),
    let n := if z then 8 else 4
    let key := s'.part.key x.pa
    let u := match o with | .rel | .ar => s'.cleanLines (s'.cur / 8) | _ => s'
    let m := ((List.range n).map (fun j => (u.mem.cells.read (key + j)).toNat * 256 ^ j)).sum
    let y := (s.hart.sreg b).toNat % 256 ^ n
    let sg := fun (v : Nat) => Int.bmod v (256 ^ n)
    s.checkAccess .atomic (s.hart.sreg a) n = (.ok x, s') → s'.stackReady x.pa = true → s'.windowHeld key n true = false → s'.dropWaits [x] = false →
    ∀ p ∈ [(Instr.amoAdd d a b o z, some ((m + y) % 256 ^ n)), (.amoAnd d a b o z, some (m &&& y)), (.amoOr d a b o z, some (m ||| y)),
        (.amoXor d a b o z, some (m ^^^ y)), (.amoMin d a b o z, some (if sg m < sg y then m else y)),
        (.amoMax d a b o z, some (if sg m < sg y then y else m)), (.amoMinu d a b o z, some (min m y)),
        (.amoMaxu d a b o z, some (max m y)), (.amoSwap d a b o z, some y),
        (.cas d a b o z, if m = (s.hart.sreg d).toNat % 256 ^ n then some y else none)],
      let goes := fun (t : State) =>
        t.hart.sreg 0 = 0 ∧ (∀ r, r ≠ d → t.hart.sreg r = s.hart.sreg r) ∧ GoesOn s.hart t.hart ∧
        t.hart.still.lessS = s.hart.still.lessS ∧ ∀ c, c ≠ s.cur → t.hartAt c = s.hartAt c
      (s'.onFenced key = false → s'.poisonedKey key = false → Completes p.1 s (fun t =>
        (d ≠ 0 → t.hart.sreg d = BitVec.ofInt 64 (sg m)) ∧ goes t ∧
        ∀ c, t.mem.cells.read c = match p.2 with
          | some r => if key ≤ c ∧ c < key + n then BitVec.ofNat 8 (r / 256 ^ (c - key)) else u.mem.cells.read c
          | none => u.mem.cells.read c)) ∧
      (s'.part.key? x.pa = some key → s'.onFenced key = true → Completes p.1 s (fun t =>
        goes t ∧ t.mem = u.mem ∧ ((s'.coreAt s'.coreNum).unposted = [] →
          (t.coreAt s'.coreNum).records.length = (s'.coreAt s'.coreNum).records.length + 1))) ∧
      (s'.onFenced key = false → s'.poisonedKey key = true → CanTrap s' →
        Completes p.1 s (Trapped s' · 0x10 (word ((s.hart.sreg a).toNat / 16 * 16)) 0))

/-- R124 to R127: the vector loads and stores. Their element accesses are the executed elements of the row, in ascending index, each at its address;
a paired register's unit-stride access adds the side bytes of its blocks. An access passes by the core's scalar cache, so that a line of type 3 it
touches is written back first (R198, R207). With every access allowed, free to go and clean, a load puts each element's
bytes into its lane and a store writes each lane's bytes, the last of two elements at one address standing; nothing else changes but HWM of a load
and VSTART. At the first failing element the instruction traps with that element in TRAPVEC: wholly without effect under unit stride or CAREFUL, and
else with the elements before it done and VSTART naming it. The image of a paired register whose VL is above 2,048/w has E elements, where R127 says VL:
the model's choice, log 53. -/
def Obligations.VectorMemory : Prop :=
  ∀ (s s' : State) (d v : VReg) (a b : SReg) (k : BitVec 11) (c : Checked),
    let h := s.hart
    let t := h.tag d.toNat
    let w := h.width d.toNat
    let main := fun (w' : Nat) (addr : Nat → Word) => (h.row h.first (h.count w')).map (fun j => (⟨d.toNat, j, addr j, max 1 (w / 8)⟩ : Piece))
    let base := h.sreg a + BitVec.ofInt 64 k.toInt
    let ok := !t.paired && w ≠ 4
    let forms : List (Instr × Instr × List Piece × Bool × Bool) :=
      [(.vld d a k, .vst d a k, main w (fun j => base + word (j * w / 8)) ++
          (if t.paired then sidePieces d.toNat t (h.count w) base else []), h.blocksOk t, true),
        (.vlds d a b, .vsts d a b, main w (fun j => h.sreg a + word j * h.sreg b), ok, h.careful),
        (.vldx d a v, .vstx d a v, main (max w (h.width v.toNat)) (fun j =>
          h.sreg a + BitVec.ofInt 64 (h.value (h.tag v.toNat) (.v v.toNat) j).toInt), ok && (h.tag v.toNat).isInt, h.careful)]
    let loaded := fun (u : State) =>
      let x := fun (q : Piece × Xlat) => bytesToNat ((s'.passPieces c.good).dataAt q.2 q.1.n)
      (∀ q ∈ c.good, q.1.reg = d.toNat →
        lane (u.hart.vreg d.toNat) w q.1.idx = t.holdAt q.1.idx (if w = 4 then x q / 16 ^ (q.1.idx % 2) else x q) % 2 ^ w) ∧
      (∀ j, j < 2048 / w → (∀ q ∈ c.good, q.1.reg = d.toNat → q.1.idx ≠ j) → lane (u.hart.vreg d.toNat) w j = lane (h.vreg d.toNat) w j) ∧
      (∀ q ∈ c.good, q.1.reg = d.toNat + 1 → lane (u.hart.vreg (d.toNat + 1)) 8 q.1.idx = x q % 256) ∧
      (∀ r, r ≠ d.toNat → (t.paired = true → r ≠ d.toNat + 1) → u.hart.vreg r = h.vreg r)
    let stored := fun (u : State) => ∀ y, u.mem.cells.read y =
      match (c.good.filter (fun q => s'.part.key q.2.pa ≤ y && y < s'.part.key q.2.pa + q.1.n && !s'.onFenced (s'.part.key q.2.pa))).getLast? with
      | some q => BitVec.ofNat 8 ((if q.1.reg ≠ d.toNat then lane (h.vreg q.1.reg) 8 q.1.idx
          else if w = 4 then lane (h.vreg d.toNat) 8 (q.1.idx / 2) else lane (h.vreg d.toNat) w q.1.idx) / 256 ^ (y - s'.part.key q.2.pa))
      | none => (s'.passPieces c.good).mem.cells.read y
    let trapped := fun (u : State) (e : Trap) (p : Piece) =>
      u.hart.trapCause = word e.cause ∧ u.hart.trapVal = e.val ∧ u.hart.trapVec = vecWord false p.reg p.idx ∧
      u.hart.trapPc = addrField 2 h.pc ∧ u.hart.pc = sext57 h.trapBase + word (e.cause * 64)
    ∀ f ∈ forms, f.2.2.2.1 = true →
      (checkPieces .vload s f.2.2.1 = (c, s') → s'.piecesHeld false c.good = false →
        (c.bad = none → Completes f.1 s (fun u => loaded u ∧ u.hart.hwm = hwmAfter h d.toNat w t.paired ∧ u.hart.vstart = 0 ∧
          GoesOn h u.hart ∧ u.hart.still.lessVec = h.still.lessVec ∧ u.hart.fflags = h.fflags ∧ u.hart.tags = h.tags ∧ OnlyHart (s'.passPieces c.good) u)) ∧
        (∀ p e, c.bad = some (p, e) → s'.piecesHeld false c.mark.toList = false → CanTrap s' → Completes f.1 s (fun u => trapped u e p ∧
          (f.2.2.2.2 = true → u.hart.v = h.v ∧ u.hart.vstart = h.vstart ∧ OnlyHart (s.withCounts s') u) ∧
          (f.2.2.2.2 = false → loaded u ∧ u.hart.vstart = word p.idx ∧ OnlyHart (s'.passPieces c.good) u)))) ∧
      (checkPieces .vstore s f.2.2.1 = (c, s') → s'.piecesHeld true c.good = false → s'.dropWaits (c.good.map (·.2)) = false →
        (∀ q ∈ c.good, q.2.pa % 4096 + q.1.n ≤ 4096) →
        (c.bad = none → Completes f.2.1 s (fun u => stored u ∧ u.hart.vstart = 0 ∧ GoesOn h u.hart ∧
          { u.hart.still with vstart := 0 } = { h.still with vstart := 0 } ∧ ∀ n, n ≠ s.cur → u.hartAt n = s.hartAt n)) ∧
        (∀ p e, c.bad = some (p, e) → CanTrap s' → Completes f.2.1 s (fun u => trapped u e p ∧ u.hart.v = h.v ∧
          (f.2.2.2.2 = true → u.mem = s'.mem ∧ u.hart.vstart = h.vstart) ∧
          (f.2.2.2.2 = false → stored u ∧ u.hart.vstart = word p.idx))))

/-- R165, R166: the vector atomics, with tags that fit. The executed elements are checked in ascending index: alignment, canonical address,
translation with permission and target type, and poison last. The lowest failing element traps, with its address in TRAPVAL (the poisoned word's, R334)
and register and index in TRAPVEC, and nothing else changes but what a walk caches. With every access allowed and free to go, the elements are grouped
by location; in ascending index their operands are combined, and the combination is applied to the location's old value. With `.ret` each element
receives the old value combined with the operands before it. Elements on a fenced die are dropped with one record of kind 7 (R354), and what they
receive is left open (log 26). Nothing else changes but HWM and VSTART. Two virtual addresses of one place are one location, the model's choice
(log 61). -/
def Obligations.VectorAtomics : Prop :=
  ∀ (s s' : State) (d b : VReg) (a : SReg) (ret : Bool) (c : Checked),
    let h := s.hart
    let t := h.tag d.toNat
    let w := t.width 0
    let n := w / 8
    let int := t = .int32 || t = .uint32 || t = .int64 || t = .uint64
    let fp := fun (g : Machine.Num → Machine.Num → Machine.Num × FFlags) (x y : Nat) =>
      (Ieee.fp32.round .rne false (g (Ieee.fp32.decode false x) (Ieee.fp32.decode false y)).1).1
    let forms : List (Instr × Bool × (Nat → Nat → Nat)) :=
      [(.vamoAdd d a b ret, int, fun x y => (x + y) % 2 ^ w),
        (.vamoMin d a b ret, int, fun x y => if t.intVal x ≤ t.intVal y then x else y),
        (.vamoMax d a b ret, int, fun x y => if t.intVal x ≤ t.intVal y then y else x),
        (.vamoAnd d a b ret, int, fun x y => x &&& y), (.vamoOr d a b ret, int, fun x y => x ||| y),
        (.vamoXor d a b ret, int, fun x y => x ^^^ y), (.vamoSwap d a b ret, int || t = .fp32, fun _ y => y),
        (.vamoFadd d a b ret, t = .fp32, fp (Machine.Num.add .rne)), (.vamoFmax d a b ret, t = .fp32, fp Machine.Num.max)]
    let key := fun (q : Piece × Xlat) => s'.part.key q.2.pa
    let m := fun (q : Piece × Xlat) => bytesToNat (s'.mem.cells.bytes (key q) n)
    let x := fun (q : Piece × Xlat) => lane (h.vreg d.toNat) w q.1.idx
    -- the elements that reach memory, and those of a place together
    let live := c.good.filter (fun q => !s'.xlatFenced q.2)
    let group := fun (q : Piece × Xlat) => live.filter (fun r => key r = key q)
    let merged := fun (f : Nat → Nat → Nat) (m : Nat) (g : List Nat) => match g with | [] => m | y :: ys => f m (ys.foldl f y)
    let pieces := (h.row h.first (h.count (max w (h.width b.toNat)))).map (fun j =>
      (⟨d.toNat, j, h.sreg a + BitVec.ofInt 64 (h.value (h.tag b.toNat) (.v b.toNat) j).toInt, n⟩ : Piece))
    checkPieces .atomic s pieces = (c, s') → (h.tag b.toNat).isInt = true →
    c.good.map (·.1) = pieces.take c.good.length ∧ (c.bad = none → c.good.length = pieces.length) ∧
    (∀ p e, c.bad = some (p, e) →
      -- the lowest element that fails, its first failing check, and the trap that it takes
      pieces[c.good.length]? = some p ∧ e.vec = vecWord false d.toNat p.idx ∧
      (p.va.toNat % n ≠ 0 → e.cause = 0x04) ∧ (p.va.toNat % n = 0 → canonical p.va = false → e.cause = 0x05) ∧ e.cause ∈ [0x04, 0x05, 0x06, 0x10] ∧
      e.val = (if e.cause = 0x10 then word (p.va.toNat / 16 * 16) else p.va) ∧
      (e.cause = 0x10 ↔ c.mark.isSome = true) ∧
      (∀ q ∈ c.mark, q.1 = p ∧ s'.xlatFenced q.2 = false ∧ s'.poisonedAccess q.2 n = true) ∧
      (s'.piecesHeld true c.mark.toList = false → CanTrap s → ∀ f ∈ forms, f.2.1 = true →
        Completes f.1 s (Trapped (s.withCounts s') · e.cause e.val e.vec))) ∧
    (c.bad = none → s'.piecesHeld true c.good = false → s'.dropWaits (c.good.map (·.2)) = false → (∀ q ∈ live, key q % n = 0) →
    ∀ f ∈ forms, f.2.1 = true → Completes f.1 s (fun u =>
      (∀ q ∈ live, u.mem.cells.bytes (key q) n = natToBytes n (merged f.2.2 (m q) ((group q).map x))) ∧
      (∀ y, (∀ q ∈ live, y < key q ∨ key q + n ≤ y) → u.mem.cells.read y = s'.mem.cells.read y) ∧
      (ret = true → u.hart.hwm = hwmAfter h d.toNat w false ∧
        (∀ q ∈ live, lane (u.hart.vreg d.toNat) w q.1.idx =
          merged f.2.2 (m q) (((group q).filter (fun r => r.1.idx < q.1.idx)).map x) % 2 ^ w) ∧
        (∀ j, j < 2048 / w → (∀ q ∈ c.good, q.1.idx ≠ j) → lane (u.hart.vreg d.toNat) w j = lane (h.vreg d.toNat) w j)) ∧
      (ret = false → u.hart.v = h.v ∧ u.hart.hwm = h.hwm) ∧
      (∀ r, r ≠ d.toNat → u.hart.vreg r = h.vreg r) ∧ u.hart.vstart = 0 ∧ GoesOn h u.hart ∧ u.hart.tags = h.tags ∧
      u.hart.still.lessVec = h.still.lessVec ∧ u.hart.fflags = h.fflags ∧ (∀ k, k ≠ s.cur → u.hartAt k = s.hartAt k) ∧
      -- the master's one record of what fenced dies have dropped
      (live.length = c.good.length → u.cores = s'.cores) ∧
      (live.length ≠ c.good.length → (s'.coreAt s'.coreNum).unposted = [] → ∃ r, r.kind = 7 ∧ r.cause = 0x10 ∧ r.master = 0 ∧
        (u.coreAt s'.coreNum).records = (s'.coreAt s'.coreNum).records ++ [r])))

/-! ## Convoys and barriers -/

/-- R59, R61, R62: `cvy` fetches and checks the words after it, at successive addresses. A convoy that breaks no rule is entered: MODE takes the
header's fields, CONVOY the count and position, and the first word is next; no other register changes. A word that cannot be fetched or is none traps as
it would alone; a broken rule traps ILLEGAL_CONVOY with reason and position in TRAPVAL. A rule is broken at a position where a second instruction has
the class of an earlier one (1), where a third distinct register of one bank has been read, chained ones aside (2), where a bank has a second
destination (3), where a transfer is not last (4), or at a forbidden major (5); the first such position counts, and the least reason there; a convoy
without one is legal. A register counts with the next one where its tag, as the convoy has written it so far, is paired; a destination that takes a
paired tag by its own write counts alone for reason 3, the model's choice (log 61). Which word a header is refused at when one is no instruction and a
later one cannot be fetched is log 54's. -/
def Obligations.ConvoyHeader : Prop :=
  (∀ (s s' : State) (n : BitVec 4) (g : PReg) (p : Bool) (r : Rnd) (sat ftz : Bool), let i := Instr.cvy n g p r sat ftz
    (∀ ws, readHeader s (s.hart.pc + 4) (n.toNat + 1) = (.words ws, s') →
      (checkConvoy { hart := { s'.hart with mode := modeWord g p r sat ftz } } 0 ws = none → Completes i s (fun t =>
        t.hart.guard = g.toNat ∧ t.hart.pol = p ∧ t.hart.rnd = r ∧ t.hart.sat = sat ∧ t.hart.ftz = ftz ∧ t.hart.mode.toNat < 2 ^ 13 ∧
        t.hart.conv = some ⟨n.toNat + 1, 0, ws.map (·.1)⟩ ∧ bit t.hart.convoy 15 = true ∧ field t.hart.convoy 8 4 = n.toNat + 1 ∧
        field t.hart.convoy 3 0 = 0 ∧ t.hart.pc = s.hart.pc + 4 ∧
        { t.hart.still with mode := 0 } = { s'.hart.still with mode := 0 } ∧ OnlyHart s' t)) ∧
      (∀ v, checkConvoy { hart := { s'.hart with mode := modeWord g p r sat ftz } } 0 ws = some v → CanTrap s' → Completes i s (Trapped s' · 0x02 (word v) 0))) ∧
    (∀ e, readHeader s (s.hart.pc + 4) (n.toNat + 1) = (.trap e, s') → CanTrap s' → Completes i s (Trapped s' · e.cause e.val e.vec)) ∧
    (readHeader s (s.hart.pc + 4) (n.toNat + 1) = (.hold, s') → Completes i s (fun t => t.hart.pc = s'.hart.pc ∧ t.hart.still = s'.hart.still ∧ OnlyHart s' t))) ∧
  -- the words of a header: those at successive addresses, up to the first that cannot be fetched or is none
  (∀ (s s' : State) (pc : Word) (n : Nat),
    let good := fun (us : Nat → State) (j : Nat) (w : Nat) (i : Instr) =>
      (us j).fetchAt (pc + word (4 * j)) = (.word w, us (j + 1)) ∧ decodeWord w = .ok i ∧ (w / 2 ^ 26 = 0x3F → (us (j + 1)).host.test = true)
    (∀ ws, readHeader s pc n = (.words ws, s') → ws.length = n ∧ ∃ us : Nat → State, us 0 = s ∧ us n = s' ∧
      ∀ j x, ws[j]? = some x → good us j x.1 x.2) ∧
    ∀ e, readHeader s pc n = (.trap e, s') → ∃ (us : Nat → State) (k : Nat), k < n ∧ us 0 = s ∧ (∀ j, j < k → ∃ w i, good us j w i) ∧
      ((us k).fetchAt (pc + word (4 * k)) = (.fault e, s') ∨ ∃ w, (us k).fetchAt (pc + word (4 * k)) = (.word w, s') ∧ e = ⟨0x01, word w, 0⟩ ∧
        ((∃ x, decodeWord w = .error x) ∨ (w / 2 ^ 26 = 0x3F ∧ s'.host.test = false)))) ∧
  -- the five conditions, each at the first position that breaks one, the least reason there
  (∀ (h : Hart) (ws : List (Nat × Instr)),
    let tags := fun (k : Nat) => (ws.take k).foldl (fun h x => tagsAfter h x.1 x.2) h
    let both := fun (g : Hart) (r x : Nat) => x = r ∨ ((g.tag r).paired = true ∧ x = r + 1)
    let chained := fun (j x : Nat) => ∃ e y d, e < j ∧ ws[e]? = some y ∧ vectorDest y.2 = some d ∧ both (tags (e + 1)) d x
    let reads := fun (j x : Nat) => (∃ y, ws[j]? = some y ∧ ∃ r ∈ vectorReads y.2, both (tags j) r x) ∧ ¬ chained j x
    let writes := fun (j x : Nat) => ∃ y d, ws[j]? = some y ∧ vectorDest y.2 = some d ∧ both (tags j) d x
    let broken := fun (k reason : Nat) => ∃ x, ws[k]? = some x ∧ ((reason = 1 ∧ ∃ c j y, classOf x.1 = some c ∧ j < k ∧ ws[j]? = some y ∧ classOf y.1 = some c) ∨
      (reason = 2 ∧ ∃ a b c, a < b ∧ b < c ∧ a % 4 = b % 4 ∧ b % 4 = c % 4 ∧ ∀ r ∈ [a, b, c], ∃ j, j ≤ k ∧ reads j r) ∨
      (reason = 3 ∧ ∃ a b, a < b ∧ a % 4 = b % 4 ∧ ∀ r ∈ [a, b], ∃ j, j ≤ k ∧ writes j r) ∨
      (reason = 4 ∧ 0x11 ≤ x.1 / 2 ^ 26 ∧ x.1 / 2 ^ 26 ≤ 0x15 ∧ k + 1 < ws.length) ∨
      (reason = 5 ∧ x.1 / 2 ^ 26 ∈ [0x01, 0x16, 0x17, 0x18, 0x1A, 0x26, 0x27, 0x28, 0x2A, 0x2B, 0x2C, 0x2D, 0x2E]))
    (checkConvoy { hart := h } 0 ws = none ↔ ∀ k reason, ¬ broken k reason) ∧
    ∀ v, checkConvoy { hart := h } 0 ws = some v ↔ ∃ k reason, v = reason * 16 + k ∧ broken k reason ∧ (∀ e, e < reason → ¬ broken k e) ∧
      ∀ j, j < k → ∀ e, ¬ broken j e) ∧
  -- the old destination of a merged write, the data of a store and an index count as reads
  (∀ (d a b : VReg) (p : PReg) (sa sb : SReg) (r : Bool),
    (∀ i ∈ [Instr.vins d sa sb, .vslup d a sb, .vcomp d a p, .vexpd d a p, .vredSum d a, .vredMin d a, .vredMax d a, .vredAmax d a, .vredAnd d a, .vredOr d a,
        .vredXor d a, .vscanIsum d a, .vscanEsum d a, .vscanImax d a], d.toNat ∈ vectorReads i ∧ vectorDest i = some d.toNat) ∧
    (∀ i ∈ [Instr.vstx d sa b, .vamoAdd d sa b r, .vamoSwap d sa b r], d.toNat ∈ vectorReads i ∧ b.toNat ∈ vectorReads i) ∧
    vectorReads (.vldx d sa b) = [b.toNat] ∧ vectorReads (.vmov d a) = [a.toNat] ∧ vectorDest (.vadd d a (.v b)) = some d.toNat ∧
    vectorReads (.vadd d a (.v b)) = [a.toNat, b.toNat]) ∧
  ∀ (c : ConvoyScan) (pos : Nat) (ws : List (Nat × Instr)),
    ((∃ (j k : Nat) (x y : Nat × Instr), j < k ∧ ws[j]? = some x ∧ ws[k]? = some y ∧ classOf x.1 = classOf y.1 ∧ classOf x.1 ≠ none) ∨
      (∃ (j : Nat) (x : Nat × Instr), ws[j]? = some x ∧ j + 1 < ws.length ∧ 0x11 ≤ x.1 / 2 ^ 26 ∧ x.1 / 2 ^ 26 ≤ 0x15) ∨
      (∃ x ∈ ws, x.1 / 2 ^ 26 ∈ [0x01, 0x16, 0x17, 0x18, 0x1A, 0x26, 0x27, 0x28, 0x2A, 0x2B, 0x2C, 0x2D, 0x2E])) →
    checkConvoy c pos ws ≠ none

/-- R149, R155 to R160: the barrier instructions, on a barrier of the hart's grant. `binit` of a free barrier sets EXP and clears the rest; `barrive`
into a phase that is not full counts one arrival and returns the phase, and into a full one is held, in the order of arrival; `bexpect` adds to PEND;
`bwait` of a phase that is over goes on; `btest` reads the status word or PEND; `step` arrives as a release (R153) and sets STEPARR, goes on at once
where its arrival ends the phase, and else when the phase is over, clearing STEPARR; one that waits keeps its barrier and phase, and after an `eret`
it takes the phase from s[d]. Each event is then evaluated. An arrival or a `bexpect` behind a credit that a full record queue holds waits (R326). A barrier outside the grant traps PROTECTION; an EXP of 0 or above 65,535, a count or a sum outside 36 signed bits and a
selector above 1 trap ILLEGAL_INSN. Where the phase is not over, or the barrier not free (a hart waits on it, or credits to it are outstanding), the
hart stays at its instruction. -/
def Obligations.BarrierOperations : Prop :=
  ∀ (s : State) (d a b : SReg) (k : Nat), let core := s.cur / 8; let t := s.core.bar k; let x := s.hart.sreg b; let ph := x.toNat % 65536
    let stays := fun (v u : State) (w : Wait) =>
      u.hart.pc = s.hart.pc ∧ u.hart.block.map (·.wait) = some w ∧ u.hart.still = s.hart.still ∧ OnlyHart v u
    let outOf36 := fun (z : Int) => z < -(2 ^ 35) ∨ 2 ^ 35 ≤ z
    (s.barrierOf a = .ok k →
      (0 < x.toNat → x.toNat < 65536 → s.barWait core k = false → s.core.uncredited k = false → s.collCredits core k = false →
        Completes (.binit a b) s (fun u => BarrierStands s u (some s.cur) core k { exp := x.toNat } ∧ GoesOn s.hart u.hart ∧ u.hart.still = s.hart.still ∧
          u.mem = s.mem)) ∧
      (0 < x.toNat → x.toNat < 65536 → s.barWait core k = true ∨ s.core.uncredited k = true ∨ s.collCredits core k = true →
        Completes (.binit a b) s (stays s · (.init k))) ∧
      (x.toNat = 0 ∨ 65536 ≤ x.toNat → CanTrap s → ∀ w, encode (.binit a b) = some w → Completes (.binit a b) s (Trapped s · 0x01 (word w) 0)) ∧
      (s.creditHeld core k = true → Completes (.bexpect a b) s (stays s · .other) ∧
        (s.hart.isHeld = false → Completes (.barrive d a) s (stays s · .other)) ∧
        (s.hart.block = none → bit s.hart.stepArr 0 = false → t.broken = false → Completes (.step d a) s (stays s · (.arrival k)))) ∧
      (t.held = [] → s.creditHeld core k = false → s.hart.isHeld = false → t.arr ≠ t.exp → Completes (.barrive d a) s (fun u =>
        BarrierStands s u (some s.cur) core k { t with arr := t.arr + 1 } ∧ (d ≠ 0 → u.hart.sreg d = word t.phase) ∧
        (∀ r, r ≠ d → u.hart.sreg r = s.hart.sreg r) ∧ GoesOn s.hart u.hart ∧ u.hart.still.lessS = s.hart.still.lessS ∧ u.mem = s.mem)) ∧
      (s.hart.isHeld = false → s.creditHeld core k = false → t.arr = t.exp →
        ∀ p ∈ [(Instr.barrive d a, false, s), (.step d a, true, s.cleanLines core)],
        (p.2.1 = true → s.hart.block = none ∧ t.broken = false ∧ bit s.hart.stepArr 0 = false) → Completes p.1 s (fun u =>
          (u.coreAt core).bar k = { t with held := t.held ++ [⟨s.cur, d, p.2.1⟩] } ∧ (∀ j, j ≠ k → (u.coreAt core).bar j = (s.coreAt core).bar j) ∧
          u.hart.pc = s.hart.pc ∧ u.hart.block.map (·.wait) = some (.held k d p.2.1) ∧ u.hart.still = s.hart.still ∧
          (∀ n, n ≠ s.cur → u.hartAt n = s.hartAt n) ∧ u.mem = p.2.2.mem)) ∧
      (t.held = [] → s.creditHeld core k = false → ¬outOf36 x.toInt → ¬outOf36 (t.pend + x.toInt) →
        Completes (.bexpect a b) s (fun u =>
          BarrierStands s u (some s.cur) core k { t with pend := t.pend + x.toInt } ∧ GoesOn s.hart u.hart ∧ u.hart.still = s.hart.still ∧ u.mem = s.mem)) ∧
      (BarrierHolds s core k t → s.creditHeld core k = false → t.arr = t.exp → t.broken = false → t.exp ≠ 0 → ¬outOf36 x.toInt → t.pend + x.toInt = 0 →
        (∀ e ∈ t.held, e.hart ≠ s.cur) → Completes (.bexpect a b) s (fun u => Admits s u (some s.cur) core k { t with pend := 0 } ∧ GoesOn s.hart u.hart ∧
          u.hart.still = s.hart.still ∧ u.mem = s.mem)) ∧
      (outOf36 x.toInt ∨ outOf36 (t.pend + x.toInt) → s.creditHeld core k = false → CanTrap s → ∀ w, encode (.bexpect a b) = some w →
        Completes (.bexpect a b) s (Trapped s · 0x01 (word w) 0)) ∧
      (t.broken = false → t.phase ≠ ph → Completes (.bwait a b) s (WritesS s · 0 0)) ∧
      (t.broken = false → t.phase = ph → Completes (.bwait a b) s (stays s · (.phase k ph false))) ∧
      (x = 0 → t.exp < 2 ^ 16 → t.arr < 2 ^ 16 → t.phase < 2 ^ 16 → Completes (.btest d a b) s (fun u => WritesS s u d (u.hart.sreg d) ∧
        (d ≠ 0 → let y := u.hart.sreg d; field y 15 0 = t.phase ∧ field y 31 16 = t.arr ∧ field y 47 32 = t.exp ∧ field y 61 48 = 0 ∧
          bit y 62 = s.barWait core k ∧ bit y 63 = t.broken))) ∧
      (x = 1 → Completes (.btest d a b) s (WritesS s · d (BitVec.ofInt 64 t.pend))) ∧
      (1 < x.toNat → CanTrap s → ∀ w, encode (.btest d a b) = some w → Completes (.btest d a b) s (Trapped s · 0x01 (word w) 0)) ∧
      (t.broken = false → bit s.hart.stepArr 0 = true → s.hart.block = none → ∀ p, p = (s.hart.sreg d).toNat % 65536 →
        (t.phase ≠ p → Completes (.step d a) s (fun u => u.hart.stepArr = 0 ∧ GoesOn s.hart u.hart ∧
          { u.hart.still with stepArr := 0 } = { s.hart.still with stepArr := 0 } ∧ OnlyHart s u)) ∧
        (t.phase = p → Completes (.step d a) s (stays s · (.phase k p true)))) ∧
      (s.hart.block = none → s.creditHeld core k = false → t.broken = false → bit s.hart.stepArr 0 = false → t.held = [] → t.arr ≠ t.exp →
        (¬(t.arr + 1 = t.exp ∧ t.pend = 0) → Completes (.step d a) s (fun u =>
          BarrierStands s u (some s.cur) core k { t with arr := t.arr + 1 } ∧ u.hart.pc = s.hart.pc ∧ bit u.hart.stepArr 0 = true ∧
          (d ≠ 0 → u.hart.sreg d = word t.phase) ∧ u.hart.block.map (·.wait) = some (.phase k t.phase true) ∧ u.mem = (s.cleanLines core).mem)) ∧
        (t.arr + 1 = t.exp → t.pend = 0 → t.phase < 2 ^ 16 → Completes (.step d a) s (fun u =>
          BarrierStands s u (some s.cur) core k { t with arr := t.arr + 1 } ∧ u.hart.stepArr = 0 ∧ (d ≠ 0 → u.hart.sreg d = word t.phase) ∧
          (∀ r, r ≠ d → u.hart.sreg r = s.hart.sreg r) ∧ GoesOn s.hart u.hart ∧ u.mem = (s.cleanLines core).mem)))) ∧
    (s.hart.isHeld = true → Completes (.barrive d a) s (· = s) ∧ Completes (.step d a) s (· = s)) ∧
    (∀ p b' i', s.hart.block = some ⟨.phase k p true, b', i'⟩ → t.broken = false →
      (t.phase ≠ p → Completes (.step d a) s (fun u => u.hart.stepArr = 0 ∧ GoesOn s.hart u.hart ∧
        { u.hart.still with stepArr := 0 } = { s.hart.still with stepArr := 0 } ∧ OnlyHart s u)) ∧
      (t.phase = p → Completes (.step d a) s (stays s · (.phase k p true)))) ∧
    (barOutside (s.gangOf s.cur) (s.hart.sreg a).toNat = true → s.hart.block = none → CanTrap s →
      ∀ i ∈ [Instr.binit a b, .barrive d a, .bexpect a b, .bwait a b, .btest d a b, .step d a],
        Completes i s (Trapped s · 0x06 (s.hart.sreg a) 0)) ∧
    (s.barrierOf a = .ok k → CanTrap s → t.broken = true →
      Completes (.bwait a b) s (Trapped s · 0x0A (word (2 ^ 63 + k)) 0) ∧
      (s.hart.block = none → Completes (.step d a) s (Trapped s · 0x0A (word (2 ^ 63 + k)) 0)))

/-- R149 to R152: what the barrier unit does by itself. The oldest credit of a core lowers its barrier's PEND, which is then evaluated. Where a phase
ends with arrivals held, they are admitted oldest first, at most EXP into each new phase, whose number they receive; a phase that they fill ends at
once, PEND being zero. A credit that would take PEND below −2^35 breaks the barrier and posts a record of kind 6, and every hart that waits on the
barrier traps BARRIER_AGE with the barrier's number and bit 63 in TRAPVAL, a held arrival withdrawn. A running hart that has been blocked in one
instruction for more than BARAGE cycles traps BARRIER_AGE there, with what it waits for in TRAPVAL; BARAGE zero sets no limit. -/
def Obligations.BarrierAgents : Prop :=
  (∀ (s : State) (core : Nat) (x : Credit) (rest : List Credit), let b := (s.coreAt core).bar x.bar
    (s.coreAt core).credits = x :: rest →
    (b.held = [] → -(2 ^ 35) ≤ b.pend - x.bytes → Completes (.engineCredit core) s (fun t =>
      (t.coreAt core).credits = rest ∧ t.mem = s.mem ∧
      BarrierStands { s with cores := (s.onCoreAt core (fun c => { c with credits := rest })).cores } t none core x.bar
        { b with pend := b.pend - x.bytes })) ∧
    (BarrierHolds s core x.bar b → b.arr = b.exp → b.broken = false → b.exp ≠ 0 → b.pend = x.bytes → Completes (.engineCredit core) s (fun t =>
      (t.coreAt core).credits = rest ∧ t.mem = s.mem ∧ Admits s t none core x.bar { b with pend := 0 })) ∧
    (b.pend - x.bytes < -(2 ^ 35) → s.recordRoom core = true → Completes (.engineCredit core) s (fun t => let b' := (t.coreAt core).bar x.bar
      b'.broken = true ∧ b'.pend = -(2 ^ 35) ∧ (b'.arr, b'.phase, b'.exp) = (b.arr, b.phase, b.exp) ∧ (t.coreAt core).credits = rest ∧
      (∃ r ∈ (t.coreAt core).records ++ (t.coreAt core).unposted, r.kind = 6 ∧ r.bar = some x.bar ∧ r.core = core) ∧
      (∀ n, n / 8 = core → (s.hartAt n).waitsOn = some x.bar → ((s.hartAt n).isHeld = true → ∀ e ∈ b'.held, e.hart ≠ n) ∧
        ((s.hartAt n).trapBase ≠ 0 → (s.hartAt n).atEntry = false → let h := s.hartAt n; let h' := t.hartAt n
          h'.trapCause = 0x0A ∧ h'.trapVal = word (2 ^ 63 + x.bar) ∧ h'.trapPc = addrField 2 h.pc ∧ h'.pc = sext57 h.trapBase + 0x280 ∧ h'.block = none ∧
          (h'.s, h'.v, h'.p, h'.stepArr) = (h.s, h.v, h.p, h.stepArr))) ∧
      ∀ n, n / 8 ≠ core ∨ (s.hartAt n).waitsOn ≠ some x.bar → t.hartAt n = s.hartAt n))) ∧
  ∀ (s : State) (n v : Nat) (b : Block), let h := s.hartAt n; let limit := (s.coreAt (n / 8)).barAge.toNat
    h.block = some b → b.wait.age = some v → h.run = .running →
    (limit ≠ 0 → limit < s.clock.cycle - b.since → h.trapBase ≠ 0 → h.atEntry = false → Completes (.barrierAgeExpiry n) s (fun t =>
      let h' := t.hartAt n
      h'.trapCause = 0x0A ∧ h'.trapVal = word v ∧ h'.trapPc = addrField 2 h.pc ∧ h'.pc = sext57 h.trapBase + 0x280 ∧ h'.block = none ∧
      (h'.s, h'.v, h'.p) = (h.s, h.v, h.p) ∧ ∀ k, k ≠ n → t.hartAt k = s.hartAt k)) ∧
    (limit = 0 ∨ s.clock.cycle - b.since ≤ limit → Completes (.barrierAgeExpiry n) s (· = s))

/-! ## Tasks -/

/-- R129, R132, R135, R142: `spawn` first performs the hart's earlier stores, then reads the record at s[a]. An address that is not 64-byte aligned
traps MISALIGNED, and a word that may not be read, or is marked, traps as a load of it. An invalid record answers 3, a disabled queue 2, a full ring 1,
and nothing is posted; else the record's address enters the queue's ring, QWR rises by one, JOIN of a ranged record takes its number of chunks, and
the answer is 0. A ranged record with LO ≥ HI has JOIN 0 and no post, and is complete: JOIN of its parent, if any, falls by one. A `spawn` whose
completion has to wait goes on with what is left. The oldest post held for a queue, on any die, enters its ring likewise once that has a free entry
(R132); that it does so while EN is 0 is the model's choice, log 57. A queue that has waited QAGE once more, since it was last served, since its head
came to stand there or since the master distributor was elected (R141; from the election, log 57), rises one level (R133). -/
def Obligations.TaskPosting : Prop :=
  (∀ (s s' : State) (d a : SReg) (bs : List Byte), let va := s.hart.sreg a; let s0 := s.cleanLines (s.cur / 8)
    let r := Rec.ofNat (bytesToNat bs); let q := s'.queue r.queue; let slot := q.qbase.toNat + q.qwr % 2 ^ q.size * 8
    s.hart.acts = [] →
    (CanTrap s → va.toNat % 64 ≠ 0 → Completes (.spawn d a) s (Trapped s0 · 0x04 va 0)) ∧
    (∀ e, s0.loadBlock va 64 = (.trap e, s') → CanTrap s' → Completes (.spawn d a) s (Trapped s' · e.cause e.val e.vec)) ∧
    (s0.loadBlock va 64 = (.ok bs, s') →
    (s'.recValid true r = false → Completes (.spawn d a) s (WritesS s' · d 3)) ∧
    (s'.recValid true r = true → q.en = false → Completes (.spawn d a) s (WritesS s' · d 2)) ∧
    (s'.recValid true r = true → q.en = true → s'.spawnFull r.queue = true → Completes (.spawn d a) s (WritesS s' · d 1)) ∧
    (s'.recValid true r = true → q.en = true → s'.spawnFull r.queue = false → slot % 4096 + 8 ≤ 4096 →
      s'.stackReady slot = true → (s'.part.key? slot).isSome = true → s'.onFenced (s'.part.key slot) = false → ∀ x, (s'.translate (some (s.cur / 8)) s.hart.ctx va).1 = some x → x.pa % 4096 + 64 ≤ 4096 →
      (r.range = true → 0 < r.chunks ∧ (s'.part.key? (x.pa + 0x18)).isSome = true ∧ s'.onFenced (s'.part.key (x.pa + 0x18)) = false ∧
        (s'.part.key slot + 8 ≤ s'.part.key (x.pa + 0x18) ∨ s'.part.key (x.pa + 0x18) + 4 ≤ s'.part.key slot)) →
      Completes (.spawn d a) s (fun t =>
        (d ≠ 0 → t.hart.sreg d = 0) ∧ (∀ k, k ≠ d → t.hart.sreg k = s.hart.sreg k) ∧ GoesOn s.hart t.hart ∧
        t.hart.still.lessS = s.hart.still.lessS ∧ (∀ k, k ≠ s.cur → t.hartAt k = s.hartAt k) ∧
        (t.queue r.queue).qwr = q.qwr + 1 ∧ (t.queue r.queue).qrd = q.qrd ∧ (∀ k, k ≠ r.queue → t.queue k = s'.queue k) ∧
        (∀ b, t.mem.cells.read b =
          if s'.part.key slot ≤ b ∧ b < s'.part.key slot + 8 then BitVec.ofNat 8 (va.toNat / 256 ^ (b - s'.part.key slot))
          else if r.range = true ∧ s'.part.key (x.pa + 0x18) ≤ b ∧ b < s'.part.key (x.pa + 0x18) + 4 then
            BitVec.ofNat 8 (r.chunks / 256 ^ (b - s'.part.key (x.pa + 0x18)))
          else s'.mem.cells.read b))) ∧
    -- no chunks
    (s'.recValid true r = true → q.en = true → s'.spawnFull r.queue = false → r.range = true → r.chunks = 0 →
      ∀ x, (s'.translate (some (s.cur / 8)) s.hart.ctx va).1 = some x → x.pa % 4096 + 64 ≤ 4096 →
      let join := s'.part.key (x.pa + 0x18); let w := s'.writePhys (x.pa + 0x18) [0, 0, 0, 0]
      let zeroed := fun (b : Nat) => if join ≤ b ∧ b < join + 4 then 0 else s'.mem.cells.read b
      let done := fun (t : State) => (d ≠ 0 → t.hart.sreg d = 0) ∧ (∀ k, k ≠ d → t.hart.sreg k = s.hart.sreg k) ∧ GoesOn s.hart t.hart ∧
        (∀ k, k ≠ s.cur → t.hartAt k = s.hartAt k) ∧ ∀ k, t.queue k = s'.queue k
      (s'.part.key? (x.pa + 0x18)).isSome = true → s'.onFenced join = false →
      (r.parent = 0 → Completes (.spawn d a) s (fun t => done t ∧ ∀ b, t.mem.cells.read b = zeroed b)) ∧
      (∀ j pa u, r.parent ≠ 0 → w.schedHeld q.ctx (r.parent + 0x18) = false →
        w.schedRead32 q.ctx (r.parent + 0x18) = (some (j, pa), u) → 1 < j → j < 2 ^ 32 → (u.part.key? pa).isSome = true →
        u.onFenced (u.part.key pa) = false → pa % 4096 + 4 ≤ 4096 → Completes (.spawn d a) s (fun t => done t ∧
          ∀ b, t.mem.cells.read b = if u.part.key pa ≤ b ∧ b < u.part.key pa + 4 then BitVec.ofNat 8 ((j - 1) / 256 ^ (b - u.part.key pa))
            else zeroed b))))) ∧
  -- a `spawn` that has posted and waits
  (∀ (s u : State) (d a : SReg) (left : List Act), s.hart.acts ≠ [] → runActs 65536 s s.hart.acts = (u, left) →
    (left = [] → Completes (.spawn d a) s (WritesS (u.onHart (fun h => { h with acts := [] })) · d 0)) ∧
    (left ≠ [] → Completes (.spawn d a) s (fun t => t.hart.pc = u.hart.pc ∧ t.hart.acts = left ∧ t.mem = u.mem ∧ t.sched = u.sched ∧
      t.dies = u.dies))) ∧
  (∀ (s : State) (die : Nat) (p : HeldPost) (rest : List HeldPost), let q := s.queue p.queue
    let slot := q.qbase.toNat + q.qwr % 2 ^ q.size * 8
    (s.dieAt die).held = p :: rest → q.full = false → s.stackReady slot = true → s.onFenced (s.part.key slot) = false →
    (∀ d < 4, ∀ x ∈ (s.dieAt d).held, x.queue = p.queue → p.order ≤ x.order) → Completes (.heldPostEntry die) s (fun t =>
      (t.dieAt die).held = rest ∧ (t.queue p.queue).qwr = q.qwr + 1 ∧ SMap.get none (t.queue p.queue).info q.qwr = some p.post ∧
      ((s.part.key? slot).isSome = true → slot % 4096 + 8 ≤ 4096 → ∀ b, t.mem.cells.read b =
        if s.part.key slot ≤ b ∧ b < s.part.key slot + 8 then BitVec.ofNat 8 (p.post.addr.toNat / 256 ^ (b - s.part.key slot))
        else s.mem.cells.read b) ∧
      (∀ k, k ≠ p.queue → t.queue k = s.queue k) ∧ t.harts = s.harts ∧ t.cores = s.cores)) ∧
  ∀ (s : State) (k : Nat), let q := s.queue k; let since := max (max q.lastServe q.headSince) s.sched.elected
    (s.candidate k = true → s.sched.qage ≠ 0 → (q.promoted + 1) * (s.sched.qage.toNat * 1000) ≤ s.clock.time - since →
      Completes (.queuePromotion k) s (fun t => t.queue k = { q with promoted := q.promoted + 1 } ∧
        (∀ j, j ≠ k → t.queue j = s.queue j) ∧ { t with sched := s.sched } = s)) ∧
    (s.sched.qage = 0 ∨ s.clock.time - since < (q.promoted + 1) * (s.sched.qage.toNat * 1000) → Completes (.queuePromotion k) s (· = s))

/-- R143, R144: `tgraph` first performs the hart's earlier stores, then starts a replay. A bad header and a graph without a root answer 3; else, with
no slot of the area free, 1; else an invalid root 3 and a disabled queue of a root 2 (the order among roots is the model's, log 55, which also says
how the control block tells a busy slot). Else the slot is marked busy with none retired, the snapshot and the counters are stored in it, and the roots
are posted, in order, as far as they need not wait; the answer is 0 once the last is posted. Till then `tgraph` stays at its word with the rest and
goes on with them, its replay not started again. It completes so wherever the header, the nodes, the parameters and the control block can be read,
the slot can be written and the roots' posts need not wait; with one root, that is where its queue's ring has a free entry on a stack that is up. A
header or a notify record that is not 64-byte aligned traps MISALIGNED. -/
def Obligations.GraphReplays : Prop :=
  (∀ (s s1 s2 s3 : State) (d a b : SReg) (bs nodes control : List Byte), let hd := s.hart.sreg a; let nt := s.hart.sreg b
    let s0 := s.cleanLines (s.cur / 8)
    let h := GraphHead.ofNat (bytesToNat bs)
    let roots := (List.range h.ncount).filter (fun j => nodeDeps nodes j = 0)
    let r := nodeRec nodes
    let busy := fun (k : Nat) => bytesToNat ((control.drop (4 * k)).take 4) ≠ 0
    s.hart.acts = [] →
    (CanTrap s → hd.toNat % 64 ≠ 0 → Completes (.tgraph d a b) s (Trapped s0 · 0x04 hd 0)) ∧
    (CanTrap s → hd.toNat % 64 = 0 → nt.toNat % 64 ≠ 0 → Completes (.tgraph d a b) s (Trapped s0 · 0x04 nt 0)) ∧
    (hd.toNat % 64 = 0 → nt.toNat % 64 = 0 → s0.loadBlock hd 64 = (.ok bs, s1) →
      (h.ok = false → Completes (.tgraph d a b) s (WritesS s1 · d 3)) ∧
      (h.ok = true → s1.loadBlocks h.nodes (2 * h.ncount) = (.ok nodes, s2) →
        (roots = [] → Completes (.tgraph d a b) s (WritesS s2 · d 3)) ∧
        (roots ≠ [] → s2.loadBlock h.area 64 = (.ok control, s3) →
          ((∀ k, k < h.replays → busy k) → Completes (.tgraph d a b) s (WritesS s3 · d 1)) ∧
          (∀ k, k < h.replays → ¬busy k → (∀ j, j < k → busy j) →
            ((∃ j ∈ roots, s3.recValid true (r j) = false ∨ templateOk (r j) = false) → Completes (.tgraph d a b) s (WritesS s3 · d 3)) ∧
            ((∀ j ∈ roots, s3.recValid true (r j) = true ∧ templateOk (r j) = true) →
              ((∃ j ∈ roots, (s3.queue (r j).queue).en = false) → Completes (.tgraph d a b) s (WritesS s3 · d 2)) ∧
              ((∀ j ∈ roots, (s3.queue (r j).queue).en = true) →
                ∀ snap s4 s5 s6, s3.loadBlocks h.param (h.psize / 64) = (.ok snap, s4) →
                let counters := (List.range h.ncount).flatMap (fun j => natToBytes 4 (nodeDeps nodes j))
                let size := (h.psize + 4 * h.ncount + 63) / 64 * 64
                s4.storeBlocks h.area false (control.take (4 * k) ++ natToBytes 4 (2 ^ 31) ++ control.drop (4 * k + 4)) 1 = .ok s5 →
                s5.storeBlocks (h.area + word (64 + k * size)) (s4.noted s5)
                  (snap ++ counters ++ List.replicate (size - snap.length - counters.length) 0) (size / 64) = .ok s6 →
                (∀ s7 left, runActs 65536 s6 (s6.rootPosts h (h.ref k 0 nt) nodes roots) = (s7, left) →
                  (left = [] → Completes (.tgraph d a b) s (WritesS (s7.onHart (fun x => { x with acts := [] })) · d 0)) ∧
                  (left ≠ [] → Completes (.tgraph d a b) s (fun t => t.hart.pc = s7.hart.pc ∧ t.hart.acts = left ∧
                    t.mem = s7.mem ∧ t.sched = s7.sched ∧ t.dies = s7.dies))) ∧
                (s6.rootPosts h (h.ref k 0 nt) nodes roots).map (·.deed) = roots.map (fun j =>
                  Deed.root (h.ref k j nt).post (bytesToNat ((nodes.drop (128 * j)).take 64))
                    (((s6.translate (some s6.coreNum) s6.hart.ctx (h.nodes + word (128 * j))).1.map (·.pa)).getD 0)) ∧
                (∀ j, roots = [j] →
                  let q := s6.queue (r j).queue; let slot := q.qbase.toNat + q.qwr % 2 ^ q.size * 8
                  (r j).range = false → q.full = false → s6.hasHeld (r j).queue = false → s6.stackReady slot = true →
                  s6.onFenced (s6.part.key slot) = false →
                  Completes (.tgraph d a b) s (fun t =>
                    (d ≠ 0 → t.hart.sreg d = 0) ∧ (∀ k, k ≠ d → t.hart.sreg k = s.hart.sreg k) ∧ GoesOn s.hart t.hart ∧
                    (t.queue (r j).queue).qwr = q.qwr + 1 ∧ SMap.get none (t.queue (r j).queue).info q.qwr = some (h.ref k j nt).post ∧
                    (∀ n, n ≠ s.cur → t.hartAt n = s.hartAt n)))))))))) ∧
  -- a replay whose posts are not all made
  ∀ (s s7 : State) (d a b : SReg) (left : List Act), s.hart.acts ≠ [] → runActs 65536 s s.hart.acts = (s7, left) →
    (left = [] → Completes (.tgraph d a b) s (WritesS (s7.onHart (fun h => { h with acts := [] })) · d 0)) ∧
    (left ≠ [] → Completes (.tgraph d a b) s (fun t => t.hart.pc = s7.hart.pc ∧ t.hart.acts = left ∧
      t.mem = s7.mem ∧ t.sched = s7.sched ∧ t.dies = s7.dies))

/-- R130, R133 to R138, R144: a gang's life. The distributor takes the head of the first queue in its order; an invalid record is dropped with a fault
record of kind 5, and a valid one, or its next chunk, with a free grant is bound: its harts run from CODE in the queue's context with GANGID, GANGSIZE,
TASKFP and s3 to s8, at user level, the trap base and trap registers kept, and the head is taken when no chunk of it is left. s3 is FRAME, which of a
graph's instance counts from the replay's snapshot. All else of a hart is as at reset (R136). Granted slots and accumulators that another context
held are zero, slots are LIN, barriers and the fabric as new (R137). `texit` retires its hart once its stores have left for no other die, its tile
commands are complete and no failure is unreported; stores in the core's lines are written back then. A gang of retired harts without work left
releases its grant, and its end is told (R139, R145): JOIN of its parent falls by one, and at zero the parent's address enters its queue's ring, or, of
a ranged parent, its own parent is told; of a graph's instance, the counters of its successors fall by one, one at zero posting its instance, and
retired(k) rises by one, the last freeing slot k and telling the notify record. What must wait is left for later turns, the harts occupied till then
(log 60). -/
def Obligations.GangLifecycle : Prop :=
  (∀ (s s' : State) (q pa : Nat) (rest : List Nat) (p : Post) (r : Rec), let t := s.queue q
    s.choices = q :: rest → s.head q = some p → s.ringPoisoned q = false → s.recAt t.ctx p.addr = (some (r, pa), s') →
    (s'.recValid false r = true → (p.graph.isSome = true → templateOk r = true) → ∀ gr, s'.findGrant r = some gr →
      let k := p.chunk.getD t.chunk
      let lo := if r.range then r.lo + k * r.chunk else 0
      let hi := if r.range then min (lo + r.chunk) r.hi else 0
      let size := fun (g : GraphRef) => (g.psize + 4 * g.ncount + 63) / 64 * 64
      let frame := match p.graph with | some g => g.area + word (64 + g.slot * size g) + r.frame | none => r.frame
      Completes .queueServe s (fun u =>
        u.queue q = (if p.chunk = none ∧ k + 1 < p.chunks.getD 0 then (s'.keepHead q).queue q else (s'.takeHead q).queue q) ∧
        (∃ id g, (u.coreAt gr.core).gang id = some g ∧ g.size = r.gang ∧ g.first = gr.hart ∧ g.slot0 = gr.slot ∧ g.slots = r.slots ∧
          g.bar0 = gr.bar ∧ g.bars = r.bars ∧ g.acc0 = gr.acc ∧ g.accs = r.accs ∧ g.fab = r.fab ∧ g.prio = r.prio ∧ g.parent = r.parent ∧
          g.state = .running ∧ g.post.addr = p.addr ∧ g.chunkLo = lo ∧ g.chunkHi = hi ∧
          ∀ k, k < r.gang → let h := u.hartAt (gr.core * 8 + gr.hart + k); let old := s.hartAt (gr.core * 8 + gr.hart + k)
            h.run = .running ∧ h.gang = some id ∧ h.pc = r.code ∧ h.gangId = word k ∧ h.gangSize = word r.gang ∧
            h.taskFp = addrField 6 p.addr ∧ h.ctx = t.ctx ∧ h.sup = false ∧ h.ie = false ∧ h.careful = t.careful ∧
            h.sreg 3 = frame ∧ h.sreg 4 = word lo ∧ h.sreg 5 = word hi ∧ h.sreg 6 = word (if r.slots = 0 then 0 else gr.slot) ∧
            h.sreg 7 = word (if r.bars = 0 then 0 else gr.bar) ∧ h.sreg 8 = word (if r.accs = 0 then 0 else gr.acc) ∧
            (∀ j : SReg, j.toNat < 3 ∨ 8 < j.toNat → h.sreg j = 0) ∧
            (h.trapBase, h.trapCause, h.trapPc, h.trapVal, h.trapVec) = (old.trapBase, old.trapCause, old.trapPc, old.trapVal, old.trapVec) ∧
            { h.lessS with pc := 0, gangId := 0, gangSize := 1, taskFp := 0, status := 1, trapBase := 0, trapCause := 0, trapPc := 0,
                           trapVal := 0, trapVec := 0, rfCorr := 0, ctx := 0, run := .free, gang := none } = Hart.reset) ∧
        (∀ k, k < r.slots → (u.coreAt gr.core).layOf (gr.slot + k) = 0 ∧ ∀ i, i < 16384 →
          u.mem.cells.read (windowKey gr.core ((gr.slot + k) * 16384) + i) =
            if SMap.get none (s'.coreAt gr.core).slotCtx (gr.slot + k) = some t.ctx then
              s'.mem.cells.read (windowKey gr.core ((gr.slot + k) * 16384) + i) else 0) ∧
        (∀ b, (∀ k, k < r.slots → b < windowKey gr.core ((gr.slot + k) * 16384) ∨ windowKey gr.core ((gr.slot + k) * 16384) + 16384 ≤ b) →
          u.mem.cells.read b = s'.mem.cells.read b) ∧
        (∀ k m n, k < r.accs → m < 128 → n < 64 → (u.coreAt gr.core).accAt (gr.acc + k) m n =
          if SMap.get none (s'.coreAt gr.core).accCtx (gr.acc + k) = some t.ctx then (s'.coreAt gr.core).accAt (gr.acc + k) m n else 0) ∧
        (∀ k, k < r.bars → (u.coreAt gr.core).bar (gr.bar + k) = { exp := r.gang }) ∧
        (r.fab = true → ∃ id, (u.coreAt gr.core).fab = { gang := some id }) ∧
        (∀ n, n < gr.core * 8 + gr.hart ∨ gr.core * 8 + gr.hart + r.gang ≤ n → u.hartAt n = s.hartAt n))) ∧
    (s'.recValid false r = false ∨ (p.graph.isSome = true ∧ templateOk r = false) → t.front = [] → s'.dieRecordRoom (s'.dieFor r) = true →
      (s.dieAt (s'.dieFor r)).unposted = [] → Completes .queueServe s (fun u =>
      u.queue q = (s'.takeHead q).queue q ∧ u.harts = s.harts ∧ (∀ c, { u.coreAt c with gangs := [] } = { s.coreAt c with gangs := [] }) ∧
      ∃ e, (u.dieAt (s'.dieFor r)).records = (s.dieAt (s'.dieFor r)).records ++ [e] ∧ e.kind = 5 ∧ e.d0 = 1 ∧ e.d1 = word q ∧ e.addr = p.addr))) ∧
  (∀ s : State, (s.hart.gang = none → CanTrap s → ∀ w, encode .texit = some w → Completes .texit s (Trapped s · 0x01 (word w) 0)) ∧
    (s.hart.gang ≠ none → reportFail s = none → reportFab s = none → s.hartBusy s.cur = false → Completes .texit s (fun t =>
      t.hart.retired = true ∧ t.hart.run = .free ∧ t.hart.gang = s.hart.gang ∧ (t.hart.s, t.hart.v, t.hart.p, t.hart.tags) = ([], [], [], []) ∧
      (t.hart.trapBase, t.hart.trapPc, t.hart.rfCorr) = (s.hart.trapBase, s.hart.trapPc, s.hart.rfCorr) ∧ OnlyHart (s.cleanLines (s.cur / 8)) t)) ∧
    (s.hart.gang ≠ none → reportFail s = none → reportFab s = none → s.hartBusy s.cur = true → Completes .texit s (fun t =>
      t.hart.pc = s.hart.pc ∧ t.hart.still = s.hart.still ∧ OnlyHart s t))) ∧
  ∀ (s : State) (core id : Nat) (g : Gang), (s.coreAt core).gang id = some g → g.id = id →
    let released := fun (u : State) => (u.coreAt core).gang id = none ∧
      ∀ n, if n ∈ g.harts core then (u.hartAt n).gang = none ∧ (u.hartAt n).run = .free ∧ (u.hartAt n).retired = false else u.hartAt n = s.hartAt n
    let isOver := g.state ≠ .saved ∧ g.ending = none ∧ (∀ n ∈ g.harts core, (s.hartAt n).retired = true ∧ (s.hartAt n).run = .free) ∧
      s.gangBusy core g = false
    let v := releaseGrant core g s; let counts := fun (u : State) (pa : Nat) =>
      (u.part.key? pa).isSome = true ∧ u.onFenced (u.part.key pa) = false ∧ pa % 4096 + 4 ≤ 4096
    -- a parent's JOIN
    (isOver → g.ranged = false → g.post.graph = none →
      (g.parent = 0 → Completes (.gangComplete core id) s (fun u => released u ∧ u.mem = s.mem)) ∧
      (∀ j pa u0, v.schedHeld g.ctx (g.parent + 0x18) = false → v.schedRead32 g.ctx (g.parent + 0x18) = (some (j, pa), u0) → g.parent ≠ 0 →
        j < 2 ^ 32 → counts u0 pa →
        let told := fun (b : Nat) => if u0.part.key pa ≤ b ∧ b < u0.part.key pa + 4 then BitVec.ofNat 8 ((j - 1) / 256 ^ (b - u0.part.key pa))
          else s.mem.cells.read b
        (1 < j → Completes (.gangComplete core id) s (fun u => released u ∧ ∀ b, u.mem.cells.read b = told b)) ∧
        (j = 1 → ∀ r rpa u1 r0 pa0 u2 r1 pa1 u3, (u0.writePhys pa [0, 0, 0, 0]).recAt g.ctx g.parent = (some (r, rpa), u1) → r.range = false →
          u1.schedHeld g.ctx g.parent = false → u1.recAt g.ctx g.parent = (some (r0, pa0), u2) →
          u2.schedHeld (u2.queue r0.queue).ctx g.parent = false → u2.recAt (u2.queue r0.queue).ctx g.parent = (some (r1, pa1), u3) →
          let q := u3.queue r0.queue; let slot := q.qbase.toNat + q.qwr % 2 ^ q.size * 8
          u3.recValid true r1 = true → q.en = true → r1.range = false → q.full = false → u3.hasHeld r0.queue = false → u3.stackReady slot = true →
          (u3.part.key? slot).isSome = true → u3.onFenced (u3.part.key slot) = false → slot % 4096 + 8 ≤ 4096 →
          Completes (.gangComplete core id) s (fun u => released u ∧ (u.queue r0.queue).qwr = q.qwr + 1 ∧
            (∀ k, k ≠ r0.queue → u.queue k = s.queue k) ∧ ∀ b, u.mem.cells.read b =
              if u3.part.key slot ≤ b ∧ b < u3.part.key slot + 8 then BitVec.ofNat 8 (g.parent.toNat / 256 ^ (b - u3.part.key slot))
              else told b)))) ∧
    -- an instance of a graph: counters that stay above zero, and a replay that goes on
    (∀ (gr : GraphRef) (npa : Nat) (us ws : Nat → State) (n pa : Nat → Nat) (c cpa : Nat) (u : State), isOver → g.ranged = false →
      g.post.graph = some gr → v.schedHeld g.ctx (g.post.addr + 0x40) = false → v.schedAddr g.ctx (g.post.addr + 0x40) = (some npa, us 0) →
      let dep := bytesToNat ((us 0).readPhys npa 64); let num := recBits dep 2 15 0; let succ := fun (i : Nat) => recBits dep (4 + 2 * i) 15 0
      let snap := gr.area + word (64 + gr.slot * ((gr.psize + 4 * gr.ncount + 63) / 64 * 64))
      let counter := fun (j : Nat) => snap + word (gr.psize + 4 * j); let control := gr.area + word (4 * gr.slot)
      num ≤ 30 → (∀ i, i < num → succ i < gr.ncount ∧ (us i).schedHeld g.ctx (counter (succ i)) = false ∧
        (us i).schedRead32 g.ctx (counter (succ i)) = (some (n i, pa i), ws i) ∧ 1 < n i ∧ counts (ws i) (pa i) ∧
        us (i + 1) = (ws i).writePhys (pa i) (natToBytes 4 (n i - 1))) →
      (us num).schedHeld g.ctx control = false → (us num).schedRead32 g.ctx control = (some (c, cpa), u) → counts u cpa →
      c % 2 ^ 31 + 1 < gr.ncount → Completes (.gangComplete core id) s (fun t => released t ∧
        ∀ b, t.mem.cells.read b = (u.writePhys cpa (natToBytes 4 (2 ^ 31 + (c % 2 ^ 31 + 1)))).mem.cells.read b)) ∧
    -- any completion, act by act
    (∀ (todo left : List Act) (u : State),
      (g.ending = some todo ∧ runActs 65536 s todo = (u, left)) ∨
        (isOver ∧ todo = [⟨core / 64, g.ctx, if g.ranged then .join g.post.addr g.post.graph else .complete g.post g.parent⟩] ∧
          runActs 65536 v todo = (u, left)) →
      (left = [] → Completes (.gangComplete core id) s (fun t => released t ∧ t.mem = u.mem ∧ t.sched = u.sched ∧ t.dies = u.dies)) ∧
      (left ≠ [] → Completes (.gangComplete core id) s (fun t => t.harts = s.harts ∧ t.mem = u.mem ∧ t.sched = u.sched ∧ t.dies = u.dies ∧
        (t.coreAt core).gang id = some { g with slots := 0, bars := 0, accs := 0, fab := false, ending := some left }))) ∧
    -- the acts at zero
    (∀ (die ctx j pa : Nat) (target : Word) (gr : Option GraphRef) (r : Rec) (rpa : Nat) (u w : State), target ≠ 0 →
      s.schedHeld ctx (target + 0x18) = false → s.schedRead32 ctx (target + 0x18) = (some (j, pa), u) → u.onFenced (u.part.key pa) = false →
      (j = 0 → doAct s ⟨die, ctx, .join target gr⟩ = some (scheduleRecord u die target 3 0 ctx, [])) ∧
      (j = 1 → (u.writePhys pa [0, 0, 0, 0]).recAt ctx target = (some (r, rpa), w) → doAct s ⟨die, ctx, .join target gr⟩ =
        some (w, [⟨die, ctx, if r.range then .complete { addr := target, graph := gr } r.parent else .post { addr := target }⟩]))) ∧
    (∀ (die ctx j n pa : Nat) (node : Word) (gr : GraphRef) (u : State),
      (gr.ncount ≤ j → doAct s ⟨die, ctx, .succ node gr j⟩ = some (scheduleRecord s die node 4 0 ctx, [])) ∧
      (j < gr.ncount → s.schedHeld ctx (gr.counter j) = false → s.schedRead32 ctx (gr.counter j) = (some (n, pa), u) →
        u.onFenced (u.part.key pa) = false →
        (n = 0 → doAct s ⟨die, ctx, .succ node gr j⟩ = some (scheduleRecord u die node 4 0 ctx, [])) ∧
        (n = 1 → doAct s ⟨die, ctx, .succ node gr j⟩ = some (u.writePhys pa [0, 0, 0, 0],
          [⟨die, ctx, .post { addr := gr.nodes + word (128 * j), graph := some { gr with node := j } }⟩]))) ∧
      (s.schedHeld ctx gr.control = false → s.schedRead32 ctx gr.control = (some (n, pa), u) → u.onFenced (u.part.key pa) = false →
        gr.ncount ≤ n % 2 ^ 31 + 1 → doAct s ⟨die, ctx, .retired node gr⟩ =
          some (u.writePhys pa [0, 0, 0, 0], [⟨die, ctx, .join gr.notify none⟩])))

/-! ## Pre-emption and fault records -/

/-- R105, R140, R324, R325, R336, R337, R339 to R341, R343: requests about gangs. PREEMPT with REQ asks a running gang to stop; a priority-0 head without
a binding for QAGE does the same to the victim that R140 names. Each hart of the gang stops at its own next point, where its instruction has no
effect; a trap due there is delivered first. A stopping gang of stopped harts whose work is settled takes an area of its die's ring, writes to it
each hart's registers, tags and live vector bytes, the accumulators and the live slots, leaves its harts free and stays as saved. Once what it needs is
free and no better head waits it runs again on the same harts, with what the area holds, and its area returns; a slot that was not live is zero.
RETIRE and ABANDON of a frozen hart act at once where nothing of it is under way. SAVEADD appends a backed area while the ring has room, once the
ring's entry lies on a stack that is up. That QAGE 0 asks at once and what a restore needs to be free are read by inference, log 36; that QAGE counts
afresh from the election and that the victims are those of the head's die is the model's choice, log 57. -/
def Obligations.GangRequests : Prop :=
  (∀ (s : State) (core : Nat) (v : Word) (g : Gang),
    let asked := fun (t : State) =>
      (t.coreAt core).gang g.id = some { g with state := .stopping } ∧ t.harts = s.harts ∧ t.mem = s.mem ∧ ∀ c, c ≠ core → t.coreAt c = s.coreAt c
    g.state = .running → g.ending = none →
    (s.gangOf (core * 8 + field v 2 0) = some g → bit v 3 = true → Completes (.preemptRequest core v) s (fun t =>
      asked t ∧ (t.coreAt core).preHart = field v 2 0)) ∧
    (∀ q p r pa s', s.head q = some p → s.recAt (s.queue q).ctx p.addr = (some (r, pa), s') → s.candidate q = true → r.prio = 0 →
      s.recValid false r = true →
      s.sched.qage.toNat * 1000 ≤ s.clock.time - max (max (s.queue q).lastServe (s.queue q).headSince) s.sched.elected → s.findGrant r = none →
      pickVictim (s.victims r) = some (core, g) → Completes (.distributorPreempt q) s asked)) ∧
  (∀ s t : State, s.stopDue = true → s.hart.atEntry = false → s.ageTrap s.cur = none →
    ((t.hartAt s.cur).atEntry = true → (t.hartAt s.cur).run = .running → ∃ u, heedStop s (.next t) = .next u ∧
      u.hartAt s.cur = { t.hartAt s.cur with run := .stopped, block := none } ∧ u.mem = t.mem) ∧
    ((t.hartAt s.cur).atEntry = false → (t.hartAt s.cur).run ≠ .frozen → ∃ u, heedStop s (.next t) = .next u ∧
      u.hartAt s.cur = { s.hart with run := .stopped, block := none } ∧ (∀ n, n ≠ s.cur → u.hartAt n = s.hartAt n) ∧ u.mem = s.mem)) ∧
  (∀ (s : State) (core id : Nat) (g : Gang), let die := core / 64; let d := s.dieAt die
    (s.coreAt core).gang id = some g → g.id = id →
    (g.state = .stopping → g.ending = none → (g.harts core).all s.hartStopped = true → (s.coreAt core).copiesSettled g = true →
      (g.fab = true → s.fabricSettled core = true) → d.saverd ≠ d.savewr →
      let entry := d.saveb.toNat + d.saverd % 512 * 8; let pa := bytesToNat (s.readPhys entry 8)
      s.stackReady entry = true → (∀ p ∈ s.areaParts core g, s.rangeReady (pa + p.1) p.2.length = true) →
      (∀ e, e < 4 → s.dieRecordRoom e = true) → Completes (.preemptSave core id) s (fun t =>
        (t.dieAt die).saverd = d.saverd + 1 ∧ (∀ n ∈ g.harts core, (t.hartAt n).gang = none ∧ (t.hartAt n).run = .free) ∧
        (∀ n, n ∉ g.harts core → t.hartAt n = s.hartAt n) ∧
        (∃ g', (t.coreAt core).gang id = some g' ∧ g'.state = .saved ∧ g'.saveArea = pa ∧
          g'.saved.harts.map (·.run) = (g.harts core).map (fun n => (s.hartAt n).run)) ∧
        -- the contents of an area that is backed and on no fenced die
        (pa % 0x800000 = 0 → g.size ≤ 8 → g.accs ≤ 8 → g.slots ≤ 256 →
          (∀ i, i < 0x800000 → (∃ x, s.part.place (pa + i) = .hbm x) ∧ s.onFenced (s.part.key (pa + i)) = false) →
          (∀ i j, i < 0x800000 → j < 0x800000 → s.part.key (pa + i) = s.part.key (pa + j) → i = j) →
          let holds := fun (off n v : Nat) => ∀ i, i < n → t.mem.cells.read (s.part.key (pa + off + i)) = BitVec.ofNat 8 (v / 256 ^ i)
          (∀ k n, (g.harts core)[k]? = some n → (s.hartAt n).retired = false → let h := s.hartAt n; let part := 0x1000 + k * 0x6000
            (∀ r : SReg, holds (part + 8 * r.toNat) 8 (h.sreg r).toNat) ∧ (∀ e ∈ savedSrs, holds (part + e.2) 8 (s.readSr n e.1).toNat) ∧
            holds (part + 0x3F8) 8 h.pc.toNat ∧ (∀ r : PReg, r.toNat < 48 → holds (part + 0x400 + 64 * r.toNat) 64 (h.preg r).toNat) ∧
            (∀ r, r < 64 → holds (part + 0x1000 + r) 1 (h.tag r).code) ∧
            (bit h.hwm 16 = true → ∀ r, r ≤ field h.hwm 5 0 → holds (part + 0x1400 + 256 * r) (field h.hwm 15 8 + 1) (h.vreg r).toNat)) ∧
          (∀ k e, k < g.accs → e < 8192 → holds (0x40000 + 32768 * k + 4 * e) 4 ((s.coreAt core).accAt (g.acc0 + k) (e / 64) (e % 64)).toNat) ∧
          (∀ k, k < g.slots → holds (0x100000 + k) 1 ((s.coreAt core).layOf (g.slot0 + k)) ∧
            (slotLive (s.tliveOf core g) (g.slot0 + k) = true → ∀ i, i < 16384 → t.mem.cells.read (s.part.key (pa + 0x400000 + 16384 * k + i)) =
              s.mem.cells.read (windowKey core ((g.slot0 + k) * 16384) + i)))))) ∧
    (g.state = .saved → s.canRestore core g = true → s.betterHead core g = false → s.privateIntact g = true →
      (s.coreAt core).mats.length + g.saved.mats.length ≤ 64 →
      (∀ c ∈ g.saved.copies, c.stop.bind (·.decided) = none) → g.saved.harts.length = g.size → g.size ≤ 8 →
      s.areaReady die g = true → (∀ e, e < 4 → s.dieRecordRoom e = true) → g.saveArea % 16 = 0 →
      (∀ i, i < 0x800000 → (s.part.key? (g.saveArea + i)).any s.poisonedKey = false) →
      Completes (.gangRestore core id) s (fun t =>
        (t.dieAt die).savewr = d.savewr + 1 ∧ (∃ g', (t.coreAt core).gang id = some g' ∧ g'.state = .running) ∧
        (∀ k x, g.saved.harts[k]? = some x → let h := t.hartAt (core * 8 + g.first + k)
          let rd := fun (o n : Nat) => bytesToNat (s.readPhys (g.saveArea + 0x1000 + k * 0x6000 + o) n)
          h.gang = some id ∧ h.ctx = g.ctx ∧ h.gangId = word k ∧ h.acts = x.acts ∧ h.run = (if x.run = .stopped then .running else x.run) ∧
          (x.retired = false →
            (∀ r : SReg, r ≠ 0 → h.sreg r = word (rd (8 * r.toNat) 8)) ∧
            (∀ e ∈ savedSrs, e.1 ≠ 0x100 → t.readSr (core * 8 + g.first + k) e.1 = word (rd e.2 8) &&& word (srMask e.1)) ∧
            h.status = word (rd 0x300 8) &&& 0x1F#64 ∧ h.pc = addrField 2 (word (rd 0x3F8 8)) ∧
            (∀ r : PReg, r.toNat < 48 → h.preg r = BitVec.ofNat 512 (rd (0x400 + 64 * r.toNat) 64)) ∧
            (∀ r, r < 64 → h.tag r = (Tag.ofCode? (rd (0x1000 + r) 1)).getD .untyped) ∧
            (∀ r, r < 64 → h.vreg r = if bit h.hwm 16 = true ∧ r ≤ field h.hwm 5 0 then BitVec.ofNat 2048 (rd (0x1400 + 256 * r) (field h.hwm 15 8 + 1))
              else 0))) ∧
        (∀ n, n ∉ g.harts core → t.hartAt n = s.hartAt n) ∧
        ((∀ i, i < 8 → ∃ x, s.part.place (d.saveb.toNat + d.savewr % 512 * 8 + i) = .hbm x) → g.slot0 + g.slots ≤ 256 →
          (∀ i, i < 0x800000 → ∃ x, s.part.place (g.saveArea + i) = .hbm x) →
          ∀ k, k < g.slots → let slot := g.slot0 + k
            let live := bit (word (bytesToNat (s.readPhys (g.saveArea + 0x100100 + 8 * (slot / 64)) 8))) (slot % 64)
            ∀ i, i < 16384 → t.mem.cells.read (windowKey core (slot * 16384) + i) =
              if live then s.mem.cells.read (s.part.key (g.saveArea + 0x400000 + 16384 * k + i)) else 0)))) ∧
  (∀ (s : State) (n : Nat) (g : Gang), s.gangOf n = some g → (s.hartAt n).gang = some g.id → (s.hartAt n).run = .frozen →
    (s.hartBusy n = false → Completes (.retire n) s (fun t => (t.hartAt n).retired = true ∧ (t.hartAt n).gang = some g.id ∧
      ∀ k, k ≠ n → t.hartAt k = s.hartAt k)) ∧
    (s.recordRoom (n / 8) = true → (s.coreAt (n / 8)).unposted = [] → Completes (.abandon n) s (fun t => (t.coreAt (n / 8)).gang g.id = none ∧
      (∀ k ∈ g.harts (n / 8), (t.hartAt k).gang = none ∧ (t.hartAt k).run = .free) ∧
      ∃ r, (t.coreAt (n / 8)).records = (s.coreAt (n / 8)).records ++ [r] ∧ r.kind = 9 ∧ r.addr = g.post.addr ∧ r.hart = n % 8))) ∧
  ∀ (s : State) (die : Nat) (v : Word), let d := s.dieAt die; let pa := field v 51 23 * 2 ^ 23; let slot := d.saveb.toNat + d.savewr % 512 * 8
    (s.part.backed pa 0x800000 = true → d.savewr - d.saverd + s.areasHeld die ≠ 512 → s.stackReady slot = false →
      Completes (.saveadd die v) s (· = { s with inputs := s.inputs.take 1 ++ .saveadd die v :: s.inputs.drop 1 })) ∧
    (s.part.backed pa 0x800000 = true → d.savewr - d.saverd + s.areasHeld die ≠ 512 → s.stackReady slot = true → slot % 4096 + 8 ≤ 4096 →
      (s.part.key? slot).isSome = true → s.onFenced (s.part.key slot) = false → Completes (.saveadd die v) s (fun t => (t.dieAt die).savewr = d.savewr + 1 ∧
        (∀ b, t.mem.cells.read b = if s.part.key slot ≤ b ∧ b < s.part.key slot + 8 then BitVec.ofNat 8 (pa / 256 ^ (b - s.part.key slot))
          else s.mem.cells.read b) ∧ t.harts = s.harts)) ∧
    (s.part.backed pa 0x800000 = false ∨ d.savewr - d.saverd + s.areasHeld die = 512 → Completes (.saveadd die v) s (· = s))

/-- R326, R330: the first record of a core's queue, or of its die's outside agents (queue 48), enters the fault ring when that is enabled and has
room: its 64 bytes stand at FRBASE + FRWR mod 2^FRSIZE × 64, with kind, cause, master, hart, core, die and SEQ in the first word, and FRWR rises by
one; a full or disabled ring, or one on a stack that is not up, takes none. An entry that a fenced die drops leaves a record of kind 7 (R354), but for
such a record itself, the model's choice (log 61). Records that waited for a free entry of the queue of 16 take its place, with
the time at which they join it. FRCTL with the SEQ of a stopped copy command resumes it or aborts it; an aborted one is complete and failed,
and credits what is left of its bytes. -/
def Obligations.FaultRecords : Prop :=
  (∀ (s : State) (die q : Nat) (r : FaultRec) (rest : List FaultRec), let d := s.dieAt die; let core := die * 64 + q
    let pa := d.frbase.toNat + d.frwr % 2 ^ d.frsize * 64; let key := s.part.key pa
    (if q < 48 then (s.coreAt core).records else d.records) = r :: rest →
    (d.fren = true → d.frwr - d.frrd.toNat ≠ 2 ^ d.frsize → s.stackReady pa = true → pa % 4096 + 64 ≤ 4096 → (s.part.key? pa).isSome = true →
      s.onFenced key = false → r.owner = .none → r.kind < 2 ^ 8 → r.cause < 2 ^ 8 → r.master < 2 ^ 5 → r.hart < 8 → r.core < 256 → Completes (.faultRecordEntry die q) s (fun t =>
        let x := word (((List.range 8).map (fun j => (t.mem.cells.read (key + j)).toNat * 256 ^ j)).sum)
        field x 7 0 = r.kind ∧ field x 15 8 = r.cause ∧ field x 20 16 = r.master ∧ field x 23 21 = r.hart ∧ field x 29 24 = r.core % 64 ∧
        field x 31 30 = r.core / 64 ∧ field x 63 32 = d.frwr % 2 ^ 32 ∧
        ((List.range 8).map (fun j => (t.mem.cells.read (key + 8 + j)).toNat * 256 ^ j)).sum = r.addr.toNat ∧
        (∀ b, b < key ∨ key + 64 ≤ b → t.mem.cells.read b = s.mem.cells.read b) ∧
        (t.dieAt die).frwr = d.frwr + 1 ∧ t.harts = s.harts ∧
        (let waits := if q < 48 then (s.coreAt core).unposted else d.unposted;
          (if q < 48 then (t.coreAt core).records else (t.dieAt die).records) =
              rest ++ (waits.take (16 - rest.length)).map (fun x => { x with time := s.clock.time }) ∧
            (if q < 48 then (t.coreAt core).unposted else (t.dieAt die).unposted) = waits.drop (16 - rest.length)))) ∧
    -- an entry that a fenced die drops leaves a record of its own, but for such a record itself
    (d.fren = true → d.frwr - d.frrd.toNat ≠ 2 ^ d.frsize → s.stackReady pa = true → pa % 4096 + 64 ≤ 4096 → s.part.key? pa = some key →
      s.onFenced key = true → q < 48 → r.owner = .none → d.unposted = [] → d.records.length < 16 → Completes (.faultRecordEntry die q) s (fun t =>
        (t.dieAt die).frwr = d.frwr + 1 ∧ t.mem = s.mem ∧ t.harts = s.harts ∧
        (r.kind = 7 ∧ r.master = 6 → (t.dieAt die).records = d.records) ∧
        (¬ (r.kind = 7 ∧ r.master = 6) → ∃ x, (t.dieAt die).records = d.records ++ [x] ∧ x.kind = 7 ∧ x.cause = 0x10 ∧ x.master = 6 ∧ x.addr = word pa))) ∧
    (d.fren = false ∨ d.frwr - d.frrd.toNat = 2 ^ d.frsize ∨ s.stackReady pa = false → Completes (.faultRecordEntry die q) s (· = s))) ∧
  ∀ (s : State) (core seq : Nat) (c : CopyCmd), (s.coreAt core).copies.find? (fun c => (c.stop.bind (·.seq)) = some seq) = some c →
    (∀ x ∈ (s.coreAt core).copies, x.uid = c.uid → x = c) →
    Completes (.frctlRetry core seq) s (fun t => (t.coreAt core).copies = (s.coreAt core).copies.map (fun x =>
        if x.uid = c.uid then { c with stop := none, pages := [] } else x) ∧
      t.harts = s.harts ∧ t.mem = s.mem) ∧
    Completes (.frctlAbort core seq) s (fun t => (t.coreAt core).copies = (s.coreAt core).copies.filter (fun x => x.uid ≠ c.uid) ∧
      (t.coreAt core).tileFails = (s.coreAt core).tileFails ++ [⟨c.hart, (c.dst :: c.src.toList).map (fun d => (d.slot, d.cnt))⟩] ∧
      (t.coreAt core).credits = (s.coreAt core).credits ++
        (if c.dst.nb then [] else List.replicate (4 * c.dst.cnt - c.next) ⟨c.dst.bar, 4096⟩) ∧
      t.harts = s.harts ∧ t.mem = s.mem)

/-! ## Tile movement -/

/-- R212, R220, R224 to R228, R233: the tile instructions post one command each. With a free entry in the hart's queue of 32 and operands that pass
their checks, the command enters at the end of the queue, with the destination of its descriptor, and the hart goes on; registers and memory stay. A
descriptor that breaks R212 traps ILLEGAL_INSN, and a slot or a barrier outside the grant PROTECTION with its number. A full queue keeps the hart at
its instruction. `xbatch` (here without maps to read) issues in order while the queue has room and tells in p[d] which of its active records were
accepted, those that it took before it last waited among them (R232). -/
def Obligations.TileIssue : Prop :=
  (∀ (s : State) (d a b : SReg) (v : VReg), let h := s.hart; let core := s.cur / 8; let w := h.sreg d
    let forms : List (Instr × TileArgs) :=
      [(.tld d a v, { op := .tld, desc := w, arg := h.sreg a, org := h.origin v, iw := insnWord (.tld d a v) }),
        (.tst d a v, { op := .tst, desc := w, arg := h.sreg a, org := h.origin v, iw := insnWord (.tst d a v) }),
        (.tcpy d a, { op := .tcpy, desc := w, arg := h.sreg a, iw := insnWord (.tcpy d a) }),
        (.tfill d a, { op := .tfill, desc := w, arg := h.sreg a, iw := insnWord (.tfill d a) }),
        (.ttag d, { op := .ttag, desc := w, iw := insnWord (.ttag d) }),
        (.tpack d a b, { op := .tpack, desc := w, arg := h.sreg a, argb := h.sreg b, iw := insnWord (.tpack d a b) }),
        (.tunpk d a, { op := .tunpk, desc := w, arg := h.sreg a, iw := insnWord (.tunpk d a) })]
    ∀ f ∈ forms,
      ((s.core.queueOf s.cur).length < 32 →
        ((f.2.op = .tld ∨ f.2.op = .tst → h.tag v.toNat = .int32) → ∀ c s', s.formTile f.2 = (.ok c, s') → Completes f.1 s (fun t =>
          (∃ x, (t.coreAt core).copies = (s.coreAt core).copies ++ [x] ∧ x.op = f.2.op ∧ x.dst = Desc.ofWord w ∧ x.hart = s.cur ∧ x.gang = h.gang ∧
            x.ctx = h.ctx ∧ x.careful = h.careful ∧ x.pc = h.pc ∧ x.next = 0 ∧ x.stop = none) ∧
          GoesOn h t.hart ∧ { t.hart.still with stamp := 0 } = { h.still with stamp := 0 } ∧ (∀ n, n ≠ s.cur → t.hartAt n = s.hartAt n) ∧
          t.mem = s'.mem ∧ (f.2.op ≠ .tld → f.2.op ≠ .tst → s' = s))) ∧
        (CanTrap s → descMalformed (if f.2.op = .tcpy then .transposing else .dest) w = true →
          Completes f.1 s (Trapped s · 0x01 (insnWord f.1) 0)) ∧
        (CanTrap s → descMalformed (if f.2.op = .tcpy then .transposing else .dest) w = false → let e := Desc.ofWord w;
          (∀ k, slotOutside (s.gangOf s.cur) e.slot e.cnt = some k → Completes f.1 s (Trapped s · 0x06 (word k) 0)) ∧
          (slotOutside (s.gangOf s.cur) e.slot e.cnt = none → e.nb = false → barOutside (s.gangOf s.cur) e.bar = true →
            Completes f.1 s (Trapped s · 0x06 (word e.bar) 0)))) ∧
      (32 ≤ (s.core.queueOf s.cur).length → Completes f.1 s (fun t => t.hart.pc = h.pc ∧ t.hart.still = h.still ∧ OnlyHart s t))) ∧
  ∀ (s : State) (d : PReg) (a : BitVec 3), let h := s.hart; let core := s.cur / 8
    let valid := fun (k : Nat) => match copyArgs (h.batchRecord a.toNat k) with
      | some x => (match (s.formTile x).1 with | .ok _ => true | _ => false)
      | none => false
    let from' := (h.batch.getD (0, [])).1; let before := (h.batch.getD (0, [])).2
    let taken := ((List.range 32).filter (fun k => from' ≤ k && h.active k && valid k)).take (32 - (s.core.queueOf s.cur).length)
    (∀ k, k < 32 → h.active k = true → 2 ≤ recBits (h.batchRecord a.toNat k) 0 7 0) → before.Nodup → (∀ k ∈ before, k < from') →
    Completes (.xbatchCopy d a) s (fun t =>
      (∀ k, k < 512 → (t.hart.preg d).getLsbD k = (before ++ taken).contains k) ∧ (∀ r, r ≠ d → t.hart.preg r = h.preg r) ∧
      (∃ xs, (t.coreAt core).copies = (s.coreAt core).copies ++ xs ∧ xs.length = taken.length ∧ ∀ x ∈ xs, x.hart = s.cur ∧ x.next = 0) ∧
      GoesOn h t.hart ∧ t.hart.batch = none ∧
      { t.hart.still.lessP with stamp := 0, batch := none } = { h.still.lessP with stamp := 0, batch := none } ∧ t.mem = s.mem)

/-- R231: `vldt` and `vstt` move the executed elements of a row between v[d] and logical bytes l + i × w / 8 of a range of the grant, with the side
bytes of a paired register; each byte lies where its slot's layout tag puts it. A malformed descriptor, or a range that R218 does not allow the
register's tag, traps ILLEGAL_INSN; an access that is not aligned MISALIGNED, a slot outside the grant or an access past the range PROTECTION, and a
load of a marked word MACHINE_CHECK, before anything moves; TRAPVEC names the element. An earlier slot operation of the hart that R222 puts first keeps
the hart at the instruction. The trap for a paired register over a range that R218 does not allow is the model's choice (log 53). -/
def Obligations.TileRows : Prop :=
  ∀ (s : State) (d : VReg) (a b : SReg) (desc : Desc), let h := s.hart; let core := s.cur / 8; let t := h.tag d.toNat; let w := h.width d.toNat
    let l := (h.sreg b).toNat
    let ps := h.slotPieces d.toNat desc l
    let unit := if t.paired then 256 else max 1 (w / 8)
    let chunks := (ps.filter (fun p => p.off + p.n ≤ p.limit)).map (fun p => desc.slot * 4 + p.off / 4096)
    let value := fun (p : SlotPiece) => bytesToNat (s.readRange core desc.slot p.off p.n)
    let old := fun (p : SlotPiece) => if p.reg ≠ d.toNat then lane (h.vreg p.reg) 8 p.idx
      else if w = 4 then lane (h.vreg d.toNat) 8 (p.idx / 2) else lane (h.vreg d.toNat) w p.idx
    let writes := ps.flatMap (fun p => (List.range p.n).map (fun j => (s.rangeKey core desc.slot (p.off + j), BitVec.ofNat 8 (old p / 256 ^ j))))
    let rest := fun (u : State) => u.hart.vstart = 0 ∧ GoesOn h u.hart ∧ u.hart.fflags = h.fflags ∧ u.hart.tags = h.tags ∧
      u.hart.still.lessVec = h.still.lessVec ∧ ∀ n, n ≠ s.cur → u.hartAt n = s.hartAt n
    (h.row h.first (h.count w)).map (fun k => (⟨d.toNat, k, l + k * w / 8, max 1 (w / 8), (if t.paired then desc.cnt - 1 else desc.cnt) * 16384⟩ : SlotPiece))
      <+: ps ∧
    ∀ i ∈ [Instr.vldt d a b, .vstt d a b], let load := decide (i = .vldt d a b)
      let range := !t.paired || (2 ≤ (Desc.ofWord (h.sreg a)).cnt && (Desc.ofWord (h.sreg a)).cnt ≤ (if t = .bfp16 then 129 else 9))
      (CanTrap s → descMalformed .source (h.sreg a) = true ∨ range = false → Completes i s (Trapped s · 0x01 (insnWord i) 0)) ∧
      (CanTrap s → descMalformed .source (h.sreg a) = false → range = true → h.blocksOk t = true → desc = Desc.ofWord (h.sreg a) → ps ≠ [] →
        l % unit = 0 → ∀ k, slotOutside (s.gangOf s.cur) desc.slot desc.cnt = some k → Completes i s (Trapped s · 0x06 (word k) 0)) ∧
      (checkDesc (s.gangOf s.cur) .source (h.sreg a) (insnWord i) = .ok desc → range = true → h.blocksOk t = true →
      (CanTrap s → l % unit ≠ 0 → ∀ p qs, ps = p :: qs →
        Completes i s (Trapped s · 0x04 (word l) (vecWord false p.reg p.idx))) ∧
      (l % unit = 0 → ps ≠ [] → (if load then s.slotHeld chunks [] else s.slotHeld [] chunks) = true →
        slotOutside (s.gangOf s.cur) desc.slot desc.cnt = none → Completes i s (fun u => u.hart.pc = h.pc ∧ u.hart.still = h.still ∧ OnlyHart s u)) ∧
      (l % unit = 0 ∨ ps = [] → (if load then s.slotHeld chunks [] else s.slotHeld [] chunks) = false →
        (∀ e, s.slotTrap desc load ps = some e → CanTrap s → ps ≠ [] → Completes i s (Trapped s · e.cause e.val e.vec)) ∧
        (s.slotTrap desc load ps = none → Completes i s (fun u => rest u ∧
          (load = true →
            (∀ p ∈ ps, p.reg = d.toNat → lane (u.hart.vreg d.toNat) w p.idx =
              t.holdAt p.idx (if w = 4 then value p / 16 ^ (p.idx % 2) else value p) % 2 ^ w) ∧
            (∀ k, k < 2048 / w → (∀ p ∈ ps, p.reg = d.toNat → p.idx ≠ k) → lane (u.hart.vreg d.toNat) w k = lane (h.vreg d.toNat) w k) ∧
            (∀ p ∈ ps, p.reg = d.toNat + 1 → lane (u.hart.vreg (d.toNat + 1)) 8 p.idx = value p % 256) ∧
            (∀ r, r ≠ d.toNat → (t.paired = true → r ≠ d.toNat + 1) → u.hart.vreg r = h.vreg r) ∧
            u.hart.hwm = hwmAfter h d.toNat w t.paired ∧ u.mem = s.mem) ∧
          (load = false → u.hart.v = h.v ∧ u.hart.hwm = h.hwm ∧
            ∀ y, u.mem.cells.read y = match (writes.filter (fun e => e.1 = y)).getLast? with | some e => e.2 | none => s.mem.cells.read y)))))

/-- R183, R186, R204, R219, R221, R223, R225 to R230, R328, R332, R354: the copy engine's steps and `twait`. A chunk that is done moves its bytes,
credits 4,096 bytes and leaves the command with its next chunk, or complete after its last. A `tld` writes its box's bytes, or the fill, to the range;
a `tst` (here without CMP) writes the range's inside bytes to memory, one of those that name a byte remaining there; a `tcpy` reads its whole source
first and writes it, perhaps transposed; a `tfill` repeats its pattern; a `tpack` or `tunpk` writes the CSR or dense tile that R228 and R229 lay out, or
fails with a record of kind 4 and credits in full. LAYMIS counts a command once, as it comes to a slot of another layout than it states. A page that has
no translation stops its command with a record of kind 1, and one that may not be used with a record of kind 2; no credit is given. `twait` waits for
the selected commands and returns how many failed since they were last counted. -/
def Obligations.TileEngine : Prop :=
  (∀ (s : State) (core hart : Nat) (c : CopyCmd), s.copyTurn core hart = some c →
    let k := s.coreAt core; let meets := c.meets.1.any (k.misLaid c.meets.2); let run := Instr.copyChunkDone core hart
    let free := c.stop = none ∧ (∀ x ∈ k.copies, x.hart = c.hart → (x.stop.map (·.protect)).getD false = false) ∧ c.next < 4 * c.dst.cnt
    let counted := fun (t : State) => t.harts = s.harts ∧
      (t.coreAt core).layMis = (if c.counted = false ∧ meets = true then word (min (k.layMis.toNat + 1) 0xFFFFFFFF) else k.layMis)
    let stays := fun (t : State) (f : CopyCmd → Prop) => ∃ c' : CopyCmd, (t.coreAt core).copies = k.copies.map (fun x => if x.uid = c.uid then c' else x) ∧
      (c'.op, c'.dst, c'.src, c'.map, c'.origin, c'.pattern, c'.params, c'.uid, c'.hart, c'.stamp, c'.counted) =
        (c.op, c.dst, c.src, c.map, c.origin, c.pattern, c.params, c.uid, c.hart, c.stamp, c.counted || meets) ∧ f c'
    let done := fun (t : State) (n : Nat) => counted t ∧
      (t.coreAt core).credits = k.credits ++ (if c.dst.nb then [] else List.replicate (n - c.next) ⟨c.dst.bar, 4096⟩) ∧
      (if n = 4 * c.dst.cnt then (t.coreAt core).copies = k.copies.filter (fun x => x.uid ≠ c.uid) else stays t (fun c' => c'.next = n))
    let writes := fun (t : State) (off n : Nat) (b : Nat → Byte) => ∀ y, t.mem.cells.read y =
      match (((List.range n).map (fun j => (s.rangeKey core c.dst.slot (off + j), b j))).filter (fun e => e.1 = y)).getLast? with
      | some e => e.2
      | none => s.mem.cells.read y
    let o := c.next * 4096
    (∀ s', s.stepCopy core c = .done s' → Completes run s (· = s')) ∧
    (c.op = .tfill → free → s.chunkHeld core c c.next = false → Completes run s (fun t =>
      writes t o 4096 (fun j => BitVec.ofNat 8 (c.pattern.toNat / 256 ^ (j % 8))) ∧ done t (c.next + 1))) ∧
    -- `tld` and `tst`, under the pages of the transfer, all of which may be used
    (∀ (m : TMap) (ps : List (Nat × PageOutcome)) (u : State), free → c.map = some m → s.chunkHeld core c c.next = false →
      let c1 := (s.countCopy core c).1; let s1 := (s.countCopy core c).2; let place := fun (j : Nat) => m.place c.dst.cnt c.origin (o + j)
      let all := if c.careful then (List.range (c.total - c.next)).flatMap (fun j => c.places (c.next + j)) else c.places c.next
      (c.careful = true ∧ c.pages ≠ [] ∧ ps = c.pages.map (fun p => (p.1, PageOutcome.ok p.2)) ∧ u = s1) ∨
        ((c.careful = false ∨ c.pages = []) ∧ s1.copyPages core c1 (pagesOf all) = (ps, u) ∧ firstFault ps all = none) →
      u.pagesWait ps = false → s.recordRoom core = true →
      (c.op = .tld → Completes run s (fun t => done t (c.next + 1) ∧ writes t o 4096 (fun j => match place j with
        | .fill x => x
        | .mem va => match lookPage ps va with
          | .ok p => (u.copyByte p).1
          | _ => 0))) ∧
      (c.op = .tst → m.cmp = false → Completes run s (fun t => done t (c.next + 1) ∧ ∀ y,
        let names := fun (j : Nat) => j < 4096 ∧ ∃ va p, place j = .mem va ∧ lookPage ps va = .ok p ∧ s.part.key p.pa = y
        (s.onFenced y = true ∨ (∀ j, ¬names j) → t.mem.cells.read y = s.mem.cells.read y) ∧
        (s.onFenced y = false → (∃ j, names j) → ∃ j, names j ∧
          t.mem.cells.read y = s.mem.cells.read (s.rangeKey core c.dst.slot (o + j)))))) ∧
    (∀ src, c.op = .tcpy → c.src = some src → free →
      let e := 2 ^ c.dst.te
      let source := fun (q : Nat) => if c.dst.tr then
        q / 16384 * 16384 + q % 256 / e % 64 * 256 + (q % 256 / e / 64 * 64 + q % 16384 / 256) * e + q % e else q
      (c.image = none → k.held c.hart c.stamp src.chunks [] = false → s.recordRoom core = true → Completes run s (fun t => counted t ∧
        (t.coreAt core).credits = k.credits ∧ (∀ y, t.mem.cells.read y = s.mem.cells.read y) ∧ stays t (fun c' => c'.next = c.next ∧
          c'.image = some ((List.range (16384 * c.dst.cnt)).map (fun q => s.mem.cells.read (s.rangeKey core src.slot (source q))))))) ∧
      (∀ image, c.image = some image → image.length = 16384 * c.dst.cnt → s.chunkHeld core c c.next = false → Completes run s (fun t =>
        writes t o 4096 (fun j => image.getD (o + j) 0) ∧ done t (c.next + 1)))) ∧
    (∀ src, c.src = some src → free → k.held c.hart c.stamp src.chunks c.dst.chunks = false → k.records.length ≤ 14 →
      let bytes := s.readRange core src.slot 0 (16384 * src.cnt)
      let fails := fun (t : State) => counted t ∧ (∀ y, t.mem.cells.read y = s.mem.cells.read y) ∧
        (t.coreAt core).credits = k.credits ++ (if c.dst.nb then [] else List.replicate (4 * c.dst.cnt - c.next) ⟨c.dst.bar, 4096⟩) ∧
        (t.coreAt core).copies = k.copies.filter (fun x => x.uid ≠ c.uid) ∧
        (t.coreAt core).tileFails = k.tileFails ++ [⟨c.hart, (c.dst :: c.src.toList).map (fun d => (d.slot, d.cnt))⟩] ∧
        ∃ r ∈ (t.coreAt core).records, r.kind = 4 ∧ r.hart = c.hart % 8 ∧ r.pc = c.pc
      (∀ tg, c.op = .tpack → csrTag (field c.params 7 0) = some tg →
        (∀ b, csrTile tg (field c.params 47 32) (field c.params 24 16) bytes (16384 * c.dst.cnt) = some b → Completes run s (fun t =>
          writes t 0 b.length (fun j => b.getD j 0) ∧ done t (4 * c.dst.cnt))) ∧
        (csrTile tg (field c.params 47 32) (field c.params 24 16) bytes (16384 * c.dst.cnt) = none → Completes run s fails)) ∧
      (c.op = .tunpk → (∀ b, denseTile bytes c.dst.cnt = .ok b → Completes run s (fun t => writes t 0 b.length (fun j => b.getD j 0) ∧
          done t (4 * c.dst.cnt))) ∧
        (∀ why, denseTile bytes c.dst.cnt = .error why → Completes run s fails))) ∧
    (∀ p ∈ [(Instr.transferPage core hart, false, 1), (.protect core hart, true, 2)], ∀ s', s.stepCopy core c = .fault p.2.1 s' →
      Completes p.1 s (fun t => t = s' ∧ (t.coreAt core).credits = (s.coreAt core).credits ∧
        (∀ x ∈ (t.coreAt core).copies, x.uid = c.uid → x.stop.map (·.protect) = some p.2.1) ∧
        ∃ r ∈ (t.coreAt core).records ++ (t.coreAt core).unposted, r.kind = p.2.2 ∧ r.withheld = true ∧ r.frozen = p.2.1 ∧ r.hart = c.hart % 8 ∧ r.pc = c.pc ∧
          r.owner = .copy core c.uid))) ∧
  -- R228: the CSR tile of a dense one
  (∀ (tg : Tag) (nrows ncols n : Nat) (src : List Byte), let e := tg.width 0 / 8
    tg.width 0 ∈ [8, 16, 32, 64] → 1 ≤ nrows → nrows ≤ 16384 → ncols * e ≤ 256 → 256 * nrows ≤ src.length →
    let elem := fun (r c : Nat) => bytesToNat ((src.drop (256 * r + c * e)).take e)
    let zero := fun (x : Nat) => if tg.isFloat then x % 2 ^ (8 * e - 1) = 0 else x = 0
    let nz := (List.range nrows).flatMap (fun r => (List.range ncols).filterMap (fun c => if zero (elem r c) then none else some (r, c)))
    let ci := (64 + 4 * (nrows + 1) + 63) / 64 * 64; let vo := (ci + 4 * nz.length + 63) / 64 * 64
    (n < vo + e * nz.length → csrTile tg nrows ncols src n = none) ∧
    (vo + e * nz.length ≤ n → ∃ b, csrTile tg nrows ncols src n = some b ∧ b.length = n ∧
      let at' := fun (off len : Nat) => bytesToNat ((b.drop off).take len)
      at' 0 4 = nrows ∧ at' 4 4 = ncols ∧ at' 8 4 = nz.length ∧ at' 12 4 = tg.code ∧
      (∀ r, r ≤ nrows → at' (64 + 4 * r) 4 = (nz.filter (fun z => z.1 < r)).length) ∧
      (∀ j z, nz[j]? = some z → at' (ci + 4 * j) 4 = z.2 ∧ at' (vo + e * j) e = elem z.1 z.2) ∧
      (∀ q, q < n → ¬(q < 16) → ¬(64 ≤ q ∧ q < 64 + 4 * (nrows + 1)) → ¬(ci ≤ q ∧ q < ci + 4 * nz.length) →
        ¬(vo ≤ q ∧ q < vo + e * nz.length) → b.getD q 0 = 0))) ∧
  -- R229: the dense tile of a CSR one
  (∀ (src : List Byte) (cnt : Nat), let u := fun (q : Nat) => bytesToNat ((src.drop q).take 4)
    let nrows := u 0; let ncols := u 4; let nnz := u 8; let e := ((csrTag (u 12)).map (fun tg => tg.width 0 / 8)).getD 1
    let ci := (64 + 4 * (nrows + 1) + 63) / 64 * 64; let vo := (ci + 4 * nnz + 63) / 64 * 64
    let ptr := fun (r : Nat) => u (64 + 4 * r); let col := fun (j : Nat) => u (ci + 4 * j)
    let bad := csrTag (u 12) = none ∨ (∃ q, 16 ≤ q ∧ q < 64 ∧ src.getD q 0 ≠ 0) ∨ nrows = 0 ∨ 64 * cnt < nrows ∨ 256 < ncols * e ∨
      src.length < vo + e * nnz ∨ ptr 0 ≠ 0 ∨ ptr nrows ≠ nnz ∨ (∃ r, r < nrows ∧ ptr (r + 1) < ptr r) ∨
      ∃ j, j < nnz ∧ ncols ≤ col j ∧ col j ≠ 0xFFFFFFFF
    (bad → ∃ why, denseTile src cnt = .error why) ∧
    (¬bad → ∃ b, denseTile src cnt = .ok b ∧ b.length = 16384 * cnt ∧
      (∀ r c i, r < nrows → c < ncols → i < e → b.getD (256 * r + c * e + i) 0 =
        match ((List.range nnz).filter (fun j => ptr r ≤ j && j < ptr (r + 1) && col j = c)).getLast? with
        | some j => src.getD (vo + e * j + i) 0
        | none => 0) ∧
      ∀ q, (nrows ≤ q / 256 ∨ ncols * e ≤ q % 256) → b.getD q 0 = 0)) ∧
  ∀ (s : State) (d a : SReg), let x := s.hart.sreg a; let core := s.cur / 8
    let mine := fun (f : TileFail) => f.hart = s.cur && selects x f.ranges
    (field x 63 9 = 0 → (∀ c ∈ s.core.queueOf s.cur, selects x c.ranges = false) → Completes (.twait d a) s (fun t =>
      (d ≠ 0 → t.hart.sreg d = word (min ((s.coreAt core).tileFails.filter mine).length (2 ^ 64 - 1))) ∧ (∀ r, r ≠ d → t.hart.sreg r = s.hart.sreg r) ∧
      (t.coreAt core).tileFails = (s.coreAt core).tileFails.filter (fun f => !mine f) ∧
      GoesOn s.hart t.hart ∧ t.hart.still.lessS = s.hart.still.lessS ∧ t.mem = s.mem ∧ ∀ n, n ≠ s.cur → t.hartAt n = s.hartAt n)) ∧
    (field x 63 9 = 0 → (∃ c ∈ s.core.queueOf s.cur, selects x c.ranges = true) → Completes (.twait d a) s (fun t =>
      t.hart.pc = s.hart.pc ∧ t.hart.block.map (·.wait) = some (.engine (2 ^ 62 + x.toNat)) ∧ t.hart.still = s.hart.still ∧ OnlyHart s t)) ∧
    (field x 63 9 ≠ 0 → CanTrap s → ∀ w, encode (.twait d a) = some w → Completes (.twait d a) s (Trapped s · 0x01 (word w) 0))

/-! ## The matrix engine -/

/-- R235, R238 to R243, R245, R250, R253: issue of the matrix instructions. `mshape` stores a shape that passes R239, else traps with the shape kept.
An instruction of the queue that passes its checks, with a free entry among 64 and no hart stalled before it, posts one command that captures the
shape, and the hart goes on with nothing else changed; on a full queue the hart stays. An accumulator that is 8 or above or not granted traps
PROTECTION with the value. A failure that awaits report traps MATRIX_FAULT at each of them, with the address of the failed instruction, and FAIL is
cleared. `mfence` goes on once the hart has no posted instruction left, and waits till then. -/
def Obligations.MatrixIssue : Prop :=
  (∀ (s : State) (a : SReg), let h := s.hart
    h.mfail.fail = false →
      (shapeFault (h.sreg a) = none → Completes (.mshape a) s (fun t => t.hart.mshape = h.sreg a ∧ GoesOn h t.hart ∧
        { t.hart.still with mshape := 0 } = { h.still with mshape := 0 } ∧ OnlyHart s t)) ∧
      (CanTrap s → shapeFault (h.sreg a) = some 1 → Completes (.mshape a) s (Trapped s · 0x01 (insnWord (.mshape a)) 0)) ∧
      (CanTrap s → shapeFault (h.sreg a) = some 2 → Completes (.mshape a) s (Trapped s · 0x03 (insnWord (.mshape a)) 0))) ∧
  (∀ (s : State) (d a b : SReg), let h := s.hart; let core := s.cur / 8; let x := Shape.ofWord h.mshape; let g := s.gangOf s.cur
    let two := fun (op : MatOp) (i : Instr) (ok : Desc → Desc → Bool) => (i, op, some d, some a, some b, (none : Option SReg), (0 : Word), fun p q (_ : Desc) => ok p q)
    let forms : List (Instr × MatOp × Option SReg × Option SReg × Option SReg × Option SReg × Word × (Desc → Desc → Desc → Bool)) :=
      [(.mzero d, .mzero, some d, none, none, none, 0, fun _ _ _ => true),
        (.mread d a b, .mread, some a, none, none, some d, h.sreg b, fun _ _ z => readParams (h.sreg b) = none ∧ x.ms ≤ z.cnt),
        (.mload d a, .mload, some d, some a, none, none, 0, fun p _ _ => x.ms ≤ p.cnt),
        two .mma (.mma d a b) (fun p q => x.slotsA ≤ p.cnt ∧ x.slotsB ≤ q.cnt),
        two .mmab (.mmab d a b) (fun p q => x.slotsA ≤ p.cnt ∧ 1 + x.slotsB ≤ q.cnt),
        (.mdec d a, .mdec, none, some a, none, some d, 0, fun p _ z => x.decTag ∧
          x.k % ((pattern x.pat).2.1 * x.dot / (pattern x.pat).1) = 0 ∧ x.slotsB ≤ p.cnt ∧ x.slotsTerms ≤ z.cnt),
        two .mmanm (.mmanm d a b) (fun p q => x.slotsA ≤ p.cnt ∧ x.slotsTerms ≤ q.cnt),
        two .mrem (.mrem d a b) (fun p q => x.slotsA ≤ p.cnt ∧ x.slotsTerms ≤ q.cnt),
        two .mscan (.mscan d a b) (fun p q => x.isInt = false ∧ x.slotsScan ≤ p.cnt ∧ x.slotsScan ≤ q.cnt)]
    ∀ f ∈ forms, let (i, op, acc, ra, rb, rz, param, ok) := f
      h.mfail.fail = false →
        (∀ p q z : Desc,
          (∀ r, acc = some r → (h.sreg r).toNat < 8 ∧ ∃ y, g = some y ∧ y.hasAcc (h.sreg r).toNat = true) →
          (∀ r, ra = some r → checkDesc g .source (h.sreg r) (insnWord i) = .ok p) →
          (∀ r, rb = some r → checkDesc g .source (h.sreg r) (insnWord i) = .ok q) →
          (∀ r, rz = some r → checkDesc g .dest (h.sreg r) (insnWord i) = .ok z) →
          x.m ≠ 0 ∨ op = .mzero → ok p q z = true →
            (s.core.mats.length < 64 → s.core.matStall = [] → Completes i s (fun t =>
              (∃ c, (t.coreAt core).mats = (s.coreAt core).mats ++ [c] ∧ c.op = op ∧ c.hart = s.cur ∧ c.gang = h.gang ∧ c.pc = h.pc ∧
                c.shape = h.mshape ∧ c.lossBnd = h.lossBnd ∧ c.param = param ∧ (∀ r, acc = some r → c.acc = (h.sreg r).toNat) ∧
                c.a = ra.map (fun _ => p) ∧ c.b = rb.map (fun _ => q) ∧ c.out = rz.map (fun _ => z)) ∧
              (t.coreAt core).acc = (s.coreAt core).acc ∧ GoesOn h t.hart ∧ { t.hart.still with stamp := 0 } = { h.still with stamp := 0 } ∧
              (∀ n, n ≠ s.cur → t.hartAt n = s.hartAt n) ∧ t.mem = s.mem)) ∧
            (64 ≤ s.core.mats.length → Completes i s (fun t => t.hart.pc = h.pc ∧ t.hart.still = h.still ∧
              t.hart.block.map (·.wait) = some .matrix ∧ (t.coreAt core).mats = (s.coreAt core).mats ∧
              (∀ n, n ≠ s.cur → t.hartAt n = s.hartAt n) ∧ t.mem = s.mem))) ∧
        (CanTrap s → ∀ r, acc = some r → (7 < (h.sreg r).toNat ∨ ∀ y, g = some y → y.hasAcc (h.sreg r).toNat = false) →
          Completes i s (Trapped s · 0x06 (h.sreg r) 0))) ∧
  (∀ (s : State) (i : Instr) (d a b : SReg),
    i ∈ [Instr.mshape a, .mzero d, .mread d a b, .mload d a, .mfence, .mma d a b, .mmab d a b, .mdec d a, .mmanm d a b, .mrem d a b, .mscan d a b] →
    s.hart.mfail.fail = true → CanTrap s →
      Completes i s (Trapped (s.onHart (fun h => { h with mfail := { h.mfail with fail := false } })) · 0x0D s.hart.mfail.addr 0)) ∧
  ∀ (s : State), let mine := (s.coreAt (s.cur / 8)).mats.filter (fun c => c.hart = s.cur)
    s.hart.mfail.fail = false →
      (mine = [] → Completes .mfence s (fun t => GoesOn s.hart t.hart ∧ t.hart.still = s.hart.still ∧ OnlyHart s t)) ∧
      (mine ≠ [] → Completes .mfence s (fun t => t.hart.pc = s.hart.pc ∧ t.hart.still = s.hart.still ∧
        t.hart.block.map (·.wait) = some (.engine 0x2000000000000000) ∧ OnlyHart s t))

/-- R242, R244, R245, R248 to R257: what a posted matrix instruction does when the engine completes it: no earlier posted instruction is dependent on
it, and no earlier slot operation of its hart stands before it. The accumulator's entries inside M × N receive the values of the instruction and all
other entries stay; integer products are exact sums modulo 2^32; `mread` and `mdec` write their range and credit it chunk by chunk. An instruction
that fails changes neither accumulators nor slots, leaves its cause and address, and cancels the hart's later ones; its barrier and theirs are credited
in full. LAYMIS counts one instruction that states another layout than its slots' (R186). -/
def Obligations.MatrixResults : Prop :=
  ∀ (s : State) (core index : Nat) (c : MatCmd), let k := s.coreAt core; let x := Shape.ofWord c.shape
    let keeps := fun (t : State) => t.mem = s.mem ∧ (t.coreAt core).credits = k.credits
    let ds := c.a.toList ++ c.b.toList ++ c.out.toList
    let counted := fun (t : State) => (t.coreAt core).layMis =
      (if ds.any (k.misLaid (c.reads ++ c.writes)) = true then word (min (k.layMis.toNat + 1) 0xFFFFFFFF) else k.layMis)
    let left := fun (t : State) => counted t ∧ (t.coreAt core).mats = k.mats.filter (fun y => y.uid ≠ c.uid) ∧
      ∀ j m n, j ≠ c.acc → m < 128 → n < 64 → (t.coreAt core).accAt j m n = k.accAt j m n
    let entries := fun (t : State) (f : Nat → Nat → BitVec 32) => ∀ m n, m < 128 → n < 64 →
      (t.coreAt core).accAt c.acc m n = if m < x.m ∧ n < x.n then f m n else k.accAt c.acc m n
    let credited := fun (t : State) (z : Desc) =>
      (t.coreAt core).credits = k.credits ++ (if z.nb then [] else List.replicate (4 * z.cnt) ⟨z.bar, 4096⟩)
    let run := Instr.matrixExecute core index
    k.mats[index]? = some c → shapeFault c.shape = none → k.held c.hart c.stamp c.reads c.writes = false →
    (∀ y ∈ k.mats.take index, y.conflicts c = false) →
      (c.op = .mzero → c.out = none → Completes run s (fun t => left t ∧ keeps t ∧ t.harts = s.harts ∧
        ∀ m n, m < 128 → n < 64 → (t.coreAt core).accAt c.acc m n = 0)) ∧
      (s.mem.poison = [] →
        (∀ p, c.op = .mload → c.a = some p → c.out = none → Completes run s (fun t => left t ∧ keeps t ∧ t.harts = s.harts ∧
          entries t (fun m n => BitVec.ofNat 32 (bytesToNat (s.readRange core p.slot (256 * m + 4 * n) 4))))) ∧
        (∀ p q, c.a = some p → c.b = some q → c.out = none → let A := s.rangeBytes core p.slot; let B := s.rangeBytes core q.slot
          let at' := k.accAt c.acc
          let dense := fun (skip : Nat → Nat → Bool) (b : Bytes) (cb m n : Nat) =>
            (List.range (x.k / x.dot)).foldl (fun e g => if skip (g * x.dot) n then e else
              let ps := (List.range x.dot).map (fun j => (valA A x p.cnt m (g * x.dot + j), valB b x cb (g * x.dot + j) n))
              if x.isInt then e + BitVec.ofInt 32 ((ps.map (fun z => z.1.toInt * z.2.toInt)).sum) else addAcc e (groupSum ps)) (at' m n)
          (c.op = .mma → Completes run s (fun t => left t ∧ keeps t ∧ t.harts = s.harts ∧ entries t (dense (fun _ _ => false) B q.cnt) ∧
            (x.isInt = true → entries t (fun m n => at' m n +
              BitVec.ofInt 32 (((List.range x.k).map (fun j => (valA A x p.cnt m j).toInt * (valB B x q.cnt j n).toInt)).sum))))) ∧
          (c.op = .mmab → Completes run s (fun t => left t ∧ keeps t ∧ t.harts = s.harts ∧
            entries t (dense (fun kk n => !bitmapBit B x kk n) (s.rangeBytes core (q.slot + 1)) (q.cnt - 1)))) ∧
          (c.op = .mscan → Completes run s (fun t => left t ∧ keeps t ∧ t.harts = s.harts ∧ entries t (fun m n => mscanEntry x A B (at' m n) m n))) ∧
          (c.op = .mmanm → let H := TermHead.read B
            (H.fault x 1 = none → (∀ j < H.terms, ∀ n < x.n, ∀ G < x.groups, metaBad x (termMeta x B j n G) = false) → Completes run s (fun t =>
              left t ∧ keeps t ∧ t.harts = s.harts ∧ entries t (fun m n => mmanmEntry x A B p.cnt H.terms (at' m n) m n))) ∧
            (∀ e, H.fault x 1 = some e → Completes run s (fun t => t = (s.countLayout core ds (c.reads ++ c.writes)).failMat core c e))) ∧
          (c.op = .mrem → let H := TermHead.read B
            (H.fault x 2 = none → (∀ z < H.rcount, (remEntry B z).1 < x.k ∧ (remEntry B z).2.1 < x.n) → Completes run s (fun t =>
              left t ∧ keeps t ∧ t.harts = s.harts ∧
              entries t (fun m n => if H.flags.testBit 0 then at' m n else mremEntry x A B p.cnt H.rcount (at' m n) m n))) ∧
            (∀ e, H.fault x 2 = some e → Completes run s (fun t => t = (s.countLayout core ds (c.reads ++ c.writes)).failMat core c e)))) ∧
        (∀ p z, c.op = .mdec → c.a = some p → c.out = some z → let r := decompose x (s.rangeBytes core p.slot) p.cnt c.lossBnd
          Completes run s (fun t => counted t ∧ (t.coreAt core).mats = k.mats.filter (fun y => y.uid ≠ c.uid) ∧ (t.coreAt core).acc = k.acc ∧ credited t z ∧
            t.mem = (s.writeRange core z.slot 0 (decompositionBytes x (s.rangeBytes core p.slot) p.cnt r)).mem ∧
            ((s.hartAt c.hart).mfail.last ≤ c.stamp + 1 → (t.hartAt c.hart).mfail.lext = r.extended ∧ (t.hartAt c.hart).mfail.ldrop = r.dropped) ∧
            ∀ n, n ≠ c.hart → t.hartAt n = s.hartAt n))) ∧
      (∀ z o, c.op = .mread → c.out = some z → Tag.ofCode? (field c.param 7 0) = some o → Completes run s (fun t =>
        let e := o.width 0 / 8
        let ws := (List.range x.m).flatMap (fun m => (List.range x.n).flatMap (fun n => (List.range e).map (fun j =>
          (s.rangeKey core z.slot (m * 256 + n * e + j), BitVec.ofNat 8 (readEntry x c.param 0 (k.accAt c.acc m n) / 256 ^ j)))))
        left t ∧ credited t z ∧ t.harts = s.harts ∧
        entries t (fun m n => if bit c.param 12 then 0 else k.accAt c.acc m n) ∧
        ∀ y, t.mem.cells.read y = match (ws.filter (fun e => e.1 = y)).getLast? with | some e => e.2 | none => s.mem.cells.read y)) ∧
      (∀ e, (s.countLayout core ds (c.reads ++ c.writes)).matEffect core c = .error e → let later := k.mats.filter (fun y => y.hart = c.hart && c.stamp < y.stamp)
        Completes run s (fun t => counted t ∧ t.mem = s.mem ∧ (t.coreAt core).acc = k.acc ∧
          (t.coreAt core).credits = k.credits ++ (c :: later).flatMap (fun y => match y.out with
            | some z => if z.nb then [] else List.replicate (4 * z.cnt) ⟨z.bar, 4096⟩
            | none => []) ∧
          (∀ y, y ∈ (t.coreAt core).mats ↔ y ∈ k.mats ∧ y.uid ≠ c.uid ∧ y.uid ∉ later.map (·.uid)) ∧
          (t.hartAt c.hart).mfail = { (s.hartAt c.hart).mfail with fail := true, fcause := e, cancel := min 255 later.length, addr := c.pc } ∧
          { t.hartAt c.hart with mfail := {} } = { s.hartAt c.hart with mfail := {} } ∧ ∀ n, n ≠ c.hart → t.hartAt n = s.hartAt n))

/-! ## The stage fabric -/

/-- R270, R275 to R284: the fabric's instructions. A hart whose gang does not hold the fabric traps PROTECTION with TRAPVAL 0, and a failure that
awaits report traps at all of them but `sstat`, with the iteration vector's word, FAIL being cleared. `scfg` queues the program that its range holds,
with MODULUS and SAT captured, or traps with the offset of the failing byte; `sgo` returns the first number of its invocations, queues them, and
moves NEXT on; `stwld` queues a table load. `smark` and `sdrain` return once what they wait for is over, and pass FLAGS on to FFLAGS; `sstat` returns
the selected word. A full queue of 16 keeps the hart at its instruction. A hart that waits in `smark` or `sdrain` already when an invocation fails gets its result; the
next to reach an instruction gets the trap. A batch of `sgo` records takes its active records in order, after those of before it last waited. FABSTAT's
fields lie as R276 lists them, and QUIET is zero until the first command. -/
def Obligations.FabricIssue : Prop :=
  (∀ (s : State) (d a b : SReg),
    let all := [Instr.scfg a, .sgo d a b, .smark d a, .sdrain a, .sstat d a, .stwld a b]
    (s.hasFab s.cur = false → CanTrap s → ∀ i ∈ all, Completes i s (Trapped s · 0x06 0 0)) ∧
    (s.hasFab s.cur = true → (s.fabAt (s.cur / 8)).fail = true → s.hart.inFabWait = false → CanTrap s → ∀ i ∈ all, i ≠ .sstat d a →
      Completes i s (Trapped (s.onFab (s.cur / 8) (fun f => { f with fail := false })) · (fabCause (s.fabAt (s.cur / 8)).fcause)
        (s.fabAt (s.cur / 8)).failWord 0))) ∧
  (∀ (s : State) (d a b : SReg), let h := s.hart; let core := s.cur / 8; let f := s.fabAt core; let x := h.sreg a; let y := h.sreg b
    let rest := fun (t : State) => GoesOn h t.hart ∧ (∀ n, n ≠ s.cur → t.hartAt n = s.hartAt n) ∧ t.mem = s.mem ∧ t.dies = s.dies ∧
      ∀ c, c ≠ core → t.coreAt c = s.coreAt c
    let quietly := fun (t : State) => { t.hart.still with stamp := 0 } = { h.still with stamp := 0 }
    let waits := fun (t : State) => t.hart.pc = h.pc ∧ t.hart.still = h.still ∧ OnlyHart s t;
    s.hasFab s.cur = true →
      (f.fail = false → f.halt = false →
        (∀ r g, checkDesc (s.gangOf s.cur) .source x (insnWord (.scfg a)) = .ok r → s.gangOf s.cur = some g →
          let bs := s.rangeBytes core r.slot; let p := readProgram bs (h.modulus.toNat % 2 ^ 32) h.sat
          (16 ≤ f.cmds.length → Completes (.scfg a) s waits) ∧
          (f.cmds.length < 16 → s.slotHeld [r.slot * 4] [] = false →
            (recordTrap bs p g = none → Completes (.scfg a) s (fun t => rest t ∧ quietly t ∧ t.fabAt core = { f with cmds := f.cmds ++ [.scfg p], configured := true, issued := true })) ∧
            (∀ e, recordTrap bs p g = some e → CanTrap s → Completes (.scfg a) s (Trapped s · e.cause e.val 0)))) ∧
        (let bar := if bit y 10 then none else some (field y 9 0)
          let bad := x.toNat = 0 ∨ 65535 < x.toNat ∨ field y 63 11 ≠ 0 ∨ f.configured = false ∨ 2 ^ 32 - 1 < f.next + x.toNat
          (bad → CanTrap s → Completes (.sgo d a b) s (Trapped s · 0x01 (insnWord (.sgo d a b)) 0)) ∧
          (¬ bad → ∀ k, bar = some k → barOutside (s.gangOf s.cur) k = true → CanTrap s → Completes (.sgo d a b) s (Trapped s · 0x06 (word k) 0)) ∧
          (¬ bad → (∀ k, bar = some k → barOutside (s.gangOf s.cur) k = false) →
            (16 ≤ f.cmds.length → Completes (.sgo d a b) s waits) ∧
            (f.cmds.length < 16 → Completes (.sgo d a b) s (fun t => rest t ∧
              (d ≠ 0 → t.hart.sreg d = word f.next) ∧ (∀ r, r ≠ d → t.hart.sreg r = h.sreg r) ∧
              { t.hart.still.lessS with stamp := 0 } = { h.still.lessS with stamp := 0 } ∧
              (t.fabAt core).next = f.next + x.toNat ∧
              ∃ l : Launch, l.first = f.next ∧ l.count = x.toNat ∧ l.bar = bar ∧ l.hart = s.cur ∧
                l.bytes = (f.latest.map FabProg.bytes).getD 0 ∧
                (f.cmds = [] → t.fabAt core = { f with next := f.next + x.toNat, launches := f.launches ++ [l] }) ∧
                (f.cmds ≠ [] → (∀ m, f.cmds.head? ≠ some (.sgo m)) →
                  t.fabAt core = { f with next := f.next + x.toNat, cmds := f.cmds ++ [.sgo l] }))))) ∧
        (∀ r, checkDesc (s.gangOf s.cur) .source x (insnWord (.stwld a b)) = .ok r →
          let bad := r.cnt ≠ 1 ∨ ¬ (y.toNat < 8 ∨ (10 ≤ y.toNat ∧ y.toNat < 14))
          (bad → CanTrap s → Completes (.stwld a b) s (Trapped s · 0x01 (insnWord (.stwld a b)) 0)) ∧
          (¬ bad → f.cmds.length < 16 → Completes (.stwld a b) s (fun t => rest t ∧ quietly t ∧
            t.fabAt core = { f with cmds := f.cmds ++ [.stwld y.toNat r s.cur h.stamp], issued := true })) ∧
          (¬ bad → 16 ≤ f.cmds.length → Completes (.stwld a b) s waits))) ∧
      (f.fail = false ∨ h.inFabWait = true → let flagged := fun (t : State) => t.hart.fflags = h.fflags ||| f.flags.setWidth 64 ∧ (t.fabAt core).flags = 0;
        (let n := x.toNat
          let written := fun (k : Word) (t : State) => rest t ∧ flagged t ∧ (d ≠ 0 → t.hart.sreg d = k) ∧
            (∀ r, r ≠ d → t.hart.sreg r = h.sreg r) ∧ t.hart.still.lessS.lessFlags = h.still.lessS.lessFlags ∧ t.fabAt core = { f with flags := 0 };
          (2 ^ 32 ≤ n → CanTrap s → Completes (.smark d a) s (Trapped s · 0x01 (insnWord (.smark d a)) 0)) ∧
          (n < 2 ^ 32 →
            (f.next ≤ n → Completes (.smark d a) s (written 2)) ∧
            (n < f.next → n < f.resolved → (∃ c ∈ f.cancelled, c.1 ≤ n ∧ n < c.2) → Completes (.smark d a) s (written 1)) ∧
            (n < f.next → n < f.resolved → (∀ c ∈ f.cancelled, ¬ (c.1 ≤ n ∧ n < c.2)) → Completes (.smark d a) s (written 0)) ∧
            (n < f.next → f.resolved ≤ n → Completes (.smark d a) s (fun t => waits t ∧ t.hart.block.map (·.wait) = some (.engine 0x0800000000000000))))) ∧
        (let still := fun (t : State) => rest t ∧ flagged t ∧ t.hart.still.lessFlags = h.still.lessFlags;
          (1 < x.toNat → CanTrap s → Completes (.sdrain a) s (Trapped s · 0x01 (insnWord (.sdrain a)) 0)) ∧
          (x = 1 → Completes (.sdrain a) s (fun t => still t ∧ let g := t.fabAt core
            g.cmds = [] ∧ g.launches = [] ∧ g.resolved = g.next ∧ g.next = f.next ∧ g.halt = false ∧ g.chans = [] ∧ g.outPorts = [] ∧
            g.prog = f.prog ∧ g.tables = f.tables ∧ (f.resolved < f.next → (f.resolved, f.next) ∈ g.cancelled))) ∧
          (x = 0 → f.cmds = [] → f.resolved = f.next → f.quiet = true → Completes (.sdrain a) s (fun t => still t ∧ t.fabAt core = { f with flags := 0 })) ∧
          (x = 0 → ¬ (f.cmds = [] ∧ f.resolved = f.next ∧ f.quiet = true) → Completes (.sdrain a) s (fun t => waits t ∧
            t.hart.block.map (·.wait) = some (.engine 0x1000000000000000))))) ∧
      (∀ v, (x = 0 ∧ v = word (f.flags.toNat * 2 ^ 24 + f.cmds.length * 2 ^ 16 + f.prog.isSome.toNat * 256 +
          (f.cmds.any (fun c => match c with | .sgo _ => false | _ => true)).toNat * 128 + (f.issued && f.quiet).toNat * 64 + f.halt.toNat * 32 +
          f.fcause * 2 + f.fail.toNat)) ∨ (x = 1 ∧ v = f.failWord) ∨ (2 ≤ x.toNat ∧ x.toNat ≤ 27 ∧ v = word (f.failCounts.getD (x.toNat - 2) 0)) ∨
        (x = 28 ∧ v = word f.next) ∨ (x = 29 ∧ v = (f.lastCommit.map word).getD (BitVec.allOnes 64)) →
        Completes (.sstat d a) s (WritesS s · d v)) ∧
      (29 < x.toNat → CanTrap s → Completes (.sstat d a) s (Trapped s · 0x01 (insnWord (.sstat d a)) 0))) ∧
  ∀ (s : State) (d : PReg) (a : BitVec 3), let h := s.hart; let core := s.cur / 8; let f := s.fabAt core
    let from' := (h.batch.getD (0, [])).1; let before := (h.batch.getD (0, [])).2
    let active := (List.range 32).filter (fun k => from' ≤ k && h.active k)
    let count := fun (k : Nat) => recBits (h.batchRecord a.toNat k) 8 63 0
    let wrote := fun (bits : Nat → Bool) (t : State) => (∀ k, k < 512 → (t.hart.preg d).getLsbD k = bits k) ∧
      (∀ r, r ≠ d → t.hart.preg r = h.preg r) ∧ GoesOn h t.hart ∧ t.hart.batch = none ∧
      { t.hart.still.lessP with stamp := 0, batch := none } = { h.still.lessP with stamp := 0, batch := none } ∧ t.mem = s.mem
    before.Nodup → (∀ k ∈ before, k < from') →
    (s.hasFab s.cur = false ∨ f.fail = true → Completes (.xbatchFabric d a) s (fun t => wrote (fun k => before.contains k) t ∧ t.fabAt core = f)) ∧
    (s.hasFab s.cur = true → f.fail = false → f.halt = false → f.configured = true → f.cmds = [] →
      (∀ k ∈ active, recBits (h.batchRecord a.toNat k) 0 7 0 = 1 ∧ 1 ≤ count k ∧ count k ≤ 65535 ∧ recBits (h.batchRecord a.toNat k) 0x10 63 0 = 1024) →
      f.next + (active.map count).sum < 2 ^ 32 →
      Completes (.xbatchFabric d a) s (fun t => wrote (fun k => (before ++ active).contains k) t ∧
        (t.fabAt core).next = f.next + (active.map count).sum ∧ (t.fabAt core).cmds = [] ∧
        ∃ ls, (t.fabAt core).launches = f.launches ++ ls ∧ ls.map (·.count) = active.map count ∧ ∀ l ∈ ls, l.bar = none ∧ l.hart = s.cur))

/-- R39 to R43, R48, R260 to R270, R274, R286 to R305: the fabric's own steps. A configuration period applies the programs and tables at the head of
the queue and lets launches behind them in. An input port emits marker, rows and end of its invocation in order. A context whose every input shows the
marker takes them, starts its state afresh and passes the marker on; every firing takes one credit, takes its inputs' heads, appends what its operator
forms and raises its flags. A commit writes the rows that the output ports hold, credits the barrier of its `sgo` and counts the invocation as resolved;
that all ports and RM0 write in one step is the model's reading (log 31). Each window of 1,024 cycles gives a node's contexts weights by occupancy; that
the weights are made by a step of their own, at the window's end or later, is log 27's. A head that has waited AGELIM cycles, or an operator's fault,
halts the fabric at once with a record of kind 3 and cancels what has not committed; neither age nor window runs while a pre-emption holds the fabric.
The operators' results: the butterfly pairs with their growth rule, the stride permutation, the pointwise nodes, the converter, the corner turn, the
sparse loop header, the intersection, the merge and the sole writer, each in the chapter's own terms. -/
def Obligations.FabricEngine : Prop :=
  (∀ (s : State) (core : Nat), let f := s.fabAt core
    f.halt = false → f.quiet = true →
      (∀ p ls, f.cmds = .scfg p :: ls.map FabCmd.sgo → Completes (.configPeriod core) s (fun t => let g := t.fabAt core
        g.prog = some p ∧ g.cmds = [] ∧ g.launches = f.launches ++ ls ∧ g.tables = f.tables ∧ g.next = f.next ∧ g.resolved = f.resolved ∧
        (∀ e ∈ p.ctxs, (∀ e' ∈ p.ctxs, e'.key = e.key → e' = e) → g.ctx e.key = { weight := e.weight, credit := e.weight }) ∧
        (∀ x ∈ [20, 21, 22, 23], g.inPort x = ⟨f.resolved, 0⟩) ∧ t.harts = s.harts ∧ t.mem = s.mem)) ∧
      (∀ node r hart stamp ls, f.cmds = .stwld node r hart stamp :: ls.map FabCmd.sgo → (s.coreAt core).held hart stamp r.chunks [] = false →
        Completes (.configPeriod core) s (fun t => let g := t.fabAt core
          (∀ k, g.tables.read k = if node * 16384 ≤ k ∧ k < (node + 1) * 16384 then s.rangeBytes core r.slot (k - node * 16384) else f.tables.read k) ∧
          g.cmds = [] ∧ g.launches = f.launches ++ ls ∧ g.prog = f.prog ∧ t.harts = s.harts ∧ t.mem = s.mem))) ∧
  (∀ (s : State) (core port : Nat) (e : FabCtx), let f := s.fabAt core; let q := f.inPort port; let p := e.port (s.fabBase core)
    f.halt = false → f.entry (port * 4) = some e → e.isInPort = true → (e.outs.filterMap id).Nodup → (∀ k, some k ∈ e.outs → (f.chan k).length < 8) →
    q.inv < f.admitted →
      let emits := fun (tok : Token) (next : InPort) => Completes (.inputPortEmit core port) s (fun t => let g := t.fabAt core
        (∀ k, g.chan k = if some k ∈ e.outs then f.chan k ++ [tok] else f.chan k) ∧ g.inPort port = next ∧
        (∀ x, x ≠ port → g.inPort x = f.inPort x) ∧ g.cmds = f.cmds ∧ t.harts = s.harts ∧ t.mem = s.mem)
      (q.pos = 0 → f.stopping = false → emits (Token.control .marker q.inv) ⟨q.inv, 1⟩) ∧
      (p.tk < q.pos → emits (Token.control .fin q.inv) ⟨q.inv + 1, 0⟩) ∧
      (∀ l, 0 < q.pos → q.pos ≤ p.tk → let row := (p.rb + q.inv * p.rs + (q.pos - 1)) % p.rows
        p.beyond row = false → f.launchOf q.inv = some l → s.invReadHeld core q.inv l (p.rowChunks row) = false → s.mem.poison = [] →
        emits ⟨.data, BitVec.ofNat 2048 (bytesToNat (s.readRange core p.slot (row * 256) 256)),
          if p.side then bytesToNat (s.readRange core p.slot (p.sideOff row) 2) else 0⟩ ⟨q.inv, q.pos + 1⟩)) ∧
  (∀ (s : State) (core ctx : Nat) (e : FabCtx), let f := (s.fabAt core).account s.clock.cycle
    let s0 := s.onFab core (fun _ => f)
    (s.fabAt core).halt = false →
      (∀ f' g, pickContext s0 core (ctx / 4) = (some e, f') → e.key = ctx → attempt (s0.onFab core (fun _ => f')) core e = .go g →
        Completes (.contextFire core ctx) s (fun t => let c := g.ctx e.key
          (t.fabAt core).ctx e.key = { c with credit := c.credit - 1 } ∧ (∀ k, k ≠ e.key → (t.fabAt core).ctx k = g.ctx k) ∧
          (t.fabAt core).chans = g.chans ∧ SMap.get 0 (t.fabAt core).last e.node = e.ctx + 1 ∧ t.harts = s.harts ∧ t.mem = s.mem)) ∧
      (∀ p n, f.prog = some p → e ∈ p.ctxs → e.node < 19 → e.key = ctx → ctx / 4 = e.node → (∀ e' ∈ p.ctxs, e'.node = e.node → e' = e) →
        (e.ins.filterMap id ++ e.outs.filterMap id).Nodup → (∃ k, some k ∈ e.ins) → n < 2 ^ 32 →
        (∀ k, some k ∈ e.ins → (f.chan k).head? = some (Token.control .marker n)) → (∀ k, some k ∈ e.outs → (f.chan k).length < 8) →
        Completes (.contextFire core ctx) s (fun t => let g := t.fabAt core
          (∀ k, g.chan k = if some k ∈ e.ins then (f.chan k).drop 1 else if some k ∈ e.outs then f.chan k ++ [Token.control .marker n] else f.chan k) ∧
          { g.ctx ctx with weight := 0, credit := 0, occ := 0 } = { inv := n, weight := 0, credit := 0, occ := 0 } ∧
          t.harts = s.harts ∧ t.mem = s.mem))) ∧
  (∀ (s : State) (core port : Nat) (l : Launch) (e : FabCtx) (p : FabProg), let f := s.fabAt core; let n := f.resolved
    f.halt = false → f.prog = some p → f.launchOf n = some l → n < f.admitted → f.entry (port * 4) = some e → e.isOutPort = true → f.ready n = true →
    s.invWriteHeld core n l (p.writes (s.fabBase core) n) = false → Completes (.outputPortCommit core port) s (fun t => let g := t.fabAt core
      g.resolved = n + 1 ∧ g.lastCommit = some n ∧ g.outPorts = [] ∧ g.next = f.next ∧ g.cmds = f.cmds ∧ g.chans = f.chans ∧
      (t.coreAt core).credits = (s.coreAt core).credits ++ (match l.bar with | some b => if l.bytes = 0 then [] else [⟨b, l.bytes⟩] | none => []) ∧
      (∀ y, t.mem.cells.read y = match ((s.heldWrites core n).filter (fun x => x.1 = y)).getLast? with | some x => x.2 | none => s.mem.cells.read y) ∧
      t.harts = s.harts)) ∧
  -- a window of 1,024 cycles that is over
  (∀ (s : State) (core node : Nat), let f := s.fabAt core; let now := s.clock.cycle; let start := SMap.get 0 f.windowAt node
    let es := f.entries.filter (fun e => e.node = node)
    let resident := fun (e : FabCtx) => (e.ins.map (fun c => ((c.map f.chan).getD []).length)).sum
    let occ := fun (e : FabCtx) => (f.ctx e.key).occ + (start + 1024 - f.since) * resident e; let top := (es.map occ).foldl max 0
    (now < start + 1024 ∨ s.fabricStands core = true ∨ f.halt = true → Completes (.reweight core node) s (· = s)) ∧
    (f.halt = false → s.fabricStands core = false → es ≠ [] → node < 26 → (f.entries.map FabCtx.key).Nodup → (∀ e ∈ f.entries, e.ctx < 4) →
      start + 1024 ≤ now → now < start + 2048 → Completes (.reweight core node) s (fun t => let g := t.fabAt core
        (∀ e ∈ es, let c := f.ctx e.key; let w := if top = 0 then c.weight else max 1 ((15 * occ e + top / 2) / top)
          g.ctx e.key = { c with weight := w, credit := w, occ := (now - start - 1024) * resident e }) ∧
        SMap.get 0 g.windowAt node = start + 1024 ∧ g.chans = f.chans ∧ t.harts = s.harts ∧ t.mem = s.mem))) ∧
  (∀ (s : State) (core chan : Nat) (e : FabCtx), let f := s.fabAt core; let lim := (s.coreAt core).ageLim.toNat
    (s.fabricStands core = true → Completes (.blockedEdge core chan) s (· = s)) ∧
    (f.entries.find? (fun e => e.ins.contains (some chan)) = some e → f.halt = false → lim ≠ 0 → f.chan chan ≠ [] → s.fabricStands core = false →
    SMap.get 0 f.headAt chan + lim ≤ s.clock.cycle → Completes (.blockedEdge core chan) s (fun t => let g := t.fabAt core
      g.halt = true ∧ g.fail = true ∧ g.fcause = 1 ∧ g.resolved = g.next ∧ g.next = f.next ∧ g.launches = [] ∧ g.outPorts = [] ∧
      g.failWord = word (e.ctx * 2 ^ 48 + chan * 2 ^ 42 + (f.ends chan).2 * 2 ^ 37 + (f.ends chan).1 * 2 ^ 32 + (f.ctx e.key).inv % 2 ^ 32) ∧
      (∃ r, (t.coreAt core).records ++ (t.coreAt core).unposted = (s.coreAt core).records ++ (s.coreAt core).unposted ++ [r] ∧ r.kind = 3 ∧ r.cause = 0x0B ∧
        r.master = 3 ∧ r.d0 = g.failWord ∧ r.d2 = word (f.next - f.resolved)) ∧
      t.harts = s.harts ∧ t.mem = s.mem))) ∧
  -- a firing on data: the inputs it reads lose their heads, its outputs gain what it appends; a fault halts at once
  (∀ (s : State) (core : Nat) (p : FabProg) (e : FabCtx), let f := (s.fabAt core).account s.clock.cycle; let v := (s.onFab core (fun _ => f)).env core p e
    let run := Instr.contextFire core e.key
    (s.fabAt core).halt = false → f.prog = some p → e ∈ p.ctxs → e.node < 20 → e.ctx < 4 → (∀ e' ∈ p.ctxs, e'.node = e.node → e' = e) → (f.ctx e.key).credit ≠ 0 →
    (e.ins.filterMap id ++ e.outs.filterMap id).Nodup → (∃ k, some k ∈ e.ins) → (∀ k, some k ∈ e.ins → ∀ t, (f.chan k).head? = some t → t.kind = .data) →
    ((nodeKind e.node).lockstep = true → ∀ k, some k ∈ e.ins → f.chan k ≠ []) → (e.node = 19 → f.rm.ready = false) →
      (∀ st took outs fl rm, fireData v = .ok st took outs fl rm → f.room e outs = true → Completes run s (fun t => let g := t.fabAt core
        (∀ j k, e.ins[j]? = some (some k) → g.chan k = if took.getD j false then (f.chan k).drop 1 else f.chan k) ∧
        (∀ j k, e.outs[j]? = some (some k) → g.chan k = f.chan k ++ outs.getD j []) ∧
        (∀ k, some k ∉ e.ins → some k ∉ e.outs → g.chan k = f.chan k) ∧ g.flags = f.flags ||| fl ∧ g.rm = (if e.node = 19 then rm else f.rm) ∧
        { g.ctx e.key with read := 0, credit := 0 } = { st with read := 0, credit := 0 } ∧ t.harts = s.harts ∧ t.mem = s.mem)) ∧
      (∀ c, fireData v = .fault c → Completes run s (fun t => let g := t.fabAt core
        g.halt = true ∧ g.fail = true ∧ g.fcause = c ∧ g.resolved = g.next ∧ g.launches = [] ∧ t.mem = s.mem))) ∧
  -- rounding to the nearest, ties to even, and the growth rule
  (∀ (x : Int) (n : Nat), let y := roundHalfEven x (-(n : Int)); 2 * (x - y * 2 ^ n).natAbs ≤ 2 ^ n ∧ (2 * (x - y * 2 ^ n).natAbs = 2 ^ n → y % 2 = 0)) ∧
  (∀ (fixed : Bool) (ys : List Int) (ein : Nat), ein < 255 → ∃ s0 s : Nat, let r := bfGrow fixed ys ein; let t := fun (y : Int) => roundHalfEven y (-(s : Int))
    (fixed = true → s0 = 1) ∧ (fixed = false → s0 ≤ 3 ∧ (∀ k, k < s0 → ∃ y ∈ ys, 16383 * 2 ^ k < y.natAbs) ∧ (s0 < 3 → ∀ y ∈ ys, y.natAbs ≤ 16383 * 2 ^ s0)) ∧
    s = (if 254 < ein + s0 then 254 - ein else s0) ∧ r.1 = ys.map (fun y => if 32767 < t y then 32767 else if t y < -32767 then -32767 else t y) ∧
    r.2.1 = (if ∀ m ∈ r.1, m = 0 then 0 else ein + s) ∧
    r.2.2 = (if 254 < ein + s0 then fBFPOVF else 0) ||| (if ∃ y ∈ ys, 32767 < (t y).natAbs then fOF else 0)) ∧
  (∀ v : Env, let par := v.e.par'; let node := v.e.node; let op := v.e.op; let one := fun (st : CtxState) => st = { v.st with f := v.st.f + 1 }
    let fires := fun (took : List Bool) (outs : List (List Token)) (fl : FFlags) (f : CtxState → Prop) => ∃ st, fireData v = .ok st took outs fl v.rm ∧ f st
    let chunks := fun (w n : Nat) (xs : List Nat) => (List.range n).map (fun i => dataToken w ((xs.drop (i * (2048 / w))).take (2048 / w)))
    let holds := fun (w : Nat) (xs : List Nat) (st : CtxState) (j : Nat) => st.outbox.getD j [] = chunks w (xs.length / (2048 / w)) xs ∧
      st.pack.getD j [] = xs.drop (xs.length / (2048 / w) * (2048 / w))
    let idle := outboxEmpty v.st = true
    -- the butterfly columns
    (node < 8 → let ld := par 0x0C 3 1; let two := par 0x0C 0 0 = 1; let b := v.prog.block; let pair := fun (i : Nat) => i / 2 ^ (ld + 1) * 2 ^ ld + i % 2 ^ ld
      let block := fun (n j : Nat) => par 0x10 15 0 + (v.st.f * n + j) % par 0x10 31 16
      let c := fun (n j k : Nat) => toSigned 16 (readN v.table (8 * block n j + 2 * k) 2)
      (op = 1 → v.prog.blk ≤ 2 →
        let ex := fun (t : Token) (k : Nat) => t.side / 256 ^ k % 256
        let m := fun (t : Token) (i : Nat) => if i % 64 < b ∧ ex t (i / 64) ≠ 0 then mantissa (lane t.data 16 i) else 0
        let meet := fun (x : Int) (e e' : Nat) => if e = 255 ∨ e' = 255 ∨ e' ≤ e then x else if 16 ≤ e' - e then 0 else roundHalfEven x (-((e' - e : Nat) : Int))
        let join := fun (e e' : Nat) => if e = 255 ∨ e' = 255 then 255 else max e e'
        let dot := fun (n j r : Nat) (x y : Int) => roundHalfEven (c n j (2 * r) * x + c n j (2 * r + 1) * y) (-14)
        let forms := fun (ys : Nat → Int) (e : Nat → Nat) (t : Token) =>
          let q := fun (k : Nat) => let r := bfGrow (par 0x0C 5 4 = 1) ((List.range b).map (fun i => ys (64 * k + i))) (e k)
            if par 0x0C 6 6 = 1 then normBlock r.1 r.2.1 else (r.1, r.2.1)
          t.kind = .data ∧ t.side = (q 0).2 + (q 1).2 * 256 ∧
            ∀ i, i < 128 → lane t.data 16 i = if i % 64 < b then wrap 16 ((q (i / 64)).1.getD (i % 64) 0) else 0
        (∀ a, v.data 0 = some a → ¬two → ld < 7 → let x := fun (i : Nat) => if ld = 6 then meet (m a i) (ex a (i / 64)) (ex a (1 - i / 64)) else m a i
          ∃ t fl, fires [true, false, false, false] [[t], []] fl one ∧ forms (fun i => if i.testBit ld then dot 64 (pair i) 1 (x (i - 2 ^ ld)) (x i)
            else dot 64 (pair i) 0 (x i) (x (i + 2 ^ ld))) (fun k => if ld = 6 then join (ex a 0) (ex a 1) else ex a k) t) ∧
        (∀ a a', v.data 0 = some a → v.data 1 = some a' → two → let x := fun (i : Nat) => meet (m a i) (ex a (i / 64)) (ex a' (i / 64))
          let y := fun (i : Nat) => meet (m a' i) (ex a' (i / 64)) (ex a (i / 64))
          ∃ t t' fl, fires [true, true, false, false] [[t], [t']] fl one ∧ forms (fun i => dot 128 i 0 (x i) (y i)) (fun k => join (ex a k) (ex a' k)) t ∧
            forms (fun i => dot 128 i 1 (x i) (y i)) (fun k => join (ex a k) (ex a' k)) t')) ∧
      (op = 2 ∨ op = 3 → let residue := fun (n j k : Nat) => readN v.table (16 * block n j + 4 * k) 4
        let q := fun (n j k : Nat) => Machine.Num.fin (c n j k < 0) (c n j k).natAbs (-14); let z := fun (x : Nat) => Ieee.fp32.decode false x
        let value := fun (n j r x y : Nat) => if op = 2 then
            (Ieee.fp32.round .rne false (Machine.Num.fma .rne (q n j (2 * r + 1)) (z y) ((q n j (2 * r)).mul (z x)).1).1).1 % 2 ^ 32
          else (residue n j (2 * r) * x + residue n j (2 * r + 1) * y) % v.prog.modulus % 2 ^ 32
        let good := fun (a : Token) => op = 3 → (∀ i, i < 64 → lane a.data 32 i < v.prog.modulus) ∧ ∀ n j k, k < 4 → residue n j k < v.prog.modulus
        (∀ a, v.data 0 = some a → ¬two → ld < 6 → good a → let x := lane a.data 32
          ∃ t fl, fires [true, false, false, false] [[t], []] fl one ∧ (op = 3 → fl = 0) ∧ t.kind = .data ∧ t.side = 0 ∧ ∀ i, i < 64 →
            lane t.data 32 i = if i.testBit ld then value 32 (pair i) 1 (x (i - 2 ^ ld)) (x i) else value 32 (pair i) 0 (x i) (x (i + 2 ^ ld))) ∧
        (∀ a a', v.data 0 = some a → v.data 1 = some a' → two → good a → good a' → ∃ t t' fl, fires [true, true, false, false] [[t], [t']] fl one ∧
          (op = 3 → fl = 0) ∧ t.kind = .data ∧ t'.kind = .data ∧ t.side = 0 ∧ t'.side = 0 ∧ ∀ i, i < 64 →
            lane t.data 32 i = value 64 i 0 (lane a.data 32 i) (lane a'.data 32 i) ∧ lane t'.data 32 i = value 64 i 1 (lane a.data 32 i) (lane a'.data 32 i)) ∧
        (∀ a i, v.data 0 = some a → ¬two → op = 3 → ld < 6 → v.prog.sat = false → i < 64 → v.prog.modulus ≤ lane a.data 32 i → fireData v = .fault 2))) ∧
    -- the stride permutation
    (node = 8 ∨ node = 9 → ∀ t, v.data 0 = some t → let ewc := par 0x0C 2 0; let w := if ewc = 4 then 16 else 8 * 2 ^ ewc; let l := 2048 / w
      let lf := par 0x0C 7 4; let ln := lf + Nat.log2 l; let ls := par 0x0C 15 8; let fr := v.st.frame ++ [t]
      let moved := fun (n k : Nat) => n < 2 ^ ln ∧ k < 2 ^ ln ∧ ((op = 1 ∧ ls ≤ ln ∧ ∃ i j, i < 2 ^ (ln - ls) ∧ j < 2 ^ ls ∧ n = j * 2 ^ (ln - ls) + i ∧ k = i * 2 ^ ls + j) ∨
        (op = 2 ∧ ∀ b, b < ln → k.testBit b = n.testBit (ln - 1 - b)))
      let at' := fun (ts : List Token) (n : Nat) => lane (ts.getD (n / l) t).data w (n % l)
      ewc ≤ 4 → v.st.frame.length < 2 ^ lf →
        (ewc ≠ 4 → t.count w ≠ l → fireData v = .fault 6) ∧
        (ewc = 4 ∨ t.count w = l →
          (fr.length < 2 ^ lf → ∃ outs, fires [true] outs 0 (fun st => st.frame = fr ∧ outs.getD 0 [] ++ st.outbox.getD 0 [] = v.st.outbox.getD 0 [])) ∧
          (fr.length = 2 ^ lf → idle → ∃ outs toks, fires [true] outs 0 (fun st => st.frame = [] ∧ outs.getD 0 [] ++ st.outbox.getD 0 [] = toks) ∧ toks.length = 2 ^ lf ∧
            (∀ u ∈ toks, u.kind = .data) ∧ (ewc ≠ 4 → (∀ u ∈ toks, u.side = 0) ∧ ∀ n k, moved n k → at' toks n = at' fr k) ∧
            (ewc = 4 → let ex := fun (ts : List Token) (k : Nat) => (ts.getD (k / 2) t).side / 256 ^ (k % 2) % 256; let es := (List.range (2 * 2 ^ lf)).map (ex fr)
              let nan := 255 ∈ es; let top := es.foldl max 0
              (∀ n k, moved n k → let e := ex fr (k / 64); at' toks n = wrap 16 (if nan ∨ e = 0 ∨ 16 ≤ top - e then 0
                else roundHalfEven (mantissa (at' fr k)) (-((top - e : Nat) : Int)))) ∧
              ∀ k, k < 2 * 2 ^ lf → ex toks k = if nan then 255 else if (List.range 64).any (fun i => at' toks (64 * k + i) ≠ 0) then top else 0)))) ∧
    -- the pointwise nodes
    (10 ≤ node → node < 14 → let t := v.e.type; let w := t.width 0; let o := v.e.otag; let md := v.prog.modulus; let ar := v.prog.arith (par 0x0C 18 16)
      let n := if op = 4 then 3 else if op = 7 ∨ op = 8 then 1 else 2
      ∀ (h : Nat → Token) (c : Nat), (∀ k, k < n → v.data k = some (h k)) → let x := fun (k i : Nat) => lane (h k).data w i
      let z := fun (k i : Nat) => t.intVal (x k i); let d := fun (k i : Nat) => decodeFloat t false (x k i)
      let gives := fun (f : Nat → Nat) (u : Token) => u.kind = .data ∧ u.side = (if c = 2048 / w then 0 else c) ∧
        ∀ i, i < 2048 / w → lane u.data w i = if i < c then f i % 2 ^ w else 0
      let took := List.replicate n true
      t ∈ [Tag.int8, .int16, .int32, .uint8, .uint16, .uint32, .fp32, .fp16, .bf16, .mod32] →
      (n = 2 → (h 0).count w ≠ (h 1).count w → fireData v = .fault 5) ∧
      ((∀ k, k < n → (h k).count w = c) →
        (t ≠ .mod32 → 1 ≤ op → op ≤ 8 → let entry := fun (i : Nat) => readN v.table (4 * (par 0x10 15 0 + (v.st.f * (2048 / w) + i) % par 0x10 31 16)) 4
          let int := fun (i : Nat) => match op with
            | 1 => z 0 i + z 1 i
            | 2 => z 0 i - z 1 i
            | 3 => z 0 i * z 1 i
            | 4 => z 0 i * z 1 i + z 2 i
            | 5 => max (z 0 i) (z 1 i)
            | 6 => min (z 0 i) (z 1 i)
            | 7 => max (z 0 i) 0
            | _ => z 0 i * toSigned 32 (entry i)
          let num := fun (i : Nat) => match op with
            | 1 => (Machine.Num.add ar.rnd (d 0 i) (d 1 i)).1
            | 2 => (Machine.Num.add ar.rnd (d 0 i) (d 1 i).neg).1
            | 3 => ((d 0 i).mul (d 1 i)).1
            | 4 => (Machine.Num.fma ar.rnd (d 0 i) (d 1 i) (d 2 i)).1
            | 5 => ((d 0 i).max (d 1 i)).1
            | 6 => ((d 0 i).min (d 1 i)).1
            | 7 => if (d 0 i).isNaN then d 0 i else if Machine.Num.lt .zero (d 0 i) then d 0 i else .zero
            | _ => ((d 0 i).mul (Ieee.fp32.decode false (entry i))).1
          ∃ u fl, fires took [[u], []] fl (fun st => st.f = v.st.f + 1) ∧ gives (fun i => (roundTo ar md t o (if t.isFloat then .num (num i) else .int (int i))).1) u) ∧
        (t = .mod32 → o = .mod32 → 1 ≤ op → op ≤ 3 →
          ((∀ k i, k < 2 → i < c → x k i < md) → ∃ u fl, fires took [[u], []] fl (fun st => st.f = v.st.f + 1 ∧ (par 0x0C 19 19 = 1 →
              (∀ i, i < c → x 0 i ≤ st.maxA ∧ x 1 i ≤ st.maxB) ∧ v.st.maxA ≤ st.maxA ∧ v.st.maxB ≤ st.maxB ∧
              (fl = if md ≤ par 0x14 31 0 * st.maxA * st.maxB then fMODOVF else 0))) ∧
            gives (fun i => (((if op = 1 then (x 0 i : Int) + x 1 i else if op = 2 then x 0 i - x 1 i else x 0 i * x 1 i) % (md : Int)).toNat)) u) ∧
          (v.prog.sat = false → (∃ k i, k < 2 ∧ i < c ∧ md ≤ x k i) → fireData v = .fault 2)) ∧
        (op = 9 → ∃ fl, (t.isFloat = false → t ≠ .mod32 → fires took [[], []] fl (fun st => st.acc = wrap 32 (v.st.acc + ((List.range c).map (fun i => z 0 i * z 1 i)).sum))) ∧
          (t = .mod32 → (∀ k i, k < 2 → i < c → x k i < md) → fires took [[], []] fl (fun st => st.acc = (v.st.acc + ((List.range c).map (fun i => x 0 i * x 1 i)).sum) % md)) ∧
          (t.isFloat = true → fires took [[], []] fl (fun st => st.acc = (List.range c).foldl (fun acc i =>
            (Ieee.fp32.round .rne false (Machine.Num.fma .rne (d 0 i) (d 1 i) (Ieee.fp32.decode false acc)).1).1) v.st.acc))))) ∧
    (10 ≤ node → node < 14 → op = 9 → ∃ st u, flushEnd v = .ok st [] [] 0 v.rm ∧ st.outbox = [[u], []] ∧ u.kind = .data ∧ u.side = 1 ∧
      lane u.data 32 0 = v.st.acc % 2 ^ 32 ∧ ∀ i, 0 < i → i < 64 → lane u.data 32 i = 0) ∧
    -- the converter
    (node = 14 → ∀ u, v.data 0 = some u → let t := v.e.type; let o := v.e.otag; let b := v.prog.block; let ar := v.prog.arith (par 0x0C 18 16)
      t ∉ [Tag.mod32, .bfp16, .untyped] → par 0x0C 21 19 = 0 → v.st.q.getD 0 [] = [] → let w := o.width 0; let xs := v.st.q.getD 1 [] ++ u.valid (t.width 0)
      (o ∉ [Tag.e2m1x, .bfp16, .untyped] → v.st.q.getD 1 [] = [] → let codes := v.st.pack.getD 0 [] ++ xs.map (fun x => (roundTo ar v.prog.modulus t o (cvVal t x)).1)
        ∃ toks fl, fires [true] toks fl (fun st => st.f = v.st.f + 1 ∧ st.pack.getD 0 [] = codes.drop (codes.length / (2048 / w) * (2048 / w))) ∧
          toks.getD 0 [] = chunks w (codes.length / (2048 / w)) codes) ∧
      (o = .bfp16 → v.prog.blk ≤ 2 → let n := xs.length / b; let rs := (List.range n).map (fun i => encodeBfp16 ar.rnd ((((xs.drop (i * b)).take b).map (cvVal t)).map Val.toNum))
        let codes := v.st.pack.getD 0 [] ++ rs.flatMap (fun r => r.ms.map (wrap 16)); let es := v.st.pack.getD 1 [] ++ rs.map (·.e); let k := codes.length / (2 * b)
        ∃ toks fl, fires [true] toks fl (fun st => st.q.getD 1 [] = xs.drop (n * b) ∧ st.pack = [codes.drop (k * (2 * b)), es.drop (k * 2)]) ∧ (toks.getD 0 []).length = k ∧
          ∀ j u, (toks.getD 0 [])[j]? = some u → u.side = (es.drop (2 * j)).getD 0 0 + (if (es.drop (2 * j)).length < 2 then 0 else (es.drop (2 * j)).getD 1 0) * 256 ∧
            ∀ i, i < 128 → lane u.data 16 i = if i % 64 < b then codes.getD (j * (2 * b) + i / 64 * b + i % 64) 0 % 2 ^ 16 else 0) ∧
      (o = .e2m1x → let n := xs.length / 32; let rs := (List.range n).map (fun i => encodeE2m1x ((((xs.drop (i * 32)).take 32).map (cvVal t)).map Val.toNum))
        let codes := v.st.pack.getD 0 [] ++ rs.flatMap (·.codes); let es := v.st.pack.getD 1 [] ++ rs.map (fun r => r.s + 256 * r.x); let k := codes.length / 512
        ∃ toks fl, fires [true] toks fl (fun st => st.q.getD 1 [] = xs.drop (n * 32) ∧ st.pack = [codes.drop (k * 512), es.drop (k * 16)]) ∧
          (toks.getD 0 []).length = k ∧ (toks.getD 1 []).length = k ∧
          (∀ j u, (toks.getD 0 [])[j]? = some u → u.side = 0 ∧ ∀ i, i < 512 → lane u.data 4 i = codes.getD (j * 512 + i) 0 % 16) ∧
          ∀ j u, (toks.getD 1 [])[j]? = some u → u.side = 0 ∧ ∀ i, i < 16 → lane u.data 16 i = es.getD (j * 16 + i) 0 % 2 ^ 16)) ∧
    -- the corner turn
    (node = 15 → idle → ∀ t, v.data 0 = some t → let fr := v.st.frame ++ [t]
      (op = 1 → let w := 8 * 2 ^ par 0x0C 1 0; let l := 2048 / w
        (t.count w ≠ l → fireData v = .fault 6) ∧
        (t.count w = l → (fr.length < l → fires [true] [] 0 (fun st => st = { v.st with frame := fr })) ∧
          (fr.length = l → fires [true] [] 0 (fun st => st.frame = [] ∧ (st.outbox.getD 0 []).length = l ∧
            ∀ j u, (st.outbox.getD 0 [])[j]? = some u → u.kind = .data ∧ u.side = 0 ∧ ∀ i, i < l → lane u.data w i = lane (fr.getD i t).data w j)))) ∧
      (op = 2 → let n := 2 ^ par 0x0C 11 8; n ≤ 256 → (fr.length < n → fires [true] [] 0 (fun st => st = { v.st with frame := fr })) ∧
        (fr.length = n → fires [true] [] 0 (fun st => st.frame = [] ∧ ∃ u, st.outbox = [[u], []] ∧ u.kind = .data ∧ u.side = 0 ∧
          ∀ i, i < 256 → lane u.data 8 i = lane (fr.getD (i / (256 / n)) t).data 8 (i % (256 / n)))))) ∧
    -- the sparse loop header
    (node = 16 → idle → let xs := v.st.q.getD 0 []; let ys := v.st.q.getD 1 []
      (op = 1 → xs ≠ [] → ys ≠ [] → let len := par 0x0C 31 0; let k := min xs.length ys.length; let n := if len = 0 then k else min k ((len + 31) / 32 - v.st.offA)
        let keep := fun (i x : Nat) => let e := v.st.offA + i; if len ≠ 0 ∧ len < 32 * (e + 1) then x % 2 ^ (len - 32 * e) else x
        fires [] [] 0 (fun st => st.offA = v.st.offA + n ∧ st.q = [xs.drop k, ys.drop k] ∧
          holds 32 (v.st.pack.getD 0 [] ++ (List.range n).flatMap (fun i => [keep i (xs.getD i 0), keep i (ys.getD i 0)])) st 0)) ∧
      (op = 2 → (∀ k, k < 2 → (v.data k).isSome = true ∨ v.isEnd k = true) → ¬(v.isEnd 0 = true ∧ v.isEnd 1 = true) →
        let top := fun (k : Nat) => ((v.data k).map (fun t => lane t.data 32 0)).getD 0
        let leaf := fun (k q : Nat) => if (top k).testBit q then ((v.data k).map (fun t => lane t.data 32 (1 + ((List.range q).filter (top k).testBit).length))).getD 0 else 0
        fires [(v.data 0).isSome, (v.data 1).isSome] [] 0 (fun st => holds 32 (v.st.pack.getD 0 [] ++
          ((List.range 32).filter (fun q => (top 0).testBit q || (top 1).testBit q)).flatMap (fun q => [leaf 0 q, leaf 1 q])) st 0))) ∧
    -- the intersect node
    (node = 17 → idle → ∀ wa wb rest, let w := 8 * 2 ^ par 0x0C 1 0; let va := v.st.q.getD 1 []; let vb := v.st.q.getD 2 []
      let below := fun (x k : Nat) => ((List.range k).filter x.testBit).length; let st := v.st; v.st.q.getD 0 [] = wa :: wb :: rest →
      let both := (List.range 32).filter (fun k => wa.testBit k && wb.testBit k)
      let held := fun (base off x : Nat) (vs : List Nat) => ∀ k ∈ both, base ≤ off + below x k ∧ off + below x k < base + vs.length
      let xs := st.pack.getD 0 [] ++ both.map (fun k => va.getD (st.offA + below wa k - st.baseA) 0)
      let ys := st.pack.getD 1 [] ++ both.map (fun k => vb.getD (st.offB + below wb k - st.baseB) 0)
      (held st.baseA st.offA wa va → held st.baseB st.offB wb vb → fires [] [] 0 (fun st' => st'.offA = st.offA + below wa 32 ∧ st'.offB = st.offB + below wb 32 ∧
        st'.q.getD 0 [] = rest ∧ holds w xs st' 0 ∧ (xs.length = ys.length → holds w ys st' 1))) ∧
      (¬ held st.baseA st.offA wa va → v.data 1 = none → v.isEnd 1 = true → fireData v = .fault 6)) ∧
    -- the merge node
    (node = 18 → ∀ (ea eb : Bool) (n : Nat) (st : CtxState) (fl : FFlags) (a x b y : Nat) (ka va kb vb : List Nat),
      let push := fun (k x : Nat) (st : CtxState) => if par 0x0C 8 8 = 1 ∨ (if v.e.type.isFloat then x % 2 ^ (v.e.type.width 0 - 1) ≠ 0 else x ≠ 0) then
        { st with pack := [st.pack.getD 0 [] ++ [k], st.pack.getD 1 [] ++ [x]] } else st
      let falls := fun (p : Option Nat) (k : Nat) => ∃ e, p = some e ∧ k ≤ e
      st.q = [a :: ka, x :: va, b :: kb, y :: vb] → (st.pack.getD 0 []).length < 64 →
      (falls st.keyA a ∨ falls st.keyB b → mgMerge v ea eb (n + 1) st fl = (st, fl, true)) ∧
      (¬ falls st.keyA a → ¬ falls st.keyB b →
        (a < b → mgMerge v ea eb (n + 1) st fl = mgMerge v ea eb n (push a x { st with keyA := some a, q := [ka, va, b :: kb, y :: vb] }) fl) ∧
        (b < a → mgMerge v ea eb (n + 1) st fl = mgMerge v ea eb n (push b y { st with keyB := some b, q := [a :: ka, x :: va, kb, vb] }) fl) ∧
        (a = b → let r := mgCombine v.e.type (par 0x0C 10 9) x y
          mgMerge v ea eb (n + 1) st fl = mgMerge v ea eb n (push a r.1 { st with keyA := some a, keyB := some b, q := [ka, va, kb, vb] }) (fl ||| r.2) ∧
          (v.e.type = .int32 → r = (wrap 32 (let i := toSigned 32 x; let j := toSigned 32 y
            if par 0x0C 10 9 = 0 then i + j else if par 0x0C 10 9 = 1 then max i j else min i j), 0)))) ∧
      (v.st = st → idle → let r := mgMerge v (v.isEnd 0 || v.isEnd 1) (v.isEnd 2 || v.isEnd 3) 4096 st 0
        (r.2.2 = true → fireData v = .fault 6) ∧ (r.2.2 = false → r.1 ≠ st → fires [] [] r.2.1 (· = formTokens 32 false r.1)))) ∧
    -- the sole writer
    (node = 19 → let base := par 0x14 31 0 + v.st.inv * par 0x18 31 0; let comb := par 0x0C 9 8; let t := v.e.type; let size := 16384 * par 0x10 15 8
      let applies := fun (items : List (Nat × Nat)) (count : Nat) (took : List Bool) => let addr := fun (p : Nat × Nat) => base + 4 * p.1
        let here := fun (a : Nat) => (items.filter (fun p => addr p = a)).map (·.2); let old := fun (a : Nat) => (SMap.get none v.rm.held a).getD (readN v.old a 4)
        let leaves := fun (f : Nat → Option Nat) => ∃ st rm, fireData v = .ok st took [] 0 rm ∧ st = { v.st with f := v.st.f + 1 } ∧ rm.count = count ∧
          (rm.inv, rm.old, rm.marks, rm.ready) = (v.rm.inv, v.rm.old, v.rm.marks, v.rm.ready) ∧ ∀ a, SMap.get none rm.held a = f a
        let clean := ∀ p ∈ items, (SMap.get none v.rm.held (addr p)).isSome = true ∨ v.oldPoisoned (addr p) = false
        (comb = 0 → (∀ p ∈ items, addr p + 4 ≤ size) → leaves (fun a => (here a).getLast?.or (SMap.get none v.rm.held a))) ∧
        (comb = 0 → (∃ p ∈ items, size < addr p + 4) → fireData v = .fault 3) ∧
        (comb = 1 → t = .int32 ∨ t = .uint32 → clean → (∀ p ∈ items, addr p + 4 ≤ size) →
          leaves (fun a => if here a = [] then SMap.get none v.rm.held a else some ((old a + (here a).sum) % 2 ^ 32))) ∧
        (2 ≤ comb → t = .uint32 → clean → (∀ p ∈ items, addr p + 4 ≤ size ∧ p.2 < 2 ^ 32 ∧ old (addr p) < 2 ^ 32) →
          leaves (fun a => if here a = [] then SMap.get none v.rm.held a else some ((here a).foldl (if comb = 2 then max else min) (old a)))) ∧
        (∀ p ps, items = p :: ps → comb ≠ 0 → addr p + 4 ≤ size → SMap.get none v.rm.held (addr p) = none → v.oldPoisoned (addr p) = true → fireData v = .fault 4)
      (op = 1 → ∀ i x, v.data 0 = some i → v.data 1 = some x →
        (i.count 32 ≠ x.count 32 → fireData v = .fault 5) ∧
        (i.count 32 = x.count 32 → applies (((i.valid 32).zip (x.valid 32)).filter (fun p => p.1 ≠ 0xFFFFFFFF)) v.rm.count [true, true])) ∧
      (op = 2 → ∀ x, v.data 0 = some x → applies ((x.valid 32).mapIdx (fun k y => (v.rm.count + k, y))) (v.rm.count + (x.valid 32).length) [true])) ∧
    -- a partial frame at the end is a fault, and packed results go out in a last token
    (((node = 8 ∨ node = 9) ∧ v.st.frame.length < 2 ^ par 0x0C 7 4 ∨ node = 15 ∧ op = 1) → v.st.frame ≠ [] → flushEnd v = .fault 6) ∧
    (node = 18 ∨ (node = 16 ∧ op = 2) → idle → v.st.pack.length = 2 → let n := ((v.st.pack.getD 0 []).length + 63) / 64
      ∃ st, flushEnd v = .ok st [] [] 0 v.rm ∧ st.flushed = true ∧ ∀ j, j < 2 → st.outbox.getD j [] = chunks 32 n (v.st.pack.getD j []))) ∧
  -- one stage of the Hadamard transform
  ∀ (j n : Nat) (xs : List Nat), let z := fun (i : Nat) => Ieee.fp32.decode false (xs.getD i 0); let sum := fun (a b : Machine.Num) => (Ieee.fp32.round .rne false (Machine.Num.add .rne a b).1).1
    (hadStage j xs).1.length = xs.length ∧
    (∀ i, i < xs.length → (hadStage j xs).1.getD i 0 = if i.testBit j then sum (z (i - 2 ^ j)) (z i).neg else sum (z i) (z (i + 2 ^ j))) ∧
    (hadGroup 0 xs).1 = xs ∧ (hadGroup (n + 1) xs).1 = (hadStage n (hadGroup n xs).1).1

/-! ## The host's side -/

/-- R131, R173, R180, R189, R193, R325, R329, R330, R350, R378, R414 to R418: doorbells and registers. A doorbell of a value equal to WR, or at a ring
with OVR set, changes nothing; one behind WR or beyond the ring's size sets OVR; else WR takes it. RST takes WR back to RD and clears OVR. The host
sets the SVDB bits it names. An access through BAR0, naturally aligned and of 1, 2, 4 or 8 bytes, reads or writes the register at its offset; another
reads as all-ones and writes nothing. A dword written to a register of the host, scheduler, memory-system, capability, collective, core and die fault
blocks leaves there what its rule says, whether the host writes it or the supervisor's `st` (O31): reserved bits stay zero, read-only registers and
those that EN protects stay, counters are cleared, and a command acts. A BAR2 access reads or writes device memory at B2BASE plus its offset, and
outside backed HBM reads all-ones, drops a write, and is counted in HOSTERR; one to a stack that is not ready stays for later, and one to bytes of a
fenced die is dropped with a record of kind 7. BAR2 takes a size of 1 GiB to 512 GiB. The model's choices (log 42): a WIN or THR of zero is not taken,
a write through BAR0 acts as the supervisor's, and how a write of less than a dword acts. -/
def Obligations.HostAccesses : Prop :=
  (∀ (s : State) (r w : Nat) (ws : List (Nat × BitVec 8)), r < 16 → w < 2 ^ 64 → let q := s.ring r
    Completes (.doorbell r w ws) s (fun t =>
      t.ring r = (if q.ovr ∨ w = q.wr then q else if w < q.wr ∨ 2 ^ q.rsize < w - q.rd then { q with ovr := true } else { q with wr := w }) ∧
      (∀ k, k ≠ r → t.ring k = s.ring k) ∧
      (∀ a, t.mem.cells.read a = match (ws.filter (fun x => hostKey x.1 = a)).getLast? with | some x => x.2 | none => s.mem.cells.read a) ∧
      { t with mem := s.mem, host := s.host } = s) ∧
    Completes (.rst r) s (fun t => t.ring r = { q with wr := q.rd, ovr := false } ∧ (∀ k, k ≠ r → t.ring k = s.ring k) ∧ { t with host := s.host } = s) ∧
    ∀ x : Word, let bar0 := fun o => Instr.registerWrite (o + 64 * r) ⟨8, some x.toNat⟩
      Completes (bar0 0x1000) s (fun t => t.ring r = (if q.en then q else { q with hbase := x }) ∧
        (∀ k, k ≠ r → t.ring k = s.ring k) ∧ { t with host := s.host } = s) ∧
      Completes (bar0 0x1008) s (fun t =>
        t.ring r = { q with en := bit x 63, ctx := field x 47 32, rsize := (if q.en ∨ field x 4 0 < 4 ∨ 16 < field x 4 0 then q.rsize else field x 4 0)
                            wr := (if bit x 61 = true then q.rd else q.wr), ovr := (q.ovr && !bit x 61) } ∧
        (∀ k, k ≠ r → t.ring k = s.ring k) ∧ { t with host := s.host } = s) ∧
      Completes (bar0 0x1010) s (fun t =>
        t.ring r = (if q.ovr ∨ x.toNat = q.wr then q else if x.toNat < q.wr ∨ 2 ^ q.rsize < x.toNat - q.rd then { q with ovr := true }
          else { q with wr := x.toNat }) ∧ (∀ k, k ≠ r → t.ring k = s.ring k) ∧ { t with host := s.host } = s) ∧
      Completes (bar0 0x1018) s (· = s)) ∧
  (∀ (s : State) (o n x : Nat), o < 0x1000000 → let aligned := (n = 1 ∨ n = 2 ∨ n = 4 ∨ n = 8) ∧ o % n = 0
    (aligned → Completes (.registerWrite o ⟨n, some x⟩) s (· = mmioStore true o n x s) ∧
      Completes (.registerWrite o ⟨n, none⟩) s (· = { s with outputs := s.outputs ++ [.data (natToBytes n
        ((s.mmioRead (o / 8 * 8)).toNat / 2 ^ (8 * (o % 8))))] })) ∧
    (¬aligned → Completes (.registerWrite o ⟨n, some x⟩) s (· = s) ∧
      Completes (.registerWrite o ⟨n, none⟩) s (· = { s with outputs := s.outputs ++ [.data (List.replicate n 0xFF)] }))) ∧
  (∀ (s : State) (host : Bool) (x : Word), let write := fun (o : Nat) => mmioStore host o 8 x.toNat s
    let frame := x &&& 0x000FFFFFFFFFF000#64
    -- the host block
    (write 0x40 = { s with host := { s.host with b2base := x &&& 0x000FFFFFC0000000#64 } } ∧
      write 0x48 = { s with host := { s.host with svdb := if host then s.host.svdb ||| (x &&& 15#64) else s.host.svdb &&& ~~~x } } ∧
      write 0x50 = { s with host := { s.host with hostErr := 0 } } ∧ write 0x58 = hostDmaControl (field x 31 0) (bit x 32) s ∧
      ∀ o ∈ [0, 8, 0x10, 0x18, 0x20], write o = s) ∧
    -- the scheduler block
    ((∀ q, q < 64 → let r := s.queue q; let size := if r.en then r.size else field x 20 16; let reserve := if r.en then r.reserve else field x 15 0
        write (0x100000 + 32 * q) = s.onQueue q (fun r => if r.en then r else { r with qbase := x &&& 0x000FFFFFFFFFFFF8#64 }) ∧
        write (0x100008 + 32 * q) = s.onQueue q (fun r => if size < 6 ∨ 20 < size ∨ 2 ^ size ≤ reserve then r else
          { r with en := bit x 63 && s.part.backed r.qbase.toNat (8 * 2 ^ size), careful := bit x 62, ctx := field x 47 32
                   size := size, reserve := reserve }) ∧
        write (0x100010 + 32 * q) = s ∧ write (0x100018 + 32 * q) = s) ∧
      ∀ d, d < 4 → write (0x100800 + 16 * d) = s.onDieAt d (fun t => { t with sven := bit x 15, svcore := field x 13 8, svhart := field x 2 0 }) ∧
        write (0x100808 + 16 * d) = s) ∧
    -- the memory system's block
    (write 0x200000 = { s with mem := { s.mem with ctxBase := x &&& 0x000FFFFFFFF00000#64, ctxEn := bit x 0 } } ∧ write 0x200008 = s ∧
      (∀ k, k < 256 → write (0x200100 + 8 * k) = { s with mem := { s.mem with crt := SMap.set 0 s.mem.crt k (x &&&
        (if k % 4 = 0 then 0x000FFFFFFFFFF001#64 else if k % 4 = 1 then 0x000FFFFFFFFFF000#64 else if k % 4 = 2 then 0x000FFFFFFFFFFFF8#64 else 0)) } }) ∧
      ∀ d, d < 4 → let o := 0x201000 + 64 * d
        write o = s.onDieAt d (fun t =>
          { t with win := if field x 47 32 = 0 then t.win else field x 47 32, thr := if field x 31 16 = 0 then t.thr else field x 31 16
                   trackEn := bit x 0, windowAt := if bit x 0 = true ∧ t.trackEn = false then s.clock.time else t.windowAt
                   counts := if bit x 0 = true ∧ t.trackEn = false then [] else t.counts }) ∧
        write (o + 0x08) = s.onDieAt d (fun t => { t with freeb := frame }) ∧ write (o + 0x10) = s.onDieAt d (fun t => { t with freewr := x }) ∧
        write (o + 0x20) = s.onDieAt d (fun t => { t with doneb := frame }) ∧ write (o + 0x30) = s.onDieAt d (fun t => { t with donerd := x })) ∧
    -- the capability blocks
    (∀ d, d < 4 → write (0x300000 + 64 * d) = s ∧ write (0x300008 + 64 * d) = s ∧
      write (0x300010 + 64 * d) = if host then s else s.onDieAt d (fun t => { t with linkErr := 0 })) ∧
    -- the collective block
    (write 0x400000 = { s with coll := { s.coll with routeb := frame } } ∧ write 0x400008 = { s with coll := { s.coll with sqLate := 0 } } ∧
      write 0x400010 = { s with coll := { s.coll with sqPart := 0 } } ∧ write 0x400018 = { s with coll := { s.coll with stale := 0 } } ∧
      write 0x400020 = (if bit x 31 = true then s.losePackage (field x 17 0) else s) ∧ write 0x400028 = s ∧
      write 0x400030 = { s with coll := { s.coll with portErr := 0 } } ∧ write 0x400038 = { s with coll := { s.coll with fwDrop := 0 } }) ∧
    -- the core blocks and the die fault blocks, which BAR0 does not reach
    (∀ d c, d < 4 → c < 48 → let core := coreOf d c; let o := 0x10000000 + 0x1000000 * d + 0x40000 * c
      if s.part.hasCore core = true then
        (∀ k, k < 256 → write (o + 8 * k) = s.onCoreAt core (fun t => { t with ranges := SMap.set 0 t.ranges k (x &&&
          (if k % 4 ≤ 1 then 0x01FFFFFFFFFFF000#64 else if k % 4 = 2 then 0x000FFFFFFFFFF000#64 else 0x0000FFFF000003FD#64)) })) ∧
        write (o + 0x800) = s.onCoreAt core (fun t => { t with layMis := 0 }) ∧
        (∀ n, n < 8 → write (o + 0x1000 + 8 * n) = s.onHartAt (core * 8 + n) (fun h => { h with trapBase := x &&& 0x01FFFFFFFFFFF000#64 }) ∧
          write (o + 0x1040 + 8 * n) = if field x 1 0 = 1 ∨ field x 1 0 = 2 then writeOp (core * 8 + n) (field x 1 0) s else s) ∧
        write (o + 0x1100) = frctlCopy core (field x 31 0) (bit x 32) s ∧ write (o + 0x1108) = writePreempt core x s ∧ write (o + 0x1110) = s
      else ∀ j, j < 0x40000 → j % 8 = 0 → write (o + j) = s) ∧
    ∀ d, d < 4 → let o := 0x10F00000 + 0x1000000 * d
      write o = s.onDieAt d (fun t => if t.fren then t else { t with frbase := frame }) ∧
      write (o + 0x08) = s.onDieAt d (fun t =>
        let size := if t.fren ∨ field x 4 0 < 6 ∨ 16 < field x 4 0 then t.frsize else field x 4 0
        { t with frsize := size, fren := bit x 63 && s.part.backed t.frbase.toNat (64 * 2 ^ size) }) ∧
      write (o + 0x10) = s ∧ write (o + 0x18) = s.onDieAt d (fun t => { t with frrd := x }) ∧
      write (o + 0x20) = (if s.part.backed frame.toNat 4096 then s.onDieAt d (fun t => { t with saveb := frame }) else s) ∧
      write (o + 0x28) = s ∧ write (o + 0x30) = s ∧ write (o + 0x38) = addArea d x s) ∧
  (∀ (s : State) (x : Word),
    Completes (.svdb x) s (fun t => (∀ k, k < 64 → bit t.host.svdb k = (bit s.host.svdb k || (k < 4 && bit x k))) ∧
      { t with host := { t.host with svdb := s.host.svdb } } = s) ∧
    (∀ o a, 0x1000000 ≤ o → Completes (.registerWrite o a) s (· = s)) ∧
    ∀ k, Completes (.hostBar2Access (.resize k)) s (fun t =>
      t = if 30 ≤ k ∧ k ≤ 39 then { s with host := { s.host with bar2Size := 2 ^ k } } else s)) ∧
  ∀ (s : State) (o n : Nat), let pa := s.host.b2base.toNat + o; let bar2 := fun (w : Option Nat) => Instr.hostBar2Access (.memory o ⟨n, w⟩)
    (s.host.bar2Size ≤ o → ∀ w, Completes (bar2 w) s (· = s)) ∧
    (o < s.host.bar2Size → n = 0 ∨ s.part.backed pa n = false →
      Completes (bar2 none) s (fun t => t.outputs = s.outputs ++ [.data (List.replicate n 0xFF)] ∧
        t.host.hostErr = s.host.hostErr + 1 ∧ { t with outputs := s.outputs, host := { t.host with hostErr := s.host.hostErr } } = s) ∧
      ∀ x, Completes (bar2 (some x)) s (fun t => t.host.hostErr = s.host.hostErr + 1 ∧
        { t with host := { t.host with hostErr := s.host.hostErr } } = s)) ∧
    (o < s.host.bar2Size → n ≠ 0 → s.part.backed pa n = true →
      (s.stackReady pa = false → ∀ w, Completes (bar2 w) s (fun t => bar2 w ∈ t.inputs ∧ t.inputs.length = s.inputs.length + 1 ∧ { t with inputs := s.inputs } = s)) ∧
      (s.stackReady pa = true →
        Completes (bar2 none) s (fun t =>
          t.outputs = s.outputs ++ [.data ((List.range n).map (fun k => s.mem.cells.read (s.part.key (pa + k))))] ∧ { t with outputs := s.outputs } = s) ∧
        (pa % 4096 + n ≤ 4096 → ∀ x,
          (s.onFenced (s.part.key pa) = false → Completes (bar2 (some x)) s (fun t =>
            (∀ a, t.mem.cells.read a = if s.part.key pa ≤ a ∧ a < s.part.key pa + n then BitVec.ofNat 8 (x / 256 ^ (a - s.part.key pa))
              else s.mem.cells.read a) ∧ { t with mem := s.mem } = s)) ∧
          (s.onFenced (s.part.key pa) = true → s.dieRecordRoom s.master = true → (s.dieAt s.master).unposted = [] →
            Completes (bar2 (some x)) s (fun t => (∀ a, t.mem.cells.read a = s.mem.cells.read a) ∧ t.outputs = s.outputs ∧
              ∃ r, (t.dieAt s.master).records = (s.dieAt s.master).records ++ [r] ∧ r.kind = 7 ∧ r.cause = 0x10 ∧ r.master = 9 ∧
                r.addr = word (pa / 16 * 16))))))

/-- R132, R334, R413, R419, R420: entries of the submission rings. POST of a record that may not be posted completes with status 3, to a disabled
queue with 2, one that finds neither its ring nor the held posts with room with 1 (the model's choice, log 55), else the record enters its queue
and the status is 0. A post that has still something to do goes on before the ring's next entry, and completes with the last of it. COPY starts one
command of the host DMA engine, or completes with status 3 when malformed. The engine moves the bytes of a command between host bus addresses and translated device addresses (stated of one page without marks) and
completes it; a page fault posts a record of kind 1 and a protection violation one of kind 2 that freezes the ring; HDFRCTL lets the command go on,
or completes it with status 4. Details of the record that the manual does not give are free (log 41). -/
def Obligations.HostEntries : Prop :=
  (∀ (s s' : State) (ring e pa : Nat) (r : Rec), let addr := word (recBits e 0x10 63 0); let q := s'.queue r.queue
    -- a post that the ring takes has a name, which no other post keeps
    let named := fun (s : State) =>
      { s with uid := s.uid + 1, host := { s.host with posts := s.host.posts.filter (fun p => p.id ≠ s.uid) } }
    s.nextEntry ring = some e → recBits e 0 7 0 = 1 →
      (entryHeadOk e = false ∨ recBits e 0x18 319 0 ≠ 0 → Completes (.post ring) s (EntryDone (s.pastEntry ring) · ring e 3 0)) ∧
      (entryHeadOk e = true → recBits e 0x18 319 0 = 0 →
        s.schedHeld (s.ring ring).ctx addr = false →
        (s.recAt (s.ring ring).ctx addr = (none, s') → Completes (.post ring) s (EntryDone ((named s').pastEntry ring) · ring e 3 0)) ∧
        (s.recAt (s.ring ring).ctx addr = (some (r, pa), s') →
          (s'.recValid true r = false → Completes (.post ring) s (EntryDone ((named s').pastEntry ring) · ring e 3 0)) ∧
          (s'.recValid true r = true → q.en = false → Completes (.post ring) s (EntryDone ((named s').pastEntry ring) · ring e 2 0)) ∧
          (s'.recValid true r = true → q.en = true → r.range = false →
            (q.full = true ∨ s'.hasHeld r.queue = true → 64 ≤ (s'.dieAt s'.master).held.length →
              Completes (.post ring) s (EntryDone ((named s').pastEntry ring) · ring e 1 0)) ∧
            (q.full = false → s'.hasHeld r.queue = false → s'.stackReady (q.entryAt q.qwr) = true → s'.onFenced (s'.part.key (q.entryAt q.qwr)) = false →
              let s1 := (s'.writePhys (q.entryAt q.qwr) (natToBytes 8 addr.toNat)).onQueue r.queue (fun t =>
                { t with qwr := t.qwr + 1, info := SMap.set none t.info t.qwr (some { addr := addr })
                         headSince := if t.waiting then t.headSince else s'.clock.time })
              Completes (.post ring) s (EntryDone ((named s1).pastEntry ring) · ring e 0 0)))))) ∧
  -- a post of the ring that has still something to do goes on before the ring's next entry, and with the last of it the entry is complete
  (∀ (s : State) (ring : Nat) (p : HostPost), s.host.posts.find? (fun x => x.ring = ring) = some p →
    let s0 := { s with host := { s.host with posts := s.host.posts.filter (fun x => x.id ≠ p.id) } }
    s.nextEntry ring = none ∧
    ((runActs actTurn s0 (p.acts.map (fun a => { a with die := s.master }))).2 = [] → Completes (.post ring) s (fun t =>
      let u := (runActs actTurn s0 (p.acts.map (fun a => { a with die := s.master }))).1
      { t with mem := u.mem, outputs := u.outputs } = u ∧ t.outputs = u.outputs ++ (if p.irq then [.msix ring] else []) ∧
      ∀ a, t.mem.cells.read a =
        if p.cmpl ≠ 0 ∧ hostKey p.cmpl ≤ a ∧ a < hostKey p.cmpl + 8 then 0 else u.mem.cells.read a)) ∧
    (p.acts ≠ [] → (∀ a ∈ p.acts, doAct s0 { a with die := s.master } = none) → Completes (.post ring) s (fun t =>
      { t with host := { t.host with posts := s.host.posts } } = s ∧ t.outputs = s.outputs ∧ t.host.posts.length ≤ s.host.posts.length ∧
      ∃ x ∈ t.host.posts, x.ring = ring ∧ x.id = p.id ∧ x.cmpl = p.cmpl ∧ x.irq = p.irq ∧ x.acts.length = p.acts.length))) ∧
  (∀ (s : State) (ring e : Nat), s.nextEntry ring = some e → recBits e 0 7 0 = 2 → let len := recBits e 0x20 31 0
    let bad := entryHeadOk e = false ∨ len = 0 ∨ recBits e 0x24 31 1 ≠ 0 ∨ recBits e 0x30 127 0 ≠ 0
    (bad → Completes (.copy ring) s (EntryDone (s.pastEntry ring) · ring e 3 0)) ∧
    (¬ bad → Completes (.copy ring) s (fun t =>
      t.ring ring = (s.pastEntry ring).ring ring ∧ t.mem = s.mem ∧ t.harts = s.harts ∧
      ∃ c : Dma, t.host.dmas = s.host.dmas ++ [c] ∧ c.ring = ring ∧ c.ctx = (s.ring ring).ctx ∧ c.src = word (recBits e 0x10 63 0) ∧
        c.dst = word (recBits e 0x18 63 0) ∧ c.len = len ∧ c.toHost = decide (recBits e 0x24 0 0 = 1) ∧ c.postrec = word (recBits e 0x28 63 0) ∧
        c.cmpl = word (recBits e 8 63 0) ∧ c.irq = e.testBit 9 ∧ c.moved = 0 ∧ c.stop = none))) ∧
  (∀ (s : State) (c : Dma), s.host.dmas.find? (fun d => d.id = c.id) = some c → s.host.posts.find? (fun p => p.id = c.id) = none → c.stop = none → c.moved = 0 → c.len ≠ 0 →
    (s.ring c.ring).frozen = false → s.dieRecordRoom s.master = true → (s.dieAt s.master).unposted = [] → (c.device 0).toNat % 4096 + c.len ≤ 4096 →
      (∀ x, s.dmaLook c 0 = .ok x → x.tt ≠ 5 → x.pa % 4096 = (c.device 0).toNat % 4096 → (s.part.key? x.pa).isSome = true → s.stackReady x.pa = true → s.mem.poison = [] → (∀ j, j < c.len → s.onFenced (s.part.key (x.pa + j)) = false) →
        c.postrec = 0 → Completes (.hostDmaComplete c.id) s (fun t =>
          let word8 := hostKey c.cmpl.toNat
          (∀ a, t.mem.cells.read a =
            if c.cmpl ≠ 0 ∧ word8 ≤ a ∧ a < word8 + 8 then 0
            else if c.toHost = true ∧ hostKey c.dst.toNat ≤ a ∧ a < hostKey c.dst.toNat + c.len then
              s.mem.cells.read (s.part.key (x.pa + (a - hostKey c.dst.toNat)))
            else if c.toHost = false ∧ s.part.key x.pa ≤ a ∧ a < s.part.key x.pa + c.len then
              s.mem.cells.read (hostKey c.src.toNat + (a - s.part.key x.pa))
            else s.mem.cells.read a) ∧
          t.host.dmas = s.host.dmas.filter (fun d => d.id ≠ c.id) ∧ t.outputs = s.outputs ++ (if c.irq then [.msix c.ring] else []) ∧
          t.harts = s.harts ∧ t.cores = s.cores ∧ t.dies = s.dies ∧ t.sched = s.sched)) ∧
      (∀ k ∈ [DmaLook.page, .protect], s.dmaLook c 0 = k → Completes (.hostDmaFault c.id) s (fun t => let p := decide (k = .protect)
        t.mem = s.mem ∧ t.harts = s.harts ∧ t.outputs = s.outputs ∧ (t.ring c.ring).frozen = p ∧
        (∀ d ∈ t.host.dmas, d.id = c.id → d.stop.map (·.protect) = some p ∧ d.moved = 0) ∧
        ∃ r, (t.dieAt s.master).records = (s.dieAt s.master).records ++ [r] ∧ r.kind = (if p then 2 else 1) ∧
          r.cause = (if p then cProtection else cPage) ∧ r.master = 9 ∧ r.withheld = true ∧ r.frozen = p ∧ r.addr = c.device 0 ∧ r.ctx = c.ctx ∧
          (p = true → r.d2 = if c.toHost then 0 else 1)))) ∧
  ∀ (s : State) (seq : Nat) (c : Dma), s.stoppedDma seq = some c →
    Completes (.hdfrctlRetry seq) s (fun t => (t.ring c.ring).frozen = false ∧
      t.host.dmas = s.host.dmas.map (fun d => if d.id = c.id then { d with stop := none } else d) ∧ t.mem = s.mem ∧ t.harts = s.harts ∧ t.outputs = s.outputs) ∧
    Completes (.hdfrctlAbort seq) s (fun t => (t.ring c.ring).frozen = false ∧ t.host.dmas = s.host.dmas.filter (fun d => d.id ≠ c.id) ∧
      (∀ a, t.mem.cells.read a = if c.cmpl ≠ 0 ∧ hostKey c.cmpl.toNat ≤ a ∧ a < hostKey c.cmpl.toNat + 8 then
        (if a = hostKey c.cmpl.toNat then 4 else 0) else s.mem.cells.read a) ∧
      t.outputs = s.outputs ++ (if c.irq then [.msix c.ring] else []) ∧ t.harts = s.harts)

/-- R195, R416, R421 to R425: management. A command of the ring's next entry takes the entry, has its effect and completes; a malformed entry, or one
that recovery mode does not accept (the model's reading, log 48), completes with status 3 and nothing else. IDENT, ATTEST, REPLIST and TELEM answer at RESP (the values of serial
numbers, keys and sensors are free, and the places of IDENT's parts within RESP and the counts that it gives are the model's choice, log 15); SETRANK, FENCE, REPAIR, FWSTAGE, POWERCAP and TEST act as their arguments say; RESET, and leaving test
mode, reset the package after the completion word. A package reset keeps memory, its marks and the repair lists, and ROM loads the image staged last
(log 43); with an image that is not signed, or older than the rollback counter, only management comes up, in recovery mode. A unit that
is ready sets its bit, and the supervisor hart of a ready core may begin (when is free, log 18). R22, R424: major 0x3F in test mode. `dgrd` of
register 0 reads the serial hash (its value is free, log 15) and of any other zero; `dgwr` of register 1 plants a parity error in an element group of
a vector register, of register 2 marks a word of memory, and of others does nothing. Outside test mode both trap ILLEGAL_INSN, and in test mode at
user level PRIVILEGE. -/
def Obligations.ManagementCommands : Prop :=
  (
  (∀ (s : State) (ring : Nat) (m : MgmtEntry), let s0 := s.pastEntry ring
    let rows : List (Instr × Nat) := [(.ident ring, 1), (.setrank ring, 2), (.mgmtFence ring, 3), (.mgmtRepair ring, 4), (.replist ring, 5),
      (.attest ring, 6), (.fwstage ring, 7), (.powercap ring, 8), (.test ring, 9), (.mgmtReset ring, 10), (.telem ring, 11)]
    let done := fun (s1 : State) (status result : Nat) (t : State) => EntryDone s1 t ring m.entry status result
    let answers := fun (bs : List Byte) (t : State) => ∃ s1, done s1 0 0 t ∧ { s1 with mem := s0.mem } = s0 ∧
      ∀ a, s1.mem.cells.read a = if hostKey m.resp ≤ a ∧ a < hostKey m.resp + bs.length then bs.getD (a - hostKey m.resp) 0 else s.mem.cells.read a
    let wellFormed := entryHeadOk m.entry = true ∧ recBits m.entry 0x12 47 0 = 0
    let running := ∃ c ∈ s.cores, c.2.active ≠ []
    s.mgmtEntry ring = some m →
      (∀ r ∈ rows, m.cmd = r.2 → ¬ wellFormed ∨ (s.host.recov = true ∧ m.cmd ≠ 1 ∧ m.cmd ≠ 7 ∧ m.cmd ≠ 10) →
        Completes r.1 s (done s0 3 0)) ∧
      (wellFormed →
        (m.cmd = 0 ∨ 11 < m.cmd → Completes (.ident ring) s (done s0 3 0)) ∧
        (m.cmd = 1 → Completes (.ident ring) s (answers ([0x46, 0x53, 0x2D, 0x36, 0x34, 0x30, 0x30, 0] ++ natToBytes 16 Config.serial.toNat ++
          natToBytes 8 (Config.imageVersion s.host.image).toNat ++ s.part.counts.flatMap (natToBytes 8)))) ∧
        (m.cmd = 7 → let image := (List.range (m.arg 1)).map (fun k => s.mem.cells.read (hostKey (m.arg 0) + k))
          let accepted := Config.imageSigned image = true ∧ s.part.rollback ≤ Config.imageVersion image
          (accepted → Completes (.fwstage ring) s (done { s0 with host := { s0.host with staged := some image } } 0 0)) ∧
          (¬accepted → Completes (.fwstage ring) s (done s0 0 1))) ∧
        (m.cmd = 10 → Completes (.mgmtReset ring) s (fun t => ∃ u, done s0 0 0 u ∧ t = packageReset u)) ∧
        (s.host.recov = false →
          (m.cmd = 2 → (262144 ≤ m.arg 0 → Completes (.setrank ring) s (done s0 3 0)) ∧
            (m.arg 0 < 262144 → running → Completes (.setrank ring) s (done s0 5 0)) ∧
            (m.arg 0 < 262144 → ¬ running → Completes (.setrank ring) s (done { s0 with coll := { s0.coll with rank := m.arg 0 } } 0 0))) ∧
          (m.cmd = 3 → (4 ≤ m.arg 0 → Completes (.mgmtFence ring) s (done s0 3 0)) ∧
            (m.arg 0 < 4 → Completes (.mgmtFence ring) s (done (fenceDie (m.arg 0) 3 s0) 0 0))) ∧
          (m.cmd = 4 → let list := SMap.get [] s.host.repairs (m.arg 0)
            (8 ≤ m.arg 0 → Completes (.mgmtRepair ring) s (done s0 3 0)) ∧
            (m.arg 0 < 8 → 64 ≤ list.length → Completes (.mgmtRepair ring) s (done s0 0 1)) ∧
            (m.arg 0 < 8 → list.length < 64 → Completes (.mgmtRepair ring) s (fun t => ∃ s1, done s1 0 0 t ∧
              SMap.get [] s1.host.repairs (m.arg 0) = list ++ [word (m.arg 1)] ∧ (∀ j, j ≠ m.arg 0 → SMap.get [] s1.host.repairs j = SMap.get [] s.host.repairs j) ∧
              SMap.get 0 s1.host.pprcnt (m.arg 0) = min 255 (SMap.get 0 s.host.pprcnt (m.arg 0) + 1) ∧
              { s1 with host := { s1.host with repairs := s.host.repairs, pprcnt := s.host.pprcnt } } = s0))) ∧
          (m.cmd = 5 → (8 ≤ m.arg 0 → Completes (.replist ring) s (done s0 3 0)) ∧
            (m.arg 0 < 8 → Completes (.replist ring) s (answers ((SMap.get [] s.host.repairs (m.arg 0)).flatMap (fun x => natToBytes 8 x.toNat))))) ∧
          (m.cmd = 6 → let body := natToBytes 16 1 ++ natToBytes 8 (m.arg 0) ++ natToBytes 8 (m.arg 1) ++
              natToBytes 16 Config.serial.toNat ++ natToBytes 16 s.coll.rank ++ natToBytes 32 s.host.measured.toNat ++ natToBytes 32 Config.microcode.toNat ++
              natToBytes 64 Config.publicKey.toNat
            Completes (.attest ring) s (answers (body ++ natToBytes 64 (Config.signature (Config.sm3 body)).toNat))) ∧
          (m.cmd = 8 → (m.arg 0 < 800 ∨ 2000 < m.arg 0 → Completes (.powercap ring) s (done s0 3 0)) ∧
            (800 ≤ m.arg 0 → m.arg 0 ≤ 2000 → Completes (.powercap ring) s (done { s0 with host := { s0.host with powerCap := m.arg 0 } } 0 0))) ∧
          (m.cmd = 9 → (1 < m.arg 0 → Completes (.test ring) s (done s0 3 0)) ∧
            (m.arg 0 = 1 → running → Completes (.test ring) s (done s0 5 0)) ∧
            (m.arg 0 = 1 → ¬ running → Completes (.test ring) s (done { s0 with host := { s0.host with test := true } } 0 0)) ∧
            (m.arg 0 = 0 → s.host.test = false → Completes (.test ring) s (done s0 0 0)) ∧
            (m.arg 0 = 0 → s.host.test = true → Completes (.test ring) s (fun t => ∃ u, done s0 0 0 u ∧ t = packageReset u))) ∧
          (m.cmd = 11 → Completes (.telem ring) s (answers ((List.range 16).flatMap (fun k => natToBytes 4 (Config.telemetry s.clock.tick k).toNat))))))) ∧
  (∀ (s : State),
    Completes .packageReset s (fun t => t.harts = State.reset.harts ∧ t.cores = State.reset.cores ∧ t.dies = State.reset.dies ∧ t.sched = State.reset.sched ∧
      t.coll = State.reset.coll ∧ t.clock.cycle = 0 ∧ t.clock.time = 0 ∧ (∀ a, t.mem.cells.read a = s.mem.cells.read a) ∧ t.mem.poison = s.mem.poison ∧
      t.mem.tlb = [] ∧ t.host.repairs = s.host.repairs ∧ t.host.staged = none ∧ t.host.image = s.host.staged.getD s.host.image ∧ t.host.rings = [] ∧ t.host.test = false ∧ t.part = s.part) ∧
    Completes .thermalThrottle s (fun t => { t with host := s.host } = s ∧ t.host = { s.host with throttled := true }) ∧
    Completes .thermalShutdown s (fun t => t.off = true ∧ t.host.link = false ∧ { t with off := s.off, host := s.host } = s) ∧
    Completes (.unitReady 1) s (fun t => t.host = { s.host with mgmt := true, recov := !s.firmwareOk
                                                                measured := if s.firmwareOk then Config.sm3 s.host.image else s.host.measured } ∧ { t with host := s.host } = s) ∧
    (s.firmwareOk = true → Completes (.unitReady 0) s (fun t => t.host = { s.host with link := true } ∧ { t with host := s.host } = s) ∧
      Completes (.unitReady 15) s (fun t => t.host = { s.host with sq := true } ∧ { t with host := s.host } = s) ∧
      (∀ j, j < 8 → s.part.hasStack j = true → s.live (j / 2) = true → Completes (.unitReady (3 + j)) s (fun t =>
        t.host = { s.host with hbm := s.host.hbm ||| word (2 ^ j) } ∧ { t with host := s.host } = s)) ∧
      (∀ d, d < 4 → s.live d = true → Completes (.unitReady (11 + d)) s (fun t =>
        t.host = { s.host with diesUp := s.host.diesUp ||| word (2 ^ d) } ∧ { t with host := s.host } = s)) ∧
      (∀ k, k < 16 → s.part.portPres.testBit k = true → Completes (.unitReady (16 + k)) s (fun t =>
        t.host = { s.host with ports := s.host.ports ||| word (2 ^ k) } ∧ { t with host := s.host } = s)) ∧
      ∀ c, c < 256 → s.part.hasCore c = true → s.live (c / 64) = true → Completes (.unitReady (32 + c)) s (fun t =>
        SMap.get 0 t.host.coreRdy (c / 64) = SMap.get 0 s.host.coreRdy (c / 64) ||| word (2 ^ (c % 64)) ∧
        { t with harts := s.harts, host := { t.host with coreRdy := s.host.coreRdy } } = s ∧
        ∀ n, t.hartAt n = s.hartAt n ∨ (s.superHart (c / 64) = some n ∧ n / 8 = c ∧ (s.hartAt n).run = .free ∧
          t.hartAt n = { s.hartAt n with run := .running }))) ∧
    (s.firmwareOk = false → ∀ u, u ≠ 1 → Completes (.unitReady u) s (· = s)))) ∧
  (
  ∀ (s : State) (d a b : SReg), let h := s.hart; let x := h.sreg b
    (∀ i ∈ [Instr.dgrd d a, .dgwr a b], CanTrap s →
      (s.host.test = false → Completes i s (Trapped s · 0x01 (insnWord i) 0)) ∧
      (s.host.test = true → bit h.status 0 = false → Completes i s (Trapped s · 0x0F (insnWord i) 0))) ∧
    (s.host.test = true → bit h.status 0 = true →
      Completes (.dgrd d a) s (WritesS s · d (if h.sreg a = 0 then Config.serialHash else 0)) ∧
      (h.sreg a = 1 → field x 11 8 ≤ 8 → Completes (.dgwr a b) s (fun t => t.hart.vParity = (field x 5 0, field x 11 8) :: h.vParity ∧ GoesOn h t.hart ∧
        { t.hart.still with vParity := h.vParity } = h.still ∧ OnlyHart s t)) ∧
      (h.sreg a = 2 → ∀ k, s.part.key? x.toNat = some k → Completes (.dgwr a b) s (fun t =>
        SMap.get false t.mem.poison (k / 16) = true ∧ (∀ j, j ≠ k / 16 → SMap.get false t.mem.poison j = SMap.get false s.mem.poison j) ∧
        t.mem.cells = s.mem.cells ∧ GoesOn h t.hart ∧ t.hart.still = h.still)) ∧
      (h.sreg a ≠ 1 → h.sreg a ≠ 2 → Completes (.dgwr a b) s (fun t => GoesOn h t.hart ∧ t.hart.still = h.still ∧ OnlyHart s t))))

/-! ## Four dies -/

/-- R193, R194, R348, R349, R351 to R355, R376, R383, R386: hot pages, migration, writes between dies, links, ports, and the loss of a die or a
package. Each of the forms `hotpageWindow`, `pageMigration`, `crossDieWriteApply`, `linkCrcReplay`, `linkDown`, `portCrcReplay`, `portDown`, `dieFence`
and `lose` completes, with the next state that its rule gives, under conditions on the state alone. A tracker's window turns its counts into candidates
and skips. The first candidate moves its 2 MiB page to a free frame of the die that accesses it, once accesses to the page that have begun are over:
the new frame holds the old one's bytes, the entry names the new frame and is otherwise as it was, no TLB holds the old translation, and the done ring
has the report; a candidate whose entry has changed, or lies on a fenced die, is reported abandoned and moves nothing. All of it waits for stacks
that are not up. A write that a die's clock covers is performed, and every
die's clock counts it. A replay is counted; after 16 failed ones the link or port is down at both ends, and a die without its link to the I/O die is
fenced. A fenced die's harts run no more, and its gangs' work returns to the heads of their queues, but for records found invalid; posts it holds stay
held. A package given as lost is known as lost, and the host is told. The model's own: posts stay held and waiting writes are dropped at a fence (logs
46, 55), a migration is one step (log 49), which packages lie behind a port (log 47), no replay past 16 failures (log 51), an address outside every
window (log 58) and the records of the tracker (log 59). -/
def Obligations.DiesAndLinks : Prop :=
  (∀ (s : State) (die : Nat), let d := s.dieAt die
    let skip := fun (c : HotCount) => decide (d.thr ≤ c.count) && (ptePin c.leaf.toNat || pteTT c.leaf.toNat = 6)
    let hot := fun (c : HotCount) => decide (d.thr ≤ c.count) && !skip c && c.level = 1 && pteTT c.leaf.toNat = 1 && pteMig c.leaf.toNat
    d.trackEn = true → s.live die = true → d.windowAt + d.win * 1000 ≤ s.clock.time → d.hpskip.toNat < 2 ^ 32 →
      Completes (.hotpageWindow die) s (fun t => let e := t.dieAt die
        e.counts = [] ∧ e.windowAt = s.clock.time ∧ e.candidates = d.candidates ++ (d.counts.filter hot).map (fun c => ⟨c.entry, c.leaf, c.die⟩) ∧
        e.hpskip = word (min 0xFFFFFFFF (d.hpskip.toNat + (d.counts.filter skip).length)) ∧ (∀ k, k ≠ die → t.dieAt k = s.dieAt k) ∧
        { t with dies := s.dies } = s)) ∧
  (∀ (s : State) (die : Nat) (c : HotPage) (rest : List HotPage), let d := s.dieAt die; let e := s.dieAt c.toward
    let new := bytesToNat (s.readPhys (e.freeb.toNat + e.freerd % 512 * 8) 8); let old := ptePA c.leaf.toNat
    let done := d.doneb.toNat + d.donewr % 512 * 32
    let record := fun (flag : Nat) => natToBytes 8 old ++ natToBytes 8 new ++ natToBytes 8 c.entry ++ natToBytes 8 flag
    d.candidates = c :: rest → s.live die = true → d.donewr - d.donerd.toNat < 512 → e.freewr.toNat ≠ e.freerd → s.live c.toward = true →
    done % 4096 + 32 ≤ 4096 → (s.part.key? done).isSome = true → s.onFenced (s.part.key done) = false → (∀ k, k < 4 → s.dieRecordRoom k = true) →
    (∀ p ∈ [(e.freeb.toNat + e.freerd % 512 * 8, 8), (done, 32), (c.entry, 8), (old, 2097152), (new, 2097152)], s.rangeReady p.1 p.2 = true) →
      (s.frameBusy old = true → Completes (.pageMigration die) s (· = s)) ∧ (s.frameBusy old = false →
      let reports := fun (flag : Nat) (t : State) => (t.dieAt die).candidates = rest ∧ (t.dieAt die).donewr = d.donewr + 1 ∧
        (t.dieAt c.toward).freerd = e.freerd + 1 ∧ t.harts = s.harts ∧ t.cores = s.cores ∧
        ∀ j, j < 32 → t.mem.cells.read (s.part.key done + j) = (record flag).getD j 0
      (s.readPhys64 c.entry ≠ c.leaf.toNat ∨ s.part.inWindow 1 new 2097152 = false ∨ new % 2097152 ≠ 0 ∨ (s.firstLost c.entry 8).isSome = true →
        Completes (.pageMigration die) s (fun t => reports 1 t ∧
        ∀ a, a < s.part.key done ∨ s.part.key done + 32 ≤ a → t.mem.cells.read a = s.mem.cells.read a)) ∧
      (s.readPhys64 c.entry = c.leaf.toNat → s.part.inWindow 1 new 2097152 = true → new % 2097152 = 0 → c.entry % 4096 + 8 ≤ 4096 →
        s.part.inWindow 1 old 2097152 = true → old % 2097152 = 0 → old ≠ new → s.firstLost new 2097152 = none → s.firstLost c.entry 8 = none →
        (s.part.key? c.entry).isSome = true →
        let entry := s.part.key c.entry
        let frame := fun (a : Nat) => ∃ b j, b < 512 ∧ j < 4096 ∧ a = s.part.key (new + 4096 * b) + j
        Completes (.pageMigration die) s (fun t => reports 0 t ∧
          (∀ x, x ∈ t.mem.tlb ↔ x ∈ s.mem.tlb ∧ ¬ (x.1 / 2 ^ 48 % 8 = 1 ∧ pteLeaf x.2 = true ∧ ptePA x.2 = old)) ∧
          (∀ b j, b < 512 → j < 4096 → let a := s.part.key (new + 4096 * b) + j
            ¬ (entry ≤ a ∧ a < entry + 8) → a < s.part.key done ∨ s.part.key done + 32 ≤ a →
              t.mem.cells.read a = s.mem.cells.read (s.part.key (old + 4096 * b) + j)) ∧
          (∀ j, j < 8 → entry + j < s.part.key done ∨ s.part.key done + 32 ≤ entry + j →
            t.mem.cells.read (entry + j) = BitVec.ofNat 8 ((c.leaf.toNat - old + new) / 256 ^ j)) ∧
          ∀ a, ¬ frame a → ¬ (entry ≤ a ∧ a < entry + 8) → a < s.part.key done ∨ s.part.key done + 32 ≤ a → t.mem.cells.read a = s.mem.cells.read a)))) ∧
  (∀ (s : State) (die : Nat) (w : CrossWrite), (s.dieAt die).pending.find? (s.covers die) = some w → s.onFenced w.key = false →
    let core := coreOfHart w.hart
    let room := if s.mem.dirty.any (fun l => l.core = core && l.line = w.key / 64) then s else s.makeRoom core
    Completes (.crossDieWriteApply die) s (fun t => (t.dieAt die).pending = (s.dieAt die).pending.erase w ∧
      (∀ a, t.mem.cells.read a = if w.key ≤ a ∧ a < w.key + w.bytes.length then w.bytes.getD (a - w.key) 0 else room.mem.cells.read a) ∧
      (∀ k, k < 4 → (t.dieAt k).clock = (s.dieAt k).clock.set (dieOfHart w.hart) ((s.dieAt k).clock.getD (dieOfHart w.hart) 0 + 1)) ∧
      t.harts = s.harts ∧ t.cores = s.cores)) ∧
  (∀ (s : State) (link : Nat), let d := link / 3; let k := link % 3
    s.linkUp link = true → (s.dieAt d).linkDown.length = 3 →
      (16 ≤ (s.dieAt d).linkFails.getD k 0 → Completes (.linkCrcReplay link) s (· = s)) ∧
      ((s.dieAt d).linkFails.getD k 0 < 16 → Completes (.linkCrcReplay link) s (fun t => (t.dieAt d).linkErr = word (min 0xFFFFFFFF ((s.dieAt d).linkErr.toNat + 1)) ∧
        (∀ j, j ≠ d → t.dieAt j = s.dieAt j) ∧ { t with dies := s.dies } = s)) ∧
      ((s.dieAt d).linkFails.getD k 0 < 16 → Completes (.linkDown link) s (· = s)) ∧
      (16 ≤ (s.dieAt d).linkFails.getD k 0 →
        (k = 2 → Completes (.linkDown link) s (fun t => (t.dieAt d).fenced = true ∧ (t.dieAt d).fcause = 1 ∧ (t.dieAt d).linkDown.getD 2 false = true)) ∧
        (∀ other, linkPeer link = some other → (s.dieAt (other / 3)).linkDown.length = 3 → Completes (.linkDown link) s (fun t =>
          (t.dieAt d).linkDown.getD k false = true ∧ (t.dieAt (other / 3)).linkDown.getD (other % 3) false = true ∧ { t with dies := s.dies } = s)))) ∧
  (∀ (s : State) (port : Nat), s.coll.portDown.contains port = false →
    (16 ≤ SMap.get 0 s.coll.portFails port → Completes (.portCrcReplay port) s (· = s)) ∧
    (s.part.portPres.testBit port = true → SMap.get 0 s.coll.portFails port < 16 → Completes (.portCrcReplay port) s (fun t => t.coll.portErr = word (min 0xFFFFFFFF (s.coll.portErr.toNat + 1)) ∧
      { t with coll := { t.coll with portErr := s.coll.portErr, portFails := s.coll.portFails } } = s)) ∧
    (SMap.get 0 s.coll.portFails port < 16 → Completes (.portDown port) s (· = s)) ∧
    (16 ≤ SMap.get 0 s.coll.portFails port → (∃ p ∈ s.coll.live, ∃ x ∈ p.2.table, s.routeHeld x.1 = true) → Completes (.portDown port) s (· = s)) ∧
    (16 ≤ SMap.get 0 s.coll.portFails port → (∀ p ∈ s.coll.live, ∀ x ∈ p.2.table, s.routeHeld x.1 = false) →
      Completes (.portDown port) s (fun t => t.coll.portDown = port :: s.coll.portDown ∧
      (∀ q ∈ s.behindPort port, q ∈ t.coll.lost) ∧ t.harts = s.harts))) ∧
  (∀ (s : State) (die cause : Nat), 0 < cause → cause ≤ 3 → s.live die = true → Completes (.dieFence die cause) s (fun t =>
    (t.dieAt die).fenced = true ∧ (t.dieAt die).fcause = cause ∧ (t.dieAt die).held = (s.dieAt die).held ∧ (t.dieAt die).pending = [] ∧
    (∀ n, dieOfHart n = die → (t.hartAt n).run ≠ .running ∧ (t.hartAt n).run ≠ .frozen) ∧ (∀ n, dieOfHart n ≠ die → t.hartAt n = s.hartAt n) ∧
    (∀ q, q < 64 → (t.queue q).front = ((s.dieGangs die).filter (fun g => g.queue = q && !g.post.void)).map (·.post) ++ (s.queue q).front) ∧
    (∀ l ∈ t.mem.lines, l.core / 64 ≠ die) ∧
    (∀ c, c / 64 = die → (t.coreAt c).gangs = [] ∧ (t.coreAt c).copies = [] ∧ (t.coreAt c).mats = [] ∧ (t.coreAt c).credits = []) ∧
    s.outputs ++ [.msix 17] <+: t.outputs)) ∧
  ∀ (s : State) (q : Nat), Completes (.lose q) s (fun t => q ∈ t.coll.lost ∧ (∃ sent, t.outputs = s.outputs ++ sent ∧ .msix 17 ∈ sent) ∧ t.harts = s.harts ∧
    (∀ p, p ∈ s.coll.lost → p ∈ t.coll.lost))

/-! ## Collectives -/

/-- R357 to R360, R366 to R369, R372 to R374, R385, R388, R391, R392, R398, R404: the collective instructions, each of which answers in s[d] with 0
when accepted and else with its code. `cgrp` registers a group, anew or in place of its registration, or releases one, which loses its rank to the
package's other registrations of the GID; a second one of equal ME writes 3 (R404); a member on a lost package is lost to it from the start, with a
change pending (log 61). `cprg` loads step words; `cstart`, `crepart` and `crot` (over the group, or with SR over ME's instance of a subgroup) answer 2
without a registration, 4 while a change is pending, 1 while an instance runs, and else start an instance; `cwait` and `cpoll` give the status of an
instance or a join, and an unreported step fault, also of a completed instance, traps COLLECTIVE_FAULT once; `cabort` aborts a running instance;
`cshrink` takes up a changed membership; `cjoin` asks a donor. A marked word of the rank table traps MACHINE_CHECK (R334); memory on a stack that is
not ready keeps the hart at its instruction (R416). The accepted forms are stated with no message waiting and room for records (R326). Inferences of
the model, not the spec's words (log 61): that a reserved bit of the register operands of `cprg`, `cshrink` and `cjoin` traps ILLEGAL_INSN, where
R366, R385 and R388 say only that they must be zero (R360 names that trap for instance operands), and that COUNT 0 writes 3. The message with which
`cjoin` asks the donor, and what its record of a join holds, are the model's reading (log 40; R388 leaves the messages open). -/
def Obligations.CollectiveInstructions : Prop :=
  let room := fun (s : State) => (∀ e, e < 4 → s.dieRecordRoom e = true) ∧ s.recordRoom (s.cur / 8) = true
  (∀ (s s1 : State) (d a : SReg) (bs : List Byte), s.loadBlock (s.hart.sreg a) 64 = (.ok bs, s1) →
    let e := GroupEntry.ofNat (bytesToNat bs); let area := s1.pinned e.land (2 ^ e.lsz * 0x400000); let run := Instr.cgrp d a
    (e.ok = false → Completes run s (WritesS s1 · d 3)) ∧
    (e.ok = true → s1.pinHeld e.land (2 ^ e.lsz * 0x400000) = true → Completes run s (fun t => t.hart.pc = s.hart.pc ∧ t.hart.still = s.hart.still)) ∧
    (∀ s2, e.ok = true → s1.pinHeld e.land (2 ^ e.lsz * 0x400000) = false → area = (none, s2) → Completes run s (WritesS s2 · d 3)) ∧
    (∀ s2 pages, e.ok = true → s1.pinHeld e.land (2 ^ e.lsz * 0x400000) = false → area = (some pages, s2) → (∃ pa ∈ pages, s2.stackReady pa = false) →
      Completes run s (fun t => t.hart.pc = s.hart.pc ∧ t.hart.still = s.hart.still)) ∧
    (∀ s2 pages o, e.ok = true → s1.pinHeld e.land (2 ^ e.lsz * 0x400000) = false → area = (some pages, s2) →
      (∀ pa ∈ pages, s2.stackReady pa = true) → s2.pagesPoison pages 0x100000 (4 * e.size) = some o → CanTrap s2 →
        Completes run s (Trapped s2 · 0x10 (word ((e.land + word o).toNat / 16 * 16)) 0)) ∧
    (∀ s2 pages, e.ok = true → s1.pinHeld e.land (2 ^ e.lsz * 0x400000) = false → area = (some pages, s2) →
      (∀ pa ∈ pages, s2.stackReady pa = true) → s2.pagesPoison pages 0x100000 (4 * e.size) = none →
      let table := s2.readTable pages e.size
      let twin := s2.coll.live.any (fun p => p.2.gid = e.gid && p.2.me = e.me && p.2.ctx ≠ s2.hart.ctx && !p.2.released)
      let here := fun (k : Nat) (t : State) => (d ≠ 0 → t.hart.sreg d = 0) ∧ (∀ r, r ≠ d → t.hart.sreg r = s2.hart.sreg r) ∧ GoesOn s2.hart t.hart ∧
        t.hart.still.lessS = s2.hart.still.lessS ∧ (∀ n, n ≠ s.cur → t.hartAt n = s2.hartAt n) ∧ (∀ j, j ≠ k → t.reg j = s2.reg j) ∧
        t.reg k = some { ctx := s2.hart.ctx, gid := e.gid, log := e.log, size := e.size, me := e.me, gen := e.gen, subs := e.subs, lsz := e.lsz, pages := pages
                         table := table.map (fun x => (x.1, x.2 && !s2.coll.lost.contains x.1)), pending := table.any (fun x => x.2 && s2.coll.lost.contains x.1) }
      ((table.getD e.me (0, false)).1 ≠ s2.coll.rank ∨ (e.rel = false ∧ twin = true) → Completes run s (WritesS s2 · d 3)) ∧
      ((table.getD e.me (0, false)).1 = s2.coll.rank → e.rel = true ∨ twin = false →
        (s2.findReg s2.hart.ctx e.gid = none →
          (e.rel = true → Completes run s (WritesS s2 · d 2)) ∧
          (e.rel = false → s2.coll.freeReg = none → Completes run s (WritesS s2 · d 5)) ∧
          (∀ k, e.rel = false → s2.coll.freeReg = some k → s2.coll.held = [] → room s2 → Completes run s (here k))) ∧
        (∀ k r, s2.findReg s2.hart.ctx e.gid = some (k, r) →
          (r.inst.isSome = true → Completes run s (WritesS s2 · d 1)) ∧
          (r.inst = none → e.rel = false → s2.coll.held = [] → room s2 → Completes run s (here k)) ∧
          (r.inst = none → e.rel = true → room s2 → Completes run s (fun t => (d ≠ 0 → t.hart.sreg d = 0) ∧ (∀ r, r ≠ d → t.hart.sreg r = s2.hart.sreg r) ∧
            GoesOn s2.hart t.hart ∧ (t.reg k).isNone = true ∧ (∀ n, n ≠ s.cur → t.hartAt n = s2.hartAt n) ∧
            (s2.coll.slots = [] → s2.coll.held = [] → ∀ j x, j ≠ k → s2.reg j = some x → x.gid = r.gid → x.gen = r.gen →
              x.released = false → (x.member r.me).2 = true → ∃ x', t.reg j = some x' ∧ x'.pending = true ∧ (x'.member r.me).2 = false))))))) ∧
  (∀ (s : State) (d a b : SReg), let x := s.hart.sreg b; let first := field x 13 0; let count := field x 46 32; let run := Instr.cprg d a b
    (field x 63 47 ≠ 0 ∨ field x 31 14 ≠ 0 → CanTrap s → Completes run s (Trapped s · 0x01 (insnWord run) 0)) ∧
    (field x 63 47 = 0 → field x 31 14 = 0 →
      (count = 0 ∨ 16384 < first + count → Completes run s (WritesS s · d 3)) ∧
      (∀ bs s1, count ≠ 0 → first + count ≤ 16384 → s.loadWords (s.hart.sreg a) count = (.ok bs, s1) →
        let ws := (List.range count).map (fun k => elemAt bs 4 k)
        let busy := ∃ p ∈ s1.coll.live, ∃ i, p.2.inst = some i ∧ i.kind = .program ∧ i.derived = none ∧ first ≤ s1.coll.progEnd i.entry ∧ i.entry < first + count
        (ws.any stepBad = true ∨ loopsOk 0 ws = false → Completes run s (WritesS s1 · d 3)) ∧
        (ws.any stepBad = false → loopsOk 0 ws = true → busy → Completes run s (WritesS s1 · d 1)) ∧
        (ws.any stepBad = false → loopsOk 0 ws = true → ¬ busy → Completes run s (fun t =>
          WritesS { s1 with coll := { s1.coll with store := t.coll.store } } t d 0 ∧
          ∀ j, SMap.get 0 t.coll.store j = if first ≤ j ∧ j < first + count then ws.getD (j - first) 0 else SMap.get 0 s1.coll.store j))))) ∧
  (∀ (s : State) (d a : SReg), let va := s.hart.sreg a
    (∀ i ∈ [Instr.cstart d a, .crepart d a, .crot d a], va.toNat % 64 ≠ 0 → CanTrap s → Completes i s (Trapped s · 0x04 va 0)) ∧
    (va.toNat % 64 = 0 →
      (∀ i ∈ [(Instr.cstart d a, 4), (.crepart d a, 2), (.crot d a, 1)], ∀ bs s1, s.loadBlocks va i.2 = (.ok bs, s1) → let q := bytesToNat bs
        (∀ b ∈ (if i.2 = 4 then (List.range 12).map (fun b => bufAt q (0x40 + 16 * b)) else if i.2 = 2 then [bufAt q 0x10, bufAt q 0x20, bufAt q 0x30] else []), b.v = false ∨ b.land = true) →
        (i.2 = 1 → slotOutside (s1.gangOf s.cur) (recBits q 0x10 7 0) (recBits q 0x10 15 8) = none ∧
          slotOutside (s1.gangOf s.cur) (recBits q 0x14 7 0) (recBits q 0xC 3 0 * recBits q 0xC 23 16) = none) →
        recBits q 4 10 10 = 1 → s1.cur = s.cur → s1.hart.ctx = s.hart.ctx →
          (s1.findReg s.hart.ctx (recBits q 8 31 0) = none → Completes i.1 s (WritesS s1 · d 2)) ∧
          (∀ k r, s1.findReg s.hart.ctx (recBits q 8 31 0) = some (k, r) →
            (r.pending = true → Completes i.1 s (WritesS s1 · d 4)) ∧
            (r.pending = false → r.inst.isSome = true → Completes i.1 s (WritesS s1 · d 1)))) ∧
      (∀ n s1, s.startProgram va = (.code n, s1) → Completes (.cstart d a) s (WritesS s1 · d (word n))) ∧
      (SMap.wf none s.coll.regs = true → s.coll.held = [] →
        (∀ s1, s.startProgram va = (.code 0, s1) → ∃ k r i, s1.reg k = some r ∧ r.inst = some i ∧ i.kind = .program ∧ i.call = va ∧ i.hart = s.cur ∧
          r.ctx = s.hart.ctx ∧ r.next = (i.num + 1) % 65536) ∧
        (∀ bs s1 s2 s3 bar k r bi bo bv res, s.loadBlocks va 2 = (.ok bs, s1) → let q := bytesToNat bs; let num := recBits q 0 31 16
          let raw := [bufAt q 0x10, bufAt q 0x20, bufAt q 0x30]; let rsz := if recBits q 4 11 11 = 1 then 64 else 32; let area := sext57 (word (recBits q 0x40 63 0))
          let offs := (List.range 4).map (fun j => recBits q (0xC + j) 7 0)
          s1.callBar (recBits q 4 31 0) = .ok bar → s1.bufOutside raw = none → s1.startCode (recBits q 8 31 0) = .ok (k, r) →
          s1.bufsHeld raw = false → s1.pinHeld area (64 + 4 * r.size) = false → s1.makeBufs raw = ([some bi, some bo, some bv], false, s2) → s2.resultArea area r.size = (some res, s3) → room s3 →
          num = r.next → recBits q 0 15 0 = 0 → recBits q 4 31 12 = 0 → recBits q 0x40 63 57 = 0 → recBits q 0x48 447 0 = 0 → area.toNat % 64 = 0 →
          (∀ b ∈ raw, b.clean = true) → (∀ b ∈ [bi, bo, bv], b.parts = 1 ∧ b.bytes % rsz = 0) → (∀ o ∈ offs, o % 4 = 0 ∧ o + 4 ≤ rsz) → bi.bytes ≤ bv.bytes →
          Completes (.crepart d a) s (fun t => (d ≠ 0 → t.hart.sreg d = 0) ∧ (∀ j, j ≠ d → t.hart.sreg j = s.hart.sreg j) ∧ GoesOn s.hart t.hart ∧
            (∀ n, n ≠ s.cur → t.hartAt n = s.hartAt n) ∧
            ∃ i, t.reg k = some { r with inst := some i, next := (num + 1) % 65536, logBase := (r.logCount, r.logTail) } ∧ i.num = num ∧ i.kind = .repartition ∧ i.call = va ∧ i.hart = s.cur ∧
              i.bar = bar ∧ i.begun = false ∧ i.rep = some { rsz := rsz, offs := offs, input := bi, out := bo, ovf := bv, res := res
                                                             members := (List.range r.size).filter (fun m => (r.member m).2) })) ∧
        (∀ bs s1 s2 bar k r res, s.loadBlocks va 1 = (.ok bs, s1) → let q := bytesToNat bs; let num := recBits q 0 31 16
          let n := recBits q 0xC 23 16; let sets := recBits q 0xC 3 0; let own := recBits q 0x10 7 0; let first := recBits q 0x14 7 0
          s1.callBar (recBits q 4 31 0) = .ok bar → slotOutside (s1.gangOf s.cur) own (recBits q 0x10 15 8) = none →
          slotOutside (s1.gangOf s.cur) first (sets * n) = none → s1.startCode (recBits q 8 31 0) = .ok (k, r) → r.rot = none →
          s1.pinHeld (word (recBits q 0x20 63 0)) (64 + 4 * r.size) = false → s1.resultArea (word (recBits q 0x20 63 0)) r.size = (some res, s2) → room s2 → recBits q 0x18 63 0 = 0 →
          num = r.next → recBits q 0 15 0 = 0 → recBits q 4 31 15 = 0 → recBits q 4 11 11 = 0 → recBits q 0xC 31 24 = 0 → recBits q 0xC 7 4 = 0 → recBits q 0x10 31 20 = 0 →
          recBits q 0x14 31 12 = 0 → recBits q 0x28 191 0 = 0 → 1 ≤ n → n ≤ 16 → 1 ≤ recBits q 0xC 15 8 → 2 ≤ sets → sets ≤ 8 → recBits q 0x10 15 8 = n →
          recBits q 0x10 19 16 ≤ 4 → recBits q 0x14 11 8 ≤ 4 → own + n ≤ first ∨ first + sets * n ≤ own → ∀ str span, r.me < r.size →
          (if recBits q 4 12 12 = 1 then r.subs.getD (recBits q 4 14 13) none else some (1, r.size)) = some (str, span) →
          Completes (.crot d a) s (fun t => (d ≠ 0 → t.hart.sreg d = 0) ∧ (∀ j, j ≠ d → t.hart.sreg j = s.hart.sreg j) ∧ GoesOn s.hart t.hart ∧
            (∀ h, h ≠ s.cur → t.hartAt h = s.hartAt h) ∧
            ∃ i x, t.reg k = some { r with inst := some i, next := (num + 1) % 65536, logBase := (r.logCount, r.logTail), rot := some x } ∧ i.num = num ∧ i.kind = .rotation ∧ i.call = va ∧
              i.hart = s.cur ∧ i.bar = bar ∧ x.ring = (List.range span).map (fun j => r.me - r.me / str % span * str + j * str) ∧ x.rho = r.me / str % span ∧ x.bcnt = n ∧ x.rslot = first ∧ x.own.slot = own ∧
              x.readsN = recBits q 0xC 15 8 ∧ x.sets = List.replicate sets {} ∧ x.landed = 0 ∧ x.sent = 0 ∧ x.credits = 0 ∧ x.seen = []))))) ∧
  (∀ (s : State) (d a : SReg), let x := s.hart.sreg a; let ctx := s.hart.ctx; let gid := field x 31 0; let num := field x 47 32
    (∀ i ∈ [Instr.cwait d a, .cpoll d a, .cabort d a], field x 63 49 ≠ 0 ∨ (bit x 48 = true ∧ num ≠ 0) → CanTrap s →
      Completes i s (Trapped s · 0x01 (insnWord i) 0)) ∧
    (field x 63 49 = 0 → bit x 48 = false →
      (s.findReg ctx gid = none → Completes (.cwait d a) s (WritesS s · d 0) ∧ Completes (.cpoll d a) s (WritesS s · d 0) ∧
        Completes (.cabort d a) s (WritesS s · d 2)) ∧
      (∀ k r, s.findReg ctx gid = some (k, r) → s.reg k = some r →
        (∀ i, r.inst = some i → i.num = num →
          (i.report = none → Completes (.cpoll d a) s (WritesS s · d (i.status false)) ∧
            Completes (.cwait d a) s (fun t => t.hart.pc = s.hart.pc ∧ t.hart.still = s.hart.still ∧
              t.hart.block.map (·.wait) = some (.engine (2 ^ 58)) ∧ OnlyHart s t)) ∧
          (∀ w, i.report = some w → CanTrap s → ∀ p ∈ [Instr.cwait d a, .cpoll d a],
            Completes p s (Trapped (s.setReg k (some { r with inst := some { i with report := none } })) · 0x12 w 0)) ∧
          Completes (.cabort d a) s (WritesS (s.setReg k (some { r with inst := some { i with aborted := true } })) · d 0)) ∧
        ((∀ i, r.inst = some i → i.num ≠ num) → Completes (.cabort d a) s (WritesS s · d 2) ∧
          ∀ l, r.last = some l → l.num = num → ∀ p ∈ [Instr.cwait d a, .cpoll d a], (l.report = none → Completes p s (WritesS s · d l.status)) ∧
            ∀ w, l.report = some w → CanTrap s → Completes p s (Trapped (s.setReg k (some { r with last := some { l with report := none } })) · 0x12 w 0)))) ∧
    (field x 63 49 = 0 → bit x 48 = true → num = 0 → let join := s.coll.joins.find? (fun j => j.ctx = ctx && j.gid = gid)
      Completes (.cabort d a) s (WritesS s · d 2) ∧
      (join = none → Completes (.cwait d a) s (WritesS s · d 0) ∧ Completes (.cpoll d a) s (WritesS s · d 0)) ∧
      ∀ j, join = some j → Completes (.cpoll d a) s (WritesS s · d (word (j.fault.toNat * 128 + j.done.toNat))) ∧
        (j.done = true → Completes (.cwait d a) s (WritesS s · d (word (j.fault.toNat * 128 + 1)))) ∧
        (j.done = false → Completes (.cwait d a) s (fun t => t.hart.pc = s.hart.pc ∧ t.hart.still = s.hart.still ∧
          t.hart.block.map (·.wait) = some (.engine (2 ^ 58)) ∧ OnlyHart s t)))) ∧
  (∀ (s : State) (d : PReg) (a : BitVec 3), let h := s.hart; let from' := (h.batch.getD (0, [])).1; let before := (h.batch.getD (0, [])).2
    let active := (List.range 32).filter (fun k => from' ≤ k && h.active k)
    let x := fun (k : Nat) => word (recBits (h.batchRecord a.toNat k) 8 63 0)
    SMap.wf none s.coll.regs = true → before.Nodup → (∀ k ∈ before, k < from') →
    (∀ k ∈ active, recBits (h.batchRecord a.toNat k) 0 7 0 = 5 ∧ field (x k) 63 48 = 0 ∧
      ∃ m r i, s.findReg h.ctx (field (x k) 31 0) = some (m, r) ∧ r.inst = some i ∧ i.num = field (x k) 47 32) →
    Completes (.xbatchColl d a) s (fun t => (∀ k, k < 512 → (t.hart.preg d).getLsbD k = (before ++ active).contains k) ∧
      (∀ r, r ≠ d → t.hart.preg r = h.preg r) ∧ GoesOn h t.hart ∧ t.hart.batch = none ∧
      { t.hart.still.lessP with batch := none } = { h.still.lessP with batch := none } ∧ t.mem = s.mem ∧
      ∀ k ∈ active, ∀ m r, s.findReg h.ctx (field (x k) 31 0) = some (m, r) → ∃ r' i, t.reg m = some r' ∧ r'.inst = some i ∧ i.aborted = true)) ∧
  (∀ (s : State) (d a : SReg), let x := s.hart.sreg a; let found := s.findReg s.hart.ctx (field x 31 0); let run := Instr.cshrink d a
    (field x 63 32 ≠ 0 → CanTrap s → Completes run s (Trapped s · 0x01 (insnWord run) 0)) ∧
    (field x 63 32 = 0 →
      (found = none → Completes run s (WritesS s · d 2)) ∧
      (∀ k r, found = some (k, r) →
        (r.pending = false → Completes run s (WritesS s · d 2)) ∧
        (r.pending = true → r.inst.isSome = true → Completes run s (WritesS s · d 1)) ∧
        (r.pending = true → r.inst = none → r.joiners = [] → s.coll.held = [] → room s → Completes run s (fun t => let live := r.table.filter (·.2)
          (d ≠ 0 → t.hart.sreg d = 0) ∧ (∀ q, q ≠ d → t.hart.sreg q = s.hart.sreg q) ∧ GoesOn s.hart t.hart ∧ (∀ n, n ≠ s.cur → t.hartAt n = s.hartAt n) ∧
          t.coll.stale = s.coll.stale + word r.early.length ∧
          t.reg k = some { r with gen := (r.gen + 1) % 2 ^ 32, size := live.length, me := ((r.table.take r.me).filter (·.2)).length
                                  table := live.map (fun x => (x.1, !s.coll.lost.contains x.1)), pending := live.any (fun x => s.coll.lost.contains x.1)
                                  subs := [none, none, none, none], early := [], rots := []
                                  past := { gen := r.gen, me := r.me, next := r.next, kept := (List.range r.table.length).filter (fun p => (r.member p).2) } :: r.past }))))) ∧
  ∀ (s : State) (d a b : SReg), let x := s.hart.sreg b; let run := Instr.cjoin d a b
    (field x 63 33 ≠ 0 ∨ field x 31 18 ≠ 0 → CanTrap s → Completes run s (Trapped s · 0x01 (insnWord run) 0)) ∧
    (field x 63 33 = 0 → field x 31 18 = 0 → ∀ bs s1, s.loadBlock (s.hart.sreg a) 64 = (.ok bs, s1) → let e := GroupEntry.ofNat (bytesToNat bs)
      (e.clean = false ∨ 11 < e.lsz → Completes run s (WritesS s1 · d 3)) ∧ (e.clean = true → s1.pinHeld e.land (2 ^ e.lsz * 0x400000) = false →
      (e.gid = 0 → Completes run s (WritesS s1 · d 3)) ∧
      (∀ s2, e.gid ≠ 0 → e.lsz ≤ 11 → s1.pinned e.land (2 ^ e.lsz * 0x400000) = (none, s2) → Completes run s (WritesS s2 · d 3)) ∧
      (∀ s2 pages, e.gid ≠ 0 → e.lsz ≤ 11 → s1.pinned e.land (2 ^ e.lsz * 0x400000) = (some pages, s2) → (∃ pa ∈ pages, s2.stackReady pa = false) →
        Completes run s (fun t => t.hart.pc = s.hart.pc ∧ t.hart.still = s.hart.still)) ∧
      (∀ s2 pages k port, e.gid ≠ 0 → e.lsz ≤ 11 → s1.pinned e.land (2 ^ e.lsz * 0x400000) = (some pages, s2) → (∀ pa ∈ pages, s2.stackReady pa = true) →
        s2.findReg s2.hart.ctx e.gid = none → s2.coll.freeReg = some k → (∀ j ∈ s2.coll.joins, ¬ (j.ctx = s2.hart.ctx ∧ j.gid = e.gid)) →
        field x 17 0 ≠ s2.coll.rank → s2.route (field x 17 0) = some port → s2.coll.skips = [] → s2.coll.unsent = [] → Completes run s (fun t =>
          (d ≠ 0 → t.hart.sreg d = 0) ∧ (∀ r, r ≠ d → t.hart.sreg r = s2.hart.sreg r) ∧ GoesOn s2.hart t.hart ∧
          t.outputs = s2.outputs ++ [.msg port ({ kind := .joinFetch, src := s2.coll.rank, dst := field x 17 0, gid := e.gid
                                                  seq := SMap.get 0 s2.coll.sentTo (field x 17 0) } : Msg)] ∧
          ∃ j, t.coll.joins = j :: s2.coll.joins ∧ j.ctx = s2.hart.ctx ∧ j.gid = e.gid ∧ j.slot = k ∧ j.donor = field x 17 0 ∧
            j.enter = bit x 32 ∧ j.pages = pages ∧ j.done = false))))

/-- R361 to R365, R370 to R373, R379 to R384, R388, R393 to R396, R399, R400: the collective engine's own steps, stated with no message held or out
of order. An END ends the instance with its status; LOOP and ENDL steer; SEND sends the selected part; RECV lands its message's bytes, RRS lands and
forwards them or forwards what they combine to, RRD lands that, COPY copies, SQRED contributes its chunks and lands the results, XCHG copies its own
part, sends the others and lands each; landed bytes are credited. A message is handled in its sender's order and acknowledged, one for another RANK is
passed on with one hop less, or dropped and counted. A contribution enters a slot of the Square, and one that has waited SQTIME completes with what is
there. A block of a rotation lands in its free set and credits BCNT × 16,384 bytes; a set read and forwarded is free again. A repartition reads IN as it
begins, tells its box, its counts, its quotas and its records, and ends with OUT, OVF, RES and one credit. Keys, owners and the combine function are
stated in the spec's terms. An instance whose memory lies on a stack that is not ready stays where it is (R416), and so does one whose record finds no
room (R326). A message whose route entry cannot be read yet waits, and later ones behind it. The model's own: that the lowest live member agrees the box
and that IN is read once (log 39), the layout of the join notice (log 40), the order of the steps and when a fault found elsewhere is taken (log 38). -/
def Obligations.CollectiveSteps : Prop :=
  let room := fun (s : State) (i : Inst) => (∀ e, e < 4 → s.dieRecordRoom e = true) ∧ s.recordRoom (coreOfHart i.hart) = true
  let calm := fun (r : Reg) (i : Inst) => ∀ m ∈ r.early, ¬ ((m.kind = .noRoute ∨ m.kind = .squareFault) ∧ m.inst = i.num)
  -- where a byte of a buffer lies, and what some writes to buffers, one after another, leave in memory
  let keyOf := fun (s : State) (b : Buf) (o : Nat) =>
    if b.land then s.part.key (b.pages.getD ((b.offset + o) / 4096) 0) + (b.offset + o) % 4096 else s.rangeKey b.core b.slot o
  let paged := fun (s : State) (pages : List Nat) => ∀ p ∈ pages, p % 4096 = 0 ∧ ∀ x, x < 4096 →
    s.part.key? (p + x) = some (s.part.key p + x) ∧ s.onFenced (s.part.key p + x) = false
  let plain := fun (s : State) (i : Inst) (b : Buf) (off n : Nat) => s.bufFenced b = false ∧ s.bufAway i (some b) = false ∧
    (b.land = true → b.offset + off + n ≤ 4096 * b.pages.length ∧ paged s b.pages)
  let after := fun (s : State) (xs : List (Buf × Nat × List Byte)) (y : Nat) =>
    match ((xs.flatMap (fun x => (List.range x.2.2.length).map (fun o => (keyOf s x.1 (x.2.1 + o), x.2.2.getD o 0)))).filter (fun e => e.1 = y)).getLast? with
    | some e => e.2
    | none => s.mem.cells.read y
  let writes := fun (s t : State) (xs : List (Buf × Nat × List Byte)) => ∀ y, t.mem.cells.read y = after s xs y
  let credited := fun (s t : State) (i : Inst) (ns : List Nat) => (t.coreAt (coreOfHart i.hart)).credits = (s.coreAt (coreOfHart i.hart)).credits ++
    (match i.bar with | some b => ns.map (fun n => ⟨b, n⟩) | none => [])
  let pieces := fun (n : Nat) => (List.range ((n + 4095) / 4096)).map (fun e => min 4096 (n - 4096 * e))
  let bytesOf := fun (cs : List Chunk) => cs.flatMap (·.bytes)
  -- a message can be sent at once, and is
  let clear := fun (s : State) (q : Nat) => s.coll.skips = [] ∧ s.coll.unsent = [] ∧ (q = s.coll.rank ∨ (s.route q).isSome = true)
  let sent := fun (s t : State) (m : Msg) => if m.dst = s.coll.rank then t.coll.loop = s.coll.loop ++ [m] else
    ∀ port, s.route m.dst = some port → t.outputs = s.outputs ++ [.msg port { m with seq := SMap.get 0 s.coll.sentTo m.dst }]
  (∀ (s : State) (k : Nat) (r : Reg) (i : Inst), s.reg k = some r → r.inst = some i → i.kind = .program →
    let run := Instr.collectiveStep k
    (s.instHeld r i = true → Completes run s (· = s)) ∧ (s.instHeld r i = false → room s i →
    (∀ t, s.pullFault k r i = some t → Completes run s (· = t)) ∧
    (calm r i →
    (∀ t, s.programStep k r i = some t → Completes run s (· = t)) ∧
    (s.programStep k r i = none → Completes run s (· = s)) ∧
    (i.derived = none → i.next < 16384 → let w := SMap.get 0 s.coll.store i.next; let j := { i with next := i.next + 1 }
      let becomes := fun (r' : Option Reg) (t : State) => t.reg k = r' ∧ (∀ m, m ≠ k → t.reg m = s.reg m) ∧ t.harts = s.harts ∧ t.cores = s.cores
      (stepOp w = 0 → r.released = false → s.coll.held = [] → Completes run s (becomes (some
        { r with inst := none, last := some ⟨i.num, i.status true, i.report⟩, early := r.early.filter (fun m => m.inst ≠ i.num)
                 aborts := (if i.aborted then [(i.num, r.me)] else []) ++
                   r.aborts.filter (fun a => (a.1 + 65536 - i.num % 65536) % 65536 < 32768) }))) ∧
      (stepOp w = 7 → 0 < r.loopCount w →
        Completes run s (fun t => becomes (some { r with inst := some { j with loops := ⟨i.next + 1, (r.loopCount w).toNat, 0⟩ :: i.loops } }) t ∧ t.mem = s.mem)) ∧
      (stepOp w = 8 → ∀ x xs, i.loops = x :: xs →
        (x.l + 1 < x.count → Completes run s (becomes (some { r with inst := some { i with next := x.start, loops := { x with l := x.l + 1 } :: xs } }))) ∧
        (x.count ≤ x.l + 1 → Completes run s (becomes (some { r with inst := some { j with loops := xs } })))) ∧
      (stepOp w = 1 → ∀ c b port, r.scope (stepPm w) (stepSub w) = some c → i.bufs.getD (stepSrc w) none = some b → i.aborted = false →
        s.bufAway i (some b) = false → s.bufFenced b = false → let p := i.peer c w (stepK w); let q := (r.member p).1
        let part := b.part (b.selected (stepSel w) c.rr ((i.loops.head?.map (·.l)).getD 0))
        r.missing i.num p = false → q ≠ s.coll.rank → s.route q = some port → s.coll.skips = [] → s.coll.unsent = [] → Completes run s (fun t =>
          becomes (some { r with inst := some { j with unacked := p :: i.unacked, begun := false, fencedStep := false, todo := [], waiting := [], sqRoot := none } }) t ∧
          t.outputs = s.outputs ++ [.msg port ({ kind := .data, src := s.coll.rank, dst := q, seq := SMap.get 0 s.coll.sentTo q, gid := r.gid, gen := r.gen
                                                 inst := i.num, fromRank := r.me, toRank := p, step := i.next, chunks := s.readPart b part.1 part.2 } : Msg)])) ∧
      (∀ c, r.scope (stepPm w) (stepSub w) = some c → i.aborted = false → i.log = false →
        let part := fun (b : Buf) => b.part (b.selected (stepSel w) c.rr ((i.loops.head?.map (·.l)).getD 0))
        let src := fun (b : Buf) => i.bufs.getD (stepSrc w) none = some b ∧ s.bufFenced b = false ∧ s.bufAway i (some b) = false
        let dst := fun (b : Buf) (off n : Nat) => i.bufs.getD (stepDst w) none = some b ∧ plain s i b off n
        let p := i.peer c w (stepK w); let up := i.peer c w (-stepK w)
        let came := fun (q : Nat) (m : Msg) => r.early.find? (fun m => m.kind = .data && m.inst = i.num && m.fromRank = q) = some m
        let took := fun (t : State) (m : Msg) (f : Inst → Prop) => ∃ i', t.reg k = some { r with early := r.early.erase m, inst := some i' } ∧ f i' ∧ t.harts = s.harts
        let msg := fun (q : Nat) (cs : List Chunk) =>
          ({ kind := .data, src := s.coll.rank, dst := (r.member q).1, gid := r.gid, gen := r.gen, inst := i.num, fromRank := r.me, toRank := q, step := i.next
             chunks := cs } : Msg)
        let size := if stepRed w = 2 then 2 else 4
        let mixed := fun (own : List Chunk) (m : Msg) => own.mapIdx (fun e y => let x := m.chunks.getD e { bytes := [], poison := true }
          if x.poison then y.bytes else if y.poison then x.bytes else (List.range (x.bytes.length / size)).flatMap (fun e =>
            natToBytes size (combineOne (stepRed w) (elemAt x.bytes size e) (elemAt y.bytes size e))))
        let alike := fun (own : List Chunk) (m : Msg) => 0 < stepRed w ∧ m.chunks.map (·.bytes.length) = own.map (·.bytes.length) ∧ ∀ y ∈ own, y.bytes.length % size = 0
        -- RECV; RRS without a reduction, which forwards the data as they came; RRS with one, which stores nothing; RRD; COPY
        (stepOp w = 2 → ∀ d m, dst d (part d).1 (part d).2 → came p m → msgBytes m = (part d).2 → Completes run s (fun t =>
          took t m (fun i' => i'.next = i.next + 1 ∧ i'.poison = (i.poison || m.chunks.any (·.poison))) ∧ writes s t [(d, (part d).1, bytesOf m.chunks)] ∧
            credited s t i (pieces (part d).2))) ∧
        (stepOp w = 3 → stepRed w = 0 → ∀ d m, dst d (part d).1 (part d).2 → came up m → msgBytes m = (part d).2 → (∀ x ∈ m.chunks, x.poison = false) →
          r.missing i.num p = false → clear s (r.member p).1 →
          (∀ o e, o < (part d).2 → e < 2 → s.part.key? (s.coll.routeAt (r.member p).1 + e) ≠ some (keyOf s d ((part d).1 + o))) → Completes run s (fun t =>
            took t m (fun i' => i'.next = i.next + 1 ∧ i'.unacked = p :: i.unacked) ∧ writes s t [(d, (part d).1, bytesOf m.chunks)] ∧
              credited s t i (pieces (part d).2) ∧ sent s t (msg p m.chunks))) ∧
        (stepOp w = 3 → ∀ b m, src b → let own := s.readPart b (part b).1 (part b).2; came up m → alike own m → r.missing i.num p = false →
          clear s (r.member p).1 → Completes run s (fun t => took t m (fun i' => i'.next = i.next + 1 ∧ i'.unacked = p :: i.unacked) ∧ t.mem = s.mem ∧
            ∃ cs : List Chunk, cs.map (·.bytes) = mixed own m ∧ sent s t (msg p cs))) ∧
        (stepOp w = 4 → ∀ b d m, src b → dst d (part d).1 (part d).2 → (part b).2 = (part d).2 → let own := s.readPart b (part b).1 (part b).2
          came p m → alike own m → Completes run s (fun t => took t m (fun i' => i'.next = i.next + 1) ∧ writes s t [(d, (part d).1, (mixed own m).flatten)] ∧
            credited s t i (pieces (part d).2))) ∧
        (stepOp w = 5 → ∀ b d, src b → dst d (part d).1 (part d).2 → (part b).2 = (part d).2 → let own := s.readPart b (part b).1 (part b).2
          Completes run s (fun t => writes s t [(d, (part d).1, bytesOf own)] ∧ credited s t i (pieces (part d).2) ∧ t.harts = s.harts ∧
            ∃ i', t.reg k = some { r with inst := some i' } ∧ i'.next = i.next + 1 ∧ i'.poison = (i.poison || own.any (·.poison)))) ∧
        -- SQRED: the chunks are counted out, each is contributed to the root's Square, and each result lands
        (stepOp w = 9 → ∀ b d n, src b → dst d (part d).1 n → (part b).2 = n → (part d).2 = n → let all := List.range ((n + 4095) / 4096)
          let ranks := (List.range c.n).map c.member; let root := (ranks.filter (fun q => (r.member q).2)).headD r.me
          (i.begun = false → Completes run s (becomes (some { r with inst := some { i with begun := true, todo := all, waiting := all, sqRoot := some root } }))) ∧
          (i.begun = true → i.sqRoot = some root → (∀ e es, i.todo = e :: es → clear s (r.member root).1 → Completes run s (fun t =>
              becomes (some { r with inst := some { i with todo := es, unacked := root :: i.unacked } }) t ∧ t.mem = s.mem ∧
              sent s t { msg root [s.readChunk b ((part b).1 + 4096 * e) (min 4096 (n - 4096 * e))] with
                kind := .contribution, chunk := e, red := stepRed w, base := c.base, stride := c.stride, span := c.n
                args := (ranks.filter (fun q => !r.missing i.num q)).flatMap (fun q => [q, (r.member q).1]) })) ∧
            (i.todo = [] → ∀ m, i.waiting ≠ [] → (∀ e ∈ i.waiting, e ∈ all) →
              r.early.find? (fun m => m.kind = .result && m.inst = i.num && m.step = i.next && i.waiting.contains m.chunk) = some m →
              let len := min 4096 (n - 4096 * m.chunk); msgBytes m = len → Completes run s (fun t => writes s t [(d, (part d).1 + 4096 * m.chunk, bytesOf m.chunks)] ∧
                credited s t i (pieces len) ∧ took t m (fun i' => i'.next = i.next ∧ i'.waiting = i.waiting.erase m.chunk ∧
                  i'.partial' = (i.partial' || decide (m.args.getD 0 0 = 1))))) ∧
            (i.todo = [] → i.waiting = [] → Completes run s (fun t => ∃ i', t.reg k = some { r with inst := some i' } ∧ i'.next = i.next + 1 ∧ t.mem = s.mem)))) ∧
        -- XCHG: part RR is copied, the others are sent, and each comes from its rank
        (stepOp w = 11 → ∀ b d, src b → dst d 0 d.bytes → d.parts ≠ 0 → i.begun = true → (∀ e ∈ i.todo ++ i.waiting, e < d.parts) →
          let got := fun (e : Nat) => d.part (some e); let give := fun (e : Nat) => s.readPart b (b.part (some e)).1 (b.part (some e)).2
          (∀ e es, i.todo = e :: es →
            (e = c.rr → (b.part (some e)).2 = (got e).2 → Completes run s (fun t => writes s t [(d, (got e).1, bytesOf (give e))] ∧ credited s t i (pieces (got e).2) ∧
              ∃ i', t.reg k = some { r with inst := some i' } ∧ i'.todo = es ∧ i'.next = i.next)) ∧
            (e ≠ c.rr → r.missing i.num (c.member e) = false → clear s (r.member (c.member e)).1 → Completes run s (fun t => t.mem = s.mem ∧
              sent s t (msg (c.member e) (give e)) ∧
              t.reg k = some { r with inst := some { i with todo := es, unacked := c.member e :: i.unacked } }))) ∧
          (∀ e es m, i.todo = [] → i.waiting = e :: es → came (c.member e) m → msgBytes m = (got e).2 → Completes run s (fun t =>
            took t m (fun i' => i'.waiting = es ∧ i'.next = i.next) ∧ writes s t [(d, (got e).1, bytesOf m.chunks)] ∧ credited s t i (pieces (got e).2))) ∧
          (i.todo = [] → i.waiting = [] → Completes run s (fun t => ∃ i', t.reg k = some { r with inst := some i' } ∧ i'.next = i.next + 1 ∧ t.mem = s.mem)))))))) ∧
  (∀ (s : State) (m : Msg), let got := SMap.get 0 s.coll.gotFrom m.src
    let inTurn := m.dst = s.coll.rank ∧ m.src ≠ s.coll.rank ∧ m.seq = got ∧ s.coll.reorder = [] ∧ s.coll.held = []
    (m.dst ≠ s.coll.rank ∨ (m.src ≠ s.coll.rank ∧ m.seq < got) → Completes (.messageArrival m) s (· = s)) ∧
    (∀ k r i, inTurn → s.regOfMsg m = some (k, r) → s.reg k = some r → r.inst = some i → i.num = m.inst → m.src ∉ s.coll.lost →
      (r.member m.fromRank).2 = true → s.coll.skips = [] → s.coll.unsent = [] →
      (m.kind = .data ∨ m.kind = .result → Completes (.messageArrival m) s (fun t =>
        t.reg k = some { r with early := r.early ++ [m] } ∧ SMap.get 0 t.coll.gotFrom m.src = got + 1 ∧ (∀ j, j ≠ k → t.reg j = s.reg j) ∧
        t.harts = s.harts ∧ t.mem = s.mem ∧
        (∀ port, m.kind = .data → s.route m.src = some port → t.outputs = s.outputs ++ [.msg port
          ({ kind := .ack, src := s.coll.rank, dst := m.src, seq := SMap.get 0 s.coll.sentTo m.src, gid := m.gid, gen := m.gen, inst := m.inst
             fromRank := m.toRank, toRank := m.fromRank } : Msg)]))) ∧
      (m.kind = .abortNotice → s.coll.slots = [] → Completes (.abortNoticeArrival m) s (fun t =>
        t.reg k = some { r with aborts := (m.inst, m.fromRank) :: r.aborts } ∧ SMap.get 0 t.coll.gotFrom m.src = got + 1 ∧ t.harts = s.harts)) ∧
      (m.kind = .joinNotice → Completes (.joinNoticeArrival m) s (fun t =>
        t.reg k = some { r with pending := true, joiners := r.joiners ++ [(m.src, if m.args.getD 0 0 = 1 then
                                  some (if m.args.getD 2 0 = r.logFirst then m.args.getD 1 0 else 0) else none)]
                                inst := some { i with memb := true } } ∧ SMap.get 0 t.coll.gotFrom m.src = got + 1 ∧ t.harts = s.harts)) ∧
      (m.kind = .noRoute → m.args.getD 2 0 ≤ 1 → Completes (.messageArrival m) s (fun t =>
        t.reg k = some { r with early := r.early ++ [m] } ∧ t.harts = s.harts ∧ t.mem = s.mem)) ∧
      (∀ x b, SMap.wf none s.coll.regs = true → m.kind = .block → s.instHeld r i = false → r.rot = some x → i.kind = .rotation → i.aborted = false → x.ended = false → m.step = x.landed + 1 → m.step < x.size →
        r.early = [] → x.passes m.step = false → b = x.setBuf m.step → s.bufAway i (some b) = false → s.bufFenced b = false → x.sets ≠ [] →
        (x.sets.getD (x.landed % x.sets.length) {}).block = none → (∃ bytes, m.chunks = [{ bytes := bytes, poison := false }] ∧ bytes.length = b.bytes) →
        Completes (.rotationLanding m) s (fun t => ∃ r' x', t.reg k = some r' ∧ r'.rot = some x' ∧ x'.landed = m.step ∧
          (x'.sets.getD (x.landed % x.sets.length) {}).block = some m.step ∧ (x'.sets.getD (x.landed % x.sets.length) {}).reads = 0 ∧ t.harts = s.harts ∧
          writes s t [(b, 0, bytesOf m.chunks)] ∧ (x.bcnt ≠ 0 → credited s t i [x.bcnt * 16384])))) ∧
    (m.dst ≠ s.coll.rank → (∀ x ∈ s.coll.unsent, x.dst ≠ m.dst) →
      (0 < m.hops → s.routeHeld m.dst = true → Completes (.messageForward m) s (· = { s with coll := { s.coll with unsent := s.coll.unsent ++ [m] } })) ∧
      (∀ port, 0 < m.hops → s.route m.dst = some port → Completes (.messageForward m) s (fun t =>
        t.outputs = s.outputs ++ [.msg port ({ m with hops := m.hops - 1 } : Msg)] ∧ { t with outputs := s.outputs } = s)) ∧
      (m.hops = 0 ∨ (s.route m.dst = none ∧ s.routeHeld m.dst = false) → Completes (.messageForward m) s (fun t =>
        t.coll.fwDrop = s.coll.fwDrop + 1 ∧ t.harts = s.harts ∧ t.mem = s.mem))) ∧
    (m.dst ≠ s.coll.rank → s.coll.unsent.find? (fun x => x.dst = m.dst) = some m →
      (s.routeHeld m.dst = true → Completes (.messageForward m) s (· = s)) ∧
      (∀ port, m.src ≠ s.coll.rank → 0 < m.hops → s.route m.dst = some port → Completes (.messageForward m) s (fun t =>
        t.outputs = s.outputs ++ [.msg port ({ m with hops := m.hops - 1 } : Msg)] ∧
        { t with outputs := s.outputs } = { s with coll := { s.coll with unsent := s.coll.unsent.erase m } }))) ∧
    (∀ k c, inTurn → m.kind = .contribution → m.chunks = [c] → c.poison = false → s.coll.slots = [] → s.coll.late = [] → s.coll.lost = [] → k = 0 →
      s.sqStale m = false → s.sqEarly m = false → (∀ p ∈ s.coll.live, p.2.gid = m.gid → p.2.gen = m.gen → (p.2.member m.fromRank).2 = true) →
      let expected := (sqPairs m.args).filter (fun p => !s.sqGone m p.1 p.2)
      m.fromRank ∈ sqScope m → (∃ p ∈ expected, p.1 = m.fromRank) → (∃ p ∈ expected, p.1 ≠ m.fromRank) → Completes (.squareContribution m) s (fun t =>
        SMap.get none t.coll.slots k = some { key := sqKey m, red := m.red, len := msgBytes m, acc := some c.bytes, marked := none, scope := sqScope m
                                              expected := expected, arrived := [m.fromRank], poisoned := [],
                                              nan := if hasNaN m.red c.bytes then some m.fromRank else none, since := s.clock.time } ∧
        SMap.get 0 t.coll.gotFrom m.src = got + 1 ∧ t.harts = s.harts ∧ t.mem = s.mem))) ∧
  (∀ (s : State) (k : Nat) (x : SqSlot), SMap.get none s.coll.slots k = some x → s.coll.held = [] →
    (s.coll.sqTime ≠ 0 → x.since + s.coll.sqTime.toNat * 1000 ≤ s.clock.time → (∀ p ∈ x.expected, p.2 = s.coll.rank) → Completes (.squareTimeout k) s (fun t =>
      SMap.get none t.coll.slots k = none ∧ t.coll.sqPart = s.coll.sqPart + 1 ∧ t.harts = s.harts ∧ t.mem = s.mem ∧
      t.coll.loop = s.coll.loop ++ x.expected.map (fun p =>
        { kind := .result, src := s.coll.rank, dst := p.2, gid := x.key.gid, gen := x.key.gen, inst := x.key.inst, toRank := p.1
          step := x.key.step, chunk := x.key.chunk, base := x.key.base, chunks := [{ bytes := x.acc.getD (x.marked.getD []), poison := x.acc.isNone }]
          args := [1, x.nan.isSome.toNat, x.nan.getD 0, x.arrived.length] ++ x.arrived ++ x.poisoned }))) ∧
    (s.coll.sqTime = 0 ∨ s.clock.time < x.since + s.coll.sqTime.toNat * 1000 → Completes (.squareTimeout k) s (· = s))) ∧
  (∀ (s : State) (k j : Nat) (r : Reg) (x : Rotation) (y : RotSet), s.reg k = some r → r.rot = some x → j < 8 → x.sets[j]? = some y → y.block ≠ none →
    let q := (r.member x.up).1; let told := r.missing x.inst x.up = true ∨ q = s.coll.rank ∨ s.routeHeld q = true ∨ (s.route q).isSome = true ∨
      (∃ m ∈ s.coll.unsent, m.dst = q)
    (x.readsN ≤ y.reads → y.forwarded = true → told ∨ (r.inst.map (·.num)) ≠ some x.inst → Completes (.setRelease (8 * k + j)) s (fun t =>
      t.reg k = some { r with rot := some { x with sets := x.sets.set j {} } } ∧ (∀ n, n ≠ k → t.reg n = s.reg n) ∧ t.harts = s.harts ∧ t.mem = s.mem)) ∧
    (∀ i, x.readsN ≤ y.reads → y.forwarded = true → ¬ told → r.inst = some i → i.num = x.inst → s.recordRoom x.core = true →
      Completes (.setRelease (8 * k + j)) s (fun t =>
        (∃ r' i', t.reg k = some r' ∧ r'.inst = some i' ∧ i'.fault = true ∧ (r'.rot.map (·.sets)) = some (x.sets.set j {})) ∧ t.harts = s.harts ∧ t.mem = s.mem)) ∧
    (y.reads < x.readsN ∨ y.forwarded = false → Completes (.setRelease (8 * k + j)) s (· = s))) ∧
  (∀ (s : State) (k : Nat) (r : Reg) (i : Inst) (p : Repart), s.reg k = some r → r.inst = some i → i.rep = some p → i.kind = .repartition → s.instHeld r i = false → room s i → calm r i →
    (∀ t, s.repStep k r i p = some t → Completes (.repartitionExchange k) s (· = t)) ∧
    (s.repStep k r i p = none → Completes (.repartitionExchange k) s (· = s)) ∧
    (i.aborted = false → (∀ b ∈ [p.input, p.out, p.ovf], s.bufAway i (some b) = false) →
      (i.begun = false → (∀ b ∈ [p.input, p.out, p.ovf, p.res], s.bufFenced b = false) → Completes (.repartitionExchange k) s (fun t =>
        t.reg k = some { r with inst := some { i with begun := true, rep := some { p with read := some (s.readPart p.input 0 p.input.bytes) } } } ∧
          (∀ n, n ≠ k → t.reg n = s.reg n) ∧ t.harts = s.harts ∧ t.mem = s.mem)) ∧
      (i.begun = true → i.fencedStep = true ∨ (∀ b ∈ [p.input, p.out, p.ovf, p.res], s.bufFenced b = false) → r.early = [] → p.box = none → p.boxTo = none → (∃ ms, p.members.filter (fun m => m = r.me || !r.missing i.num m) = r.me :: ms) →
        Completes (.repartitionExchange k) s (fun t =>
          t.reg k = some { r with inst := some { i with rep := some { p with boxes := SMap.set [] p.boxes r.me (s.localBox p), boxTo := some r.me } } } ∧
          t.harts = s.harts ∧ t.mem = s.mem)) ∧
      -- with the box and the histogram agreed: counts, quotas, records, and the end
      (∀ box h, let live := p.members.filter (fun m => m = r.me || !r.missing i.num m); let root := live.headD r.me; let recs := s.particles p
        let owner := fun (e : Nat) => match recs[e]? with
          | some x => if x.poison then none else some (ownerOf h p.members.length (p.bucket box x))
          | none => none
        let owned := fun (o : Nat) => (List.range recs.length).filter (fun e => owner e = some o)
        let bytesAt := fun (e : Nat) => (recs[e]?.map (·.bytes)).getD []
        let notes := fun (t : State) (f : Repart → Prop) => ∃ r' i' p', t.reg k = some r' ∧ r'.inst = some i' ∧ i'.rep = some p' ∧ f p' ∧ t.mem = s.mem ∧ t.harts = s.harts
        let told := fun (t : State) (kind : MsgKind) (m : Nat) (args : List Nat) (bs : List Byte) => m ∈ live → m ≠ r.me → (r.member m).1 ≠ s.coll.rank →
          ∃ port x, .msg port x ∈ t.outputs ∧ (x.kind, x.dst, x.gid, x.gen, x.inst, x.toRank, x.args) = (kind, (r.member m).1, r.gid, r.gen, i.num, m, args) ∧
            x.chunks.flatMap (·.bytes) = bs
        i.begun = true → (∀ b ∈ [p.input, p.out, p.ovf, p.res], s.bufFenced b = false) → r.early = [] → p.box = some box → p.hist = some h → p.members.Nodup → r.me ∈ p.members →
        p.boxSent = some root ∨ (root ≠ r.me ∧ p.boxTo = some root) → p.histSent = some root ∨ (root ≠ r.me ∧ p.histTo = some root) →
        (∀ m ∈ live, clear s (r.member m).1) →
        (p.countsSent = false → Completes (.repartitionExchange k) s (fun t => notes t (fun p' => p'.countsSent = true ∧
            ∀ o, p.members[o]? = some r.me → SMap.get none p'.counts r.me = some (owned o).length) ∧
          ∀ o m, p.members[o]? = some m → told t .counts m [(owned o).length] [])) ∧
        (p.countsSent = true → p.quotasSent = false → (∀ m ∈ live, (SMap.get none p.counts m).isSome = true) → Completes (.repartitionExchange k) s (fun t =>
          let n := fun (j : Nat) => (SMap.get none p.counts (live.getD j 0)).getD 0
          ∃ g : Nat → Nat, (∀ j, j < live.length → g j = min (n j) (p.out.bytes / p.rsz - ((List.range j).map g).sum)) ∧ notes t (fun p' => p'.quotasSent = true ∧
              ∀ j, live[j]? = some r.me → SMap.get none p'.quotas r.me = some (g j)) ∧
            ∀ j m, live[j]? = some m → told t .quota m [g j] [])) ∧
        (p.countsSent = true → p.quotasSent = true → ∀ o m g, (List.range p.members.length).find? (fun o => let m := p.members.getD o 0
            !p.recsTo.contains m && live.contains m && (SMap.get none p.quotas m).isSome) = some o → p.members[o]? = some m → SMap.get none p.quotas m = some g →
          let bs := ((owned o).take g).flatMap bytesAt
          Completes (.repartitionExchange k) s (fun t => notes t (fun p' => m ∈ p'.recsTo ∧ (m = r.me → ((SMap.get none p'.recv m).map (fun cs => cs.flatMap (·.bytes))) = some bs)) ∧
            told t .records m [] bs)) ∧
        (p.countsSent = true → p.quotasSent = true → (∀ m ∈ live, m ∈ p.recsTo ∧ (SMap.get none p.recv m).isSome = true) → s.coll.held = [] →
          let granted := fun (o : Nat) => let m := p.members.getD o 0; if m ∈ live then (SMap.get none p.quotas m).getD 0 else 0
          let stay := (List.range recs.length).filter (fun e => match owner e with
            | none => true
            | some o => granted o ≤ ((owned o).filter (· < e)).length)
          let count := fun (f : Particle → Bool) => (recs.filter f).length; let four := natToBytes 4
          let out := live.flatMap (fun m => ((SMap.get none p.recv m).getD []).flatMap (·.bytes)); let ovf := stay.flatMap bytesAt
          let res := four (out.length / p.rsz) ++ four stay.length ++ four (count (fun x => !x.poison && badWeight (p.fieldOf x 3))) ++ four (count (·.poison)) ++
            ([1, 4, 7, 2, 5, 8].flatMap (fun e => four (box.getD e 0))) ++
            four (Ieee.fp32.round .rne false (.fin false (h.map (fun x => ((fp32Int x).getD 0).toNat)).sum (-149))).1 ++ List.replicate 20 0 ++
            (List.range p.members.length).flatMap (fun o => four (stay.filter (fun e => owner e = some o)).length)
          plain s i p.out 0 out.length → plain s i p.ovf 0 (recs.length * p.rsz) → plain s i p.res 0 res.length → (∀ e, e < recs.length → (bytesAt e).length = p.rsz) →
          r.released = false → 17 ≤ r.pages.length → paged s r.pages →
          Completes (.repartitionExchange k) s (fun t => (∃ r' l, t.reg k = some r' ∧ r'.inst = none ∧ r'.next = r.next ∧ r'.last = some l ∧ l.num = i.num) ∧
            t.harts = s.harts ∧ credited s t i [p.out.bytes + p.ovf.bytes + 64 + 4 * r.size] ∧
            ∀ y, (∀ pa ∈ r.pages, ∀ x, x < 4096 → s.part.key? (pa + x) ≠ some y) →
              t.mem.cells.read y = after s [(p.out, 0, out), (p.ovf, 0, ovf), (p.res, 0, res)] y))))) ∧
  -- keys, owners and the combine function in the spec's terms
  (∀ qx qy qz, qx < 2 ^ 21 → qy < 2 ^ 21 → qz < 2 ^ 21 → bucketOf qx qy qz =
    ((List.range 21).map (fun j => (qx.testBit j).toNat * 2 ^ (3 * j) + (qy.testBit j).toNat * 2 ^ (3 * j + 1) + (qz.testBit j).toNat * 2 ^ (3 * j + 2))).sum / 2 ^ 51) ∧
  (∀ (h : List Nat) (n b b' : Nat), 0 < n → b ≤ b' → b' < 4096 → ownerOf h n b ≤ ownerOf h n b' ∧ ownerOf h n b' < n) ∧
  ∀ x y, x < 2 ^ 32 → y < 2 ^ 32 → combineOne 6 x y = x &&& y ∧ combineOne 7 x y = x ||| y ∧
    (∀ red ∈ [3, 4, 5], fp32IsNaN x = true ∨ fp32IsNaN y = true → combineOne red x y = 0x7FC00000) ∧
    (fp32IsNaN x = false → fp32IsNaN y = false → let v := fun (z : Nat) => (fp32Order z)
      (combineOne 3 x y = x ∨ combineOne 3 x y = y) ∧ v x ≤ v (combineOne 3 x y) ∧ v y ≤ v (combineOne 3 x y) ∧
      (combineOne 4 x y = x ∨ combineOne 4 x y = y) ∧ v (combineOne 4 x y) ≤ v x ∧ v (combineOne 4 x y) ≤ v y ∧
      combineOne 5 x y = max (x % 2 ^ 31) (y % 2 ^ 31))

/-! ## Steps of the machine -/

/-- R52, R55, R56, R60, R63, R322, R335, R425: a step at a hart's turn. With no interrupt taken, no wait under way, no register's parity in error and no
store of the hart waiting at another die, the word that the PC, or the hart's convoy, gives decodes to an instruction, and the step is exec of it, after
which time passes, a line may leave a scalar cache (log 11), and the next turn is chosen; a word that is none runs as an illegal instruction; a fetch
that faults runs as a fetch fault, and one that has to wait changes nothing. The rest of a resumed convoy runs so too, but a forbidden major traps
CONVOY_ILLEGAL there. A hart that waits in an instruction runs that one. Before a word's instruction runs, the parity of the registers it reads is
checked: a failing scalar or predicate register traps MACHINE_CHECK with its number, two failing slices of a vector register freeze the hart with reason
3, and one is rebuilt and counted in RFCORR; but not where the word is undefined or its level is not allowed it. A hart whose gang is to stop heeds that
(R324; O42). An agent's turn runs exec of the row of the opcode table that the event names, and the outside's turn exec of its next act. After a
shutdown there is no step. The turns are the model's own (log 8), and so is the order of the checks, scalar, predicate, vector registers (log 44;
R335 gives none). -/
def Obligations.StepRunsDecodedWord : Prop :=
  (∀ (s : State) (n : Nat), let u := { s with cur := n }; let h := s.hartAt n
    let runs := fun (i : Instr) (v : State) => step s = finishStep (heedStop v (keepInstr i v (exec i v)))
    let traps := fun (x : Trap) (v : State) => step s = finishStep (heedStop v (.next (takeTrap x v)))
    s.off = false → s.turn = .hart n → h.run = .running → h.retired = false → u.takesInterrupt n = false →
      (∀ i, h.waiting = some i → runs i u) ∧
      (h.waiting = none → u.ownPending = [] →
        (h.sParity = [] → h.pParity = [] → h.vParity = [] →
          (∀ w s1, h.conv = none → u.fetchAt h.pc = (.word w, s1) →
            (∀ i, decodeWord w = .ok i → runs i s1) ∧ ((∀ i, decodeWord w ≠ .ok i) → runs (.illegalInsn (word w)) s1)) ∧
          (∀ rem pos w ws i, h.conv = some ⟨rem, pos, w :: ws⟩ → decodeWord w = .ok i → runs i u) ∧
          (∀ rem pos w s1 i, h.conv = some ⟨rem, pos, []⟩ → u.fetchAt h.pc = (.word w, s1) → decodeWord w = .ok i →
            (forbiddenMajor (w / 2 ^ 26) = false → runs i s1) ∧
            (forbiddenMajor (w / 2 ^ 26) = true → traps ⟨cConvoy, word (5 * 16 + pos), 0⟩ s1))) ∧
        (∀ e s1, h.conv = none → u.fetchAt h.pc = (.fault e, s1) → runs .fetchFault u) ∧
        (∀ s1, h.conv = none → u.fetchAt h.pc = (.hold, s1) → step s = finishStep (heedStop (u.withCounts s1) (.next (u.withCounts s1)))) ∧
        (∀ w s1 i, h.conv = none → u.fetchAt h.pc = (.word w, s1) → decodeWord w = .ok i →
          let vs := ((vectorReads i).flatMap (pairOf s1.hart)).eraseDups
          let ps := (if guarded w i = true ∧ s1.hart.guard ≠ 63 then [s1.hart.guard] else []) ++ (predReads i).map (·.toNat)
          let ss := s1.hart.scalarReads i
          (s1.turnedAway w i = true → runs i s1) ∧ (s1.turnedAway w i = false →
            (∀ r, ss.find? (fun r => s1.hart.sParity.contains r.toNat) = some r → traps ⟨cMachine, word (2 ^ 63 + r.toNat), 0⟩ s1) ∧
            ((∀ r ∈ ss, r.toNat ∉ s1.hart.sParity) →
              (∀ r, ps.find? (fun r => s1.hart.pParity.contains r) = some r → traps ⟨cMachine, word (2 ^ 63 + 256 + r), 0⟩ s1) ∧
              ((∀ r ∈ ps, r ∉ s1.hart.pParity) →
                (∀ r k k', r ∈ vs → k ≠ k' → s1.hart.vParity = [(r, k), (r, k')] → step s = .next (freeze n 3 0 r s1).finish) ∧
                (∀ r k, r ∈ vs → s1.hart.vParity = [(r, k)] → runs i (s1.onHart (fun h =>
                  { h with vParity := [], rfCorr := word (min 0xFFFFFFFF (h.rfCorr.toNat + 1)) }))) ∧
                (∀ r k, r ∉ vs → s1.hart.vParity = [(r, k)] → runs i s1))))))) ∧
  (∀ (s : State) (n : Nat), let u := { s with cur := n }
    s.off = false → s.turn = .hart n → (s.hartAt n).run = .running → (s.hartAt n).retired = false →
    u.takesInterrupt n = true → step s = finishStep (heedStop u (keepInstr .interruptEntry u (exec .interruptEntry u)))) ∧
  (∀ (s : State) (r : Result), s.stopDue = false → heedStop s r = r) ∧
  (∀ (s : State) (e : Event), s.off = false → s.turn = .event e → ∃ i, exec i s = runEvent e s ∧ step s = finishStep (exec i s)) ∧
  (∀ (s : State) (i : Instr) (rest : List Instr), s.off = false → s.turn = .input → s.inputs = i :: rest →
    step s = finishStep (exec i { s with inputs := rest })) ∧
  ∀ s t : State, finishStep (.next t) = .next t.finish ∧ { t.finish with turn := t.turn, clock := t.clock } = t.mayEvict ∧
    (t.mem.lines = [] → t.mayEvict = t) ∧
    t.finish.clock.tick = t.clock.tick + 1 ∧ t.clock.cycle ≤ t.finish.clock.cycle ∧ t.clock.time ≤ t.finish.clock.time ∧
    (s.off = true → step s = .fault .shutDown)

/-- R327, R336: after every step, what moves next is on offer: a hart has the turn only while it runs and has not retired, so no frozen, stopped or
free hart executes; an agent only for a step that the state offers. The turn is the model's own field (log 8). -/
def Obligations.StepKeepsTurnLegal : Prop :=
  ∀ s t : State, s.turnLegal → step s = .next t → t.turnLegal

/-- After reset nothing is on offer and the turn says so (log 8, 17). -/
def Obligations.TurnLegalAtReset : Prop :=
  State.reset.turnLegal ∧ State.reset.off = false ∧ State.reset.mem.cells.wf = true ∧ ∀ n, (State.reset.hartAt n).run = .free

/-- R168 to R171: after every step memory is in its canonical form again, addresses rising and no entry listed that reads as an unlisted byte does,
whatever instruction, trap or agent's step it was. -/
def Obligations.StepKeepsMemoryCanonical : Prop :=
  ∀ s t : State, s.mem.cells.wf = true → step s = .next t → t.mem.cells.wf = true
end

