-- ==== Sys2Proof/Laws/Operands.lean ====
section
/-! SUPPORT. What the replacement of elements of a vector register leaves in every element (R8). -/

-- one theorem at a time: many at once would each hold a thread's stack
set_option Elab.async false

namespace Sys2Proof.Machine

theorem testBit_lane (x : VWord) (w k i : Nat) : (lane x w k).testBit i = (decide (i < w) && x.getLsbD (w * k + i)) := by
  unfold lane
  rw [Nat.testBit_mod_two_pow, Nat.testBit_shiftRight]
  rfl

/-- Bit j of a register with element k replaced. -/
theorem getLsbD_setLane (x : VWord) (w k b j : Nat) (hj : j < 2048) :
    (setLane x w k b).getLsbD j = if w * k ≤ j ∧ j < w * k + w then b.testBit (j - w * k) else x.getLsbD j := by
  unfold setLane
  have hm : ∀ i, i < 2048 → (BitVec.ofNat 2048 (2 ^ w - 1)).getLsbD i = decide (i < w) := by
    intro i hi; rw [BitVec.getLsbD_ofNat, Nat.testBit_two_pow_sub_one]; simp only [hi, decide_true, Bool.true_and]
  have hb : ∀ i, i < 2048 → (BitVec.ofNat 2048 (b % 2 ^ w)).getLsbD i = (decide (i < w) && b.testBit i) := by
    intro i hi; rw [BitVec.getLsbD_ofNat, Nat.testBit_mod_two_pow]; simp only [hi, decide_true, Bool.true_and]
  rw [BitVec.getLsbD_or, BitVec.getLsbD_and, BitVec.getLsbD_not, BitVec.getLsbD_shiftLeft, BitVec.getLsbD_shiftLeft,
    hm _ (by omega), hb _ (by omega)]
  by_cases h1 : j < w * k
  · simp [hj, h1, show ¬ (w * k ≤ j ∧ j < w * k + w) by omega]
  · by_cases h2 : j < w * k + w
    · simp [hj, h1, show w * k ≤ j ∧ j < w * k + w by omega, show j - w * k < w by omega]
    · simp [hj, h1, show ¬ (w * k ≤ j ∧ j < w * k + w) by omega, show ¬ j - w * k < w by omega]

/-- The replaced element. -/
theorem lane_setLane_self (x : VWord) {w k : Nat} (b : Nat) (h : w * k + w ≤ 2048) : lane (setLane x w k b) w k = b % 2 ^ w := by
  apply Nat.eq_of_testBit_eq
  intro i
  rw [testBit_lane, Nat.testBit_mod_two_pow]
  by_cases hi : i < w
  · rw [getLsbD_setLane _ _ _ _ _ (by omega)]
    simp [hi]
  · simp [hi]

/-- Every other element. -/
theorem lane_setLane_ne (x : VWord) {w k j : Nat} (b : Nat) (hk : j ≠ k) (h : w * j + w ≤ 2048) :
    lane (setLane x w k b) w j = lane x w j := by
  apply Nat.eq_of_testBit_eq
  intro i
  rw [testBit_lane, testBit_lane]
  by_cases hi : i < w
  · rw [getLsbD_setLane _ _ _ _ _ (by omega)]
    have : ¬ (w * k ≤ w * j + i ∧ w * j + i < w * k + w) := by
      rcases Nat.lt_or_gt_of_ne hk with hlt | hgt
      · have : w * (j + 1) ≤ w * k := Nat.mul_le_mul_left w hlt
        rw [Nat.mul_add] at this; omega
      · have : w * (k + 1) ≤ w * j := Nat.mul_le_mul_left w hgt
        rw [Nat.mul_add] at this; omega
    rw [if_neg this]
  · simp [hi]

/-- An element that a list of replacements does not name. -/
theorem lane_setLanes_ne (w j : Nat) (hj : w * j + w ≤ 2048) (es : List (Nat × Nat)) : ∀ x : VWord, (∀ e ∈ es, e.1 ≠ j) →
    lane (setLanes x w es) w j = lane x w j := by
  induction es with
  | nil => intro x _; rfl
  | cons e es ih =>
    intro x h
    show lane (setLanes (setLane x w e.1 e.2) w es) w j = _
    rw [ih _ (fun e' he' => h e' (List.mem_cons_of_mem _ he')), lane_setLane_ne _ _ (Ne.symm (h e (List.mem_cons_self ..))) hj]

/-- An element that a list of replacements names once. -/
theorem lane_setLanes_mem (w j b : Nat) (hj : w * j + w ≤ 2048) (es : List (Nat × Nat)) : ∀ x : VWord, (es.map (·.1)).Nodup →
    (j, b) ∈ es → lane (setLanes x w es) w j = b % 2 ^ w := by
  induction es with
  | nil => intro x _ h; cases h
  | cons e es ih =>
    intro x hn hm
    show lane (setLanes (setLane x w e.1 e.2) w es) w j = _
    rw [List.map_cons, List.nodup_cons] at hn
    rcases List.mem_cons.mp hm with he | he
    · subst he
      rw [lane_setLanes_ne w j hj es _ (fun e' he' hh => hn.1 (List.mem_map.mpr ⟨e', he', hh⟩)), lane_setLane_self _ _ hj]
    · exact ih _ hn.2 he

end Sys2Proof.Machine
end

