-- ==== Sys2Proof/Tests/Slice0.lean ====
section
/-! SUPPORT. Tests: ill-formed terms that the checks refuse, words written out from the manual's encodings, single steps on small states with
results worked out by hand from the manual, and a witness for the hypotheses of every statement. -/

-- one theorem at a time: many at once would each hold a thread's stack
set_option Elab.async false

namespace Sys2Proof.Tests

open Sys2Proof Sys2Proof.Machine

/-! ## Well-formedness: an ill-formed term for each check (R54, R56) -/

theorem test_wf_refuses_guard : (Instr.cvy 0 48 false .rne false false).wf = false ∧ (Instr.cvy 0 62 false .rne false false).wf = false ∧
    (Instr.cvy 0 63 false .rne false false).wf = true ∧ (Instr.cvy 0 47 false .rne false false).wf = true := by decide

theorem test_wf_refuses_logic_predicates : ∀ i ∈ [Instr.pand 48 0 0, .pand 0 48 0, .pand 0 0 48, .por 48 0 0, .por 0 48 0, .por 0 0 48,
    .pxor 48 0 0, .pxor 0 48 0, .pxor 0 0 48, .pandn 48 0 0, .pandn 0 48 0, .pandn 0 0 48, .pnot 48 0, .pnot 0 48], i.wf = false := by decide

theorem test_wf_refuses_counted_predicates : ∀ i ∈ [Instr.pset 48 0 0, .pset 0 0 48, .pcnt 0 48 0, .pcnt 0 0 48, .pfirst 0 48 0, .pfirst 0 0 48,
    .pmvs 0 48 0, .pmvs 0 0 48, .pmvp 48 0 0, .pmvp 0 0 63], i.wf = false := by decide

theorem test_wf_refuses_other_predicates : ∀ i ∈ [Instr.vcmp 48 0 (.v 0) .eq, .vcomp 0 0 48, .vexpd 0 0 48, .xbatchCopy 48 0, .xbatchFabric 48 0,
    .xbatchColl 63 0], i.wf = false := by decide

/-! ## Words written out from the manual's encodings -/

/-- A word of format R from its fields: major, d, a, b, fn (R53). -/
def wR (op d a b fn : Nat) : Nat := op * 2 ^ 26 + d * 2 ^ 20 + a * 2 ^ 14 + b * 2 ^ 8 + fn

theorem test_decode_transfers : decodeWord 0x04850000 = .ok (.cvy 2 5 false .rne false false) ∧ decodeWord 0x50004000 = .ok (.jr 0 1 0) ∧
    -- `jmp` −1 word, `call` +2 words (R84), `br.lt` s5, s6, −4 words (R83)
    decodeWord 0x4BFFFFFF = .ok (.jmp (-1)) ∧ decodeWord 0x4C000002 = .ok (.call 2) ∧
    decodeWord (0x11 * 2 ^ 26 + 5 * 2 ^ 20 + 6 * 2 ^ 14 + 2 * 2 ^ 11 + 0x7FC) = .ok (.br 5 6 .lt (-4)) := by decide

theorem test_decode_scalar : decodeWord (wR 0x02 5 6 7 0) = .ok (.add 5 6 7) ∧ decodeWord (wR 0x03 5 6 0x3F 0xF8) = .ok (.addi 5 6 (-8)) ∧
    decodeWord (wR 0x09 5 6 0 12) = .ok (.slli 5 6 12) ∧ decodeWord 0x385187A0 = .ok (.fma 5 6 7 true 8) ∧
    decodeWord 0x38518720 = .ok (.fma 5 6 7 false 8) := by decide

theorem test_decode_memory : decodeWord 0x80518040 = .ok (.vld 5 6 64) ∧ decodeWord 0x84418701 = .ok (.vldx 4 6 7) ∧
    decodeWord 0x88D10000 = .ok (.vst 13 4 0) ∧ decodeWord 0x945187D0 = .ok (.amoAdd 5 6 7 .ar true) ∧
    decodeWord 0x94518749 = .ok (.cas 5 6 7 .acq false) ∧ decodeWord 0x90518717 = .ok (.vamoFadd 5 6 7 true) := by decide

theorem test_decode_system : decodeWord 0x5C505000 = .ok (.mfs 5 0x050) ∧ decodeWord 0x6006C008 = .ok (.fenceFull .pkg) ∧
    decodeWord (wR 0x18 0 0 0 0) = .ok .sysc ∧ decodeWord (wR 0x18 0 0 0 1) = .ok .eret := by decide

theorem test_decode_vector : decodeWord 0x68001000 = .ok (.vtag 0 16) ∧ decodeWord 0x68920301 = .ok (.vsetl 9 8 3) ∧
    decodeWord 0x68014002 = .ok (.vhwm 5) ∧ decodeWord 0x6C804202 = .ok (.vmul 8 1 (.v 2)) ∧ decodeWord 0x6CD20500 = .ok (.vadd 13 8 (.v 5)) ∧
    decodeWord 0x7480420C = .ok (.vfma 8 1 2 3) ∧ decodeWord 0x78310982 = .ok (.vcmp 3 4 (.s 9) .lt) ∧ decodeWord 0x64214005 = .ok (.pset 2 5 0) ∧
    decodeWord 0x7CA08008 = .ok (.vredSum 10 2) ∧ decodeWord 0x7CA08308 = .ok (.vredAmax 10 2) := by decide

theorem test_decode_matrix : decodeWord 0xAC800001 = .ok (.mzero 8) ∧ decodeWord 0xAD420902 = .ok (.mread 20 8 9) ∧ decodeWord 0xAC850003 = .ok (.mload 8 20) ∧
    decodeWord 0xAC000004 = .ok .mfence ∧ decodeWord 0xB0851500 = .ok (.mma 8 20 21) ∧ decodeWord 0xB0851501 = .ok (.mmab 8 20 21) ∧
    decodeWord 0xB1654002 = .ok (.mdec 22 21) ∧ decodeWord 0xB0851603 = .ok (.mmanm 8 20 22) ∧ decodeWord 0xB0851604 = .ok (.mrem 8 20 22) ∧
    decodeWord 0xB085D805 = .ok (.mscan 8 23 24) := by decide

theorem test_decode_collective : decodeWord 0xB8928000 = .ok (.cgrp 9 10) ∧ decodeWord 0xB8928B01 = .ok (.cprg 9 10 11) ∧
    decodeWord 0xB8928002 = .ok (.cstart 9 10) ∧ decodeWord 0xB8928003 = .ok (.cwait 9 10) ∧ decodeWord 0xB8928004 = .ok (.cpoll 9 10) ∧
    decodeWord 0xB8928005 = .ok (.cabort 9 10) ∧ decodeWord 0xB8928B08 = .ok (.cjoin 9 10 11) := by decide

theorem test_decode_barriers_tasks : decodeWord 0x9801C900 = .ok (.binit 7 9) ∧ decodeWord 0x98A1C001 = .ok (.barrive 10 7) ∧
    decodeWord 0x9801CC02 = .ok (.bexpect 7 12) ∧ decodeWord 0x9801CA03 = .ok (.bwait 7 10) ∧ decodeWord 0x98B1C004 = .ok (.btest 11 7 0) ∧
    decodeWord 0x98A1C005 = .ok (.step 10 7) ∧ decodeWord 0x9C614000 = .ok (.spawn 6 5) ∧ decodeWord 0x9C000001 = .ok .texit ∧
    decodeWord 0x9C518702 = .ok (.tgraph 5 6 7) := by decide

theorem test_decode_tiles : decodeWord 0xA1454400 = .ok (.tld 20 21 4) ∧ decodeWord 0xA1454401 = .ok (.tst 20 21 4) ∧
    decodeWord 0xA1458002 = .ok (.tcpy 20 22) ∧ decodeWord 0xA1424003 = .ok (.tfill 20 9) ∧ decodeWord 0xA1400004 = .ok (.ttag 20) ∧
    decodeWord 0xA1459705 = .ok (.tpack 20 22 23) ∧ decodeWord 0xA1458006 = .ok (.tunpk 20 22) ∧ decodeWord 0xA0928007 = .ok (.twait 9 10) ∧
    decodeWord 0xA4518700 = .ok (.vldt 5 6 7) ∧ decodeWord 0xA4518701 = .ok (.vstt 5 6 7) ∧ decodeWord 0xA8320000 = .ok (.xbatchCopy 3 1) := by decide

theorem test_decode_fabric_test : decodeWord 0xB4050000 = .ok (.scfg 20) ∧ decodeWord 0xB4928B01 = .ok (.sgo 9 10 11) ∧
    decodeWord 0xB4C24002 = .ok (.smark 12 9) ∧ decodeWord 0xB4034003 = .ok (.sdrain 13) ∧ decodeWord 0xB4C34004 = .ok (.sstat 12 13) ∧
    decodeWord 0xB4050E05 = .ok (.stwld 20 14) ∧ decodeWord 0xFC518000 = .ok (.dgrd 5 6) ∧ decodeWord 0xFC018701 = .ok (.dgwr 6 7) := by decide

/-- Reserved majors, codes and fields are refused (R54, R56): major 0, `br` condition 6, a scalar field of 32, a predicate field of 48. -/
theorem test_decode_refuses : (∀ i, decodeWord 0 ≠ .ok i) ∧ decodeWord (0x11 * 2 ^ 26 + 6 * 2 ^ 11) = .error (.condition 6) ∧
    decodeWord (wR 0x02 32 6 7 0) = .error (.scalarField 32) ∧ decodeWord (wR 0x19 48 0 0 0) = .error (.predicateField 48) :=
  ⟨(by intro i h; cases h), by decide, by decide, by decide⟩

/-! ## Small states -/

/-- A hart at supervisor level with a trap handler and no first instruction after an entry. -/
def hart0 : Hart := { Hart.reset with run := .running, trapBase := 0x100000#64, pc := 0x1000#64 }

/-- Range entry 0 of a core: addresses 0x10000 to 0x8FFFF of context 0 lie at the same place of the flat HBM window, with all permissions. -/
def flat : SMap Word := [(0, 0x10000#64), (1, 0x90000#64), (2, 0x10000#64), (3, 0x3D#64)]

/-- A package whose hart 0 runs, whose stacks are up, and whose core 0 translates as `flat` says. -/
def box (h : Hart) : State :=
  { State.reset with harts := [(0, h)], cores := [(0, { Core.reset with ranges := flat })], host := { hbm := 0xFF#64 }, turn := .hart 0 }

/-- Hart 0 with some scalar registers set. -/
def withS (rs : List (SReg × Word)) : Hart := rs.foldl (fun h r => h.setS r.1 r.2) hart0

/-- What a step's next state satisfies. -/
def after (i : Instr) (s : State) (f : State → Bool) : Bool := match exec i s with | .next t => f t | _ => false

/-! ## Scalar instructions (04) -/

/-- R73: a sum wraps, a source that is also the destination is read first, and s0 stays zero. -/
theorem test_add_wraps : after (.add 5 5 5) (box (withS [(5, 0x8000000000000001)])) (fun t =>
    t.hart.sreg 5 = 2 && t.hart.pc = 0x1004#64) = true ∧
    after (.add 0 5 5) (box (withS [(5, 1)])) (fun t => t.hart.sreg 0 = 0 && t.hart.pc = 0x1004#64) = true := by decide +kernel

/-- R31: the most negative dividend over −1, and a zero divisor. -/
theorem test_div_corners : after (.div 7 5 6) (box (withS [(5, 0x8000000000000000), (6, -1)])) (fun t => t.hart.sreg 7 = 0x8000000000000000) = true ∧
    after (.rem 7 5 0) (box (withS [(5, 9)])) (fun t => t.hart.sreg 7 = 9) = true := by decide +kernel

/-- R73: high halves and counts. -/
theorem test_mulh_clz : after (.mulh 7 5 6) (box (withS [(5, -1), (6, 2)])) (fun t => t.hart.sreg 7 = -1) = true ∧
    after (.clz 7 0) (box hart0) (fun t => t.hart.sreg 7 = 64) = true ∧
    after (.ctz 7 5) (box (withS [(5, 0x8000000000000000)])) (fun t => t.hart.sreg 7 = 63) = true := by decide +kernel

/-- R29, R78: 1 + 2^−53 rounds to even in fp64 and is inexact; R79 keeps it until the end. -/
theorem test_fadd_rounds : after (.fadd 7 5 6 true) (box (withS [(5, 0x3FF0000000000000), (6, 0x3CA0000000000000)])) (fun t =>
    t.hart.sreg 7 = 0x3FF0000000000000 && t.hart.fflags ≠ 0) = true := by decide +kernel

/-- R84: `call` links PC + 4 in s1. -/
theorem test_call_links : after (.call (-1)) (box hart0) (fun t => t.hart.pc = 0xFFC#64 && t.hart.sreg 1 = 0x1004#64) = true := by decide +kernel

/-- R92, R321: `sysc` goes to TRAPBASE + 9 × 64 with TRAPPC at itself. -/
theorem test_sysc_traps : after .sysc (box hart0) (fun t => t.hart.pc = 0x100240#64 && t.hart.trapPc = 0x1000#64 && t.hart.trapCause = 9) = true := by
  decide +kernel

/-- R81: a store of a halfword and a sign-extended load of its upper byte. -/
theorem test_st_ld : after (.st 6 5 .h 2) (box (withS [(5, 0x10000), (6, 0x12348001)])) (fun t =>
    t.mem.cells.read 0x10002 = 0x01 && t.mem.cells.read 0x10003 = 0x80 && t.mem.cells.read 0x10004 = 0 &&
      after (.ld 7 5 .b 3) t (fun u => u.hart.sreg 7 = 0xFFFFFFFFFFFFFF80)) = true := by decide +kernel

/-- R72: a misaligned word. -/
theorem test_ld_misaligned : after (.ld 7 5 .w 2) (box (withS [(5, 0x10000)])) (fun t =>
    t.hart.trapCause = 4 && t.hart.trapVal = 0x10002#64 && t.hart.pc = 0x100100#64) = true := by decide +kernel

/-- R163: `amo.add` of a word returns the old value sign-extended and stores the sum. -/
theorem test_amo_add : after (.amoAdd 7 5 6 .ar false) { box (withS [(5, 0x10000), (6, 1)]) with mem := { cells := [(0x10000, 0xFF), (0x10001, 0xFF),
    (0x10002, 0xFF), (0x10003, 0xFF)] } } (fun t => t.hart.sreg 7 = -1 && t.mem.cells = []) = true := by decide +kernel

/-! ## Special registers and the machine's turn -/

/-- R12: a VL above VLMAX reads back as VLMAX; R17: VW 3 gives 64 elements. -/
theorem test_mts_vl_clips : after (.mts 5 0x001) (box (withS [(5, 0x31FF)])) (fun t => t.readSr 0 1 = 0x3040#64) = true := by decide +kernel

/-- R52: a step fetches the word at the PC, here `addi s5, s6, 1`, and runs it; at reset it runs it as the first instruction. -/
theorem test_step_runs_fetched : (match step ((box (withS [(6, 7)])).withFetchWord 32 0x0C518001) with
    | .next t => decide ((t.hartAt 0).sreg 5 = 8) | _ => false) = true ∧
    (match step (State.reset.withFetchWord 32 0x0C518001) with | .next t => decide ((t.hartAt 0).sreg 5 = 1) | _ => false) = true := by decide +kernel

/-! ## Witnesses: for every statement with hypotheses, a state and operands that meet them -/

/-- An access that answers a value and a state which `P` accepts. -/
def okOf {ε α β : Type} (r : Except ε α × β) (P : α → β → Bool) : Bool := match r with | (.ok x, s) => P x s | _ => false
/-- An access that is refused, with a state which `P` accepts. -/
def errOf {ε α β : Type} (r : Except ε α × β) (P : ε → β → Bool) : Bool := match r with | (.error e, s) => P e s | _ => false
/-- A search that finds a value, with a state which `P` accepts. -/
def someOf {α β : Type} (r : Option α × β) (P : α → β → Bool) : Bool := match r with | (some x, s) => P x s | _ => false

theorem okOf_iff {ε α β : Type} {r : Except ε α × β} {P : α → β → Bool} (h : okOf r P = true) : ∃ x s, r = (.ok x, s) ∧ P x s = true := by
  obtain ⟨r1, s⟩ := r
  cases r1 with
  | ok x => exact ⟨x, s, rfl, h⟩
  | error _ => cases h
theorem errOf_iff {ε α β : Type} {r : Except ε α × β} {P : ε → β → Bool} (h : errOf r P = true) : ∃ e s, r = (.error e, s) ∧ P e s = true := by
  obtain ⟨r1, s⟩ := r
  cases r1 with
  | error e => exact ⟨e, s, rfl, h⟩
  | ok _ => cases h
theorem someOf_iff {α β : Type} {r : Option α × β} {P : α → β → Bool} (h : someOf r P = true) : ∃ x s, r = (some x, s) ∧ P x s = true := by
  obtain ⟨r1, s⟩ := r
  cases r1 with
  | some x => exact ⟨x, s, rfl, h⟩
  | none => cases h

/-! ### Encoding and scalar instructions -/

theorem test_witness_DecodeOfEncode : (Instr.add 31 31 31).wf = true ∧ encode (.add 31 31 31) = some 0x09F7DF00 := by decide
theorem test_witness_EncodeOfDecode : 0xFC018701 < 2 ^ 32 ∧ decodeWord 0xFC018701 = .ok (.dgwr 6 7) := by decide

theorem test_witness_OneSourceResults : (hart0.sreg 5).toNat = 0 ∧
    (∀ p ∈ [(0, 0x8000000000000000), (63, 1)], p.1 < 64 ∧ 2 ^ (63 - p.1) ≤ p.2 ∧ p.2 < 2 ^ (64 - p.1) ∧ ((withS [(5, word p.2)]).sreg 5).toNat = p.2) ∧
    (∀ p ∈ [(0, 1), (63, 0x8000000000000000)], p.2 % 2 ^ p.1 = 0 ∧ p.2 / 2 ^ p.1 % 2 = 1) := by decide +kernel

/-- A pattern of fp64 for each of the ten classes. -/
theorem test_witness_FloatCompares : ∀ p ∈ [(0, 0xFFF0000000000000), (1, 0x8010000000000000), (2, 0x8000000000000001), (3, 0x8000000000000000), (4, 0),
    (5, 0x000FFFFFFFFFFFFF), (6, 0x7FEFFFFFFFFFFFFF), (7, 0x7FF0000000000000), (8, 0x7FF0000000000001), (9, 0x7FF8000000000000)],
    let x := ((withS [(5, word p.2)]).sreg 5).toNat % 2 ^ 64
    let neg := x / 2 ^ 63 = 1
    let ex := x / 2 ^ 52 % 2 ^ 11
    let fr := x % 2 ^ 52
    (p.1 = 0 ∧ neg ∧ ex = 2047 ∧ fr = 0) ∨ (p.1 = 1 ∧ neg ∧ 0 < ex ∧ ex < 2047) ∨ (p.1 = 2 ∧ neg ∧ ex = 0 ∧ fr ≠ 0) ∨ (p.1 = 3 ∧ neg ∧ ex = 0 ∧ fr = 0) ∨
      (p.1 = 4 ∧ ¬neg ∧ ex = 0 ∧ fr = 0) ∨ (p.1 = 5 ∧ ¬neg ∧ ex = 0 ∧ fr ≠ 0) ∨ (p.1 = 6 ∧ ¬neg ∧ 0 < ex ∧ ex < 2047) ∨
      (p.1 = 7 ∧ ¬neg ∧ ex = 2047 ∧ fr = 0) ∨ (p.1 = 8 ∧ ex = 2047 ∧ fr ≠ 0 ∧ fr < 2 ^ 51) ∨ (p.1 = 9 ∧ ex = 2047 ∧ 2 ^ 51 ≤ fr) := by decide +kernel

theorem test_witness_TransfersGo : let h := withS [(5, -1), (6, 1), (7, 0xFFFFFFFFFFFFF0)]
    (h.sreg 5).toInt < (h.sreg 6).toInt ∧ ¬ (h.sreg 5).toNat < (h.sreg 6).toNat ∧ h.sreg 5 ≠ h.sreg 6 ∧ h.sreg 5 = h.sreg 5 ∧
      (h.sreg 7 + BitVec.ofInt 64 (12 : BitVec 14).toInt).toNat % 4 = 0 ∧ canonical (h.sreg 7 + BitVec.ofInt 64 (12 : BitVec 14).toInt) = true := by decide +kernel

theorem test_witness_StripMiningLoops : let h : Hart := { withS [(5, 64), (6, 0x10000)] with loopSz := 0x8000#64, vl := 0x2040#64 }
    bit h.loopSz 15 = true ∧ [(5 : SReg), 6, 0, 0, 31].Pairwise (fun a b => a ≠ b ∨ a = 0) ∧ (h.sreg 5 - word (field h.vl 9 0)).toInt ≤ 0 ∧
      0 < ((withS [(5, 65)]).sreg 5 - word (field h.vl 9 0)).toInt := by decide +kernel

theorem test_witness_TransferTraps : let s := box (withS [(5, 0x10002), (6, 0x100000000000000)])
    CanTrap s ∧ (s.hart.sreg 5).toNat % 4 ≠ 0 ∧ (s.hart.sreg 6).toNat % 4 = 0 ∧ canonical (s.hart.sreg 6) = false ∧ bit s.hart.loopSz 15 = false ∧
      encode (.strip 5 0 0 0 0) ≠ none := by
  refine ⟨⟨?_, ?_⟩, ?_⟩ <;> decide +kernel

theorem test_witness_SpecialRegisterReads : srKind (0x1 : BitVec 12).toNat ≠ none ∧ (0x1 : BitVec 12).toNat < 0x100 ∧ srKind (0x121 : BitVec 12).toNat ≠ none ∧
    (box hart0).hart.sup = true := by decide +kernel

theorem test_witness_SpecialRegisterWrites : let s := box (withS [(5, 0x31FF)])
    (∀ n ∈ [0x000, 0x001, 0x008, 0x100, 0x113], srKind n = some .rw) ∧ s.hart.sup = true ∧ s.hart.conv = none ∧
      (Instr.mts 5 0x001, s.hart.sreg 5) ∈ [(Instr.mts 5 0x001, s.hart.sreg 5)] ∧
      srForbidden s.hart 0x001 (s.hart.sreg 5 &&& word (srMask 0x001)) = false := by decide +kernel

theorem test_witness_SpecialRegisterTraps : let s := box hart0
    CanTrap s ∧ CanTrap (box { hart0 with status := 0 }) ∧ (box { hart0 with status := 0 }).hart.sup = false ∧ s.hart.sup = true ∧ encode (.mfs 5 0x100) ≠ none ∧
      srKind 0x0FF = none ∧ srKind 0x200 = none ∧ srKind 0x040 = some .ro ∧
      -- the edges of what R12 forbids
      (∀ x ∈ [48, 62, 0x500], (48 ≤ x % 64 ∧ x % 64 ≤ 62) ∨ 5 ≤ x / 256 % 8) ∧ 0x10000 % 2 ^ 16 = 0 ∧ 2 ^ 32 % 2 ^ 32 = 0 ∧
      (∀ x ∈ [2, 65535, 2 ^ 31 + 1], x % 2 = 0 ∨ x % 2 ^ 32 ≤ 2 ^ 16 ∨ 2 ^ 31 ≤ x % 2 ^ 32) ∧ (0x3F800000 < 0x3F800001 % 2 ^ 32 ∧ 0x3F800001 % 2 ^ 32 ≠ 0x80000000) ∧
      s.hart.tl.toNat ≤ 1 % 2 ^ 16 ∧ s.hart.tc.toNat ≤ 1 % 2 ^ 32 ∧
      (∀ x ∈ [0x800F, 0x811F], x / 2 ^ 15 % 2 = 1 ∧ (x / 16 % 32 = 0 ∨ 16 < x % 16 + x / 16 % 32)) ∧ srKind 0x121 = some .clear := by
  refine ⟨⟨?_, ?_⟩, ⟨?_, ?_⟩, ?_⟩ <;> decide +kernel

theorem test_witness_TrapsAreTaken : CanTrap (box hart0) ∧ CanTrap (box { hart0 with status := 0 }) ∧ (box { hart0 with status := 0 }).hart.sup = false ∧
    encode .eret = some 0x60000001 ∧ (∃ c v vec s, (box hart0).fetchAt hart0.pc = (.fault ⟨c, v, vec⟩, s) ∧ CanTrap s) := by
  refine ⟨⟨?_, ?_⟩, ⟨?_, ?_⟩, ?_, ?_, 5, 0x1000#64, 0, box hart0, ?_, ?_, ?_⟩ <;> decide +kernel

/-- Both reasons to freeze: no handler, and the first instruction after an entry. -/
theorem test_witness_TrapWithoutHandlerFreezes : ¬CanTrap (box { hart0 with trapBase := 0 }) ∧ ¬CanTrap (box { hart0 with atEntry := true }) ∧
    (let s := box { hart0 with trapBase := 0 }; s.recordRoom s.coreNum = true ∧ (s.coreAt s.coreNum).unposted = [] ∧
      ({ s with cores := [(0, { Core.reset with records := List.replicate 16 { core := 0, master := 0, cause := 9, kind := 8 } })] } : State).recordRoom 0 = false) :=
  ⟨fun h => h.1 (by decide +kernel), fun h => Bool.false_ne_true (h.2.symm.trans (by decide +kernel)), by decide +kernel⟩

theorem test_witness_EretReturns : (box hart0).hart.sup = true := by decide +kernel

theorem test_witness_WfiWaitsForInterrupt : let s := box { hart0 with status := 3#64 }
    let t : State := { s with host := { s.host with svdb := 1#64 } }
    s.hart.sup = true ∧ s.pendingFor s.cur = false ∧ t.pendingFor t.cur = true ∧ t.superHart (t.cur / 512) = some t.cur ∧ t.hart.ie = true ∧
      t.hart.trapBase ≠ 0 ∧ t.hart.conv = none ∧ t.hostPending 0 = true ∧
      ({ t with dies := [(0, { Die.reset with fren := true, frwr := 1 })] } : State).recordPending 0 = true := by decide +kernel

/-! ### Maintenance, predicates, vectors -/

/-- Hart 0 with registers v1 and v2 of a tag, and VL of 8 elements of 32 bits. -/
def vecHart (t : Tag) : Hart := { hart0 with tags := [(1, t), (2, t)], vl := 0x3008#64 }

theorem test_witness_FencesAndMaintenance : let s := box (withS [(5, 0x10000), (6, 0x3FFFF), (7, 0x40000), (8, 0x1000)])
    s.hart.sup = true ∧ field (s.hart.sreg 6) 63 18 = 0 ∧ field (s.hart.sreg 7) 63 18 ≠ 0 ∧ encode (.tlbinv 5 7) ≠ none ∧ (5 : SReg) ≠ 0 ∧
      errOf (s.checkAccess .load (s.hart.sreg 8) 1) (fun _ _ => true) = true ∧
      (∀ a ∈ [Access.load, .store], okOf (s.checkAccess a (s.hart.sreg 5) 1) (fun x s' =>
        (s'.mem.lines.find? (fun l => l.core = s.cur / 8 && l.line = x.pa / 64)).isNone && s'.part.key? x.pa = some 0x10000 && s'.stackReady x.pa) = true) ∧
      s.oldAccesses (fun _ _ _ => true) = false ∧
      ({ s with dies := [(0, { Die.reset with pending := [⟨0x10000, [1], 512, [0, 0, 0, 0]⟩] })] } : State).oldAccesses (fun _ _ _ => true) = true ∧
      CanTrap s := by
  refine ⟨?_, ?_, ?_, ?_, ?_, ?_, ?_, ?_, ?_, ?_, ?_⟩ <;> decide +kernel

/-- The tag clauses: an unpaired tag, a pair below v63 and at its edge, a side code and a reserved code. -/
theorem test_witness_VectorConfiguration : (∀ p ∈ [(0x10, Tag.fp32), (0x15, .e2m1x), (0x18, .bfp16)], Tag.ofCode? p.1 = some p.2 ∧ p.2.isSide = false) ∧
    (hart0.tag 62).isSide = false ∧ (62 : VReg) ≠ 63 ∧ (vecHart .e2m1x).tag 1 = .e2m1x ∧ (Tag.ofCode? 0x22).map (·.isSide) = some true ∧
    (Tag.ofCode? 0x3F).map (·.isSide) = none ∧ (Tag.ofCode? 0x15).map (·.paired) = some true ∧ encode (.vtag 63 0x15) ≠ none := by decide +kernel

/-- Operation types of each kind: integers, floating point with an untyped destination, residues, and three sources. -/
theorem test_witness_VectorArithmeticResults : ∀ t ∈ [Tag.int32, .fp32, .mod32], let h := vecHart t
    opType [h.tag 1, h.tag 2] = some t ∧ opType [h.tag 1] = some t ∧ opType [h.tag 1, h.tag 2, h.tag 1] = some t ∧ t ≠ .untyped ∧
      (h.takeDest 3 t).map (·.2) = some t ∧ converts t t = true ∧ h.blocksOk t = true ∧ scalarFormOk h [.v 1, .v 2] = true ∧ scalarFormOk h [.v 1, .s 0 0] = true ∧
      (match h.modCheck t [.v 1, .v 2] (h.row h.first (h.count 32)) with | .ok f => decide (f = 0) | .error _ => false) = true := by decide +kernel

/-- No common type; and a residue at MODULUS in element 0, the lowest, and not one below. -/
theorem test_witness_VectorOperandTagTraps : opType [(vecHart .untyped).tag 1, (vecHart .untyped).tag 2] = none ∧ encode (.vadd 3 1 (.v 2)) ≠ none ∧
    -- one case of each shape of the list
    (let u := vecHart .untyped; let b := vecHart .bfp16
      opType [u.tag 1] = none ∧ u.tag 2 = .untyped ∧ (u.tag 2).isInt = false ∧ b.tag 1 = .bfp16 ∧ b.blocksOk .bfp16 = false ∧ convertible .untyped .untyped = false ∧
        opType [(vecHart .mod32).tag 1, (vecHart .mod32).tag 2] = some .mod32 ∧ (bitwiseDest b 3 1 none).isNone = true ∧
        (moveDest (vecHart .int32) 2 1).isSome = true ∧ (moveDest { hart0 with tags := [(1, .int32), (2, .fp32)] } 2 1).isNone = true ∧
        (normDest u 2 1).isNone = true ∧ (permuteDest b 2 1).isNone = true ∧
        (∀ i ∈ [Instr.vneg 3 1, .vfma 3 1 2 1, .vshl 3 1 (.v 2), .vsel 3 1 (.v 2), .vcvt 3 1, .vcmp 3 1 (.v 2) .lt, .vredSum 3 1, .vld 1 5 0], encode i ≠ none)) ∧
    (let h : Hart := { vecHart .mod32 with v := [(1, 0x78000001#2048)] };
      opType [h.tag 1, h.tag 2] = some .mod32 ∧ (h.takeDest 3 .mod32).map (·.2) = some .mod32 ∧ h.sat = false ∧ h.runs 32 0 = true ∧ h.runs 32 7 = true ∧
        h.prime ≤ h.bitsOf .mod32 (.v 1) 0 ∧ h.bitsOf .mod32 (.v 1) 1 < h.prime) ∧ CanTrap (box (vecHart .mod32)) := by
  refine ⟨?_, ?_, ?_, ?_, ⟨?_, ?_⟩⟩ <;> decide +kernel

/-- Each kind of operation with a rule of its own. -/
theorem test_witness_VectorOtherResults : let h := vecHart .int32; let b : Hart := { vecHart .bfp16 with tags := [(2, .bfp16), (3, .bfps)], vl := 0x3040#64 }
    (h.tag 1).isInt = true ∧ (h.takeDest 3 (h.tag 1)).map (·.2) = some .int32 ∧ converts .int32 .int32 = true ∧ h.blocksOk .int32 = true ∧
      opType [h.tag 1, h.tag 2] = some .int32 ∧ Tag.int32 ≠ .mod32 ∧ scalarFormOk h [.v 1, .v 2] = true ∧ Tag.int32.paired = false ∧ Tag.int32.isSide = false ∧
      h.tag 3 = .untyped ∧ Tag.int32.width h.vwBits = h.width 1 ∧ h.width 2 = h.width 1 ∧
      (let c : Hart := { h with tags := [(1, .int32), (3, .fp32)] }; convertible (c.tag 1) (c.tag 3) = true ∧ c.blocksOk .fp32 = true ∧
        (match c.modCheck .int32 [.v 1] (c.row c.first (c.count 32)) with | .ok f => decide (f = 0) | .error _ => false) = true) ∧
      (let c : Hart := { h with tags := [(1, .untyped), (2, .int32), (4, .bfp16), (5, .bfps)] };
        c.tag 1 = .untyped ∧ (c.tag 2).isInt = true ∧ (c.tag 5).isSide = true ∧ c.tag 3 = .untyped) ∧
      b.tag 2 = .bfp16 ∧ (b.takeDest 4 .bfp16).map (·.2) = some .bfp16 ∧ b.guard = 63 ∧ b.first = 0 ∧ b.vlen % 64 = 0 ∧ b.vlen ≤ 128 ∧ 4 + 1 ≠ 2 ∧ 2 + 1 ≠ 4 := by
  decide +kernel

theorem test_witness_CompareResults : ∀ t ∈ [Tag.int32, .fp32, .mod32], let h := vecHart t
    opType [h.tag 1, h.tag 2] = some t ∧ scalarFormOk h [.v 1, .v 2] = true ∧
      (match h.modCheck t [.v 1, .v 2] (h.row h.first (h.count (widest (h.srcWidths [.v 1, .v 2])))) with | .ok f => decide (f = 0) | .error _ => false) = true := by
  decide +kernel

theorem test_witness_PermuteResults : let h := vecHart .int32
    (h.tag 3).paired = false ∧ (h.tag 1).paired = false ∧ (h.tag 1).isSide = false ∧ h.tag 3 = .untyped ∧ h.tag 2 = h.tag 1 ∧ (h.tag 2).isInt = true := by
  decide +kernel

/-- A row of one element and of as many as the register holds. -/
theorem test_witness_ReductionResults : ((vecHart .int32).tag 1).isInt = true ∧ (vecHart .int32).tag 3 = .untyped ∧ (vecHart .int32).tag 2 = (vecHart .int32).tag 1 ∧
    0 < ({ vecHart .int32 with vl := 0x3001#64 } : Hart).vlen ∧ 0 < ({ vecHart .int32 with vl := 0x3040#64 } : Hart).vlen ∧
    ({ vecHart .int32 with vl := 0x3000#64 } : Hart).vlen = 0 ∧
    -- floats, residues and integers, into their own tag and into another, and an untyped register
    (∀ t ∈ [Tag.fp32, .mod32, .int32], let h := vecHart t
      t.numeric = true ∧ t.paired = false ∧ (h.takeDest 3 t).map (·.2) = some t ∧ converts t t = true ∧
        (match h.modCheck t [.v 1] ((List.range 8).filter h.active) with | .ok f => decide (f = 0) | .error _ => false) = true) ∧
    (({ vecHart .int32 with tags := [(1, .int32), (2, .fp32)] } : Hart).takeDest 2 .int32).map (·.2) = some .fp32 ∧ converts .int32 .fp32 = true ∧
    ((vecHart .untyped).takeDest 3 .untyped).map (·.2) = some .untyped ∧ converts .untyped .untyped = true := by decide +kernel

/-- R73, R106: element-wise sums wrap in the element. -/
theorem test_vadd_wraps : after (.vadd 3 1 (.v 2)) (box { vecHart .uint8 with v := [(1, 0x01FF#2048), (2, 0x0102#2048)] }) (fun t =>
    lane (t.hart.vreg 3) 8 0 = 1 && lane (t.hart.vreg 3) 8 1 = 2 && t.hart.tag 3 = .uint8) = true := by decide +kernel

/-- R116: `pset` from lo = 1 to below hi = 3. -/
theorem test_pset : after (.pset 2 5 0) (box (withS [(5, 0x30001)])) (fun t => t.hart.preg 2 = 6) = true := by decide +kernel

/-- R122: the sum of an empty selection is 0, and VL elements are summed. -/
theorem test_vred_sum : after (.vredSum 3 1) (box { vecHart .int32 with v := [(1, 0x0000000300000002#2048)] }) (fun t => lane (t.hart.vreg 3) 32 0 = 5) = true := by
  decide +kernel

/-! ### Memory -/

/-- Hart 0 with an address of `flat` in s5, its last byte in s6, an address outside it in s7, and one of another region in s8. -/
def memHart : Hart := withS [(5, 0x10000), (6, 0x8FFFF), (7, 0x90000), (8, 0x1000)]

/-- `box` with range entry 0 of another target type and place. -/
def boxAt (base : Word) (attr : Word) : State :=
  { box memHart with cores := [(0, { Core.reset with ranges := [(0, 0x10000#64), (1, 0x90000#64), (2, base), (3, attr)] })] }

/-- `box` whose word at 0x10000 is poisoned. -/
def marked : State := { box memHart with mem := { poison := [(0x1000, true)] } }

theorem test_witness_ScalarLoads :
    (∀ p ∈ [((5 : SReg), 8), (6, 1)], okOf ((box memHart).checkAccess .load (memHart.sreg p.1) p.2) (fun x s' => s'.xlatReady x &&
      !s'.windowHeld (s'.part.key x.pa) p.2 false && !s'.poisonedAccess x p.2 && x.tt ≠ 4 && x.tt ≠ 5 && x.tt ≠ 3 && s'.ownPending = []) = true) ∧
    okOf (marked.checkAccess .load 0x10000 8) (fun x s' => s'.xlatReady x && !s'.windowHeld (s'.part.key x.pa) 8 false && s'.poisonedAccess x 8 &&
      !touches s'.ownPending (s'.part.key x.pa) 8 && s'.hart.trapBase ≠ 0 && !s'.hart.atEntry) = true := by
  constructor <;> decide +kernel

/-- The clauses by target type: HBM, host memory with and without TSO, a register block, and a fenced die's bytes. -/
theorem test_witness_ScalarStores : let ok := fun (s : State) (P : Xlat → State → Bool) => okOf (s.checkAccess .store 0x10000 8) (fun x s' =>
      s'.stackReady x.pa && !s'.windowHeld (s'.part.key x.pa) 8 true && !s'.dropWaits [x] && s'.ownPending = [] && P x s')
    ok (box memHart) (fun x s' => x.tt ≠ 3 && x.tt ≠ 4 && !s'.onFenced (s'.part.key x.pa)) = true ∧
    ok (boxAt 0x8000000000000#64 0x2FD#64) (fun x s' => x.tt = 3 && x.tso && (s'.crossHome x.pa).isNone && !s'.onFenced (s'.part.key x.pa)) = true ∧
    ok (boxAt 0x8000000000000#64 0x0FD#64) (fun x s' => x.tt = 3 && !x.tso && (s'.crossHome x.pa).isNone && x.pa % 64 + 8 ≤ 64) = true ∧
    ok (boxAt 0x20000000000#64 0x13D#64) (fun x s' => x.tt = 4 && (s'.crossHome x.pa).isNone) = true ∧
    ok { box memHart with dies := [(0, { Die.reset with fenced := true })] } (fun x s' => x.tt ≠ 3 && x.tt ≠ 4 &&
      s'.part.key? x.pa = some (s'.part.key x.pa) && s'.onFenced (s'.part.key x.pa) && (s'.crossHome x.pa).isNone) = true := by
  refine ⟨?_, ?_, ?_, ?_, ?_⟩ <;> decide +kernel

/-- Misaligned, not canonical, no translation, no permission. -/
theorem test_witness_AccessTraps : CanTrap (box memHart) ∧ (memHart.sreg 6).toNat % 2 ≠ 0 ∧ (0x100000000000000#64).toNat % 8 = 0 ∧
    canonical 0x100000000000000#64 = false ∧ canonical 0x90000#64 = true ∧ ((box memHart).translate (some 0) 0 0x90000#64).1 = none ∧
    someOf ((boxAt 0x10000#64 0x35#64).translate (some 0) 0 0x10000#64) (fun x _ => !x.permits .store false) = true := by
  refine ⟨⟨?_, ?_⟩, ?_⟩ <;> decide +kernel

theorem test_witness_AtomicResults : let ok := fun (s : State) (P : Xlat → State → Bool) => okOf (s.checkAccess .atomic 0x10000 8) (fun x s' =>
      s'.stackReady x.pa && !s'.windowHeld (s'.part.key x.pa) 8 true && !s'.dropWaits [x] && P x s')
    ok (box memHart) (fun x s' => !s'.onFenced (s'.part.key x.pa) && !s'.poisonedKey (s'.part.key x.pa)) = true ∧
    ok { box memHart with dies := [(0, { Die.reset with fenced := true })] } (fun x s' => s'.part.key? x.pa = some (s'.part.key x.pa) &&
      s'.onFenced (s'.part.key x.pa)) = true ∧
    ok marked (fun x s' => !s'.onFenced (s'.part.key x.pa) && s'.poisonedKey (s'.part.key x.pa) && s'.hart.trapBase ≠ 0 && !s'.hart.atEntry) = true := by
  refine ⟨?_, ?_, ?_⟩ <;> decide +kernel

/-- Hart 0 with v1 of int32 and v2 of uint32, a row of four elements, and the base in s5. -/
def vecMem (a : Word) : State :=
  box { memHart.setS 5 a with tags := [(1, .int32), (2, .uint32)], vl := 0x3004#64 }

/-- A whole row is allowed; of a row whose last element lies outside, the third element is the first that fails. -/
theorem test_witness_VectorMemory : let main := fun (s : State) => (s.hart.row s.hart.first (s.hart.count 32)).map (fun j =>
      (⟨1, j, s.hart.sreg 5 + word (4 * j), 4⟩ : Piece))
    (vecMem 0x10000).hart.blocksOk .int32 = true ∧ (¬ Tag.int32.paired ∧ 32 ≠ 4) ∧ ((vecMem 0x10000).hart.tag 2).isInt = true ∧
    (∀ a ∈ [Access.vload, .vstore], let r := checkPieces a (vecMem 0x10000) (main (vecMem 0x10000))
      r.1.bad = none ∧ r.1.good.length = 4 ∧ r.2.piecesHeld (a == .vstore) r.1.good = false ∧ r.2.dropWaits (r.1.good.map (·.2)) = false ∧
        ∀ q ∈ r.1.good, q.2.pa % 4096 + q.1.n ≤ 4096) ∧
    (∀ a ∈ [Access.vload, .vstore], let r := checkPieces a (vecMem 0x8FFF8) (main (vecMem 0x8FFF8))
      (r.1.bad.map (·.1.idx)) = some 2 ∧ r.1.good.length = 2 ∧ r.2.piecesHeld (a == .vstore) r.1.good = false ∧ r.2.dropWaits (r.1.good.map (·.2)) = false) ∧
    CanTrap (vecMem 0x8FFF8) := by
  refine ⟨?_, ?_, ?_, ?_, ?_, ⟨?_, ?_⟩⟩ <;> decide +kernel

/-- Two elements at one location: index elements are all zero. -/
theorem test_witness_VectorAtomics : let s := vecMem 0x10000; let h := s.hart
    let r := checkPieces .atomic s ((h.row h.first (h.count 32)).map (fun j => (⟨1, j, h.sreg 5 + BitVec.ofInt 64 (h.value (h.tag 2) (.v 2) j).toInt, 4⟩ : Piece)))
    h.tag 1 = .int32 ∧ r.1.bad = none ∧ r.1.good.length = 4 ∧ (h.tag 2).isInt = true ∧ r.2.piecesHeld true r.1.good = false ∧
      ∀ q ∈ r.1.good, r.2.xlatFenced q.2 = false ∧ r.2.poisonedAccess q.2 4 = false ∧ r.2.part.key q.2.pa % 4 = 0 := by
  decide +kernel

/-- R165: four elements at one location add up, and each sees the sum before it. -/
theorem test_vamo_add : after (.vamoAdd 1 5 2 true) (box { (vecMem 0x10000).hart with v := [(1, 0x00000004000000030000000200000001#2048)] }) (fun t =>
    t.mem.cells.read 0x10000 = 10 && lane (t.hart.vreg 1) 32 0 = 0 && lane (t.hart.vreg 1) 32 3 = 6) = true := by decide +kernel

/-! ### Convoys, barriers, tasks -/

/-- Page tables of context 0: the first GiB maps to itself with all permissions (R174 to R176). -/
def tables : Memory :=
  [(0x4000000, 0x01), (0x4000001, 0x10), (0x4000003, 0x04), (0x4001000, 0x01), (0x4001001, 0x20), (0x4001003, 0x04),
    (0x4002000, 0x01), (0x4002001, 0x30), (0x4002003, 0x04), (0x4003000, 0x3F)]

/-- A package whose hart 0 runs under `tables`, with numbers stored in memory: (address, bytes, value). -/
def town (h : Hart) (ms : List (Nat × Nat × Nat)) : State :=
  { State.reset with
    harts := [(0, h)], turn := .hart 0
    mem := { cells := ms.foldl (fun m x => m.writeN x.1 x.2.1 x.2.2) tables, ctxBase := 0x4000000#64, ctxEn := true }
    host := { hbm := 0xFF#64, diesUp := 1#64, coreRdy := [(0, 1#64)] } }

/-- Hart 0 at 0x10000. -/
def at64K (rs : List (SReg × Word)) : Hart := { withS rs with pc := 0x10000#64 }

def Header.isWords (r : Header × State) (P : List (Nat × Instr) → State → Bool) : Bool := match r with | (.words ws, s) => P ws s | _ => false

/-- A convoy of one `add`, one of two `add`s, and one whose word is none. -/
theorem test_witness_ConvoyHeader : let s := town (at64K []) [(0x10004, 4, 0x08518700), (0x10008, 4, 0x08518700)]
    let seen := fun (s' : State) => ({ hart := { s'.hart with mode := modeWord 63 false .rne false false } } : ConvoyScan)
    Header.isWords (readHeader s (s.hart.pc + 4) 1) (fun ws s' => ws.length = 1 && (checkConvoy (seen s') 0 ws).isNone) = true ∧
    Header.isWords (readHeader s (s.hart.pc + 4) 2) (fun ws s' => ws.length = 2 && (checkConvoy (seen s') 0 ws).isSome && s'.hart.trapBase ≠ 0 &&
      !s'.hart.atEntry && classOf 0x08518700 ≠ none) = true ∧
    (match readHeader s (s.hart.pc + 4) 3 with | (.trap e, s') => e.cause = 1 && s'.hart.trapBase ≠ 0 && !s'.hart.atEntry | _ => false) = true ∧
    (∃ x ∈ [(0x60000000, Instr.sysc)], x.1 / 2 ^ 26 ∈ [0x01, 0x16, 0x17, 0x18, 0x1A]) := by
  refine ⟨?_, ?_, ?_, ?_⟩ <;> decide +kernel

/-- R59: the header is entered, and the word after it is next. -/
theorem test_cvy_enters : after (.cvy 0 63 false .rtz true false) (town (at64K []) [(0x10004, 4, 0x08518700)]) (fun t =>
    t.hart.mode = 0x93F#64 && t.hart.convoy = 0x8010#64 && t.hart.pc = 0x10004#64) = true := by decide +kernel

/-- A gang of two harts of core 0, from hart 0, with 4 slots, 2 barriers, 2 accumulators and the fabric. -/
def gang1 : Gang :=
  { id := 1, post := { addr := 0x10000#64 }, ctx := 0, queue := 0, prio := 1, size := 2, first := 0, slot0 := 0, slots := 4, bar0 := 0, bars := 2, acc0 := 0
    accs := 2, fab := true, parent := 0, ranged := false, order := 1 }

/-- `town` with `gang1` on core 0. -/
def camp (h : Hart) (f : Core → Core) (ms : List (Nat × Nat × Nat)) : State :=
  { town { h with gang := some 1 } ms with
    cores := [(0, f { Core.reset with gangs := [(1, some gang1)], fab := { gang := some 1, configured := true } })]
    harts := [(0, { h with gang := some 1 }), (1, { hart0 with gang := some 1 })] }

/-- `camp` whose barrier 1 stands as given. -/
def atBar (h : Hart) (b : Barrier) : State := camp h (fun c => { c with bars := [(1, b)] }) []

/-- Barrier 1 in s5, another value in s6. -/
def barHart (x : Word) : Hart := withS [(5, 1), (6, x)]

/-- The edges of counts and of bytes, a phase that is over and one that is not, a barrier outside the grant, and a broken one. -/
theorem test_witness_BarrierOperations : let s := atBar (barHart 65535) { exp := 2, arr := 1, phase := 7 }
    (match s.barrierOf 5 with | .ok k => decide (k = 1) | _ => false) = true ∧
    (0 < (s.hart.sreg 6).toNat ∧ (s.hart.sreg 6).toNat < 65536 ∧ s.barWait 0 1 = false ∧ s.core.uncredited 1 = false ∧ s.collCredits 0 1 = false ∧ s.creditHeld 0 1 = false) ∧
    (let f := camp (barHart 1) (fun c => { c with credits := [⟨1, 4096⟩], bars := [(1, { exp := 2, pend := -(2 ^ 35) })]
                                                  records := List.replicate 16 { core := 0, master := 0, cause := 9, kind := 8 } }) [];
      f.creditHeld 0 1 = true ∧ f.hart.isHeld = false ∧ f.hart.block = none ∧ bit f.hart.stepArr 0 = false ∧ (f.core.bar 1).broken = false) ∧
    ((s.core.bar 1).held = [] ∧ s.hart.isHeld = false ∧ (s.core.bar 1).arr ≠ (s.core.bar 1).exp) ∧
    (∀ x ∈ [(-(2 ^ 35) : Int), 2 ^ 35 - 1], -(2 ^ 35) ≤ (BitVec.ofInt 64 x).toInt ∧ (BitVec.ofInt 64 x).toInt < 2 ^ 35 ∧
      -(2 ^ 35) ≤ (s.core.bar 1).pend + (BitVec.ofInt 64 x).toInt ∧ (s.core.bar 1).pend + (BitVec.ofInt 64 x).toInt < 2 ^ 35) ∧
    ((s.core.bar 1).broken = false ∧ (s.core.bar 1).phase ≠ (s.hart.sreg 6).toNat % 65536 ∧ (s.core.bar 1).phase = 7 % 65536) ∧
    ((withS []).sreg 0 = 0 ∧ (withS [(6, 1)]).sreg 6 = 1 ∧ (s.core.bar 1).exp < 2 ^ 16 ∧ (s.core.bar 1).phase < 2 ^ 16) ∧
    (let t := atBar { barHart 0 with stepArr := 1, block := some ⟨.phase 1 6 true, 0, none⟩ } { exp := 2, arr := 1, phase := 7 };
      bit t.hart.stepArr 0 = true ∧ t.hart.isHeld = false ∧ (t.core.bar 1).phase ≠ 6) ∧
    ((atBar (barHart 0) { exp := 3, arr := 1 }).core.bar 1).arr + 1 < 3 ∧ bit s.hart.stepArr 0 = false ∧
    (barOutside (s.gangOf s.cur) 2 = true ∧ CanTrap s) ∧ ((atBar (barHart 0) { broken := true }).core.bar 1).broken = true ∧
    -- a barrier that is not free, values beyond the edges, a full phase, a hart already held, a last arrival, and a step after an `eret`
    ((∃ w ∈ [({ s with harts := [(0, s.hart), (1, { hart0 with gang := some 1, block := some ⟨.phase 1 7 false, 0, none⟩ })] } : State)],
        w.barWait 0 1 = true) ∧ (0 : Word).toNat = 0 ∧ 65536 ≤ (65536 : Word).toNat ∧ 2 ^ 35 ≤ (BitVec.ofInt 64 (2 ^ 35)).toInt ∧
      2 ^ 35 ≤ (2 ^ 35 - 1 : Int) + 1 ∧ 1 < (2 : Word).toNat) ∧
    (((atBar (barHart 0) { exp := 2, arr := 2 }).core.bar 1).arr = 2 ∧ ({ hart0 with block := some ⟨.held 1 7 false, 0, none⟩ } : Hart).isHeld = true ∧
      (s.core.bar 1).arr + 1 = (s.core.bar 1).exp ∧ (s.core.bar 1).pend = 0) ∧
    (let t := atBar { withS [(5, 1), (7, 0x10007)] with stepArr := 1 } { exp := 2, arr := 1, phase := 7 };
      t.hart.block = none ∧ (t.core.bar 1).phase = (t.hart.sreg 7).toNat % 65536 ∧ (t.core.bar 1).phase ≠ (t.hart.sreg 5).toNat % 65536) := by
  refine ⟨?_, ?_, ?_, ?_, ?_, ?_, ?_, ?_, ?_, ?_, ⟨?_, ⟨?_, ?_⟩⟩, ?_, ⟨⟨_, List.mem_singleton.mpr rfl, ?_⟩, ?_⟩, ?_, ?_⟩ <;> decide +kernel

/-- R149: the last arrival ends the phase and wakes the waiter. -/
theorem test_barrive_completes : after (.barrive 7 5) { atBar (barHart 0) { exp := 2, arr := 1, phase := 65535 } with
    harts := [(0, { barHart 0 with gang := some 1 }), (1, { hart0 with gang := some 1, block := some ⟨.phase 1 65535 false, 0, none⟩ })] } (fun t =>
      t.hart.sreg 7 = 65535 && (t.core.bar 1).phase = 0 && (t.core.bar 1).arr = 0 && (t.hartAt 1).pc = 0x1004#64) = true := by decide +kernel

/-- A credit, one that breaks the barrier, and a hart blocked past the limit. -/
theorem test_witness_BarrierAgents : let s := camp hart0 (fun c => { c with credits := [⟨1, 4096⟩], barAge := 10#64 }) []
    let t := camp hart0 (fun c => { c with credits := [⟨1, 4096⟩], bars := [(1, { pend := -(2 ^ 35) })] }) []
    ((s.coreAt 0).credits = ⟨1, 4096⟩ :: [] ∧ ((s.coreAt 0).bar 1).held = [] ∧ -(2 ^ 35) ≤ ((s.coreAt 0).bar 1).pend - 4096) ∧
    (((t.coreAt 0).bar 1).pend - 4096 < -(2 ^ 35) ∧ t.recordRoom 0 = true) ∧
    (let u : State := { s with clock := { cycle := 11 }, harts := [(0, { hart0 with block := some ⟨.phase 1 0 false, 0, none⟩ })] };
      (u.hartAt 0).block = some ⟨.phase 1 0 false, 0, none⟩ ∧ (Wait.phase 1 0 false).age ≠ none ∧ (u.hartAt 0).run = .running ∧ (u.coreAt 0).barAge.toNat ≠ 0 ∧
        (u.coreAt 0).barAge.toNat < u.clock.cycle - 0 ∧ (u.hartAt 0).trapBase ≠ 0 ∧ (u.hartAt 0).atEntry = false) ∧
    (s.coreAt 0).barAge.toNat ≥ s.clock.cycle - 0 := by
  refine ⟨?_, ?_, ?_, ?_⟩ <;> decide +kernel

/-- A record of one hart for queue 3, at 0x11000 (R128). -/
def record3 : Nat := 0x20000 + 0x301 * 2 ^ (8 * 0x1C)

/-- `town` with that record and queue 3 as given. -/
def office (q : Queue) : State :=
  { town (withS [(5, 0x11000)]) [(0x11000, 64, record3)] with sched := { ({} : Sched) with queues := [(3, q)] } }

def Loaded.isOk (r : Loaded × State) (P : List Byte → State → Bool) : Bool := match r with | (.ok bs, s) => P bs s | _ => false

/-- Invalid, disabled, full, and accepted; a held post; a promotion that is due and one that is not. -/
theorem test_witness_TaskPosting : let q : Queue := { qbase := 0x30000#64, en := true }
    let read := fun (s : State) (P : Rec → State → Bool) => Loaded.isOk ((s.cleanLines 0).loadBlock 0x11000 64) (fun bs s' => P (Rec.ofNat (bytesToNat bs)) s')
    read (town (withS [(5, 0x11000)]) []) (fun r s' => !s'.recValid true r) = true ∧
    read (office { q with en := false }) (fun r s' => s'.recValid true r && !(s'.queue r.queue).en) = true ∧
    read (office { q with qwr := 64 }) (fun r s' => s'.recValid true r && (s'.queue r.queue).en && s'.spawnFull r.queue) = true ∧
    read (office { q with qwr := 63 }) (fun r s' => let slot := 0x30000 + 63 * 8
      s'.recValid true r && (s'.queue r.queue).en && !s'.spawnFull r.queue && slot % 4096 + 8 ≤ 4096 && s'.stackReady slot &&
        (s'.part.key? slot).isSome && !s'.onFenced (s'.part.key slot) && !r.range) = true ∧
    someOf ((office q).translate (some 0) 0 0x11000) (fun x _ => x.pa % 4096 + 64 ≤ 4096) = true ∧
    (let p : HeldPost := ⟨3, { addr := 0x11000#64 }, 1⟩
      let t : State := { office q with dies := [(0, { Die.reset with held := [p] }), (1, { Die.reset with held := [{ p with order := 2 }] })] }
      (t.dieAt 0).held = p :: [] ∧ (t.queue 3).full = false ∧ t.stackReady 0x30000 = true ∧ t.onFenced (t.part.key 0x30000) = false ∧
        ∀ d < 4, ∀ x ∈ (t.dieAt d).held, x.queue = p.queue → p.order ≤ x.order) ∧
    (let u : State := { office { q with qwr := 1 } with clock := { time := 100000 } };
      u.candidate 3 = true ∧ u.sched.qage ≠ 0 ∧ (0 + 1) * (u.sched.qage.toNat * 1000) ≤ u.clock.time - max (max (u.queue 3).lastServe (u.queue 3).headSince) u.sched.elected) := by
  refine ⟨?_, ?_, ?_, ?_, ?_, ?_, ?_⟩ <;> decide +kernel

/-! ### Graphs, gangs, fault records -/

/-- A graph of one node at 0x11000 without dependences, with parameters at 0x12000 and slots at 0x13000 (R143): its header. -/
def graphHead (replays : Nat) : Nat :=
  0x11000 + 0x12000 * 2 ^ 64 + 0x13000 * 2 ^ 128 + 2 ^ (8 * 0x18) + 64 * 2 ^ (8 * 0x1C) + replays * 2 ^ (8 * 0x20)

/-- `office` with that graph's header at 0x10000, its node at 0x11000, and more as given. -/
def studio (q : Queue) (replays node : Nat) (ms : List (Nat × Nat × Nat)) : State :=
  { town (withS [(5, 0x10000), (6, 0x10020)]) ([(0x10000, 64, graphHead replays), (0x11000, 64, node)] ++ ms) with
    sched := { ({} : Sched) with queues := [(3, q)] } }

def Stored.isOk (r : Stored) (P : State → Bool) : Bool := match r with | .ok s => P s | _ => false

/-- What `tgraph` reads: the header, the nodes, the control block. -/
def graphRead (s : State) (P : GraphHead → List Byte → List Byte → State → Bool) : Bool :=
  Loaded.isOk (s.loadBlock 0x10000 64) (fun bs s1 =>
    let h := GraphHead.ofNat (bytesToNat bs)
    h.ok && Loaded.isOk (s1.loadBlocks h.nodes (2 * h.ncount)) (fun ns s2 =>
      (List.range h.ncount).filter (fun j => nodeDeps ns j = 0) = [0] && Loaded.isOk (s2.loadBlock h.area 64) (fun c s3 => P h ns c s3)))

/-- The two stores of a replay in slot 0: the control block, then the snapshot and the counter. -/
def graphStored (h : GraphHead) (ns c : List Byte) (s3 : State) (P : State → State → Bool) : Bool :=
  Loaded.isOk (s3.loadBlocks h.param (h.psize / 64)) (fun snap s4 =>
    Stored.isOk (s4.storeBlocks h.area false (natToBytes 4 (2 ^ 31) ++ c.drop 4) 1) (fun s5 =>
      Stored.isOk (s5.storeBlocks (h.area + word 64) (s4.noted s5) (snap ++ natToBytes 4 (nodeDeps ns 0) ++ List.replicate (128 - snap.length - 4) 0) 2) (P s4)))

/-- A slot of the area is busy. -/
def slotBusy (c : List Byte) (k : Nat) : Bool := bytesToNat ((c.drop (4 * k)).take 4) ≠ 0

/-- Misaligned operands; a bad header; no free slot; an invalid root, a disabled queue, and a replay that starts, whose one root enters its ring, or
waits where ring and held posts are full; a replay that goes on. -/
theorem test_witness_GraphReplays : let q : Queue := { qbase := 0x30000#64, en := true }
    (CanTrap (studio q 1 record3 []) ∧ ((studio q 1 record3 []).hart.sreg 6).toNat % 64 ≠ 0 ∧ ((studio q 1 record3 []).hart.sreg 5).toNat % 64 = 0) ∧
    Loaded.isOk ((studio q 0 record3 []).loadBlock 0x10000 64) (fun bs _ => !(GraphHead.ofNat (bytesToNat bs)).ok) = true ∧
    graphRead (studio q 1 record3 [(0x13000, 4, 2 ^ 31)]) (fun h _ c _ => h.replays = 1 && slotBusy c 0) = true ∧
    graphRead (studio q 1 0 []) (fun _ ns c s3 => !slotBusy c 0 && !s3.recValid true (nodeRec ns 0)) = true ∧
    graphRead (studio { q with en := false } 1 record3 []) (fun _ ns c s3 => !slotBusy c 0 && s3.recValid true (nodeRec ns 0) && templateOk (nodeRec ns 0) &&
      !(s3.queue (nodeRec ns 0).queue).en) = true ∧
    graphRead (studio q 1 record3 []) (fun h ns c s3 => !slotBusy c 0 && s3.recValid true (nodeRec ns 0) && templateOk (nodeRec ns 0) &&
      (s3.queue (nodeRec ns 0).queue).en && !(nodeRec ns 0).range && graphStored h ns c s3 (fun s4 s6 =>
        s4.hart.acts = [] && (runActs 65536 s6 (s6.rootPosts h (h.ref 0 0 0x10000#64) ns [0])).2.isEmpty && !(s6.queue 3).full && !s6.hasHeld 3 && s6.stackReady 0x30000 &&
          !s6.onFenced (s6.part.key 0x30000))) = true ∧
    (let f : State := { studio { q with qwr := 64 } 1 record3 [] with dies := [(0, { Die.reset with held := List.replicate 64 ⟨3, { addr := 0x11000#64 }, 1⟩ })] };
      let root : Act := ⟨0, 0, .root ((GraphHead.ofNat (graphHead 1)).ref 0 0 0x10000#64).post record3 0x11000⟩
      f.hart.acts = [] ∧ graphRead f (fun h ns c s3 => !slotBusy c 0 && s3.recValid true (nodeRec ns 0) && templateOk (nodeRec ns 0) &&
        (s3.queue (nodeRec ns 0).queue).en && graphStored h ns c s3 (fun _ s6 => !(runActs 65536 s6 (s6.rootPosts h (h.ref 0 0 0x10000#64) ns [0])).2.isEmpty)) = true ∧
      (runActs 65536 f [root]).2 ≠ [] ∧ (runActs 65536 (studio q 1 record3 []) [root]).2 = []) := by
  refine ⟨⟨⟨?_, ?_⟩, ?_, ?_⟩, ?_, ?_, ?_, ?_, ?_, ?_, ?_, ?_, ?_⟩ <;> decide +kernel

/-- A queue with one entry, whose record is at 0x11000. -/
def served (ms : List (Nat × Nat × Nat)) : State :=
  { town hart0 ([(0x30000, 8, 0x11000)] ++ ms) with
    sched := { ({} : Sched) with queues := [(3, { qbase := 0x30000#64, en := true, qwr := 1 })] } }

/-- A head that is bound and one that is invalid; `texit` in and out of a gang; a gang whose harts are all retired, with and without a parent. -/
theorem test_witness_GangLifecycle : let s := served [(0x11000, 64, record3)]
    let p : Post := { addr := 0x11000#64 }
    (s.choices = 3 :: [] ∧ s.head 3 = some p ∧ p.graph = none ∧ p.chunk = none ∧ s.ringPoisoned 3 = false) ∧
    someOf (s.recAt (s.queue 3).ctx p.addr) (fun r s' => s'.recValid false r.1 && !r.1.range && (s'.findGrant r.1).isSome) = true ∧
    ((served []).choices = 3 :: [] ∧ someOf ((served []).recAt 0 p.addr) (fun r s' => !s'.recValid false r.1 && s'.dieRecordRoom (s'.dieFor r.1) &&
        ((served []).dieAt (s'.dieFor r.1)).unposted = []) = true ∧ ((served []).queue 3).front = [] ∧ (served []).ringPoisoned 3 = false) ∧
    ((box hart0).hart.gang = none ∧ encode .texit ≠ none ∧ CanTrap (box hart0)) ∧
    (let c := camp hart0 id []; c.hart.gang ≠ none ∧ (reportFail c).isNone ∧ (reportFab c).isNone ∧ c.hartBusy c.cur = false) ∧
    (camp hart0 (fun k => { k with copies := [{ op := .tfill, uid := 9, hart := 0, gang := some 1, ctx := 0, user := false, careful := false, stamp := 0, pc := 0
                                                dst := Desc.ofWord 0x100100, descWord := 0x100100 }] }) []).hartBusy 0 = true ∧
    (∀ parent ∈ [(0 : Nat), 0x11000], let g : Gang := { gang1 with parent := word parent };
      let c : State := { camp hart0 (fun k => { k with gangs := [(1, some g)] }) [(0x11018, 4, 2)] with
        harts := [(0, { ({} : Hart) with gang := some 1, retired := true }), (1, { ({} : Hart) with gang := some 1, retired := true })] }
      (c.coreAt 0).gang 1 = some g ∧ g.state ≠ .saved ∧ (∀ n ∈ g.harts 0, (c.hartAt n).retired = true ∧ (c.hartAt n).run = .free) ∧ c.gangBusy 0 g = false ∧
        g.ranged = false ∧ g.post.graph = none ∧ g.ending = none ∧ (releaseGrant 0 g c).schedHeld g.ctx (0x11018 : Word) = false ∧
        someOf ((releaseGrant 0 g c).schedRead32 0 (0x11018 : Word)) (fun j u => j.1 = 2 && (u.part.key? j.2).isSome && !u.onFenced (u.part.key j.2) && j.2 % 4096 + 4 ≤ 4096) = true) := by
  refine ⟨?_, ?_, ?_, ⟨?_, ?_, ⟨?_, ?_⟩⟩, ?_, ?_, ?_⟩ <;> decide +kernel

/-- A gang on all harts of core 0 but the supervisor's. -/
def gang7 : Gang := { gang1 with size := 7, first := 1, fab := false }

/-- That gang runs, and queue 3's head of PRIO 0 has waited QAGE. -/
def crowded : State :=
  { served [(0x11000, 64, record3)] with
    cores := [(0, { Core.reset with gangs := [(1, some gang7)] })], clock := { time := 100000 }
    harts := (0, hart0) :: (List.range 7).map (fun k => (k + 1, { hart0 with gang := some 1 })) }

/-- Memory that holds the private part of a save area at 0x8000000 as the engine wrote it at tick 0. -/
def areaBytes : Memory := Memory.writeBytes [] 0x8031000 ((List.range 0xA000).map (fun k => Config.privateByte 0 (0x31000 + k)))

/-- A saved gang of one hart whose area is that one. -/
def savedGang : Gang := { gang1 with size := 1, first := 1, fab := false, slots := 0, accs := 0, bars := 0, state := .saved, saveArea := 0x8000000
                                     saved := { harts := [hart0.kept] } }

def shelved : State :=
  { town hart0 [] with mem := { cells := areaBytes }, cores := [(0, { Core.reset with gangs := [(1, some savedGang)] })] }

theorem read_stored (f : Nat → Byte) (n a i : Nat) (h : i < n) : (Memory.writeBytes [] a ((List.range n).map f)).read (a + i) = f i := by
  rw [Memory.read_writeBytes_in _ _ _ i (by simpa using h)]; simp

theorem place_flat {a : Nat} (h : a < 0x8000000000) : Part.full.place a = .hbm a := by simp [Part.place, hbmWindow, h, Part.full]

theorem found_flat {a : Nat} (h : a < 0x8000000000) : shelved.part.key? a = some a := by
  have e : shelved.part = Part.full := rfl
  simp [e, Part.key?, place_flat h]

theorem key_flat {a : Nat} (h : a < 0x8000000000) : shelved.part.key a = a := by simp [Part.key, found_flat h]

theorem stacks_up {s : State} (h : s.host.hbm = 0xFF#64) (pa : Nat) : s.stackReady pa = true := by
  have b : ∀ k, k < 8 → bit 0xFF#64 k = true := by decide
  rw [State.stackReady]
  split
  · rw [h, b _ (by unfold hbmStack hbmDie; omega)]; simp
  · rfl

theorem ranges_up {s : State} (h : s.host.hbm = 0xFF#64) (pa n : Nat) : s.rangeReady pa n = true := by
  simp [State.rangeReady, stacks_up h]

theorem shelved_clean (k : Nat) : shelved.poisonedKey k = false := by
  have d : ∀ d, (shelved.dieAt d).fenced = false := fun _ => rfl
  have p : shelved.mem.poison = [] := rfl
  simp [State.poisonedKey, State.onFenced, d, p, SMap.get]

theorem shelved_intact : shelved.privateIntact savedGang = true := by
  have e : (privateParts savedGang.saved.tick savedGang.fab) =
      [(0x31000, (List.range 0xA000).map (fun k => Config.privateByte 0 (0x31000 + k)))] := rfl
  have c : ∀ pa n, shelved.poisonedPhys pa n = false := by
    intro pa n
    simp only [State.poisonedPhys, List.any_eq_false]
    intro k _
    cases shelved.part.key? ((pa / 16 + k) * 16) <;> simp [shelved_clean]
  simp only [State.privateIntact, e, c, List.all_cons, List.all_nil, Bool.and_true, Bool.not_false, decide_eq_true_eq]
  apply List.ext_getElem
  · simp [State.readPhys]
  · intro i h1 h2
    simp only [State.readPhys, List.length_map, List.length_range] at h1
    simp only [State.readPhys, List.getElem_map, List.getElem_range]
    have a : savedGang.saveArea + 0x31000 + i = 0x8031000 + i := rfl
    rw [a, found_flat (Nat.lt_of_lt_of_le (Nat.add_lt_add_left h1 _) (by decide)), Option.map_some, Option.getD_some]
    have c : shelved.mem.cells = areaBytes := by simp only [shelved]
    rw [c, areaBytes, read_stored _ _ _ _ h1]

/-- A gang whose two harts are asked to stop, its die's ring holding an area. -/
def stopping (run : RunState) : State :=
  { camp hart0 (fun c => { c with gangs := [(1, some { gang1 with state := .stopping })] }) [] with
    dies := [(0, { Die.reset with savewr := 1 })]
    harts := [(0, { hart0 with gang := some 1, run := run }), (1, { hart0 with gang := some 1, run := run })] }

theorem stopping_die (run : RunState) (d : Nat) : ((stopping run).dieAt d).fenced = false := by
  by_cases h : d = 0
  · subst h; rfl
  · have h' : ¬ 0 = d := fun e => h e.symm
    have e : (stopping run).dieAt d = Die.reset := by
      simp [State.dieAt, stopping, SMap.get, h']
    rw [e]; rfl

/-- PREEMPT and the distributor's request; a stop at an instruction and at a handler's first; a save and its area, a restore; RETIRE and ABANDON;
SAVEADD of an area and of no area. -/
theorem test_witness_GangRequests :
    (let s := camp hart0 id []; gang1.state = .running ∧ s.gangOf (0 * 8 + field 0x8#64 2 0) = some gang1 ∧ bit 0x8#64 3 = true) ∧
    (crowded.head 3 = some { addr := 0x11000#64 } ∧ crowded.candidate 3 = true ∧ gang7.state = .running ∧
      someOf (crowded.recAt 0 0x11000#64) (fun r _ => r.1.prio = 0 && crowded.recValid false r.1 && (crowded.findGrant r.1).isNone &&
        crowded.sched.qage.toNat * 1000 ≤ crowded.clock.time - max (max (crowded.queue 3).lastServe (crowded.queue 3).headSince) crowded.sched.elected && pickVictim (crowded.victims r.1) = some (0, gang7)) = true) ∧
    (let s := stopping .running; let t := s.onHart (fun h => { h with atEntry := true });
      s.stopDue = true ∧ s.hart.atEntry = false ∧ s.ageTrap s.cur = none ∧ (t.hartAt s.cur).atEntry = true ∧ (t.hartAt s.cur).run = .running ∧
        (s.hartAt s.cur).atEntry = false ∧ (s.hartAt s.cur).run ≠ .frozen) ∧
    (let s := stopping .stopped; let pa := bytesToNat (s.readPhys ((s.dieAt 0).saveb.toNat + (s.dieAt 0).saverd % 512 * 8) 8)
      (((s.coreAt 0).gang 1).map (·.state) = some .stopping ∧ (({ gang1 with state := .stopping } : Gang).harts 0).all s.hartStopped = true ∧
        (s.coreAt 0).copiesSettled { gang1 with state := .stopping } = true ∧ s.fabricSettled 0 = true ∧ (s.dieAt 0).saverd ≠ (s.dieAt 0).savewr ∧
        pa % 0x800000 = 0 ∧ gang1.size ≤ 8 ∧ gang1.accs ≤ 8 ∧ gang1.slots ≤ 256 ∧ s.stackReady ((s.dieAt 0).saveb.toNat + (s.dieAt 0).saverd % 512 * 8) = true ∧
        ∀ e, e < 4 → s.dieRecordRoom e = true) ∧
      (∀ p ∈ s.areaParts 0 { gang1 with state := .stopping }, s.rangeReady (pa + p.1) p.2.length = true) ∧
      (∀ i, i < 0x800000 → (∃ x, s.part.place (pa + i) = .hbm x) ∧ s.onFenced (s.part.key (pa + i)) = false) ∧
      ∀ i j, i < 0x800000 → j < 0x800000 → s.part.key (pa + i) = s.part.key (pa + j) → i = j) ∧
    ((shelved.coreAt 0).gang 1 = some savedGang ∧ savedGang.id = 1 ∧ savedGang.state = .saved ∧ shelved.canRestore 0 savedGang = true ∧
      shelved.betterHead 0 savedGang = false ∧ shelved.privateIntact savedGang = true ∧ (∀ c ∈ savedGang.saved.copies, c.stop.bind (·.decided) = none) ∧
      savedGang.saved.harts.length = savedGang.size ∧ (shelved.coreAt 0).mats.length + savedGang.saved.mats.length ≤ 64 ∧
      (savedGang.size ≤ 8 ∧ shelved.areaReady 0 savedGang = true ∧ (∀ e, e < 4 → shelved.dieRecordRoom e = true) ∧ savedGang.saveArea % 16 = 0) ∧
      (∀ i, i < 0x800000 → ∃ x, shelved.part.place (savedGang.saveArea + i) = .hbm x) ∧
      ∀ i, i < 0x800000 → (shelved.part.key? (savedGang.saveArea + i)).any shelved.poisonedKey = false) ∧
    (let s : State := { camp hart0 id [] with harts := [(0, hart0), (1, { hart0 with gang := some 1, run := .frozen })] };
      s.gangOf 1 = some gang1 ∧ (s.hartAt 1).gang = some gang1.id ∧ (s.hartAt 1).run = .frozen ∧ s.hartBusy 1 = false ∧ s.recordRoom (1 / 8) = true ∧
        (s.coreAt (1 / 8)).unposted = []) ∧
    (let s := box hart0; s.part.backed (field 0x800000#64 51 23 * 2 ^ 23) 0x800000 = true ∧ (s.dieAt 0).savewr - (s.dieAt 0).saverd + s.areasHeld 0 ≠ 512 ∧
      (s.part.key? 0).isSome = true ∧ s.onFenced (s.part.key 0) = false ∧ s.part.backed (field 0xFFFFFFFFFFFFF#64 51 23 * 2 ^ 23) 0x800000 = false) := by
  refine ⟨?_, ?_, ?_, ⟨?_, fun _ _ => ranges_up rfl _ _, ?_, ?_⟩,
    ⟨?_, ?_, ?_, ?_, ?_, shelved_intact, ?_, ?_, ?_, ?_, ?_, ?_⟩, ?_, ?_⟩
  case refine_5 =>
    intro i hi
    have p : (stopping .stopped).part = Part.full := rfl
    have z : bytesToNat ((stopping .stopped).readPhys (((stopping .stopped).dieAt 0).saveb.toNat + ((stopping .stopped).dieAt 0).saverd % 512 * 8) 8) = 0 := by
      decide +kernel
    rw [z]
    exact ⟨⟨_, p ▸ place_flat (by omega)⟩, by simp only [State.onFenced, stopping_die, Bool.and_false]⟩
  case refine_6 =>
    intro i j hi hj e
    have z : bytesToNat ((stopping .stopped).readPhys (((stopping .stopped).dieAt 0).saveb.toNat + ((stopping .stopped).dieAt 0).saverd % 512 * 8) 8) = 0 := by
      decide +kernel
    have p : (stopping .stopped).part = shelved.part := rfl
    rw [z, p, key_flat (by omega), key_flat (by omega)] at e
    omega
  case refine_16 =>
    intro i hi
    have p : shelved.part = Part.full := rfl
    have a : savedGang.saveArea = 0x8000000 := rfl
    rw [p, a]
    exact ⟨_, place_flat (by omega)⟩
  case refine_17 =>
    intro i _
    cases shelved.part.key? (savedGang.saveArea + i) <;> simp [shelved_clean]
  all_goals decide +kernel

/-- A copy command of hart 0 that fills slot 0. -/
def fill0 : CopyCmd :=
  { op := .tfill, uid := 9, hart := 0, gang := some 1, ctx := 0, user := false, careful := false, stamp := 0, pc := 0x1000#64
    dst := { slot := 0, cnt := 1, lay := 0, bar := 1, nb := false, tr := false, te := 0 }, descWord := 0, pattern := 0x0123456789ABCDEF#64 }

/-- A record that enters a ring with room, a full ring, and a stopped command. -/
theorem test_witness_FaultRecords : let r : FaultRec := { core := 0, master := 0, cause := 9, kind := 8 }
    let s : State := { box hart0 with cores := [(0, { Core.reset with records := [r] })], dies := [(0, { Die.reset with fren := true, frbase := 0x30000#64, frwr := 63 })] }
    let c : CopyCmd := { fill0 with stop := some { seq := some 5 } }
    ((s.coreAt 0).records = r :: [] ∧ (s.dieAt 0).fren = true ∧ (s.dieAt 0).frwr - (s.dieAt 0).frrd.toNat ≠ 2 ^ (s.dieAt 0).frsize ∧
      s.stackReady 0x30FC0 = true ∧ 0x30FC0 % 4096 + 64 ≤ 4096 ∧ (s.part.key? 0x30FC0).isSome = true ∧ s.onFenced (s.part.key 0x30FC0) = false ∧ r.owner = .none ∧ r.hart < 8 ∧
      r.core < 256 ∧ r.kind < 2 ^ 8 ∧ r.cause < 2 ^ 8 ∧ r.master < 2 ^ 5) ∧
    64 - (0 : Word).toNat = 2 ^ Die.reset.frsize ∧ Die.reset.fren = false ∧
    (([c] : List CopyCmd).find? (fun c => (c.stop.bind (·.seq)) = some 5) = some c ∧ ∀ x ∈ ([c] : List CopyCmd), x.uid = c.uid → x = c) := by
  refine ⟨?_, ?_, ?_, ?_, ?_⟩ <;> decide +kernel

/-! ### Tile movement -/

/-- The tensor map of four bytes from an address (R213): rank 1, int8, DIM0 4, STRIDE0 1, BOX0 4. -/
def map4 (base : Nat) : Nat := base + 0x101 * 2 ^ 64 + 4 * 2 ^ 128 + 2 ^ (8 * 0x28) + 4 * 2 ^ (8 * 0x50)

/-- `camp` with a descriptor of slot 0 and barrier 1 in s5, its source form in s6, the map at 0x12000 in s7, tpack's parameters in s8; v4 holds the
origin (0). -/
def yard (f : Core → Core) : State :=
  camp { withS [(5, 0x100100), (6, 0x101), (7, 0x12000), (8, 0x100080001)] with tags := [(4, .int32)] } f [(0x12000, 128, map4 0x13000)]

def Issue.isOk (r : Issue × State) (P : CopyCmd → Bool) : Bool := match r with | (.ok c, _) => P c | _ => false

/-- Each form's checks pass; a count of zero; the slot past the grant; the barrier past it; a full queue; and a batch of one `tfill`. -/
theorem test_witness_TileIssue : let s := yard id; let h := s.hart
    let a : TileArgs := { op := .tfill, desc := h.sreg 5, arg := h.sreg 7, org := h.origin 4, iw := 0 }
    ((s.core.queueOf s.cur).length < 32 ∧ h.tag 4 = .int32) ∧
    (∀ x ∈ [{ a with op := .tld }, { a with op := .tst }, { a with op := .tcpy, arg := h.sreg 6 }, a, { a with op := .ttag },
        { a with op := .tpack, arg := h.sreg 6, argb := h.sreg 8 }, { a with op := .tunpk, arg := h.sreg 6 }],
      Issue.isOk (s.formTile x) (fun c => c.op = x.op) = true) ∧
    (CanTrap s ∧ descMalformed .dest 0x100000 = true ∧ descMalformed .dest 0x100100 = false ∧ slotOutside (s.gangOf s.cur) 4 1 = some 4 ∧
      slotOutside (s.gangOf s.cur) 0 1 = none ∧ (Desc.ofWord 0x200100).nb = false ∧ barOutside (s.gangOf s.cur) 2 = true) ∧
    32 ≤ (((yard (fun c => { c with copies := List.replicate 32 fill0 })).core).queueOf 0).length ∧
    (let g : Hart := { h with mode := 0, p := [(0, 1#512)], v := [(8, BitVec.ofNat 2048 (3 + 0x100100 * 2 ^ 64))] };
      (∀ k, k < 32 → g.active k = true → 2 ≤ recBits (g.batchRecord 1 k) 0 7 0) ∧ g.active 0 = true) := by
  refine ⟨?_, ?_, ⟨⟨?_, ?_⟩, ?_⟩, ?_, ?_⟩ <;> decide +kernel

/-- A row of four elements in the range and one that leaves it; misaligned; marked; held by an earlier `tfill`. -/
theorem test_witness_TileRows : let row := fun (l : Word) (f : Core → Core) => camp { withS [(6, 0x100), (7, l)] with tags := [(5, .int32)], vl := 0x3004#64 } f []
    let ps := fun (s : State) => s.hart.slotPieces 5 { slot := 0, cnt := 1, lay := 0, bar := 0, nb := false, tr := false, te := 0 } (s.hart.sreg 7).toNat
    let desc : Desc := { slot := 0, cnt := 1, lay := 0, bar := 0, nb := false, tr := false, te := 0 }
    (match checkDesc ((row 0 id).gangOf 0) .source ((row 0 id).hart.sreg 6) 0 with | .ok d => decide (d = desc) | _ => false) = true ∧
    ((row 0 id).hart.blocksOk .int32 = true ∧ CanTrap (row 2 id) ∧ ((row 2 id).hart.sreg 7).toNat % 4 ≠ 0 ∧ ps (row 2 id) ≠ []) ∧
    (((row 16368 id).hart.sreg 7).toNat % 4 = 0 ∧ (ps (row 16368 id)).length = 4 ∧ (row 16368 id).slotHeld [3] [] = false ∧
      (row 16368 id).slotTrap desc true (ps (row 16368 id)) = none) ∧
    (((row 16372 id).slotTrap desc true (ps (row 16372 id))).map (·.cause) = some 6) ∧
    (({ row 0 id with mem := { poison := [(scratchBase / 16, true)] } } : State).slotTrap desc true (ps (row 0 id))).map (·.cause) = some 0x10 ∧
    (let w : State := { row 0 (fun c => { c with copies := [fill0] }) with harts := [(0, { (row 0 id).hart with stamp := 1 })] };
      w.slotHeld [0] [] = true ∧ (ps w).map (fun p => desc.slot * 4 + p.off / 4096) = [0, 0, 0, 0] ∧ slotOutside (w.gangOf 0) 0 1 = none) ∧
    -- a paired register over too short a range and over one that R218 allows; a slot outside the grant
    (Tag.bfp16.paired = true ∧ ¬ (2 ≤ (Desc.ofWord 0x100).cnt) ∧ 2 ≤ (Desc.ofWord 0x200).cnt ∧ (Desc.ofWord 0x200).cnt ≤ 9 ∧
      descMalformed .source 0x104 = false ∧ slotOutside ((row 0 id).gangOf 0) 4 1 = some 4) := by
  refine ⟨?_, ⟨?_, ⟨?_, ?_⟩, ?_, ?_⟩, ?_, ?_, ?_, ?_, ?_⟩ <;> decide +kernel

theorem copyTurn_single {s : State} {core hart : Nat} {c : CopyCmd} (h : (s.coreAt core).queueOf hart = [c]) : s.copyTurn core hart = some c := by
  simp [State.copyTurn, h, Nat.mod_one]

/-- A `tld` and a `tst` of the four bytes at an address, under the careful regime. -/
def move4 (op : CopyOp) (base : Nat) : CopyCmd := { fill0 with op := op, careful := true, map := TMap.ofNat (map4 base), origin := [0, 0, 0, 0, 0] }

/-- `camp` with one copy command, under a range entry that permits no write. -/
def dock (c : CopyCmd) : State :=
  camp (withS [(6, 0x100), (7, 0x200)]) (fun k => { k with copies := [c], ranges := [(0, 0x10000#64), (1, 0x90000#64), (2, 0x10000#64), (3, 0x35#64)] }) []

/-- What a step of the copy engine comes to. -/
def kindOf : CopyStep → Nat
  | .hold => 0 | .done _ => 1 | .fault false _ => 2 | .fault true _ => 3

/-- A chunk that is done, a page without translation, a page that may not be written; `twait` of a free and of a busy range, and a reserved bit. -/
theorem test_witness_TileEngine : (dock fill0).copyTurn 0 0 = some fill0 ∧
    (kindOf ((dock fill0).stepCopy 0 fill0) = 1 ∧ fill0.stop = none ∧ (dock fill0).chunkHeld 0 fill0 fill0.next = false ∧ fill0.next < 4 * fill0.dst.cnt ∧
      3 < 4 * fill0.dst.cnt) ∧
    kindOf ((dock (move4 .tld 0x40000000)).stepCopy 0 (move4 .tld 0x40000000)) = 2 ∧ kindOf ((dock (move4 .tst 0x10000)).stepCopy 0 (move4 .tst 0x10000)) = 3 ∧
    (let s := dock fill0; field (s.hart.sreg 6) 63 9 = 0 ∧ (∃ c ∈ s.core.queueOf s.cur, selects (s.hart.sreg 6) c.ranges = true) ∧
      (∀ c ∈ s.core.queueOf s.cur, selects 1 c.ranges = false) ∧ field (s.hart.sreg 7) 63 9 ≠ 0 ∧ CanTrap s) ∧ encode (.twait 9 7) ≠ none := by
  refine ⟨copyTurn_single ?_, ?_, ?_, ?_, ⟨?_, ?_, ?_, ?_, ⟨?_, ?_⟩⟩, ?_⟩ <;> decide +kernel

/-! ### The matrix engine -/

/-- Shapes of M = N = 1, K = 8 of int8 and of fp32 (R239). -/
def shapeI : Word := BitVec.ofNat 64 (1 + 2 ^ 8 + 8 * 2 ^ 16 + 2 ^ 32 + 2 ^ 40 + 0x10 * 2 ^ 48 + 2 ^ 59)
def shapeF : Word := BitVec.ofNat 64 (1 + 2 ^ 8 + 8 * 2 ^ 16 + 0x10 * 2 ^ 32 + 0x10 * 2 ^ 40 + 0x10 * 2 ^ 48 + 2 ^ 59)

/-- A matrix command of hart 0 on accumulator 1 with sources in slots 0 and 1 and a destination in slot 2. -/
def job (op : MatOp) (w : Word) : MatCmd :=
  let d := fun (k : Nat) => ({ slot := k, cnt := if k = 1 ∧ op = .mmab then 2 else 1, lay := 0, bar := 1, nb := false, tr := false, te := 0 } : Desc)
  { op := op, uid := 0, hart := 0, gang := some 1, stamp := 0, pc := 0x1000#64, shape := w, lossBnd := 0, acc := 1
    a := if op = .mzero ∨ op = .mread then none else some (d 0)
    b := if op = .mzero ∨ op = .mread ∨ op = .mload ∨ op = .mdec then none else some (d 1)
    out := if op = .mread ∨ op = .mdec then some (d 2) else none
    param := 0x10 }

/-- `camp` with accumulator 1 in s5, source ranges in s6 and s9, a destination range in s7, parameters of `mread` in s8. -/
def lab (w : Word) (ms : List MatCmd) : State :=
  camp { withS [(5, 1), (6, 0x100), (7, 0x100100), (8, 0x10), (9, 0x201)] with mshape := w } (fun k => { k with mats := ms }) []

def descIs (r : Except Trap Desc) (P : Desc → Bool) : Bool := match r with | .ok d => P d | _ => false

/-- Shapes at both ends of their ranges, one beyond, one of mixed tags; every form's checks pass; a full queue; an accumulator outside the grant and one
that is none; a failure awaiting report; `mfence` with and without work. -/
theorem test_witness_MatrixIssue : let s := lab shapeI []; let h := s.hart; let x := Shape.ofWord shapeI; let y := Shape.ofWord shapeF
    (shapeFault shapeI = none ∧ shapeFault (shapeI + 127 + 63 * 2 ^ 8 + 1016 * 2 ^ 16) = none ∧ shapeFault (shapeI + 128) = some 1 ∧
      shapeFault (shapeI + 0xF * 2 ^ 40) = some 2 ∧ CanTrap s ∧ h.mfail.fail = false) ∧
    ((h.sreg 5).toNat < 8 ∧ (s.gangOf s.cur).any (fun g => g.hasAcc (h.sreg 5).toNat) = true ∧
      descIs (checkDesc (s.gangOf s.cur) .source (h.sreg 6) 0) (fun d => d.slot = 0 && d.cnt = 1) = true ∧
      descIs (checkDesc (s.gangOf s.cur) .source (h.sreg 9) 0) (fun d => d.slot = 1 && d.cnt = 2) = true ∧
      descIs (checkDesc (s.gangOf s.cur) .dest (h.sreg 7) 0) (fun d => d.cnt = 1) = true) ∧
    (readParams (h.sreg 8) = none ∧ x.ms = 1 ∧ x.slotsA = 1 ∧ 1 + x.slotsB = 2 ∧ x.slotsTerms = 1 ∧ x.m ≠ 0 ∧ x.decTag = true ∧
      x.k % ((pattern x.pat).2.1 * x.dot / (pattern x.pat).1) = 0 ∧ y.isInt = false ∧ y.slotsScan = 1 ∧ shapeFault shapeF = none) ∧
    (s.core.mats.length < 64 ∧ s.core.matStall = [] ∧ 64 ≤ (lab shapeI (List.replicate 64 (job .mzero shapeI))).core.mats.length) ∧
    ((s.gangOf s.cur).all (fun g => !g.hasAcc 2) = true ∧ 7 < (8 : Word).toNat ∧ ({ h with mfail := { fail := true } } : Hart).mfail.fail = true) ∧
    ((s.coreAt (s.cur / 8)).mats.filter (fun c => c.hart = s.cur) = [] ∧
      ((lab shapeI [job .mma shapeI]).coreAt 0).mats.filter (fun c => c.hart = 0) ≠ []) := by
  refine ⟨⟨?_, ?_, ?_, ?_, ⟨?_, ?_⟩, ?_⟩, ?_, ?_, ?_, ?_, ?_⟩ <;> decide +kernel

/-- `camp` with one posted command, and bytes of slots 0 and 1. -/
def forge (op : MatOp) (w : Word) (ms : List (Nat × Nat × Nat)) : State :=
  camp hart0 (fun k => { k with mats := [job op w] }) (ms.map (fun x => (scratchBase + x.1, x.2)))

/-- What holds of a command that may complete. -/
def forged (op : MatOp) (w : Word) (s : State) : Bool :=
  let k := s.coreAt 0; let c := job op w
  (k.mats[0]? = some c) && shapeFault c.shape = none && !(k.held c.hart c.stamp c.reads c.writes) && s.mem.poison = []

/-- The header of one term and one remainder entry in slot 1, the metadata of its two groups, and the entry (k, n) = (7, 0) (R255, R256). -/
def terms1 : List (Nat × Nat × Nat) :=
  [(16384, 8, 0x100010001), (16384 + 16, 8, 0x1000880000000), (16384 + 1024, 4, 7), (16384 + 2052, 2, 0x404)]

def matError (r : Except Nat State) : Option Nat := match r with | .error e => some e | _ => none

/-- Every operation at the head of the queue; term ranges that are well formed and that are not; a load of an uncorrectable byte. -/
theorem test_witness_MatrixResults :
    (forged .mzero shapeI (forge .mzero shapeI []) ∧ forged .mload shapeI (forge .mload shapeI []) ∧ forged .mma shapeI (forge .mma shapeI []) ∧
      forged .mmab shapeI (forge .mmab shapeI []) ∧ forged .mscan shapeF (forge .mscan shapeF []) ∧ forged .mdec shapeI (forge .mdec shapeI []) ∧
      forged .mread shapeI (forge .mread shapeI []) ∧ Tag.ofCode? (field (job .mread shapeI).param 7 0) = some .fp32) ∧
    (let s := forge .mmanm shapeI terms1; let x := Shape.ofWord shapeI; let B := s.rangeBytes 0 1; let H := TermHead.read B
      forged .mmanm shapeI s ∧ forged .mrem shapeI (forge .mrem shapeI terms1) ∧ H.fault x 1 = none ∧ H.fault x 2 = none ∧ H.terms = 1 ∧ x.groups = 2 ∧
        metaBad x (termMeta x B 0 0 0) = false ∧ metaBad x (termMeta x B 0 0 1) = false ∧ H.rcount = 1 ∧ (remEntry B 0).1 = 7 ∧ x.k = 8 ∧
        (remEntry B 0).2.1 < x.n) ∧
    (let B := (forge .mmanm shapeI []).rangeBytes 0 1; (TermHead.read B).fault (Shape.ofWord shapeI) 1 = some 1 ∧
      (TermHead.read B).fault (Shape.ofWord shapeI) 2 = some 2) ∧
    (let s := forge .mload shapeI []; let t : State := { s with mem := { s.mem with poison := [(scratchBase / 16, true)] } };
      matError (t.matEffect 0 (job .mload shapeI)) = some 3) := by
  refine ⟨⟨?_, ?_, ?_, ?_, ?_, ?_, ?_, ?_⟩, ⟨?_, ?_, ?_, ?_, ?_, ?_, ?_, ?_, ?_, ?_, ?_, ?_⟩, ⟨?_, ?_⟩, ?_⟩ <;> decide +kernel

/-- R251: 3 · 4 is added to the entry at (0, 0). -/
theorem test_mma_int8 : (match execMatrixExecute 0 0 (forge .mma shapeI [(0, 1, 3), (16384, 1, 4)]) with
    | .next t => (t.coreAt 0).accAt 1 0 0 = 12 && (t.coreAt 0).mats = [] | _ => false) = true := by decide +kernel

/-! ### The stage fabric -/

/-- A port's context. -/
def portCtx (node slot : Nat) (ins outs : List (Option Nat)) : FabCtx :=
  { node := node, ctx := 0, op := 0, weight := 1, ins := ins, outs := outs, par := [256 + slot, 0x10000, 1, 0, 0] }
def spi0 : FabCtx := portCtx 20 1 [none, none, none, none] [some 0, none]
def spo0 : FabCtx := portCtx 24 2 [some 0, none, none, none] [none, none]

/-- A program of one input port on slot 1 that feeds one output port on slot 2, a row an invocation; and its record (R271, R272). -/
def through : FabProg := { blk := 0, modulus := 0, sat := false, ctxs := [spi0, spo0] }

def throughRecord : List (Nat × Nat × Nat) :=
  [(0, 1, 1), (2624, 1, 0x11), (2632, 1, 0x80), (2636, 4, 0x101), (2640, 4, 0x10000), (2644, 4, 1), (3136, 1, 0x11), (3140, 1, 0x80), (3148, 4, 0x102),
    (3152, 4, 0x10000), (3156, 4, 1)]

/-- `camp` with a fabric, s5 a source range, s6 a count or selector, s7 a barrier word or node, and bytes of slot 0. -/
def mill (f : Fabric → Fabric) (rs : List (SReg × Word)) (ms : List (Nat × Nat × Nat)) : State :=
  camp (withS ([(5, 0x100), (6, 1), (7, 1)] ++ rs)) (fun c => { c with fab := f c.fab }) (ms.map (fun x => (scratchBase + x.1, x.2)))

/-- A launch of hart 0. -/
def launch1 : Launch := { first := 0, count := 1, bar := some 1, bytes := 256, hart := 0, stamp := 0 }

/-- A gang with and without the fabric, with a failure; a record that is taken and one that is not; queues of 15 and of 16; counts and barriers at
their edges; invocations that are not issued, over, cancelled and running; a drain that is over and one that is not; the last selectors; a batch. -/
theorem test_witness_FabricIssue : let s := mill id [] throughRecord; let g := s.fabAt 0
    let full := mill (fun f => { f with cmds := List.replicate 16 (.sgo launch1) }) [] []
    (s.hasFab s.cur = true ∧ (box hart0).hasFab 0 = false ∧ CanTrap s ∧ CanTrap (box hart0) ∧ (mill (fun f => { f with fail := true }) [] []).fabAt 0 ≠ g ∧
      s.hart.inFabWait = false ∧ ({ hart0 with block := some ⟨.engine 0x0800000000000000, 0, none⟩ } : Hart).inFabWait = true) ∧
    (g.fail = false ∧ g.halt = false ∧ 16 ≤ (full.fabAt 0).cmds.length ∧ g.cmds.length < 16 ∧ s.slotHeld [0] [] = false ∧
      descIs (checkDesc (s.gangOf s.cur) .source (s.hart.sreg 5) 0) (fun r => r.slot = 0 && r.cnt = 1) = true) ∧
    (recordTrap (s.rangeBytes 0 0) through gang1 = none ∧ readProgram (s.rangeBytes 0 0) 0 false = through) ∧
    ((let t := mill id [] []; recordTrap (t.rangeBytes 0 0) (readProgram (t.rangeBytes 0 0) 0 false) gang1).map (·.val) = some 0) ∧
    (65535 < (65536 : Word).toNat ∧ g.configured = true ∧ barOutside (s.gangOf s.cur) 1 = false ∧ barOutside (s.gangOf s.cur) 2 = true ∧
      g.next + 65535 ≤ 2 ^ 32 - 1 ∧ (∀ m, g.cmds.head? ≠ some (.sgo m))) ∧
    ((s.hart.sreg 7).toNat < 8 ∧ ¬ (8 < 8 ∨ 10 ≤ 8)) ∧
    (let f : Fabric := { next := 3, resolved := 2, cancelled := [(1, 2)] }; f.next ≤ 3 ∧ (∃ c ∈ f.cancelled, c.1 ≤ 1 ∧ 1 < c.2) ∧
      (∀ c ∈ f.cancelled, ¬ (c.1 ≤ 0 ∧ 0 < c.2)) ∧ 2 < f.next ∧ f.resolved ≤ 2) ∧
    (g.cmds = [] ∧ g.resolved = g.next ∧ g.quiet = true ∧ ¬ ((full.fabAt 0).cmds = []) ∧ 29 < (30 : Word).toNat) ∧
    (let h : Hart := { s.hart with mode := 0, p := [(0, 1#512)], v := [(8, BitVec.ofNat 2048 (1 + 2 ^ 64 + 1024 * 2 ^ 128))] };
      (∀ k ∈ (List.range 32).filter (fun k => h.active k), recBits (h.batchRecord 1 k) 0 7 0 = 1 ∧ recBits (h.batchRecord 1 k) 8 63 0 = 1 ∧
        recBits (h.batchRecord 1 k) 0x10 63 0 = 1024) ∧ h.active 0 = true) := by
  refine ⟨⟨?_, ?_, ⟨?_, ?_⟩, ⟨?_, ?_⟩, ?_, ?_, ?_⟩, ?_, ⟨?_, ?_⟩, ?_, ⟨?_, ?_, ?_, ?_, ?_, ?_⟩, ?_, ?_, ?_, ?_⟩ <;> first | decide +kernel | (intro m h; cases h)

/-- `through` in effect with a launch, and a step counter. -/
def running (f : Fabric → Fabric) (cycle : Nat) : State :=
  { camp hart0 (fun c => { c with ageLim := 1, fab := f { c.fab with prog := some through, launches := [launch1], next := 1 } }) [] with clock := { cycle := cycle } }

def attemptGoes (a : Attempt) : Bool := match a with | .go _ => true | _ => false

/-- A program of one context of node CT, from channel 0 to channel 1. -/
def relay : FabProg :=
  { blk := 0, modulus := 0, sat := false
    ctxs := [{ node := 15, ctx := 0, op := 1, weight := 1, ins := [some 0, none, none, none], outs := [some 1, none], par := [1, 0, 0, 0, 0] }] }

/-- A period with a program and with a table; a port's three kinds of token; a marker at a context; a commit; a window that is over; an old head. -/
theorem test_witness_FabricEngine : let s := running id 0; let p := spi0.port (s.fabBase 0)
    (({ cmds := [.scfg through, .sgo launch1] } : Fabric).quiet = true ∧ (through.ctxs.map FabCtx.key).Nodup ∧
      (s.coreAt 0).held 0 0 [0, 1, 2, 3] [] = false) ∧
    ((s.fabAt 0).entry 80 = some spi0 ∧ spi0.isInPort = true ∧ ((s.fabAt 0).inPort 20).inv < (s.fabAt 0).admitted ∧
      ((s.fabAt 0).inPort 20).pos = 0 ∧ (s.fabAt 0).stopping = false ∧ p.tk < 2 ∧ 1 ≤ p.tk) ∧
    (p.beyond ((p.rb + 0 * p.rs + 0) % p.rows) = false ∧ (s.fabAt 0).launchOf 0 = some launch1 ∧ s.invReadHeld 0 0 launch1 (p.rowChunks 0) = false) ∧
    (let t := running (fun f => { f with prog := some relay, chans := [(0, [Token.control .marker 0])] }) 0;
      let s0 := t.onFab 0 (fun _ => (t.fabAt 0).account 0)
      (match pickContext s0 0 15 with | (some e, f') => e.key = 60 && attemptGoes (attempt (s0.onFab 0 (fun _ => f')) 0 e) | _ => false) = true) ∧
    (let t := running (fun f => { f with outPorts := [(24, { inv := some 0, held := [(0, 0)], ready := true })] }) 0;
      (t.fabAt 0).ready 0 = true ∧ ((t.fabAt 0).entry 96).map FabCtx.isOutPort = some true ∧ 0 < (t.fabAt 0).admitted ∧
        t.invWriteHeld 0 0 launch1 (through.writes (t.fabBase 0) 0) = false) ∧
    (let t := running (fun f => { f with chans := [(0, [Token.control .marker 0])] }) 1024; let f := t.fabAt 0
      f.halt = false ∧ t.fabricStands 0 = false ∧ f.entries.filter (fun e => e.node = 20) ≠ [] ∧ (f.entries.map FabCtx.key).Nodup ∧ (∀ e ∈ f.entries, e.ctx < 4) ∧
        SMap.get 0 f.windowAt 20 + 1024 ≤ t.clock.cycle ∧ t.clock.cycle < SMap.get 0 f.windowAt 20 + 2048 ∧
        (t.fabAt 0).entries.find? (fun e => e.ins.contains (some 0)) = some spo0 ∧ (t.coreAt 0).ageLim.toNat ≠ 0 ∧ (t.fabAt 0).chan 0 ≠ [] ∧
        SMap.get 0 (t.fabAt 0).headAt 0 + (t.coreAt 0).ageLim.toNat ≤ t.clock.cycle ∧ t.recordRoom 0 = true ∧ (t.coreAt 0).unposted = []) := by
  refine ⟨?_, ?_, ?_, ?_, ?_, ?_⟩ <;> decide +kernel

/-! ### The host's side -/

/-- `town` with a host block, and bytes of device memory and of host memory. -/
def port (f : HostBlk → HostBlk) (ms hs : List (Nat × Nat × Nat)) : State :=
  let s := town hart0 (ms ++ hs.map (fun x => (hostBase + x.1, x.2)))
  { s with host := f { s.host with bar2Size := 0x100000, mgmt := true }, sched := { ({} : Sched) with queues := [(3, { qbase := 0x30000#64, en := true })] } }

/-- Ring 2 with one entry, at host address 0x100. -/
def ringed (e : Nat) (f : State → State) (ms : List (Nat × Nat × Nat)) : State :=
  f (port (fun b => { b with rings := [(2, { hbase := 0x100#64, en := true, wr := 1 })] }) ms [(0x100, 64, e)])

/-- The last ring and the greatest doorbell; aligned and unaligned accesses at the ends of BAR0; the last registers of every kind; BAR2 outside its
size, outside HBM, in HBM, on a stack that is not up, and on a fenced die. -/
theorem test_witness_HostAccesses : let s := port id [] []; let t := port (fun b => { b with b2base := 0xFFFFFFFFFF000000 }) [] []
    (15 < 16 ∧ 2 ^ 64 - 1 < 2 ^ 64 ∧ 0xFFFFFF < 0x1000000 ∧ 0xFFFFFF % 1 = 0 ∧ 0xFFFFFF % 2 ≠ 0 ∧ 0x1004 % 4 = 0 ∧ 0x1004 % 8 ≠ 0 ∧ 0x1000000 ≤ 0x1000000) ∧
    (63 < 64 ∧ 255 < 256 ∧ 3 < 4 ∧ 47 < 48 ∧ s.part.hasCore (coreOf 3 47) = true ∧
      ({ s with part := { s.part with coreMask := [0, 0, 0, 0] } } : State).part.hasCore (coreOf 0 0) = false) ∧
    (s.host.bar2Size ≤ 0x100000 ∧ 0x10000 < s.host.bar2Size ∧ t.part.backed (t.host.b2base.toNat + 0x10000) 8 = false) ∧
    (s.part.backed (s.host.b2base.toNat + 0x10000) 8 = true ∧ s.stackReady (s.host.b2base.toNat + 0x10000) = true ∧
      (s.host.b2base.toNat + 0x10FF8) % 4096 + 8 ≤ 4096 ∧ s.onFenced (s.part.key (s.host.b2base.toNat + 0x10000)) = false ∧
      ({ s with host := { s.host with hbm := 0 } } : State).stackReady (s.host.b2base.toNat + 0x10000) = false) ∧
    (let u : State := { s with dies := [(0, { Die.reset with fenced := true })] };
      u.onFenced (u.part.key 0x10000) = true ∧ u.dieRecordRoom u.master = true ∧ (u.dieAt u.master).unposted = []) := by
  refine ⟨?_, ?_, ?_, ?_, ?_⟩ <;> decide +kernel

/-- R418: a doorbell beyond the ring's 16 entries sets OVR, and one at the last entry moves WR. -/
theorem test_doorbell_range : ((ringBell 2 17 (ringed 0 id [])).ring 2).ovr = true ∧ ((ringBell 2 16 (ringed 0 id [])).ring 2).wr = 16 := by decide +kernel

/-- A command of 64 bytes between host address 0x2000 and device address 0x12000. -/
def dma (toHost : Bool) (dev : Word) : Dma :=
  { id := 9, ring := 2, ctx := 0, src := if toHost then dev else 0x2000, dst := if toHost then 0x2000 else dev, len := 64, toHost := toHost, postrec := 0
    cmpl := 0x3000, irq := true }

/-- What translation of a command's first byte comes to. -/
def lookKind : DmaLook → Nat
  | .ok _ => 0 | .page => 1 | .protect => 2

/-- A command whose one page is translated, ready and of no fenced die. -/
def lookOk (s : State) (c : Dma) : Bool :=
  match s.dmaLook c 0 with
  | .ok x => decide (x.tt ≠ 5 ∧ x.pa % 4096 = (c.device 0).toNat % 4096) && s.stackReady x.pa &&
      (List.range c.len).all (fun j => !s.onFenced (s.part.key (x.pa + j)))
  | _ => false

/-- POST of a record that is nowhere, invalid, of a disabled queue, and accepted; COPY; a command that moves and two that stop; one that is stopped. -/
theorem test_witness_HostEntries : let post := fun (a : Nat) => 1 + a * 2 ^ 128
    let next := fun (s : State) (P : Nat → Bool) => ((s.nextEntry 2).map P).getD false
    let one := [(0x11000, 64, record3)]
    let off := fun (s : State) => { s with sched := {} }
    (next (ringed (post 0x11000 + 2 ^ 10) id []) (fun e => recBits e 0 7 0 = 1 && !entryHeadOk e) = true) ∧
    (next (ringed (post 0x11000) id one) (fun e => recBits e 0 7 0 = 1 && entryHeadOk e && recBits e 0x18 319 0 = 0) = true) ∧
    (((ringed (post 0x40000000) id one).recAt 0 0x40000000).1.isNone = true) ∧
    (someOf ((ringed (post 0x11000) id []).recAt 0 0x11000) (fun r s' => !s'.recValid true r.1) = true) ∧
    (someOf ((ringed (post 0x11000) off one).recAt 0 0x11000) (fun r s' => s'.recValid true r.1 && !(s'.queue r.1.queue).en) = true) ∧
    (someOf ((ringed (post 0x11000) id one).recAt 0 0x11000) (fun r s' => s'.recValid true r.1 && (s'.queue r.1.queue).en && !r.1.range &&
      !(s'.queue r.1.queue).full && !s'.hasHeld r.1.queue && s'.stackReady 0x30000 && !s'.onFenced (s'.part.key 0x30000)) = true ∧
      (ringed (post 0x11000) id one).schedHeld 0 0x11000 = false) ∧
    (let p : HeldPost := ⟨3, { addr := 0x11000#64 }, 1⟩
      let full := fun (s : State) => { s with sched := { ({} : Sched) with queues := [(3, { qbase := 0x30000#64, en := true, qwr := 64 })] }
                                              dies := [(0, { Die.reset with held := List.replicate 64 p })] }
      someOf ((ringed (post 0x11000) full one).recAt 0 0x11000) (fun r s' => s'.recValid true r.1 && (s'.queue r.1.queue).en && !r.1.range &&
        (s'.queue r.1.queue).full && 64 ≤ (s'.dieAt s'.master).held.length) = true) ∧
    (next (ringed (2 + 64 * 2 ^ 256) id []) (fun e => recBits e 0 7 0 = 2 && entryHeadOk e && recBits e 0x20 31 0 = 64 && recBits e 0x24 31 1 = 0 &&
      recBits e 0x30 127 0 = 0) = true) ∧
    (let c := dma true 0x12FC0; let s := port (fun b => { b with dmas := [c] }) [] [];
      s.host.dmas.find? (fun d => d.id = c.id) = some c ∧ c.stop = none ∧ c.moved = 0 ∧ c.len ≠ 0 ∧ (s.ring c.ring).frozen = false ∧
      s.dieRecordRoom s.master = true ∧ (s.dieAt s.master).unposted = [] ∧ (c.device 0).toNat % 4096 + c.len = 4096 ∧
      lookOk s c = true ∧ s.mem.poison = []) ∧
    (lookKind ((port id [] []).dmaLook (dma false 0x40000000) 0) = 1 ∧ lookKind ((port id [(0x4003000, 1, 0x37)] []).dmaLook (dma false 0x12000) 0) = 2) ∧
    (let c : Dma := { dma true 0x12000 with stop := some { protect := true, seq := some 5 } };
      (port (fun b => { b with dmas := [c] }) [] []).stoppedDma 5 = some c) := by
  refine ⟨?_, ?_, ?_, ?_, ?_, ⟨?_, ?_⟩, ?_, ?_, ⟨?_, ?_, ?_, ?_, ?_, ?_, ?_, ?_, ?_, ?_⟩, ⟨?_, ?_⟩, ?_⟩ <;> decide +kernel

/-- A management entry of ring 2. -/
def mgmt (cmd arg : Nat) (f : HostBlk → HostBlk) : State :=
  ringed (3 + cmd * 2 ^ 128 + arg * 2 ^ 192 + 0x4000 * 2 ^ 448) (fun s => { s with host := f s.host }) []

/-- The commands' entries; a malformed one; recovery mode; a gang that runs; a list that is full; a core, and test mode's registers. -/
theorem test_witness_ManagementCommands : let is := fun (s : State) (P : MgmtEntry → Bool) => ((s.mgmtEntry 2).map P).getD false
    let good := fun (m : MgmtEntry) => entryHeadOk m.entry && recBits m.entry 0x12 47 0 = 0
    ((List.range 14).all (fun k => is (mgmt k 1 id) (fun m => good m && m.cmd = k && m.arg 0 = 1 && m.resp = 0x4000)) = true) ∧
    (is (ringed (3 + 2 * 2 ^ 128 + 2 ^ 144) id []) (fun m => !good m && m.cmd = 2) = true ∧
      (mgmt 2 1 (fun b => { b with recov := true })).host.recov = true ∧ (mgmt 2 1 id).host.recov = false) ∧
    (∃ c ∈ (camp hart0 id []).cores, c.2.active ≠ []) ∧ (¬ ∃ c ∈ (mgmt 2 1 id).cores, c.2.active ≠ []) ∧
    ((List.replicate 64 (0 : Word)).length ≥ 64 ∧ (SMap.get [] (mgmt 4 7 id).host.repairs 7).length < 64) ∧
    ((mgmt 2 1 id).part.hasCore 239 = true ∧ (mgmt 2 1 id).live 3 = true ∧ (mgmt 2 1 id).live 0 = true ∧ (mgmt 2 1 id).part.hasCore 0 = true) ∧
    (let s := mgmt 9 0 (fun b => { b with test := true }); s.host.test = true ∧ bit s.hart.status 0 = true ∧ CanTrap s ∧
      bit ({ hart0 with status := 0 } : Hart).status 0 = false) ∧
    ((withS [(5, 1), (6, 0x800)]).sreg 5 = 1 ∧ field ((withS [(5, 1), (6, 0x800)]).sreg 6) 11 8 = 8) ∧
    (((mgmt 9 0 id).part.key? 0x10000).isSome = true) := by
  refine ⟨?_, ⟨?_, ?_, ?_⟩, ?_, ?_, ⟨?_, ?_⟩, ⟨?_, ?_, ?_, ?_⟩, ⟨?_, ?_, ⟨?_, ?_⟩, ?_⟩, ?_, ?_⟩ <;> decide +kernel

/-! ### Four dies -/

/-- `town` with die 0 as given, a frame of die 1 in its free ring at 0x50000, and a page-table entry at 0x51000. -/
def quad (f : Die → Die) (leaf : Nat) : State :=
  let s := town hart0 [(0x50000, 8, localBase + 0x40000000), (0x51000, 8, leaf)]
  { s with dies := [(0, f Die.reset), (1, { Die.reset with freeb := 0x50000, freewr := 1 })], clock := { time := 1000000 } }

/-- A window that is over; a candidate whose entry has changed, one whose entry holds and one whose page has an access under way; a waiting write; links and ports with 16 failed replays, and
with fewer; a live die. -/
theorem test_witness_DiesAndLinks : let page : HotPage := ⟨0x51000, 0x20000043, 1⟩
    let hot := fun (leaf : Nat) => quad (fun d => { d with candidates := [page], doneb := 0x60FE0 }) leaf
    (let s := quad (fun d => { d with trackEn := true }) 0; (s.dieAt 0).trackEn = true ∧ s.live 0 = true ∧
      (s.dieAt 0).windowAt + (s.dieAt 0).win * 1000 ≤ s.clock.time ∧ (s.dieAt 0).hpskip.toNat < 2 ^ 32) ∧
    (let s := hot 0; let d := s.dieAt 0; let e := s.dieAt 1; d.candidates = page :: [] ∧ s.live 0 = true ∧ d.donewr - d.donerd.toNat < 512 ∧
      e.freewr.toNat ≠ e.freerd ∧ s.live page.toward = true ∧ (d.doneb.toNat + d.donewr % 512 * 32) % 4096 + 32 ≤ 4096 ∧
      (s.part.key? (d.doneb.toNat + d.donewr % 512 * 32)).isSome = true ∧ (∀ k, k < 4 → s.dieRecordRoom k = true) ∧ (∀ pa n, s.rangeReady pa n = true) ∧
      s.onFenced (s.part.key (d.doneb.toNat + d.donewr % 512 * 32)) = false ∧ s.readPhys64 page.entry ≠ page.leaf.toNat ∧
      (({ s with dies := (1, { e with fenced := true }) :: s.dies.eraseIdx 1 } : State).firstLost page.entry 8).isSome = true) ∧
    (let page : HotPage := ⟨0x51000, word (localBase + 0x20000043), 1⟩
      let s := quad (fun d => { d with candidates := [page], doneb := 0x60FE0 }) (localBase + 0x20000043); let e := s.dieAt 1
      let new := bytesToNat (s.readPhys (e.freeb.toNat + e.freerd % 512 * 8) 8); let old := ptePA page.leaf.toNat
      s.frameBusy old = false ∧ s.readPhys64 page.entry = page.leaf.toNat ∧ s.part.inWindow 1 new 2097152 = true ∧ new % 2097152 = 0 ∧
        page.entry % 4096 + 8 ≤ 4096 ∧ s.part.inWindow 1 old 2097152 = true ∧ old % 2097152 = 0 ∧ old ≠ new ∧ s.firstLost new 2097152 = none ∧
        s.firstLost page.entry 8 = none ∧ (s.part.key? page.entry).isSome = true ∧ bit page.leaf 6 = true ∧
        ({ s with dies := (2, { Die.reset with pending := [⟨s.part.key old, [1], 512, [0, 0, 0, 0]⟩] }) :: s.dies } : State).frameBusy old = true) ∧
    (let w : CrossWrite := ⟨0x10000, [1], 512, [0, 0, 0, 0]⟩; let s := quad (fun d => { d with pending := [w] }) 0
      (s.dieAt 0).pending.find? (s.covers 0) = some w ∧ s.onFenced w.key = false) ∧
    (let s := quad (fun d => { d with linkFails := [16, 15, 16] }) 0; s.linkUp 0 = true ∧ s.linkUp 1 = true ∧ s.linkUp 2 = true ∧ s.linkUp 11 = true ∧
      (s.dieAt 0).linkDown.length = 3 ∧ 16 ≤ (s.dieAt 0).linkFails.getD 2 0 ∧ 16 ≤ (s.dieAt 0).linkFails.getD 0 0 ∧ (s.dieAt 0).linkFails.getD 1 0 < 16 ∧ linkPeer 0 = some 4 ∧
      (s.dieAt 1).linkDown.length = 3) ∧
    (let c : Coll := { portFails := [(15, 16)] }; c.portDown.contains 15 = false ∧ Part.full.portPres.testBit 15 = true ∧ 16 ≤ SMap.get 0 c.portFails 15 ∧
      SMap.get 0 c.portFails 0 < 16) ∧
    ((0 < 1 ∧ 3 ≤ 3) ∧ (quad id 0).live 3 = true) := by
  refine ⟨?_, ⟨?_, ?_, ?_, ?_, ?_, ?_, ?_, ?_, fun pa n => ranges_up rfl pa n, ?_, ?_, ?_⟩, ?_, ?_, ?_, ?_, ?_⟩ <;> decide +kernel

/-! ### Collectives -/

/-- A group of two ranks in context 0 whose region is the 4 MiB at an address (R357): its entry. -/
def groupWords (land : Nat) (rel : Bool) : Nat := 1 + (2 + rel.toNat * 2 ^ 31) * 2 ^ 32 + land * 2 ^ 384

/-- Memory of pinned pages: the first GiB maps to itself (R176, R177), and its translations are held. It has the entries of a group at 0x10000,
one that asks for its release, one without a translation, and the ranks of the group. -/
def mootLeaf : Nat := 2 ^ 52 + 0x1BF
def mootUsed : List (Nat × Nat) :=
  [(tlbKey 0 2 0, mootLeaf), (tlbKey 0 3 0, 0x4003001), (tlbKey 0 4 0, 0x4002001), (tlbKey 0 5 0, 0x4001001)]
def mootMem (ms : List (Nat × Nat × Nat)) : Mem :=
  { cells := List.foldl (fun (m : Memory) (x : Nat × Nat × Nat) => m.writeN x.1 x.2.1 x.2.2) tables ([(0x4003000, 8, mootLeaf), (0x10000, 64, groupWords 0x800000 false), (0x10040, 64, groupWords 0x800000 true),
        (0x10080, 64, groupWords 0x40000000 false), (0x900000, 8, 0x8000000180000000)] ++ ms)
    ctxBase := 0x4000000#64, ctxEn := true
    tlb := mootUsed.foldl (holdEntry [0, 256]) [] }

/-- `town` with that memory and a collective engine. -/
def moot (rs : List (SReg × Word)) (c : Coll) (ms : List (Nat × Nat × Nat)) : State :=
  { town (withS rs) [] with mem := mootMem ms, coll := c }

/-- What the translations rest on. -/
structure IsMoot (s : State) (ms : List (Nat × Nat × Nat)) : Prop where
  part : s.part = Part.full
  mem : s.mem = mootMem ms
  up : ∀ pa ∈ [0x4000000, 0x4001000, 0x4002000, 0x4003000], s.stackReady pa = true
  ctx : s.hart.ctx = 0
  sup : s.hart.sup = true
  master : s.master = 0

/-- Memory that leaves the tables alone. -/
def tablesHold (ms : List (Nat × Nat × Nat)) : Bool :=
  let s : State := { State.reset with mem := mootMem ms }
  s.readPhys64 0x4000000 = 0x4001001 && s.readPhys64 0x4000008 = 0 && s.readPhys64 0x4001000 = 0x4002001 && s.readPhys64 0x4002000 = 0x4003001 &&
    s.readPhys64 0x4003000 = mootLeaf

theorem walk_down {s : State} {ctx va l table e : Nat} (u : List (Nat × Nat)) (he : s.walkEntry none (tlbKey ctx (l + 1) (vaIndex va (l + 1)))
      (table + vaIndex va (l + 1) % 512 * 8) = e) (hr : s.stackReady (table + vaIndex va (l + 1) % 512 * 8) = true) (hv : pteV e = true) (hl : pteLeaf e = false) (ht : tableOk s.part e = true) :
    s.walkFrom none ctx va (l + 1) table u = s.walkFrom none ctx va l (ptePA e) ((tlbKey ctx (l + 1) (vaIndex va (l + 1)), e) :: u) := by
  rw [State.walkFrom]
  simp [he, hr, hv, hl, ht]

theorem moot_walk {s : State} {ms : List (Nat × Nat × Nat)} (h : IsMoot s ms) (ht : tablesHold ms = true) {va : Nat} (hv : va < 2 ^ 30) :
    s.walk none 0 va = some (leafXlat 2 mootLeaf 0x4003000 (pageSize 2) va, mootUsed) := by
  have i4 : vaIndex va 4 = 0 := Nat.div_eq_of_lt (by omega)
  have i3 : vaIndex va 3 = 0 := Nat.div_eq_of_lt (by omega)
  have i2 : vaIndex va 2 = 0 := Nat.div_eq_of_lt (by omega)
  have hr : ∀ pa, s.readPhys64 pa = ({ State.reset with mem := mootMem ms } : State).readPhys64 pa := by
    intro pa
    simp only [State.readPhys64, h.part, h.mem]
    rfl
  simp only [tablesHold, Bool.and_eq_true, decide_eq_true_eq] at ht
  obtain ⟨⟨⟨⟨r0, r1⟩, r2⟩, r3⟩, r4⟩ := ht
  have tl : s.mem.tlb = mootUsed.foldl (holdEntry [0, 256]) [] := by rw [h.mem]; rfl
  have wp : ∀ key e, SMap.get 0 (mootUsed.foldl (holdEntry [0, 256]) []) (tlbSlot 256 key) = e → s.walkPick none key e = e := by
    intro key e h2
    simp [State.walkPick, State.tlbsOf, h.master, tl, h2]
  have we : ∀ key pa e, s.readPhys64 pa = e → SMap.get 0 (mootUsed.foldl (holdEntry [0, 256]) []) (tlbSlot 256 key) = e → s.walkEntry none key pa = e := by
    intro key pa e h1 h2
    rw [State.walkEntry, h1, wp key e h2]
  have z8 : s.readPhys64 (0x4000000 + 8) = 0 := (hr _).trans r1
  have e5 : s.walkContext none (tlbKey 0 5 0) 0x4000000 = 0x4001001 := by
    rw [State.walkContext, z8, (hr _).trans r0]
    exact wp _ _ (by decide +kernel)
  have ready := h.up
  have e4 : s.walkEntry none (tlbKey 0 4 0) 0x4001000 = 0x4002001 := we _ _ _ ((hr _).trans r2) (by decide +kernel)
  have e3 : s.walkEntry none (tlbKey 0 3 0) 0x4002000 = 0x4003001 := we _ _ _ ((hr _).trans r3) (by decide +kernel)
  have e2 : s.walkEntry none (tlbKey 0 2 0) 0x4003000 = mootLeaf := we _ _ _ ((hr _).trans r4) (by decide +kernel)
  have l2 : leafOk Part.full 2 mootLeaf (pageSize 2) = true := by decide +kernel
  have c2 : pteV mootLeaf = true ∧ pteLeaf mootLeaf = true ∧ pteCont mootLeaf = false := by decide +kernel
  have c3 : pteV 0x4003001 = true ∧ pteLeaf 0x4003001 = false ∧ tableOk Part.full 0x4003001 = true ∧ ptePA 0x4003001 = 0x4003000 := by decide +kernel
  have c4 : pteV 0x4002001 = true ∧ pteLeaf 0x4002001 = false ∧ tableOk Part.full 0x4002001 = true ∧ ptePA 0x4002001 = 0x4002000 := by decide +kernel
  have c5 : (0x4001001 % 2 = 0 || 0x4001001 / 2 ^ 52 ≠ 0 || bits 0x4001001 11 1 ≠ 0) = false ∧
    Part.full.backed (ptePA 0x4001001) 4096 = true ∧ Part.full.backed 0x4000000 16 = true ∧ ptePA 0x4001001 = 0x4001000 := by decide +kernel
  have f2 : ∀ u, s.walkFrom none 0 va 2 0x4003000 u = some (leafXlat 2 mootLeaf 0x4003000 (pageSize 2) va, (tlbKey 0 2 0, mootLeaf) :: u) := by
    intro u
    rw [State.walkFrom]
    simp only [i2, Nat.zero_mod, Nat.zero_mul, Nat.add_zero, e2, h.part, l2, c2, ready 0x4003000 (by decide)]
    rfl
  have f3 : ∀ u, s.walkFrom none 0 va 3 0x4002000 u = s.walkFrom none 0 va 2 (ptePA 0x4003001) ((tlbKey 0 3 (vaIndex va 3), 0x4003001) :: u) := fun u =>
    walk_down u (by rw [i3]; exact e3) (by rw [i3]; exact ready _ (by decide)) c3.1 c3.2.1 (h.part ▸ c3.2.2.1)
  have f4 : ∀ u, s.walkFrom none 0 va 4 0x4001000 u = s.walkFrom none 0 va 3 (ptePA 0x4002001) ((tlbKey 0 4 (vaIndex va 4), 0x4002001) :: u) := fun u =>
    walk_down u (by rw [i4]; exact e4) (by rw [i4]; exact ready _ (by decide)) c4.1 c4.2.1 (h.part ▸ c4.2.2.1)
  have cb : s.mem.ctxBase.toNat = 0x4000000 := by simp only [h.mem, mootMem]; decide
  have ce : s.mem.ctxEn = true := by rw [h.mem]; rfl
  simp only [State.walk, ce, cb, Nat.zero_mul, Nat.add_zero, e5, h.part, c5, ready 0x4000000 (by decide)]
  simp only [f4, c4, f3, c3, f2, i3, i4]
  rfl

theorem moot_translate {s : State} {ms : List (Nat × Nat × Nat)} (h : IsMoot s ms) (ht : tablesHold ms = true) {va : Word} (hv : va.toNat < 2 ^ 30) :
    s.translate none 0 va = (some (leafXlat 2 mootLeaf 0x4003000 (pageSize 2) va.toNat), s) := by
  have hm : va.toNat % 2 ^ 57 = va.toNat := Nat.mod_eq_of_lt (by omega)
  have hc : s.cacheEntries none mootUsed = s := by
    have : mootUsed.foldl (holdEntry [256]) s.mem.tlb = s.mem.tlb := by
      have e : s.mem.tlb = mootUsed.foldl (holdEntry [0, 256]) [] := by rw [h.mem]; rfl
      rw [e]
      decide +kernel
    simp only [State.cacheEntries, State.tlbsOf, h.master, this]
  simp only [State.translate, hm, moot_walk h ht hv, hc]

theorem canonical_small {w : Word} (h : w.toNat < 2 ^ 30) : canonical w = true := by
  have hm : (w.setWidth 57).msb = false := by
    rw [BitVec.msb_eq_false_iff_two_mul_lt, BitVec.toNat_setWidth, Nat.mod_eq_of_lt (by omega)]
    omega
  simp only [canonical, sext57, BitVec.signExtend_eq_setWidth_of_msb_false hm, decide_eq_true_eq]
  apply BitVec.eq_of_toNat_eq
  simp only [BitVec.toNat_setWidth]
  omega

theorem moot_leaf : ∀ v, v < 2 ^ 30 → (leafXlat 2 mootLeaf 0x4003000 (pageSize 2) v).pa = v ∧
    (leafXlat 2 mootLeaf 0x4003000 (pageSize 2) v).permits .collective false = true := by
  intro v hv
  have h1 : ptePA mootLeaf = 0 ∧ pageSize 2 = 2 ^ 30 ∧ pteTT mootLeaf = 6 ∧ pteR mootLeaf = true ∧ pteW mootLeaf = true := by decide +kernel
  simp only [leafXlat, Xlat.permits, Access.allows, h1]
  refine ⟨by omega, by decide⟩

theorem moot_land {s : State} {ms : List (Nat × Nat × Nat)} (h : IsMoot s ms) (ht : tablesHold ms = true) (va : Word) (ha : va.toNat % 4096 = 0) :
    ∀ n k, va.toNat + 4096 * (k + n) ≤ 2 ^ 30 → s.landPages va k n = (some ((List.range' k n).map (fun j => va.toNat + 4096 * j)), s)
  | 0, _, _ => rfl
  | n + 1, k, hk => by
    have hp : (va / 4096 * 4096 + word (4096 * k)).toNat = va.toNat + 4096 * k := by
      have h1 : (va / 4096 * 4096 : Word).toNat = va.toNat := by
        simp only [BitVec.toNat_mul, BitVec.toNat_udiv]
        have : (4096 : Word).toNat = 4096 := rfl
        rw [this, Nat.div_mul_cancel (Nat.dvd_of_mod_eq_zero ha)]
        exact Nat.mod_eq_of_lt va.isLt
      have h2 : (word (4096 * k)).toNat = 4096 * k := by
        simp only [word, BitVec.toNat_ofNat]
        exact Nat.mod_eq_of_lt (by omega)
      rw [BitVec.toNat_add, h1, h2]
      exact Nat.mod_eq_of_lt (by omega)
    have hl : (va / 4096 * 4096 + word (4096 * k)).toNat < 2 ^ 30 := by omega
    have hcan : canonical (va / 4096 * 4096 + word (4096 * k)) = true := canonical_small hl
    have hx : ∀ v, v < 2 ^ 30 → (leafXlat 2 mootLeaf 0x4003000 (pageSize 2) v).pa = v ∧
        (leafXlat 2 mootLeaf 0x4003000 (pageSize 2) v).permits .collective false = true := moot_leaf
    rw [State.landPages]
    simp only [hcan, h.ctx, h.sup, moot_translate h ht hl, moot_land h ht va ha n (k + 1) (by omega), hp, Bool.not_true, (hx _ (hp ▸ hl)).1,
      (hx _ (hp ▸ hl)).2, List.range'_succ, List.map_cons]
    simp

theorem moot_pinned {s : State} {ms : List (Nat × Nat × Nat)} (h : IsMoot s ms) (ht : tablesHold ms = true) {va : Word} {n : Nat}
    (ha : va.toNat % 4096 = 0) (hn : va.toNat + n + 4095 ≤ 2 ^ 30) :
    s.pinned va n = (some ((List.range' 0 ((n + 4095) / 4096)).map (fun j => va.toNat + 4096 * j)), s) := by
  unfold State.pinned
  rw [ha, Nat.zero_add]
  exact moot_land h ht va ha _ 0 (by omega)

/-- `moot` with an operand in s5, another in s6, and hart 0 in `gang1` on core 0. -/
def hall (a b : Word) (c : Coll) (ms : List (Nat × Nat × Nat)) : State :=
  { moot [(5, a), (6, b)] c ms with
    cores := [(0, { Core.reset with gangs := [(1, some gang1)] })], harts := [(0, { withS [(5, a), (6, b)] with gang := some 1 })] }

/-- A registration of the group of `groupWords`. -/
def reg1 : Reg :=
  { ctx := 0, gid := 1, log := false, size := 2, me := 0, gen := 0, subs := [none, none, none, none], lsz := 0, pages := [0x800000]
    table := [(0, true), (1, true)] }
def inst1 : Inst := { num := 0, kind := .program, call := 0x11000, hart := 0, pc := 0x1000, gang := none, bar := none }

theorem hall_moot (a b : Word) (c : Coll) (ms : List (Nat × Nat × Nat)) : IsMoot (hall a b c ms) ms :=
  ⟨rfl, rfl, fun pa _ => stacks_up rfl pa, rfl, by show hart0.sup = true; decide +kernel, rfl⟩

/-- The entry in s5 loads without any other effect and is as given. -/
def entryIs (s : State) (P : GroupEntry → Bool) : Bool :=
  Loaded.isOk (s.loadBlock (s.hart.sreg 5) 64) (fun bs s1 => decide (s1 = s) && P (GroupEntry.ofNat (bytesToNat bs)))

/-- `hall` with half the stacks up, those of the tables and the entries among them. -/
def cold (a b : Word) (c : Coll) (ms : List (Nat × Nat × Nat)) : State :=
  let s := hall a b c ms
  { s with host := { s.host with hbm := 0x55 } }

theorem cold_up (a b : Word) (c : Coll) (ms : List (Nat × Nat × Nat)) {pa : Nat} (hp : Part.full.place pa = .hbm pa)
    (hb : bit 0x55#64 (hbmStack pa) = true) : (cold a b c ms).stackReady pa = true := by
  have p : (cold a b c ms).part = Part.full := rfl
  have h : (cold a b c ms).host.hbm = 0x55#64 := rfl
  simp [State.stackReady, p, h, hp, hb]

theorem cold_moot (a b : Word) (c : Coll) (ms : List (Nat × Nat × Nat)) : IsMoot (cold a b c ms) ms :=
  ⟨rfl, rfl, fun pa hp => cold_up a b c ms (by revert pa; decide +kernel) (by revert pa; decide +kernel), rfl,
    by show hart0.sup = true; decide +kernel, rfl⟩

/-- The pages of the region. -/
def region : List Nat := (List.range' 0 1024).map (fun j => 0x800000 + 4096 * j)

/-- The region of 4 MiB at 0x800000 is pinned, and one beyond the first GiB is not. -/
theorem test_region_pinned (a b : Word) (c : Coll) : (hall a b c []).pinned 0x800000 0x400000 = (some region, hall a b c []) :=
  moot_pinned (hall_moot a b c []) (by decide +kernel) (by decide) (by decide)

/-- No table of the walk waits for its stack, so the region is pinned at once. -/
theorem moot_up {s : State} (m : IsMoot s []) : s.pinHeld 0x800000 0x400000 = false := by
  simp only [State.pinHeld, List.any_eq_false]
  intro k hk
  have h : k < 1024 := List.mem_range.mp hk
  have p : (0x800000 / 4096 * 4096 + word (4096 * k) : Word).toNat = 0x800000 + 4096 * k := by
    have e : (0x800000 / 4096 * 4096 : Word).toNat = 0x800000 := by decide
    have w : (word (4096 * k)).toNat = 4096 * k := by
      rw [word, BitVec.toNat_ofNat]; exact Nat.mod_eq_of_lt (by omega)
    rw [BitVec.toNat_add, e, w]; exact Nat.mod_eq_of_lt (by omega)
  rw [m.ctx, moot_translate m (by decide +kernel) (by omega)]
  simp [leafXlat]

theorem test_region_up (a b : Word) (c : Coll) : (hall a b c []).pinHeld 0x800000 0x400000 = false := moot_up (hall_moot a b c [])

/-- A region that is pinned and lies on a stack that is not ready. -/
theorem test_region_cold (a b : Word) (c : Coll) : (cold a b c []).pinned 0x800000 0x400000 = (some region, cold a b c []) ∧
    (cold a b c []).pinHeld 0x800000 0x400000 = false ∧ ∃ pa ∈ region, (cold 0 0 {} []).stackReady pa = false :=
  ⟨moot_pinned (cold_moot a b c []) (by decide +kernel) (by decide) (by decide), moot_up (cold_moot a b c []), 0x804000, by decide +kernel⟩

/-- `cgrp`: an entry of zeros; no translation; a region whose rank is another's, or is registered in another context; a release of nothing; all
registration contexts in use, and one free; the group registered, with and without an instance. -/
theorem test_witness_CollectiveInstructions_cgrp :
    entryIs (hall 0x10100 0 {} []) (fun e => !e.ok) = true ∧
    (entryIs (hall 0x10080 0 {} []) (fun e => e.ok && e.land = 0x40000000 && e.lsz = 0) = true ∧
      ((hall 0x10080 0 {} []).pinned 0x40000000 0x400000).1.isNone = true) ∧
    (entryIs (hall 0x10000 0 {} []) (fun e => e.ok && !e.rel && e.land = 0x800000 && e.lsz = 0 && e.size = 2 && e.me = 0 && e.gid = 1) = true ∧
      entryIs (hall 0x10040 0 {} []) (fun e => e.ok && e.rel && e.land = 0x800000 && e.lsz = 0 && e.size = 2 && e.me = 0 && e.gid = 1) = true) ∧
    ((∀ pa ∈ region, (hall 0x10000 0 {} []).stackReady pa = true) ∧ entryIs (cold 0x10000 0 {} []) (fun e => e.ok && e.land = 0x800000 && e.lsz = 0) = true ∧
      ((∀ e, e < 4 → (hall 0x10000 0 {} []).dieRecordRoom e = true) ∧ (hall 0x10000 0 {} []).recordRoom 0 = true) ∧
      (hall 0x10000 0 {} []).pagesPoison region 0x100000 (4 * 2) = none ∧
      ({ hall 0x10000 0 {} [] with mem := { (hall 0x10000 0 {} []).mem with poison := [(0x90000, true)] } } : State).pagesPoison region 0x100000 (4 * 2) =
        some 0x100000 ∧ CanTrap (hall 0x10000 0 {} [])) ∧
    ((hall 0x10000 0 {} []).readTable region 2 = [(0, true), (1, true)] ∧ (hall 0x10000 0 { rank := 5 } []).coll.rank = 5) ∧
    ((hall 0x10000 0 { regs := [(0, some { reg1 with ctx := 1 })] } []).coll.live.any (fun p => p.2.gid = 1 && p.2.me = 0 && p.2.ctx ≠ 0) = true) ∧
    ((hall 0x10000 0 {} []).findReg 0 1 = none ∧ (hall 0x10000 0 {} []).coll.freeReg = some 0 ∧ (hall 0x10000 0 {} []).coll.held = [] ∧
      (hall 0x10000 0 { regs := (List.range 256).map (fun k => (k, some { reg1 with gid := k + 2 })) } []).coll.freeReg = none) ∧
    ((hall 0x10000 0 { regs := [(0, some { reg1 with inst := some inst1 })] } []).findReg 0 1 = some (0, { reg1 with inst := some inst1 }) ∧
      (hall 0x10000 0 { regs := [(0, some reg1)] } []).findReg 0 1 = some (0, reg1)) := by
  refine ⟨?_, ⟨?_, ?_⟩, ⟨?_, ?_⟩, ⟨fun pa _ => stacks_up rfl pa, ?_, ⟨?_, ?_⟩, ?_, ?_, ⟨?_, ?_⟩⟩, ⟨?_, ?_⟩, ?_, ⟨?_, ?_, ?_, ?_⟩, ?_, ?_⟩ <;> decide +kernel

/-- A loaded image of step words and what holds of it. -/
def imageIs (s : State) (va : Word) (n : Nat) (P : List Nat → State → Bool) : Bool :=
  Loaded.isOk (s.loadWords va n) (fun bs s1 => P ((List.range n).map (fun k => elemAt bs 4 k)) s1)

/-- Words that `cprg` refuses, takes, and finds in use; a reserved bit; counts at the ends of the store. -/
theorem test_witness_CollectiveInstructions_cprg : let ms : List (Nat × Nat × Nat) := [(0x11000, 4, 0xC0000000), (0x11004, 4, 0x80000000)]
    let s := hall 0x11000 0x100000000 {} ms; let busy := fun (s1 : State) => s1.coll.live.any (fun p => match p.2.inst with
      | some i => i.kind = .program && i.derived.isNone && decide (0 ≤ s1.coll.progEnd i.entry ∧ i.entry < 0 + 1) | none => false)
    (CanTrap s ∧ field (word (2 ^ 14)) 31 14 ≠ 0 ∧ field (s.hart.sreg 6) 63 47 = 0 ∧ field (s.hart.sreg 6) 31 14 = 0 ∧ field (s.hart.sreg 6) 46 32 = 1 ∧
      16384 < field (word 16383) 13 0 + 2 ∧ field (word 16383) 13 0 + 1 ≤ 16384) ∧
    (imageIs s 0x11000 1 (fun ws _ => ws.any stepBad) = true ∧ imageIs s 0x11004 1 (fun ws _ => !ws.any stepBad && !loopsOk 0 ws) = true) ∧
    imageIs s 0x11008 1 (fun ws s1 => !ws.any stepBad && loopsOk 0 ws && !busy s1) = true ∧
    imageIs (hall 0 0 { regs := [(0, some { reg1 with inst := some inst1 })] } ms) 0x11008 1 (fun ws s1 => !ws.any stepBad && loopsOk 0 ws && busy s1) = true := by
  refine ⟨⟨⟨?_, ?_⟩, ?_⟩, ⟨?_, ?_⟩, ?_, ?_⟩ <;> decide +kernel

/-- Call blocks of GID 1 without a barrier: of a program at word 0, of a repartition of 64 bytes, of a rotation over two sets of one slot (R368, R391,
R398). -/
def callBlock : Nat := 2 ^ 42 + 2 ^ 64
def repBlock : Nat :=
  let buf := fun (a : Nat) => 2 ^ 63 + 2 ^ 62 + a + (64 + 2 ^ 32) * 2 ^ 64
  callBlock + 0x0C080400 * 2 ^ 96 + buf 0x14000 * 2 ^ 128 + buf 0x14100 * 2 ^ 256 + buf 0x14200 * 2 ^ 384 + 0x14300 * 2 ^ 512
def rotBlock : Nat := callBlock + 0x010102 * 2 ^ 96 + 0x100 * 2 ^ 128 + 1 * 2 ^ 160 + 0x14300 * 2 ^ 256

/-- `hall` with a call block at 0x11000. -/
def calls (block : Nat) (r : Option Reg) : State := hall 0x11000 0 { regs := [(0, r)] } [(0x11000, 128, block)]

def blockIs (s : State) (n : Nat) (P : Nat → State → Bool) : Bool :=
  Loaded.isOk (s.loadBlocks 0x11000 n) (fun bs s1 => s1.cur = s.cur && s1.hart.ctx = s.hart.ctx && P (bytesToNat bs) s1)

/-- The call blocks' fields, the three early codes, and blocks that are accepted. -/
theorem test_witness_CollectiveInstructions_start : let busy := { reg1 with inst := some inst1 }; let r := some reg1
    let reads := fun (q : Nat) (s1 : State) => recBits q 4 10 10 = 1 && recBits q 8 31 0 = 1 && s1.findReg 0 1 = some (0, reg1)
    (CanTrap (hall 0x11020 0 {} []) ∧ (0x11020 : Word).toNat % 64 ≠ 0) ∧
    (blockIs (calls callBlock r) 4 (fun q s1 => reads q s1 && (List.range 12).all (fun b => !(bufAt q (0x40 + 16 * b)).v)) = true ∧
      blockIs (calls repBlock r) 2 (fun q s1 => reads q s1 && [0x10, 0x20, 0x30].all (fun o => (bufAt q o).land)) = true ∧
      blockIs (calls rotBlock r) 1 (fun q s1 => reads q s1 && slotOutside (s1.gangOf 0) (recBits q 0x10 7 0) (recBits q 0x10 15 8) = none &&
        slotOutside (s1.gangOf 0) (recBits q 0x14 7 0) (recBits q 0xC 3 0 * recBits q 0xC 23 16) = none) = true) ∧
    ((calls callBlock none).findReg 0 1 = none ∧ (calls callBlock (some { reg1 with pending := true })).findReg 0 1 = some (0, { reg1 with pending := true }) ∧
      (calls callBlock (some busy)).findReg 0 1 = some (0, busy)) ∧
    (decide (((calls callBlock r).startProgram 0x11000).1 = .code 0) = true ∧ decide (((calls callBlock none).startProgram 0x11000).1 = .code 2) = true ∧
      SMap.wf none (calls callBlock r).coll.regs = true ∧ (calls callBlock r).coll.held = []) := by
  refine ⟨⟨⟨?_, ?_⟩, ?_⟩, ⟨?_, ?_, ?_⟩, ⟨?_, ?_, ?_⟩, ?_, ?_, ?_, ?_⟩ <;> decide +kernel

def codeIs {α : Type} [DecidableEq α] (r : Except Nat α) (x : α) : Bool := match r with | .ok y => decide (y = x) | _ => false
def barIs (r : Except Trap (Option Nat)) (x : Option Nat) : Bool := match r with | .ok y => decide (y = x) | _ => false

theorem test_witness_CollectiveInstructions_crepart : blockIs (calls repBlock (some reg1)) 2 (fun q s1 =>
    let raw := [bufAt q 0x10, bufAt q 0x20, bufAt q 0x30]; let bufs := s1.makeBufs raw
    let offs := (List.range 4).map (fun j => recBits q (0xC + j) 7 0)
    barIs (s1.callBar (recBits q 4 31 0)) none && (s1.bufOutside raw).isNone && !s1.bufsHeld raw &&
      (List.range 4).all s1.dieRecordRoom && s1.recordRoom 0 && !s1.pinHeld (sext57 (word (recBits q 0x40 63 0))) (64 + 4 * 2) &&
      codeIs (s1.startCode (recBits q 8 31 0)) (0, reg1) &&
      bufs.1.all (fun b => match b with | some b => decide (b.parts = 1 ∧ b.bytes = 64) | none => false) && bufs.1.length = 3 && !bufs.2.1 &&
      (bufs.2.2.resultArea (sext57 (word (recBits q 0x40 63 0))) 2).1.isSome && recBits q 0 31 16 = reg1.next && recBits q 0 15 0 = 0 && recBits q 4 31 12 = 0 &&
      recBits q 0x40 63 57 = 0 && recBits q 0x48 447 0 = 0 && (sext57 (word (recBits q 0x40 63 0))).toNat % 64 = 0 && raw.all BufWords.clean &&
      offs.all (fun o => decide (o % 4 = 0 ∧ o + 4 ≤ 32))) = true := by decide +kernel

theorem test_witness_CollectiveInstructions_crot : blockIs (calls rotBlock (some reg1)) 1 (fun q s1 =>
    let n := recBits q 0xC 23 16; let sets := recBits q 0xC 3 0; let own := recBits q 0x10 7 0; let first := recBits q 0x14 7 0
    barIs (s1.callBar (recBits q 4 31 0)) none && codeIs (s1.startCode (recBits q 8 31 0)) (0, reg1) && (List.range 4).all s1.dieRecordRoom &&
      s1.recordRoom 0 &&
      !s1.pinHeld (word (recBits q 0x20 63 0)) (64 + 4 * 2) && (s1.resultArea (word (recBits q 0x20 63 0)) 2).1.isSome &&
      decide (recBits q 0x18 63 0 = 0 ∧ recBits q 0 31 16 = reg1.next ∧ recBits q 0 15 0 = 0 ∧ recBits q 4 31 11 = 0 ∧ recBits q 0xC 31 24 = 0 ∧
        recBits q 0xC 7 4 = 0 ∧ recBits q 0x10 31 20 = 0 ∧ recBits q 0x14 31 12 = 0 ∧ recBits q 0x28 191 0 = 0 ∧ n = 1 ∧ recBits q 0xC 15 8 = 1 ∧ sets = 2 ∧
        recBits q 0x10 15 8 = n ∧ recBits q 0x10 19 16 ≤ 4 ∧ recBits q 0x14 11 8 ≤ 4 ∧ own + n ≤ first)) = true := by decide +kernel

/-- An instance that runs, one with a report, one that is over; a join that is over; a batch of one abort. -/
theorem test_witness_CollectiveInstructions_wait : let w (r : Reg) := hall 1 0 { regs := [(0, some r)] } []
    let run := { reg1 with inst := some inst1 }; let told := { reg1 with inst := some { inst1 with report := some 7 } }
    let done := { reg1 with last := some ⟨0, 1, none⟩ }
    (CanTrap (w reg1) ∧ field (word (2 ^ 49)) 63 49 ≠ 0 ∧ field (1 : Word) 63 49 = 0 ∧ bit (1 : Word) 48 = false ∧ field (1 : Word) 47 32 = 0 ∧
      (hall 1 0 {} []).findReg 0 1 = none) ∧
    ((w run).findReg 0 1 = some (0, run) ∧ (w run).reg 0 = some run ∧ inst1.num = 0 ∧ inst1.report = none) ∧
    ((w told).findReg 0 1 = some (0, told) ∧ (w told).reg 0 = some told) ∧ ((w done).findReg 0 1 = some (0, done) ∧ (w done).reg 0 = some done) ∧
    (let j : Join := { ctx := 0, gid := 1, slot := 0, donor := 1, enter := false, log := false, lsz := 0, pages := [], hart := 0, done := true };
      (hall (word (2 ^ 48 + 1)) 0 { joins := [j] } []).coll.joins.find? (fun j => j.ctx = 0 && j.gid = 1) = some j ∧ bit (word (2 ^ 48 + 1)) 48 = true) ∧
    (let h : Hart := { withS [] with mode := 0, p := [(0, 1#512)], v := [(8, BitVec.ofNat 2048 (5 + 2 ^ 64))] };
      SMap.wf none (w run).coll.regs = true ∧ h.active 0 = true ∧ ∀ k ∈ (List.range 32).filter (fun k => h.active k),
        recBits (h.batchRecord 1 k) 0 7 0 = 5 ∧ field (word (recBits (h.batchRecord 1 k) 8 63 0)) 63 48 = 0 ∧
          field (word (recBits (h.batchRecord 1 k) 8 63 0)) 31 0 = 1 ∧ field (word (recBits (h.batchRecord 1 k) 8 63 0)) 47 32 = inst1.num) := by
  refine ⟨⟨⟨?_, ?_⟩, ?_⟩, ?_, ?_, ?_, ?_, ?_⟩ <;> decide +kernel

/-- `cshrink` without a registration, without a change, with an instance, and with a change; `cjoin` of GID 0, of a region without a translation, and one
that asks its donor. -/
theorem test_witness_CollectiveInstructions_change : let w (r : Reg) := hall 1 0 { regs := [(0, some r)] } []
    let p := { reg1 with pending := true }
    (CanTrap (w p) ∧ field (word (2 ^ 32)) 63 32 ≠ 0 ∧ field (1 : Word) 63 32 = 0 ∧ (w p).findReg 0 1 = some (0, p) ∧ p.joiners = [] ∧ p.inst = none ∧
      (w p).coll.held = [] ∧ (w reg1).findReg 0 1 = some (0, reg1) ∧ ({ p with inst := some inst1 } : Reg).inst.isSome = true) ∧
    (field (word (2 ^ 33)) 63 33 ≠ 0 ∧ field (word (2 ^ 32 + 1)) 63 33 = 0 ∧ field (word (2 ^ 32 + 1)) 31 18 = 0 ∧ field (word (2 ^ 32 + 1)) 17 0 = 1) ∧
    (entryIs (hall 0x10100 0 {} []) (fun e => e.gid = 0) = true ∧ entryIs (hall 0x10080 0 {} []) (fun e => e.gid ≠ 0 && e.lsz ≤ 11 && e.land = 0x40000000) = true) ∧
    (let s := hall 0x10000 (word (2 ^ 32 + 1)) { routeb := 0x16000 } [(0x16002, 2, 0x8000)];
      entryIs s (fun e => e.gid = 1 && e.lsz ≤ 11 && e.land = 0x800000) = true ∧ s.findReg 0 1 = none ∧ s.coll.freeReg = some 0 ∧ s.coll.joins = [] ∧
        (1 : Nat) ≠ s.coll.rank ∧ s.route 1 = some 0 ∧ s.coll.skips = [] ∧ s.coll.unsent = [] ∧ (∀ pa, s.stackReady pa = true) ∧
        tablesHold [(0x16002, 2, 0x8000)] = true) ∧
    entryIs (cold 0x10000 (word (2 ^ 32 + 1)) {} []) (fun e => e.gid = 1 && e.clean && e.lsz = 0 && e.land = 0x800000) = true ∧
    (w p).recordRoom 0 = true ∧ ∀ e, e < 4 → (w p).dieRecordRoom e = true := by
  refine ⟨⟨⟨?_, ?_⟩, ?_⟩, ?_, ⟨?_, ?_⟩, ⟨?_, ?_, ?_, ?_, ?_, ?_, ?_, ?_, stacks_up rfl, ?_⟩, ?_, ?_, ?_⟩ <;> decide +kernel

/-- A slot buffer of one slot in one part, on core 0. -/
def buf1 : Buf := { land := false, core := 0, slot := 0, cnt := 1, parts := 1, bytes := 4096 }

/-- `hall` whose registration 0 runs an instance, on rank 0 with rank 1 behind port 0, and the step words given (R361). -/
def ring1 (i : Inst) (words : List Nat) : State :=
  hall 0 0 { regs := [(0, some { reg1 with inst := some i })], routeb := 0x16000, store := words.mapIdx (fun k w => (k, w)) } [(0x16002, 2, 0x8000)]

/-- A message from rank 1 to rank 0. -/
def msg1 (k : MsgKind) : Msg := { kind := k, src := 1, dst := 0, gid := 1, fromRank := 1, toRank := 0, red := 1, span := 2 }

/-- A fault that another package found in a message of the instance. -/
def fault1 : Msg := { msg1 .noRoute with step := 3, args := [0, 0, 0] }

/-- An END, a LOOP of two, an ENDL inside and at the end of its loop, a SEND to the next rank; a RECV, which waits; a fault to take up. -/
theorem test_witness_CollectiveSteps_program : let i := { inst1 with bufs := [some buf1] }; let w := 0x14010000; let s := ring1 i [w]
    let r : Reg := { reg1 with inst := some i }
    (s.reg 0 = some r ∧ r.inst = some i ∧ s.instHeld r i = false ∧ s.recordRoom (coreOfHart i.hart) = true ∧ (∀ e, e < 4 → s.dieRecordRoom e = true) ∧
      r.early = [] ∧ i.kind = .program ∧ i.derived = none ∧ i.next < 16384 ∧ r.released = false ∧ s.coll.held = []) ∧
    (hall 0 0 { regs := [(0, some { r with early := [fault1] })] } []).pullFault 0 { r with early := [fault1] } i ≠ none ∧
    (((ring1 i [0x20010000]).programStep 0 r i).isNone = true ∧ (s.programStep 0 r i).isSome = true) ∧
    (stepOp 0 = 0 ∧ stepOp 0x70000002 = 7 ∧ 0 < r.loopCount 0x70000002 ∧ stepOp 0x80000000 = 8) ∧
    ((Loop.mk 1 2 0).l + 1 < (Loop.mk 1 2 0).count ∧ (Loop.mk 1 2 1).count ≤ (Loop.mk 1 2 1).l + 1) ∧
    (stepOp w = 1 ∧ (r.scope (stepPm w) (stepSub w)).any (fun c => i.peer c w (stepK w) = 1) = true ∧ i.bufs.getD (stepSrc w) none = some buf1 ∧
      i.aborted = false ∧ s.bufAway i (some buf1) = false ∧ s.bufFenced buf1 = false ∧ r.missing i.num 1 = false ∧ (r.member 1).1 = 1 ∧
      1 ≠ s.coll.rank ∧ s.route 1 = some 0 ∧ s.coll.skips = [] ∧ s.coll.unsent = []) ∧
    ({ s with host := {} } : State).instHeld r i = true := by
  refine ⟨?_, ?_, ⟨?_, ?_⟩, ?_, ?_, ?_, ?_⟩ <;> decide +kernel

/-- A rotation of two members with two sets of one slot from slot 1, nothing landed. -/
def rot1 (sets : List RotSet) : Rotation :=
  { core := 0, gang := none, inst := 0, ring := [0, 1], rho := 0, bcnt := 1, readsN := 1, own := buf1, rslot := 1, seen := [], res := buf1, sets := sets }

/-- Messages in turn for a running instance, of a rank that is live; a block and its free set; one for another rank, with and without hops, behind
another, and with its route entry on a stack that is not up; a port whose fall waits for such an entry. -/
theorem test_witness_CollectiveSteps_messages : let i := { inst1 with kind := .rotation }; let x := rot1 [{}, {}]
    let r : Reg := { reg1 with inst := some i, rot := some x }; let s := hall 0 0 { regs := [(0, some r)], routeb := 0x16000 } [(0x16002, 2, 0x8000)]
    let m := { msg1 .block with step := 1, chunks := [{ bytes := List.replicate 16384 1 }] }
    (m.dst = s.coll.rank ∧ m.src ≠ s.coll.rank ∧ m.seq = SMap.get 0 s.coll.gotFrom m.src ∧ s.coll.reorder = [] ∧ s.coll.held = [] ∧ s.coll.slots = []) ∧
    ((∀ k ∈ [MsgKind.data, .result, .abortNotice, .joinNotice, .noRoute, .block], s.regOfMsg { m with kind := k } = some (0, r)) ∧ s.reg 0 = some r ∧
      r.inst = some i ∧ i.num = m.inst ∧ s.coll.lost = [] ∧ s.route m.src = some 0 ∧ (r.member m.fromRank).2 = true ∧ s.coll.skips = [] ∧
      s.coll.unsent = [] ∧ m.args.getD 2 0 ≤ 1) ∧
    (SMap.wf none s.coll.regs = true ∧ s.instHeld r i = false ∧ r.rot = some x ∧ i.kind = .rotation ∧ i.aborted = false ∧ x.ended = false ∧ m.step = x.landed + 1 ∧ m.step < x.size ∧
      r.early = [] ∧ x.passes m.step = false ∧ s.bufAway i (some (x.setBuf m.step)) = false ∧ s.bufFenced (x.setBuf m.step) = false ∧ x.sets ≠ [] ∧
      (x.sets.getD (x.landed % x.sets.length) {}).block = none ∧ (x.setBuf m.step).bytes = 16384) ∧
    (let a := { msg1 .data with src := 2, dst := 1, hops := 1 }; let w : State := { s with coll := { s.coll with unsent := [a], portFails := [(0, 16)] } }
      let u : State := { w with host := {} }
      a.dst ≠ s.coll.rank ∧ 0 < a.hops ∧ s.route a.dst = some 0 ∧ s.route 2 = none ∧ s.routeHeld 2 = false ∧ a.src ≠ w.coll.rank ∧ w.route a.dst = some 0 ∧
        w.coll.unsent.find? (fun x => x.dst = a.dst) = some a ∧ u.coll.unsent.find? (fun x => x.dst = a.dst) = some a ∧ u.routeHeld a.dst = true ∧
        (∀ x ∈ u.coll.unsent, x.dst ≠ 2) ∧ u.routeHeld 2 = true ∧ u.coll.portDown.contains 0 = false ∧ 16 ≤ SMap.get 0 u.coll.portFails 0 ∧
        (∃ p ∈ u.coll.live, ∃ y ∈ p.2.table, u.routeHeld y.1 = true) ∧ ∀ p ∈ w.coll.live, ∀ y ∈ p.2.table, w.routeHeld y.1 = false) := by
  refine ⟨?_, ?_, ?_, ?_⟩ <;> decide +kernel

/-- A first contribution of two; a slot that has waited and one that has not; sets that may be released, with and without a way to tell the sender,
and one that may not. -/
theorem test_witness_CollectiveSteps_square : let m := { msg1 .contribution with args := [0, 0, 1, 1], chunks := [{ bytes := List.replicate 4 0 }] }
    let s := hall 0 0 { regs := [(0, some { reg1 with inst := some inst1 })] } []
    (m.dst = s.coll.rank ∧ m.src ≠ s.coll.rank ∧ m.seq = SMap.get 0 s.coll.gotFrom m.src ∧ s.coll.reorder = [] ∧ s.coll.held = [] ∧
      m.chunks = [{ bytes := List.replicate 4 0, poison := false }] ∧ s.coll.slots = [] ∧ s.coll.late = [] ∧ s.coll.lost = [] ∧
      s.sqStale m = false ∧ s.sqEarly m = false ∧
      (∀ p ∈ s.coll.live, p.2.gid = m.gid → p.2.gen = m.gen → (p.2.member m.fromRank).2 = true) ∧
      (sqPairs m.args).filter (fun p => !s.sqGone m p.1 p.2) = [(0, 0), (1, 1)] ∧ m.fromRank ∈ sqScope m ∧ m.fromRank = 1) ∧
    (let x : SqSlot := { key := sqKey m, red := 1, len := 4, acc := some [0, 0, 0, 0], marked := none, scope := [0, 1], expected := [(0, 0), (1, 0)]
                         arrived := [1], poisoned := [], nan := none, since := 0 };
      let t : State := { s with coll := { s.coll with slots := [(0, some x)] }, clock := { time := 2000000 } };
      SMap.get none t.coll.slots 0 = some x ∧ t.coll.held = [] ∧ t.coll.sqTime ≠ 0 ∧ x.since + t.coll.sqTime.toNat * 1000 ≤ t.clock.time ∧
        (∀ p ∈ x.expected, p.2 = t.coll.rank) ∧ s.clock.time < x.since + s.coll.sqTime.toNat * 1000) ∧
    (let y : RotSet := { block := some 1, reads := 1, forwarded := true }; let z : RotSet := { y with reads := 0 }; let x := rot1 [y, z]
      (hall 0 0 { regs := [(0, some { reg1 with rot := some x })] } []).reg 0 = some { reg1 with rot := some x } ∧ x.sets[0]? = some y ∧ y.block ≠ none ∧
        x.readsN ≤ y.reads ∧ y.forwarded = true ∧ x.sets[1]? = some z ∧ z.reads < x.readsN ∧ (reg1.inst.map (·.num)) ≠ some x.inst ∧
        (let r : Reg := { reg1 with rot := some x, inst := some inst1 }; let v := hall 0 0 { regs := [(0, some r)] } []; let q := (r.member x.up).1;
          v.reg 0 = some r ∧ r.missing x.inst x.up = false ∧ q ≠ v.coll.rank ∧ v.routeHeld q = false ∧ v.route q = none ∧ v.coll.unsent = [] ∧
            inst1.num = x.inst ∧ v.recordRoom x.core = true)) := by
  refine ⟨?_, ?_, ?_⟩ <;> decide +kernel

/-- A repartition that is to begin, and one at its lowest live member. -/
theorem test_witness_CollectiveSteps_repartition : let p : Repart := { rsz := 32, offs := [0, 4, 8, 12], input := buf1, out := buf1, ovf := buf1, res := buf1, members := [0, 1] }
    let at' := fun (b : Bool) => ({ inst1 with kind := .repartition, rep := some p, begun := b } : Inst)
    let s := fun (b : Bool) => hall 0 0 { regs := [(0, some { reg1 with inst := some (at' b) })] } []
    let r := fun (b : Bool) => ({ reg1 with inst := some (at' b) } : Reg);
    (∀ b ∈ [false, true], (s b).reg 0 = some (r b) ∧ (r b).inst = some (at' b) ∧ (at' b).rep = some p ∧ (at' b).kind = .repartition ∧ (s b).instHeld (r b) (at' b) = false ∧
      (s b).recordRoom (coreOfHart (at' b).hart) = true ∧ (∀ e, e < 4 → (s b).dieRecordRoom e = true) ∧
      ((s b).repStep 0 (r b) (at' b) p).isSome = true ∧ (at' b).aborted = false ∧ (s b).bufAway (at' b) (some buf1) = false ∧ (s b).bufFenced buf1 = false) ∧
    ((r true).early = [] ∧ p.box = none ∧ p.boxTo = none ∧ p.members.filter (fun m => m = (r true).me || !(r true).missing (at' true).num m) = 0 :: [1]) ∧
    (let q := { p with box := some [], boxTo := some 0, boxSent := some 0, histTo := some 0 }; let i := { at' true with rep := some q };
      ((s true).repStep 0 { r true with inst := some i } i q).isNone = true) := by
  refine ⟨?_, ?_, ?_⟩ <;> decide +kernel

/-! ### Steps -/

def fetches (r : Fetched × State) (w : Nat) : Bool := match r with | (.word x, _) => x = w | _ => false
def fetchFails (r : Fetched × State) : Bool := match r with | (.fault _, _) => true | _ => false
def steps (s : State) : Bool := match step s with | .next _ => true | _ => false

/-- A word that is an instruction, one that is none, a convoy's, a fetch that faults and one that waits; an interrupt; an agent's turn; the outside's; a shutdown. -/
theorem test_witness_StepRunsDecodedWord : let s := town (at64K []) [(0x10000, 4, 0x08518700)]; let u := { s with cur := 0 }; let h := s.hartAt 0
    (s.off = false ∧ s.turn = .hart 0 ∧ h.run = .running ∧ h.retired = false ∧ u.takesInterrupt 0 = false ∧ u.ownPending = [] ∧ h.sParity = [] ∧
      h.pParity = [] ∧ h.vParity = [] ∧ h.conv = none ∧ h.waiting = none ∧ u.stopDue = false) ∧
    -- a hart that waits in an instruction; the rest of a resumed convoy, of a forbidden major and of another; registers in error
    (({ hart0 with block := some { wait := .wfi, since := 0, instr := some .wfi } } : Hart).waiting = some .wfi ∧ forbiddenMajor 0x18 = true ∧
      forbiddenMajor (0x08518700 / 2 ^ 26) = false ∧ u.turnedAway 0x08518700 (.add 5 6 7) = false ∧
      ({ u with harts := [(0, { at64K [] with status := 0 })] } : State).turnedAway 0xFC018701 (.dgwr 6 7) = true) ∧
    ((hart0.scalarReads (.add 5 6 7)).find? (fun r => [7].contains r.toNat) = some 7 ∧ hart0.scalarReads (.step 5 6) = [6] ∧
      ({ hart0 with stepArr := 1 } : Hart).scalarReads (.step 5 6) = [5, 6] ∧ guarded 0x6C000000 (.vadd 3 1 (.v 2)) = true ∧ (predReads (.pand 1 2 3)).map (·.toNat) = [2, 3] ∧
      (vectorReads (.vadd 3 1 (.v 2))).flatMap (pairOf hart0) = [1, 2] ∧ ¬ (9 ∈ (vectorReads (.vadd 3 1 (.v 2))).flatMap (pairOf hart0)) ∧
      0x1B ≤ 0x6C000000 / 2 ^ 26 ∧ ({ hart0 with mode := modeWord 5 true .rne false false } : Hart).guard ≠ 63) ∧
    (fetches (u.fetchAt h.pc) 0x08518700 = true ∧ decodeWord 0x08518700 = .ok (.add 5 6 7)) ∧
    (fetches ((town (at64K []) []).fetchAt 0x10000) 0 = true ∧ ∀ i, decodeWord 0 ≠ .ok i) ∧
    (({ at64K [] with conv := some ⟨1, 0, [0x08518700]⟩ } : Hart).conv = some ⟨1, 0, 0x08518700 :: []⟩) ∧
    fetchFails ((town { at64K [] with pc := 0x40000000#64 } []).fetchAt 0x40000000) = true ∧
    (match ({ u with host := {} } : State).fetchAt h.pc with | (.hold, _) => True | _ => False) ∧
    ({ s with harts := [(0, { at64K [] with status := 3 })], host := { s.host with svdb := 1 } } : State).takesInterrupt 0 = true ∧
    ({ s with turn := .event (.reweight 0 0) } : State).off = false ∧ ({ s with turn := .input, inputs := [.rst 0] } : State).inputs = .rst 0 :: [] ∧
    ({ s with off := true } : State).off = true := by
  refine ⟨?_, ?_, ?_, ⟨?_, ?_⟩, ⟨?_, fun i h => by cases h⟩, ?_, ?_, trivial, ?_, ?_, ?_, ?_⟩ <;> decide +kernel

/-- A hart's turn that is on offer, and canonical memory, at a step. -/
theorem test_witness_StepKeepsTurnLegal : let s := town (at64K []) [(0x10000, 4, 0x08518700)]
    (∃ h, (0, h) ∈ s.harts ∧ h.run = .running ∧ h.retired = false) ∧ s.turn = .hart 0 ∧ steps s = true :=
  ⟨⟨at64K [], by decide +kernel⟩, rfl, by decide +kernel⟩
theorem test_witness_StepKeepsMemoryCanonical : let s := town (at64K []) [(0x10000, 4, 0x08518700)]
    s.mem.cells.wf = true ∧ State.reset.mem.cells.wf = true ∧ steps s = true := by decide +kernel

/-- A word laid for the next step is the one fetched (log 17). -/
theorem test_withFetchWord : let s := State.reset.withFetchWord 32 0x08518700
    s.turn = .hart 0 ∧ fetches (s.fetchAt (s.hartAt 0).pc) 0x08518700 = true ∧ steps s = true := by decide +kernel

/-! ### Further witnesses: clauses on traps, results and the engines' steps -/

/-- Writes that set or clear bits of the old value and would give a value that R12 forbids. -/
theorem test_witness_SpecialRegisterTraps_set : let s := box (withS [(5, 1), (6, 0x500), (7, 0xFFFF)])
    let y := s.readSr s.cur 0 &&& ~~~ s.hart.sreg 5
    CanTrap s ∧ (48 ≤ y.toNat % 64 ∧ y.toNat % 64 ≤ 62) ∧ 5 ≤ (s.readSr s.cur 0 ||| s.hart.sreg 6).toNat / 256 % 8 ∧
      (s.readSr s.cur 2 &&& ~~~ s.hart.sreg 7).toNat % 2 ^ 16 = 0 ∧ encode (.mclr 5 0) ≠ none ∧ encode (.mset 6 0) ≠ none := by
  refine ⟨⟨?_, ?_⟩, ?_⟩ <;> decide +kernel

/-- A line of type 3 with a stored byte, held by core 0 and found by the address; a coherent dirty line; and the traps of `cinval`. -/
theorem test_witness_FencesAndMaintenance_lines :
    (let l : HeldLine := ⟨0, 0x8000000000000 / 64, false, List.replicate 64 7, true :: List.replicate 63 false⟩;
      let s : State := { boxAt 0x8000000000000#64 0x0FD#64 with mem := { lines := [l] } };
      s.mem.lines.filter (fun l => l.core = 0) = [l] ∧ (∀ a ∈ [Access.load, .store], okOf (s.checkAccess a (s.hart.sreg 5) 1) (fun x s' =>
        s'.mem.lines.find? (fun l => l.core = 0 && l.line = x.pa / 64) = some l && (s'.part.key? x.pa).isSome && s'.stackReady x.pa) = true)) ∧
    (let s : State := { box memHart with mem := { dirty := [⟨0, 0x400, List.replicate 64 7⟩] } };
      s.hart.sup = true ∧ ∃ l ∈ s.mem.dirty, l.core = s.cur / 8 ∧ l.line * 64 ≤ 0x10000 ∧ 0x10000 < l.line * 64 + l.home.length) ∧
    (CanTrap (box memHart) ∧ canonical 0x100000000000000#64 = false ∧ canonical (memHart.sreg 7) = true ∧
      ((box memHart).translate (some 0) 0 (memHart.sreg 7)).1 = none ∧
      someOf ((boxAt 0x10000#64 0x35#64).translate (some 0) 0 (memHart.sreg 5)) (fun x _ => !x.permits .store false) = true) := by
  refine ⟨?_, ?_, ⟨?_, ?_⟩, ?_⟩ <;> decide +kernel

/-- A pair that moves into a pair of its tag and into an untyped register. -/
theorem test_witness_VectorOtherResults_pair : let b : Hart := { vecHart .bfp16 with tags := [(2, .bfp16), (3, .bfps), (6, .bfp16), (7, .bfps)], vl := 0x3040#64 }
    (b.tag 2).paired = true ∧ b.tag 6 = b.tag 2 ∧ b.tag 4 = .untyped ∧ (4 : VReg) ≠ 63 ∧ b.blocksOk (b.tag 2) = true := by decide +kernel

/-- R110: a pair's mantissas and exponent move, idle side bytes are written as zero, and the rest of the file stays. -/
theorem test_vmov_pair : after (.vmov 4 2) (box { vecHart .bfp16 with tags := [(2, .bfp16), (3, .bfps)], vl := 0x3040#64, v := [(2, 5#2048), (3, 0x84#2048), (5, 0xFF0000#2048), (6, 9#2048)] }) (fun t =>
    t.hart.vreg 4 = 5 && t.hart.vreg 5 = 0x84 && t.hart.vreg 6 = 9 && t.hart.tag 5 = .bfps && t.hart.fflags = 0) = true := by decide +kernel

/-- A signalling NaN in an executed element, and a row without one. -/
theorem test_witness_CompareResults_nan : let h : Hart := { vecHart .fp32 with v := [(1, 0x7F800001#2048)] }
    h.runs 32 0 = true ∧ h.value .fp32 (.v 1) 0 = .num (.nan true) ∧
      ∀ k, k < 8 → (vecHart .fp32).value .fp32 (.v 1) k ≠ .num (.nan true) := by decide +kernel

/-- R28, R114: the compare with a signalling NaN is false and raises NV. -/
theorem test_vcmp_snan : after (.vcmp 3 1 (.v 2) .le) (box { vecHart .fp32 with v := [(1, 0x7F800001#2048)] }) (fun t =>
    (t.hart.preg 3).getLsbD 0 = false && (t.hart.preg 3).getLsbD 1 && t.hart.fflags = fNV.setWidth 64) = true := by decide +kernel

/-- A store to SAVEADD of an area that is backed, whose ring's entry lies on a stack that is up, and on one that is not. -/
theorem test_witness_ScalarStores_held : let s := fun (hbm : Word) => { boxAt 0x20010F00000#64 0x13D#64 with
      host := { (box memHart).host with hbm := hbm }
      dies := [(0, { Die.reset with saveb := 0x800000000#64 })] }
    okOf ((s 0xFF#64).checkAccess .store 0x10038 8) (fun x s' => x.tt = 4 && s'.stackReady x.pa && !s'.windowHeld (s'.part.key x.pa) 8 true &&
      !s'.dropWaits [x] && s'.ownPending = [] && (s'.crossHome x.pa).isNone && !s'.storeHeld x 8 0x800000) = true ∧
    okOf ((s 0).checkAccess .store 0x10038 8) (fun x s' => x.tt = 4 && s'.stackReady x.pa && !s'.windowHeld (s'.part.key x.pa) 8 true &&
      !s'.dropWaits [x] && s'.ownPending = [] && s'.storeHeld x 8 0x800000) = true := by
  constructor <;> decide +kernel

/-- A row whose third element lies outside, one whose first word is marked, and one whose die is fenced. -/
theorem test_witness_VectorAtomics_traps : let row := fun (s : State) (h : Hart) => (h.row h.first (h.count 32)).map (fun j =>
      (⟨1, j, s.hart.sreg 5 + BitVec.ofInt 64 (h.value (h.tag 2) (.v 2) j).toInt, 4⟩ : Piece))
    (let s := box { (vecMem 0x8FFF8).hart with v := [(2, 0x0000000C000000080000000400000000#2048)] }; let r := checkPieces .atomic s (row s s.hart)
      r.1.bad.map (fun p => (p.1.idx, p.2.cause)) = some (2, 0x05) ∧ r.1.good.length = 2 ∧ r.1.mark = none ∧ CanTrap s) ∧
    (let s := { vecMem 0x10000 with mem := { poison := [(0x1000, true)] } }; let r := checkPieces .atomic s (row s s.hart)
      r.1.bad.map (fun p => (p.1.idx, p.2.cause)) = some (0, 0x10) ∧ r.1.mark.isSome = true ∧ r.2.piecesHeld true r.1.mark.toList = false ∧ CanTrap s) ∧
    (let s := { vecMem 0x10000 with dies := [(0, { Die.reset with fenced := true })] }; let r := checkPieces .atomic s (row s s.hart)
      r.1.bad = none ∧ r.1.good.length = 4 ∧ (r.1.good.filter (fun q => !r.2.xlatFenced q.2)).length = 0 ∧ r.2.piecesHeld true r.1.good = false ∧
        r.2.dropWaits (r.1.good.map (·.2)) = false ∧ (r.2.coreAt r.2.coreNum).unposted = []) := by
  refine ⟨⟨?_, ?_, ?_, ⟨?_, ?_⟩⟩, ⟨?_, ?_, ?_, ⟨?_, ?_⟩⟩, ?_⟩ <;> decide +kernel

/-- Instructions with their words. -/
def worded (is : List Instr) : List (Nat × Instr) := is.map (fun i => ((encode i).getD 0, i))

/-- R62: each condition alone, with its reason and its position; a convoy that breaks none; and R59: a header on a stack that is not up. -/
theorem test_witness_ConvoyHeader_reasons : let check := fun (is : List Instr) => checkConvoy { hart := hart0 } 0 (worded is)
    check [.vadd 8 1 (.v 2), .add 5 6 7, .sub 5 6 7] = some (1 * 16 + 2) ∧ check [.vadd 8 1 (.v 5), .vst 9 5 0] = some (2 * 16 + 1) ∧
      check [.vadd 8 1 (.v 2), .vld 4 5 0] = some (3 * 16 + 1) ∧ check [.jmp 2, .add 5 6 7] = some (4 * 16) ∧
      check [.add 5 6 7, .sysc] = some (5 * 16 + 1) ∧ check [.vadd 8 1 (.v 5), .add 5 6 7, .jmp 2] = none ∧
      -- a chained register, and a pair whose tag the convoy has not changed
      check [.vadd 9 1 (.v 5), .vst 9 5 0] = none ∧
      (match readHeader { town (at64K []) [] with host := {} } 0x10004 1 with | (.hold, _) => true | _ => false) = true := by
  decide +kernel

/-- `atBar` with hart 1 held in its arrival. -/
def atHeld (h : Hart) (b : Barrier) (step : Bool) : State :=
  { atBar h { b with held := [⟨1, 7, step⟩] } with harts := [(0, { h with gang := some 1 }), (1, { hart0 with gang := some 1, block := some ⟨.held 1 7 step, 0, none⟩ })] }

/-- A full phase with an arrival held, that a `bexpect` ends, or a credit; and harts that wait on a barrier that a credit breaks. -/
theorem test_witness_Admits : (let s := atHeld (barHart 4096) { exp := 2, arr := 2, pend := -4096 } false; let t := s.core.bar 1
      (∀ x ∈ t.held, x.hart / 8 = 0 ∧ (s.hartAt x.hart).block.map (·.wait) = some (.held 1 x.d x.step) ∧ x.hart ≠ s.cur) ∧ (t.held.map (·.hart)).Nodup ∧
        s.creditHeld 0 1 = false ∧ t.arr = t.exp ∧ t.broken = false ∧ t.exp ≠ 0 ∧ t.pend + (s.hart.sreg 6).toInt = 0 ∧
        (match s.barrierOf 5 with | .ok k => decide (k = 1) | _ => false) = true) ∧
    (let s := (atHeld hart0 { exp := 2, arr := 2, pend := 4096 } true).onCoreAt 0 (fun c => { c with credits := [⟨1, 4096⟩] }); let b := s.core.bar 1
      (s.coreAt 0).credits = [⟨1, 4096⟩] ∧ (∀ x ∈ b.held, x.hart / 8 = 0 ∧ (s.hartAt x.hart).block.map (·.wait) = some (.held 1 x.d x.step)) ∧
        (b.held.map (·.hart)).Nodup ∧ b.arr = b.exp ∧ b.pend = 4096) ∧
    (let s := (atHeld hart0 { exp := 2, arr := 2, pend := -(2 ^ 35) } true).onCoreAt 0 (fun c => { c with credits := [⟨1, 4096⟩] }); let b := s.core.bar 1
      b.pend - 4096 < -(2 ^ 35) ∧ s.recordRoom 0 = true ∧ (s.hartAt 1).waitsOn = some 1 ∧ (s.hartAt 1).isHeld = true ∧ (s.hartAt 1).trapBase ≠ 0 ∧
        (s.hartAt 1).atEntry = false ∧ (s.hartAt 0).waitsOn ≠ some 1) := by
  refine ⟨?_, ?_, ?_⟩ <;> decide +kernel

/-- R149: the held arrival opens the new phase. -/
theorem test_held_admitted : after (.bexpect 5 6) (atHeld (barHart 4096) { exp := 2, arr := 2, pend := -4096, phase := 8 } false) (fun t =>
    (t.core.bar 1).phase = 9 && (t.core.bar 1).arr = 1 && (t.core.bar 1).held = [] && (t.hartAt 1).sreg 7 = 9 && (t.hartAt 1).pc = 0x1004#64) = true := by
  decide +kernel

/-- A ranged record with no chunk for queue 3, and its parent. -/
def recordEmpty (parent : Nat) : Nat := record3 + parent * 2 ^ (8 * 0x10) + 2 ^ (8 * 0x1C + 16) + 2 ^ (8 * 0x24)

/-- An operand that is misaligned, one that is nowhere, a record without chunks with and without a parent, and a `spawn` that goes on. -/
theorem test_witness_TaskPosting_more : let q : Queue := { qbase := 0x30000#64, en := true }
    let empty := fun (parent : Nat) => { town (withS [(5, 0x11000)]) [(0x11000, 64, recordEmpty parent), (0x12018, 4, 2)] with
      sched := { ({} : Sched) with queues := [(3, q)] } }
    let read := fun (s : State) (P : Rec → State → Bool) => Loaded.isOk ((s.cleanLines 0).loadBlock 0x11000 64) (fun bs s' => P (Rec.ofNat (bytesToNat bs)) s')
    (CanTrap (town (withS [(5, 0x11001)]) []) ∧ ((withS [(5, 0x11001)]).sreg 5).toNat % 64 ≠ 0 ∧ (withS [(5, 0x11001)]).acts = []) ∧
    (match ((town (withS [(5, 0x40000000)]) []).cleanLines 0).loadBlock 0x40000000 64 with
      | (.trap e, s') => e.cause = 5 && s'.hart.trapBase ≠ 0 && !s'.hart.atEntry | _ => false) = true ∧
    (∀ parent ∈ [0, 0x12000], read (empty parent) (fun r s' => s'.recValid true r && (s'.queue r.queue).en && !s'.spawnFull r.queue && r.range &&
      r.chunks = 0 && r.parent = word parent && (s'.part.key? 0x11018).isSome && !s'.onFenced (s'.part.key 0x11018)) = true) ∧
    someOf ((empty 0).translate (some 0) 0 0x11000) (fun x _ => x.pa % 4096 + 64 ≤ 4096) = true ∧
    read (empty 0x12000) (fun _ s' => let w := s'.writePhys 0x11018 [0, 0, 0, 0]
      !w.schedHeld 0 0x12018 && someOf (w.schedRead32 0 0x12018) (fun j u => j.1 = 2 && (u.part.key? j.2).isSome && !u.onFenced (u.part.key j.2) && j.2 % 4096 + 4 ≤ 4096)) = true ∧
    (let s := fun (acts : List Act) => office { q with qwr := 64 } |>.onHart (fun h => { h with acts := acts }) |> fun s =>
        { s with dies := [(0, { Die.reset with held := List.replicate 64 ⟨3, { addr := 0x11000#64 }, 1⟩ })] }
      let root : Act := ⟨0, 0, .root { addr := 0x11000#64 } record3 0x11000⟩
      (runActs 65536 (s [⟨0, 0, .join 0 none⟩]) [⟨0, 0, .join 0 none⟩]).2 = [] ∧ (runActs 65536 (s [root]) [root]).2 ≠ []) := by
  refine ⟨⟨⟨?_, ?_⟩, ?_, ?_⟩, ?_, ?_, ?_, ?_, ?_⟩ <;> decide +kernel

/-- A ring entry on a fenced die, of a record of its own kind and of another. -/
theorem test_witness_FaultRecords_fenced : ∀ r ∈ [({ core := 0, master := 0, cause := 9, kind := 8 } : FaultRec), { core := 0, master := 6, cause := 16, kind := 7 }],
    let s : State := { box hart0 with cores := [(0, { Core.reset with records := [r] })]
                                      dies := [(0, { Die.reset with fren := true, frbase := 0x30000#64, frwr := 63, fenced := true })] }
    (s.coreAt 0).records = r :: [] ∧ (s.dieAt 0).fren = true ∧ (s.dieAt 0).frwr - (s.dieAt 0).frrd.toNat ≠ 2 ^ (s.dieAt 0).frsize ∧ s.stackReady 0x30FC0 = true ∧
      s.part.key? 0x30FC0 = some 0x30FC0 ∧ s.onFenced 0x30FC0 = true ∧ r.owner = .none ∧ (s.dieAt 0).unposted = [] ∧ (s.dieAt 0).records.length < 16 := by
  decide +kernel

/-- Gang 1 of core 0 with its harts retired, as given, with queue 3 and numbers in memory. -/
def done1 (f : Gang → Gang) (q : Queue) (ms : List (Nat × Nat × Nat)) : State :=
  { camp hart0 (fun k => { k with gangs := [(1, some (f gang1))] }) ms with
    harts := [(0, { ({} : Hart) with gang := some 1, retired := true }), (1, { ({} : Hart) with gang := some 1, retired := true })]
    sched := { ({} : Sched) with queues := [(3, q)] } }

/-- Queue 3, its ring at 0x30000. -/
def queue3 : Queue := { qbase := 0x30000#64, en := true }

/-- A counter at a physical address that has it, on no fenced die. -/
def countOk (s : State) (n : Nat) (r : (Option (Nat × Nat)) × State) (P : Nat → State → Bool) : Bool :=
  someOf r (fun j u => j.1 = n && (u.part.key? j.2).isSome && !u.onFenced (u.part.key j.2) && j.2 % 4096 + 4 ≤ 4096 && u.cur = s.cur && P j.2 u)

/-- A replay of two nodes, in slot 0 of the area at 0x13000. -/
def ref2 : GraphRef := ⟨0x11000#64, 0x13000#64, 2, 64, 0, 0, 0⟩

/-- A parent whose JOIN comes to zero; an instance with a successor; a completion that has begun; and the acts on counters of zero and one, of an index
that the graph has not, and of the last instance. -/
theorem test_witness_GangLifecycle_end :
    (let s := done1 (fun g => { g with parent := 0x11000 }) queue3 [(0x11000, 64, record3), (0x11018, 4, 1)]; let v := releaseGrant 0 { gang1 with parent := 0x11000 } s
      v.schedHeld 0 0x11018 = false ∧ countOk s 1 (v.schedRead32 0 0x11018) (fun pa u0 => someOf ((u0.writePhys pa [0, 0, 0, 0]).recAt 0 0x11000) (fun r u1 =>
        !r.1.range && !u1.schedHeld 0 0x11000 && someOf (u1.recAt 0 0x11000) (fun r0 u2 => !u2.schedHeld (u2.queue r0.1.queue).ctx 0x11000 &&
          someOf (u2.recAt (u2.queue r0.1.queue).ctx 0x11000) (fun r1 u3 => u3.recValid true r1.1 && (u3.queue r0.1.queue).en && !r1.1.range &&
            !(u3.queue r0.1.queue).full && !u3.hasHeld r0.1.queue && u3.stackReady 0x30000 && (u3.part.key? 0x30000).isSome && !u3.onFenced (u3.part.key 0x30000))))) = true) ∧
    (let f := fun (g : Gang) => { g with post := { addr := 0x11000#64, graph := some ref2 } }
      let s := done1 f queue3 [(0x11040, 64, 2 ^ 16 + 2 ^ 32), (0x13084, 4, 2), (0x13000, 4, 2 ^ 31)]; let v := releaseGrant 0 (f gang1) s
      (f gang1).ending = none ∧ (f gang1).ranged = false ∧ s.gangBusy 0 (f gang1) = false ∧ v.schedHeld 0 0x11040 = false ∧ someOf (v.schedAddr 0 0x11040) (fun npa u0 =>
        let dep := bytesToNat (u0.readPhys npa 64)
        recBits dep 2 15 0 = 1 && recBits dep 4 15 0 = 1 && !u0.schedHeld 0 0x13084 && countOk s 2 (u0.schedRead32 0 0x13084) (fun pa w =>
          let u1 := w.writePhys pa (natToBytes 4 1)
          !u1.schedHeld 0 0x13000 && countOk s (2 ^ 31) (u1.schedRead32 0 0x13000) (fun _ _ => true))) = true) ∧
    (let todo : List Act := [⟨0, 0, .join 0 none⟩]; let root : Act := ⟨0, 0, .root { addr := 0x11000#64 } record3 0x11000⟩
      let full := fun (acts : List Act) => { done1 (fun g => { g with ending := some acts }) { queue3 with qwr := 64 } [(0x11000, 64, record3)] with
        dies := [(0, { Die.reset with held := List.replicate 64 ⟨3, { addr := 0x11000#64 }, 1⟩ })] }
      (runActs 65536 (full todo) todo).2 = [] ∧ (runActs 65536 (full [root]) [root]).2 ≠ []) ∧
    (∀ j ∈ [0, 1], let s := done1 id queue3 [(0x11000, 64, record3), (0x11018, 4, j), (0x13084, 4, j), (0x13000, 4, 2 ^ 31 + 1)]
      s.schedHeld 0 0x11018 = false ∧ countOk s j (s.schedRead32 0 0x11018) (fun pa u => someOf ((u.writePhys pa [0, 0, 0, 0]).recAt 0 0x11000) (fun _ _ => true)) = true ∧
        s.schedHeld 0 (ref2.counter 1) = false ∧ countOk s j (s.schedRead32 0 (ref2.counter 1)) (fun _ _ => true) = true ∧
        s.schedHeld 0 ref2.control = false ∧ countOk s (2 ^ 31 + 1) (s.schedRead32 0 ref2.control) (fun _ _ => true) = true ∧
        ref2.ncount ≤ (2 ^ 31 + 1) % 2 ^ 31 + 1 ∧ ref2.ncount ≤ 2) := by
  refine ⟨?_, ?_, ⟨?_, ?_⟩, ?_⟩ <;> decide +kernel

/-- R139: the parent's JOIN falls to zero, and its address enters queue 3's ring. -/
theorem test_parent_posted : after (.gangComplete 0 1) (done1 (fun g => { g with parent := 0x11000 }) queue3 [(0x11000, 64, record3), (0x11018, 4, 1)]) (fun t =>
    (t.queue 3).qwr = 1 && t.mem.cells.read 0x11018 = 0 && t.mem.cells.read 0x30001 = 0x10 && ((t.coreAt 0).gang 1).isNone && (t.hartAt 0).gang = none) = true := by
  decide +kernel

/-- R145: a successor's counter falls by one, and so much of the replay is retired. -/
theorem test_instance_retired : after (.gangComplete 0 1) (done1 (fun g => { g with post := { addr := 0x11000#64, graph := some ref2 } }) queue3
    [(0x11040, 64, 2 ^ 16 + 2 ^ 32), (0x13084, 4, 2), (0x13000, 4, 2 ^ 31)]) (fun t =>
      t.mem.cells.read 0x13084 = 1 && t.mem.cells.read 0x13000 = 1 && t.mem.cells.read 0x13003 = 0x80) = true := by decide +kernel

/-- A record of one slot, one barrier, one accumulator and the fabric. -/
def recordFull : Nat := record3 + 2 ^ (8 * 0x1C + 20) + (1 + 2 ^ 10 + 2 ^ 24) * 2 ^ (8 * 0x20)

/-- R137: a slot that another context held is zero, its layout is LIN, and the barrier is ready for the gang. -/
theorem test_grant_cleared : after .queueServe { served [(0x11000, 64, recordFull), (windowKey 0 0, 1, 7), (windowKey 0 16383, 1, 9)] with
      cores := [(0, { Core.reset with slotCtx := [(0, some 5)] })] } (fun t =>
    t.mem.cells.read (windowKey 0 0) = 0 && t.mem.cells.read (windowKey 0 16383) = 0 && (t.coreAt 0).layOf 0 = 0 && (t.core.bar 0) = { exp := 1 }) = true := by
  decide +kernel

/-- A command that moves from slot 1 into slot 0. -/
def slots4 (op : CopyOp) (params : Word) : CopyCmd :=
  { fill0 with op := op, src := some { slot := 1, cnt := 1, lay := 0, bar := 0, nb := true, tr := false, te := 0 }, params := params }

/-- Memory of slot 1, and one command. -/
def pier (c : CopyCmd) (ms : List (Nat × Nat × Nat)) : State :=
  camp hart0 (fun k => { k with copies := [c] }) (ms.map (fun x => (scratchBase + x.1, x.2)))

/-- The pages of some bytes of a transfer, all of which may be used and whose stacks are ready. -/
def pagesGood (s : State) (c : CopyCmd) (all : List (Nat × MapByte)) : Bool :=
  let r := (s.countCopy 0 c).2.copyPages 0 (s.countCopy 0 c).1 (pagesOf all)
  (firstFault r.1 all).isNone && !r.2.pagesWait r.1

/-- A `tld` and a `tst` whose pages may be used, chunk by chunk and, under the careful regime, all at once and with pages known; a `tcpy` before and
after it has read. -/
theorem test_witness_TileEngine_moves :
    (∀ op ∈ [CopyOp.tld, .tst], let c := { move4 op 0x13000 with careful := false }; let s := pier c []
      c.stop = none ∧ c.next < 4 * c.dst.cnt ∧ c.map.map (·.cmp) = some false ∧ s.chunkHeld 0 c c.next = false ∧ pagesGood s c (c.places c.next) = true ∧
        s.recordRoom 0 = true) ∧
    (∀ op ∈ [CopyOp.tld, .tst], let c := move4 op 0x13000; let s := pier c []; c.pages = [] ∧
      pagesGood s c ((List.range (c.total - c.next)).flatMap (fun j => c.places (c.next + j))) = true) ∧
    (let p : CopyPage := { pa := 0x13000, tt := 1, crt := none, size := 4096 }; let c := { move4 .tld 0x13000 with pages := [(0x13, p)] }
      c.careful = true ∧ c.pages ≠ [] ∧ ((pier c []).countCopy 0 c).2.pagesWait (c.pages.map (fun p => (p.1, PageOutcome.ok p.2))) = false) ∧
    (let c := slots4 .tcpy 0; let s := pier c []; c.image = none ∧ (s.coreAt 0).held c.hart c.stamp [4, 5, 6, 7] [] = false ∧ s.recordRoom 0 = true ∧
      s.chunkHeld 0 { c with image := some (List.replicate 16384 0) } 0 = false ∧ (List.replicate 16384 (0 : Byte)).length = 16384 * c.dst.cnt) := by
  refine ⟨?_, ?_, ?_, ?_, ?_, ?_, ?_, ?_⟩
  · decide +kernel
  · decide +kernel
  · decide +kernel
  · decide +kernel
  · decide +kernel
  · decide +kernel
  · decide +kernel
  · exact List.length_replicate

/-- A `tpack` of one row of int32 that fits, and one of 4,000 rows that does not; a `tunpk` of a tile without entries, and of one that states no row. -/
theorem test_witness_TileEngine_tiles :
    (let c := slots4 .tpack 0x100010005; let s := pier c []; c.stop = none ∧ (s.coreAt 0).held c.hart c.stamp [4, 5, 6, 7] c.dst.chunks = false ∧
      (s.coreAt 0).records.length ≤ 14) ∧
    csrTag 0x05 = some .int32 ∧
    (csrTile .int32 1 1 [1, 0, 0, 0] 256).isSome = true ∧ (csrTile .int32 1 1 [1, 0, 0, 0] 64).isNone = true ∧
    ((match denseTile (natToBytes 128 (1 + 2 ^ 32 + 5 * 2 ^ 96)) 0 with | .error 1 => true | _ => false) = true) ∧
    (match denseTile (natToBytes 128 (1 + 2 ^ 32 + 5 * 2 ^ 96)) 1 with | .ok b => decide (b.length = 16384) | _ => false) = true := by
  refine ⟨?_, ?_, ?_, ?_, ?_, ?_⟩
  · decide +kernel
  · decide +kernel
  · decide +kernel
  · decide +kernel
  · decide +kernel
  · decide +kernel

/-- A buffer of a word in slot k. -/
def wordBuf (k n : Nat) : Buf := { land := false, core := 0, slot := k, cnt := 1, parts := n, bytes := 4 * n }

/-- A running instance with a buffer of `n` words in slot 0 and one in slot 1. -/
def instOf (n : Nat) : Inst := { inst1 with bufs := [some (wordBuf 0 n), some (wordBuf 1 n)] }

/-- A word from rank 1. -/
def wordMsg (k : MsgKind) : Msg := { msg1 k with chunks := [{ bytes := [1, 0, 0, 0] }] }

/-- `ring1` with messages that came early. -/
def ringEarly (i : Inst) (w : Nat) (ms : List Msg) : State :=
  hall 0 0 { regs := [(0, some { reg1 with inst := some i, early := ms })], routeb := 0x16000, store := [(0, w)] } [(0x16002, 2, 0x8000)]

/-- What the data steps ask of the registration and the instance: it may go on, in a scope of two. -/
def mayStep (i : Inst) (w : Nat) (ms : List Msg) : Bool :=
  let s := ringEarly i w ms; let r : Reg := { reg1 with inst := some i, early := ms }
  decide (s.reg 0 = some r) && !s.instHeld r i && s.recordRoom (coreOfHart i.hart) && (List.range 4).all (fun e => s.dieRecordRoom e) &&
    (r.scope (stepPm w) (stepSub w)).any (fun c => decide (c.n = 2 ∧ c.rr = 0 ∧ c.member 1 = 1 ∧ i.peer c w (stepK w) = 1 ∧ i.peer c w (-stepK w) = 1)) &&
    !i.aborted && !i.log && decide (i.next < 16384) && ms.all (fun m => decide (m.kind ≠ .noRoute ∧ m.kind ≠ .squareFault)) &&
    (List.range 2).all (fun k => !s.bufFenced (wordBuf k 1) && !s.bufAway i (some (wordBuf k 1))) && decide (s.coll.skips = [] ∧ s.coll.unsent = []) &&
    (s.route 1).isSome && !r.missing i.num 1

/-- A RECV, an RRS without and with a reduction and an RRD whose message has come, and a COPY; the route's entry apart from the buffer. -/
theorem test_witness_CollectiveSteps_data : let i := instOf 1; let m := wordMsg .data; let s := ringEarly i 0x34010000 [m]
    (∀ w ∈ [0x24010000, 0x34010000, 0x34010001, 0x44010101], mayStep i w [m] = true) ∧ (mayStep i 0x54010100 []) = true ∧
    ([0x24010000, 0x34010000, 0x34010001, 0x44010101, 0x54010100].map stepOp = [2, 3, 3, 4, 5] ∧ stepRed 0x34010000 = 0 ∧ stepRed 0x34010001 = 1 ∧
      i.bufs.getD (stepSrc 0x44010101) none = some (wordBuf 0 1) ∧ i.bufs.getD (stepDst 0x44010101) none = some (wordBuf 1 1) ∧
      (wordBuf 0 1).part ((wordBuf 0 1).selected 0 0 0) = (0, 4) ∧ msgBytes m = 4) ∧
    (m.kind = .data ∧ m.inst = i.num ∧ m.fromRank = 1 ∧ (∀ x ∈ m.chunks, x.poison = false) ∧ m.chunks.map (·.bytes.length) = (s.readPart (wordBuf 0 1) 0 4).map (·.bytes.length) ∧
      ∀ y ∈ s.readPart (wordBuf 0 1) 0 4, y.bytes.length % 4 = 0) ∧
    (∀ o, o < 4 → ∀ e, e < 2 → s.part.key? (s.coll.routeAt 1 + e) ≠ some (s.rangeKey 0 0 o)) := by
  refine ⟨?_, ?_, ?_, ?_, ?_⟩ <;> decide +kernel

/-- An SQRED before it begins, with a chunk to send, with a result that has come, and at its end; an XCHG at its own part, at another's, with a part that
has come, and at its end. -/
theorem test_witness_CollectiveSteps_exchange :
    (let sq := fun (ts ws : List Nat) => { instOf 1 with begun := true, todo := ts, waiting := ws, sqRoot := some 0 }; let m := wordMsg .result
      (∀ x ∈ [(instOf 1, []), (sq [0] [0], []), (sq [] [0], [m]), (sq [] [], [])], mayStep x.1 0x94010101 x.2 = true) ∧ stepOp 0x94010101 = 9 ∧
        (((List.range 2).filter (fun q => (reg1.member q).2)).headD 1 = 0) ∧ (reg1.member 0).1 = 0 ∧ m.kind = .result ∧ m.step = 0 ∧ m.chunk = 0 ∧ (4 + 4095) / 4096 = 1 ∧
        msgBytes m = min 4096 (4 - 4096 * m.chunk)) ∧
    (let xc := fun (ts ws : List Nat) => { instOf 2 with begun := true, todo := ts, waiting := ws }; let m := wordMsg .data
      (∀ x ∈ [(xc [0, 1] [1], []), (xc [1] [1], []), (xc [] [1], [m]), (xc [] [], [])], mayStep x.1 0xB4010100 x.2 = true ∧ ∀ e ∈ x.1.todo ++ x.1.waiting, e < 2) ∧
        stepOp 0xB4010100 = 11 ∧ (wordBuf 0 2).parts = 2 ∧ ((wordBuf 0 2).part (some 0)).2 = 4 ∧ ((wordBuf 1 2).part (some 1)).2 = msgBytes m) := by
  refine ⟨?_, ?_⟩ <;> decide +kernel

/-- A repartition of one record per rank. -/
def repOf (f : Repart → Repart) : Repart :=
  f { rsz := 32, offs := [0, 4, 8, 12], input := wordBuf 0 8, out := wordBuf 1 8, ovf := wordBuf 2 8, res := wordBuf 3 18, members := [0, 1]
      box := some [0, 0, 0, 0, 0, 0, 0, 0, 0], hist := some [], boxSent := some 0, histSent := some 0 }

/-- `reg1` with the pages of its window that hold its areas, and such an instance. -/
def repReg (f : Repart → Repart) : Reg :=
  { reg1 with pages := (List.range' 0 17).map (fun j => 0x800000 + 4096 * j), inst := some { inst1 with kind := .repartition, begun := true, rep := some (repOf f) } }

def repState (f : Repart → Repart) : State := hall 0 0 { regs := [(0, some (repReg f))], routeb := 0x16000 } [(0x16002, 2, 0x8000)]

theorem repState_pages (f : Repart → Repart) : ∀ p ∈ (repReg f).pages, p % 4096 = 0 ∧ ∀ x, x < 4096 →
    (repState f).part.key? (p + x) = some ((repState f).part.key p + x) ∧ (repState f).onFenced ((repState f).part.key p + x) = false := by
  intro p hp
  have b : p % 4096 = 0 ∧ p + 4096 ≤ 0x8000000000 := by
    revert p; show ∀ p ∈ (List.range' 0 17).map (fun j => 0x800000 + 4096 * j), _; decide
  have k : ∀ a, a < 0x8000000000 → (repState f).part.key? a = some a := fun a h => found_flat h
  refine ⟨b.1, fun x hx => ?_⟩
  have e : (repState f).part.key p = p := by simp [Part.key, k p (by omega)]
  refine ⟨by rw [e]; exact k _ (by omega), ?_⟩
  have d : ∀ n, ((repState f).dieAt n).fenced = false := fun _ => rfl
  simp [State.onFenced, d]

/-- It may go on, and its buffers can be used. -/
def repGoes (f : Repart → Repart) : Bool :=
  let s := repState f; let r := repReg f; let p := repOf f
  decide (s.reg 0 = some r) && r.inst.any (fun i => !s.instHeld r i && !i.aborted && i.begun && decide (i.rep = some p ∧ i.kind = .repartition) &&
    [p.input, p.out, p.ovf, p.res].all (fun b => !s.bufAway i (some b) && !s.bufFenced b && !b.land) && s.recordRoom (coreOfHart i.hart)) &&
    (List.range 4).all (fun e => s.dieRecordRoom e) && decide (r.early = [] ∧ r.me ∈ p.members ∧ p.members.Nodup ∧ p.box.isSome ∧ p.hist.isSome) &&
    decide (p.members.filter (fun m => m = r.me || !r.missing 0 m) = [0, 1] ∧ p.boxSent = some 0 ∧ p.histSent = some 0) &&
    decide (s.coll.skips = [] ∧ s.coll.unsent = [] ∧ s.coll.rank = 0 ∧ s.coll.held = []) && (s.route 1).isSome

/-- With the box and the histogram agreed: its counts are not told yet; every count has come; a member with its quota and without its records; every
record has come. -/
theorem test_witness_CollectiveSteps_records :
    let counted := fun (p : Repart) => { p with countsSent := true, counts := [(0, some 1), (1, some 1)] }
    let granted := fun (p : Repart) => { counted p with quotasSent := true, quotas := [(0, some 1), (1, some 1)] }
    let got := fun (p : Repart) => { granted p with recsTo := [0, 1], recv := [(0, some []), (1, some [])] }
    (∀ f ∈ [id, counted, granted, got], repGoes f = true) ∧ (repOf id).countsSent = false ∧
    ((repOf counted).countsSent = true ∧ (repOf counted).quotasSent = false ∧ ∀ m ∈ [0, 1], (SMap.get none (repOf counted).counts m).isSome = true) ∧
    (let p := repOf granted; (List.range p.members.length).find? (fun o => let m := p.members.getD o 0
        !p.recsTo.contains m && [0, 1].contains m && (SMap.get none p.quotas m).isSome) = some 0) ∧
    (let p := repOf got; (∀ m ∈ [0, 1], m ∈ p.recsTo ∧ (SMap.get none p.recv m).isSome = true) ∧ (repReg got).released = false ∧ 17 ≤ (repReg got).pages.length ∧
      ((repState got).particles p).length = 1 ∧ ∀ x ∈ (repState got).particles p, x.bytes.length = p.rsz) := by
  refine ⟨?_, ?_, ?_, ?_, ?_⟩ <;> decide +kernel

/-- `cgrp` of a group that is registered, which another context's registration of the GID stands beside; a second one of equal ME. -/
theorem test_witness_CollectiveInstructions_again :
    let other := { reg1 with ctx := 1, me := 1 }; let s := hall 0x10000 0 { regs := [(0, some reg1), (1, some other)] } []
    let u := hall 0x10040 0 { regs := [(0, some reg1), (1, some other)] } []
    (entryIs s (fun e => e.ok && !e.rel) = true ∧ entryIs u (fun e => e.ok && e.rel && e.me = 0) = true ∧
      ∀ w ∈ [s, u], w.findReg 0 1 = some (0, reg1) ∧ reg1.inst = none ∧ w.coll.held = [] ∧ w.coll.slots = [] ∧ w.recordRoom 0 = true ∧
        (∀ e, e < 4 → w.dieRecordRoom e = true) ∧ w.pagesPoison region 0x100000 (4 * 2) = none ∧ w.readTable region 2 = [(0, true), (1, true)] ∧ w.coll.rank = 0 ∧
        w.coll.live.any (fun p => p.2.gid = 1 && p.2.me = 0 && p.2.ctx ≠ 0 && !p.2.released) = false ∧
        w.reg 1 = some other ∧ other.gid = reg1.gid ∧ other.gen = reg1.gen ∧ other.released = false ∧ (other.member reg1.me).2 = true) ∧
    (hall 0x10000 0 { regs := [(0, some { reg1 with ctx := 1 })] } []).coll.live.any (fun p => p.2.gid = 1 && p.2.me = 0 && p.2.ctx ≠ 0 && !p.2.released) = true := by
  refine ⟨⟨?_, ?_, ?_⟩, ?_⟩ <;> decide +kernel

/-- A rotation over subgroup 1 of the group. -/
theorem test_witness_CollectiveInstructions_subgroup : let r := { reg1 with subs := [none, some (1, 2), none, none] }
    blockIs (calls (rotBlock + 3 * 2 ^ (32 + 12)) (some r)) 1 (fun q s1 =>
      codeIs (s1.startCode (recBits q 8 31 0)) (0, r) && decide (recBits q 4 31 15 = 0 ∧ recBits q 4 11 11 = 0 ∧ recBits q 4 12 12 = 1 ∧ r.me < r.size ∧
        r.subs.getD (recBits q 4 14 13) none = some (1, 2))) = true := by decide +kernel

/-- A completed instance whose fault is not reported; no join of the group; one that goes on. -/
theorem test_witness_CollectiveInstructions_joined :
    (let r := { reg1 with last := some ⟨0, 1, some 7⟩ }; let s := hall 1 0 { regs := [(0, some r)] } []
      CanTrap s ∧ s.findReg 0 1 = some (0, r) ∧ s.reg 0 = some r ∧ r.inst = none) ∧
    (let j : Join := { ctx := 0, gid := 1, slot := 0, donor := 1, enter := false, log := false, lsz := 0, pages := [], hart := 0 };
      (hall (word (2 ^ 48 + 1)) 0 { joins := [j] } []).coll.joins.find? (fun j => j.ctx = 0 && j.gid = 1) = some j ∧ j.done = false ∧
        (hall (word (2 ^ 48 + 1)) 0 {} []).coll.joins.find? (fun j => j.ctx = 0 && j.gid = 1) = none ∧ field (word (2 ^ 48 + 1)) 63 49 = 0 ∧
        bit (word (2 ^ 48 + 1)) 48 = true ∧ field (word (2 ^ 48 + 1)) 47 32 = 0) := by
  refine ⟨⟨⟨?_, ?_⟩, ?_⟩, ?_⟩ <;> decide +kernel

/-- A data token of lanes of width w, as full as they are many. -/
def tok (w : Nat) (xs : List Nat) : Option Token := some (dataToken w xs)

/-- A firing of a node's operator in a program of modulus 7, with parameters, inputs, state and RM0's state. -/
def bench (node op : Nat) (par : List Nat) (ins : List (Option Token)) (f : CtxState → CtxState) (poisoned : Bool) : Env :=
  { e := { node := node, ctx := 0, op := op, weight := 1, ins := [some 0, some 1, some 2, some 3], outs := [some 4, some 5], par := par }
    prog := { blk := 0, modulus := 7, sat := false, ctxs := [] }, st := f {}, heads := ins, table := fun _ => 0, old := fun _ => 0
    oldPoisoned := fun _ => poisoned, rm := {}, free := true }

/-- What an operator's firing comes to: 0 where it cannot fire, 1 where it fires, and 2 and its cause where it faults. -/
def firedAs : Fired → Nat
  | .stuck => 0 | .ok _ _ _ _ _ => 1 | .fault c => 2 + c

def fires (node op : Nat) (par : List Nat) (ins : List (Option Token)) (f : CtxState → CtxState) : Nat := firedAs (fireData (bench node op par ins f false))

/-- Sixty-four lanes. -/
def full32 : Option Token := tok 32 (List.replicate 64 1)

/-- The butterflies in all three arithmetics and both forms, and over an improper residue. -/
theorem test_witness_FabricEngine_butterflies :
    (∀ op ∈ [1, 2, 3], fires 0 op [2, 0x10000] [full32] id = 1 ∧ fires 7 op [1, 0x10000] [full32, full32] id = 1) ∧
    fires 0 3 [2, 0x10000] [tok 32 (List.replicate 64 9)] id = 4 ∧ (bench 0 1 [2, 0x10000] [full32] id false).prog.blk ≤ 2 ∧
    (bench 0 1 [2, 0x10000] [full32] id false).e.par' 0x0C 3 1 = 1 ∧ (∀ i, i < 64 → lane (dataToken 32 (List.replicate 64 1)).data 32 i = 1) := by
  refine ⟨?_, ?_, ?_, ?_, ?_⟩ <;> decide +kernel

/-- Stride permutations of a frame of one token, of the first of two, of block tokens, and over a short token; corner turns of the last of 32 tokens, of
the first, over a short token, and of rows of a byte. -/
theorem test_witness_FabricEngine_frames : let short := tok 32 [1]; let held := fun (st : CtxState) => { st with frame := List.replicate 31 (dataToken 32 []) }
    (fires 8 1 [2] [full32] id = 1 ∧ fires 8 2 [2 + 16] [full32] id = 1 ∧ fires 9 1 [4] [full32] id = 1 ∧ fires 8 1 [2] [short] id = 8) ∧
    (fires 15 1 [3] [tok 64 (List.replicate 32 1)] held = 1 ∧ fires 15 1 [3] [tok 64 (List.replicate 32 1)] id = 1 ∧ fires 15 1 [3] [short] id = 8 ∧
      fires 15 2 [0x100] [full32] id = 1 ∧ fires 15 2 [0] [full32] id = 1) ∧
    (firedAs (flushEnd (bench 8 1 [2 + 16] [] (fun st => { st with frame := [dataToken 32 []] }) false)) = 8 ∧ firedAs (flushEnd (bench 15 1 [3] [] held false)) = 8) := by
  refine ⟨⟨?_, ?_, ?_, ?_⟩, ⟨?_, ?_, ?_, ?_, ?_⟩, ?_, ?_⟩ <;> decide +kernel

/-- Pointwise nodes: every operation on int32 and on fp32, counts that differ, and residues that are proper and that are not; the accumulated product
at the end. Converters to a plain, to the block and to the mixed format. -/
theorem test_witness_FabricEngine_lanes : let bad := tok 32 (List.replicate 64 9)
    (∀ op, op < 9 → 1 ≤ op → ∀ t ∈ [0x0505, 0x1010], fires 10 op [t, 0x10000] [full32, full32, full32] id = 1) ∧
    fires 13 1 [0x0505] [full32, tok 32 [1]] id = 7 ∧ (fires 10 1 [0x2020] [full32, full32] id = 1 ∧ fires 10 1 [0x2020] [full32, bad] id = 4) ∧
    (∀ t ∈ [0x0505, 0x1010, 0x2020], fires 11 9 [t] [full32, full32] id = 1) ∧ firedAs (flushEnd (bench 11 9 [0x0505] [] id false)) = 1 ∧
    (∀ o ∈ [0x01, 0x18, 0x15], fires 14 1 [0x05 + 256 * o] [full32] id = 1) ∧
    [0x05, 0x10, 0x20, 0x01, 0x18, 0x15].map Tag.ofCode? = [some .int32, some .fp32, some .mod32, some .int8, some .bfp16, some .e2m1x] := by
  refine ⟨?_, ?_, ⟨?_, ?_⟩, ?_, ?_, ?_, ?_⟩ <;> decide +kernel

/-- Loop headers of two words and of a leaf beside an end; intersections with and without the values; a merge below, above, at a key, and of one that
falls; and what these pack at the end. -/
theorem test_witness_FabricEngine_sparse : let q := fun (xs : List (List Nat)) (st : CtxState) => { st with q := xs }
    let fin := some (Token.control .fin 0); let m := fun (k : Nat) (ks : List (List Nat)) => bench 18 1 [5 + 256] [fin, fin, fin, fin] (fun st => { q ks st with keyA := some k }) false
    (fires 16 1 [40] [none, none] (q [[3], [5]]) = 1 ∧ fires 16 2 [0] [tok 32 [1, 8], fin] id = 1) ∧
    (fires 17 1 [2] [] (q [[1, 3], [4], [6]]) = 1 ∧ fires 17 1 [2] [none, fin, none, none] (q [[1, 3], [], [6]]) = 8) ∧
    (∀ ab ∈ [(1, 2), (2, 1), (2, 2)], let v := m 0 [[ab.1], [7], [ab.2], [9]]; (mgMerge v true true 4096 v.st 0).2.2 = false ∧
      (mgMerge v true true 4096 v.st 0).1 ≠ v.st ∧ firedAs (fireData v) = 1) ∧
    (let v := m 5 [[3], [7], [6], [9]]; (mgMerge v true true 4096 v.st 0).2.2 = true ∧ firedAs (fireData v) = 8) ∧
    (∀ x ∈ [(18, 1), (16, 2)], let v := bench x.1 x.2 [0] [] (fun st => { st with pack := [[1], [2]] }) false; outboxEmpty v.st = true ∧ firedAs (flushEnd v) = 1) := by
  refine ⟨⟨?_, ?_⟩, ⟨?_, ?_⟩, ?_, ?_, ?_⟩ <;> decide +kernel

/-- The sole writer: a plain, an adding and a greatest write, items beyond its range, over a marked word, and counts that differ; items in order. -/
theorem test_witness_FabricEngine_writer : let at' := fun (c : Nat) => [5 + 256 * c, 0x100]; let one := [tok 32 [1, 2], tok 32 [3, 4]]
    (fires 19 1 (at' 0) one id = 1 ∧ fires 19 1 (at' 1) one id = 1 ∧ fires 19 1 [6 + 256 * 2, 0x100] one id = 1) ∧
    (fires 19 1 (at' 0) [tok 32 [4096], tok 32 [3]] id = 5 ∧ fires 19 1 (at' 0) [tok 32 [1, 2], tok 32 [3]] id = 7 ∧
      firedAs (fireData (bench 19 1 (at' 1) one id true)) = 6 ∧ fires 19 2 (at' 0) [tok 32 [3, 4]] id = 1) := by
  refine ⟨⟨?_, ?_, ?_⟩, ?_, ?_, ?_, ?_⟩ <;> decide +kernel

/-- The corner turn of `relay` takes a full token, faults over a short one; the fabric at its markers under a pre-emption. -/
theorem test_witness_FabricEngine_firing :
    let s := fun (t : Token) => running (fun f => { f with prog := some relay, chans := [(0, [t])], ctxs := [(60, { credit := 1 })] }) 0; let p := relay
    let kind := fun (t : Token) => let u := s t; let f := (u.fabAt 0).account 0; match p.ctxs with
      | [e] => (match fireData ((u.onFab 0 (fun _ => f)).env 0 p e) with
        | .ok _ _ outs _ _ => if f.room e outs && decide ((u.fabAt 0).halt = false ∧ f.prog = some p ∧ e.node = 15 ∧ e.ctx = 0 ∧ (f.ctx e.key).credit ≠ 0 ∧
            (e.ins.filterMap id ++ e.outs.filterMap id).Nodup ∧ f.chan 0 = [t] ∧ t.kind = .data) then 1 else 0
        | .fault c => 2 + c
        | .stuck => 0)
      | _ => 0
    (kind (dataToken 16 (List.replicate 128 1)) = 1 ∧ kind (dataToken 16 [1]) = 8) ∧
    (running (fun f => { f with launches := [], next := 0, stopping := true }) 4096).fabricStands 0 = true := by
  refine ⟨⟨?_, ?_⟩, ?_⟩ <;> decide +kernel

/-- SAVEADD with the ring's entry on a stack that is not up, and into a full ring. -/
theorem test_witness_GangRequests_areas : let s := box hart0; let down : State := { s with host := {} }
    let full : State := { s with dies := [(0, { Die.reset with savewr := 512 })] }
    (∀ u ∈ [s, down], u.part.backed (field 0x800000#64 51 23 * 2 ^ 23) 0x800000 = true ∧ (u.dieAt 0).savewr - (u.dieAt 0).saverd + u.areasHeld 0 ≠ 512) ∧
    down.stackReady 0 = false ∧ s.stackReady 0 = true ∧ (full.dieAt 0).savewr - (full.dieAt 0).saverd + full.areasHeld 0 = 512 ∧ gang1.ending = none := by
  refine ⟨?_, ?_, ?_, ?_, ?_⟩ <;> decide +kernel

/-- A post of ring 2 that has a record to join: it can, and it waits for the record's stack; a ring without another post. -/
theorem test_witness_HostEntries_posts : let a : Act := ⟨0, 0, .join 0x11000 none⟩; let p : HostPost := { ring := 2, id := 9, cmpl := 0x3000, irq := true, acts := [a] }
    let s := port (fun b => { b with posts := [p] }) [(0x11000, 64, record3), (0x11018, 4, 2)] []
    s.host.posts.find? (fun x => x.ring = 2) = some p ∧ s.master = 0 ∧ p.acts ≠ [] ∧
    (runActs actTurn { s with host := { s.host with posts := [] } } p.acts).2 = [] ∧
    (doAct { s with host := { s.host with posts := [], hbm := 0 } } a).isNone = true ∧
    (port id [] []).host.posts.find? (fun p => p.id = (dma true 0x12FC0).id) = none := by
  refine ⟨?_, ?_, ?_, ?_, ?_, ?_⟩ <;> decide +kernel

/-- R334: with its last act done the post is complete. -/
theorem test_post_completes : after (.post 2) (port (fun b => { b with posts := [{ ring := 2, id := 9, cmpl := 0x3000, irq := true, acts := [⟨0, 0, .join 0x11000 none⟩] }] })
    [(0x11000, 64, record3), (0x11018, 4, 2)] []) (fun t => t.host.posts = [] && t.outputs = [.msix 2] && t.mem.cells.read 0x11018 = 1) = true := by decide +kernel

end Sys2Proof.Tests
end

section
/-! PROOFS. Scalar instructions (04 R73 to R92): immediate forms, floating-point compares and classes, transfers, and the traps that are an
instruction's whole effect. -/

namespace Sys2Proof.Machine

/-! ## Completion through a shared ending -/

/-- An instruction whose meaning is a write of s[d] does that and nothing else. -/
theorem completes_of_finishS {i : Instr} {s : State} {d : SReg} {x y : Word} (he : exec i s = finishS s d x) (hx : x = y) :
    Completes i s (WritesS s · d y) := by
  subst hx
  obtain ⟨t, ht, hw⟩ := finishS_writes s d x
  exact ⟨t, he.trans ht, hw⟩

/-- An instruction that only goes on to the next word, said as a write of s0 (R7). -/
theorem completes_of_finishHart_id {i : Instr} {s : State} (he : exec i s = finishHart s id) : Completes i s (WritesS s · 0 0) :=
  completes_of_finishS (x := 0) he rfl

/-- An instruction whose meaning is a write of s[d] with flags does that and nothing else. -/
theorem completes_of_finishFlags {i : Instr} {s : State} {d : SReg} {x y : Word} {f g : FFlags}
    (he : exec i s = finishHart s (fun h => (h.raise f).setS d x)) (hx : x = y) (hf : f = g) :
    Completes i s (WritesSFlags s · d y g) := by
  subst hx hf
  obtain ⟨t, ht, hw⟩ := finishFlags_writes s d x f
  exact ⟨t, he.trans ht, hw⟩

/-- An instruction whose meaning is a trap of a hart that can take one, after its accesses have led to `s'`. -/
theorem completes_of_raiseTrap {i : Instr} {s s' : State} {c : Nat} {v vec : Word} (he : exec i s = raiseTrap s' ⟨c, v, vec⟩)
    (hc : CanTrap s') : Completes i s (Trapped s' · c v vec) :=
  ⟨_, he, takeTrap_trapped s' c v vec hc⟩

/-! ## Immediate forms (R74 to R76) -/

theorem add_signExtend {w : Nat} (x : Word) (k : BitVec w) : x + k.signExtend 64 = BitVec.ofInt 64 (x.toInt + k.toInt) := by
  rw [BitVec.ofInt_add, BitVec.ofInt_toInt, BitVec.signExtend]

theorem flag_slt_signExtend {w : Nat} (hw : w ≤ 64) (x : Word) (k : BitVec w) :
    flag (x.slt (k.signExtend 64)) = if x.toInt < k.toInt then 1 else 0 := by
  simp [flag, BitVec.slt, BitVec.toInt_signExtend_of_le hw]

theorem flag_ult (x y : Word) : flag (x.ult y) = if x.toNat < y.toNat then 1 else 0 := by
  simp [flag, BitVec.ult]

theorem shiftLeft_eq_word (x : Word) (n : Nat) : x <<< n = word (x.toNat * 2 ^ n) := by
  apply BitVec.eq_of_toNat_eq
  simp [word, Nat.shiftLeft_eq]

theorem shiftRight_eq_word (x : Word) (n : Nat) : shiftRight x n = word (x.toNat / 2 ^ n) := by
  apply BitVec.eq_of_toNat_eq
  have hlt : x.toNat / 2 ^ n < 2 ^ 64 := lt_of_le_of_lt (Nat.div_le_self _ _) x.isLt
  rw [shiftRight, word, BitVec.toNat_ushiftRight, Nat.shiftRight_eq_div_pow, BitVec.toNat_ofNat, Nat.mod_eq_of_lt hlt]

theorem shiftArith_eq_ofInt (x : Word) (n : Nat) : shiftArith x n = BitVec.ofInt 64 (x.toInt / 2 ^ n) := by
  rw [shiftArith, BitVec.sshiftRight, Int.shiftRight_eq_div_pow]
  norm_cast

theorem upper_eq_ofInt (u : BitVec 20) : upper u = BitVec.ofInt 64 (u.toInt * 2 ^ 14) := by
  rw [upper, BitVec.signExtend, BitVec.ofInt_mul, BitVec.shiftLeft_eq_mul_twoPow]
  rfl

theorem add_upper (x : Word) (u : BitVec 20) : x + upper u = BitVec.ofInt 64 (x.toInt + u.toInt * 2 ^ 14) := by
  rw [upper_eq_ofInt, BitVec.ofInt_add, BitVec.ofInt_toInt]

/-- Settles O6: each immediate form writes s[d] once, with the value that the lemma about its operation gives. -/
theorem immediateResults : Obligations.ImmediateResults := by
  intro s d a k n u x
  exact ⟨completes_of_finishS rfl (add_signExtend x k), completes_of_finishS rfl rfl, completes_of_finishS rfl rfl,
    completes_of_finishS rfl rfl, completes_of_finishS rfl (flag_slt_signExtend (by decide) x k),
    completes_of_finishS rfl (flag_ult x _), completes_of_finishS rfl (shiftLeft_eq_word x _),
    completes_of_finishS rfl (shiftRight_eq_word x _), completes_of_finishS rfl (shiftArith_eq_ofInt x _),
    completes_of_finishS rfl (upper_eq_ofInt u), completes_of_finishS rfl (add_upper s.hart.pc u)⟩

/-! ## Floating-point compares and classes (R77 to R80) -/

theorem scalarBits_eq (w : Bool) (x : Word) : scalarBits w x = x.toNat % 2 ^ (scalarFormat w).width := by
  cases w
  · rfl
  · exact (Nat.mod_eq_of_lt x.isLt).symm

theorem Num.snan_eq (x : Num) : x.snan = if x = .nan true then fNV else 0 := by
  rcases x with (_ | _) | _ | _ <;> rfl

theorem Num.snan_or_snan (x y : Num) : x.snan ||| y.snan = if x = .nan true ∨ y = .nan true then fNV else 0 := by
  rw [Num.snan_eq, Num.snan_eq]
  by_cases hx : x = .nan true <;> by_cases hy : y = .nan true <;> simp [hx, hy]

theorem Num.not_isNaN_of_lt {x y : Num} (h : x.lt y = true) : (x.isNaN || y.isNaN) = false := by
  cases x with
  | nan p => cases h
  | inf p | fin p m e =>
    cases y with
    | nan q => cases h
    | inf q | fin q m' e' => rfl

theorem Num.not_lt_of_lt {x y : Num} (h : x.lt y = true) : y.lt x = false := by
  cases x with
  | nan p => cases h
  | inf p =>
    cases y with
    | nan q => cases h
    | inf q =>
      revert p q
      decide
    | fin q m e => simpa [Num.lt] using h
  | fin p m e =>
    cases y with
    | nan q => cases h
    | inf q => simpa [Num.lt] using h
    | fin q m' e' =>
      simp only [Num.lt, decide_eq_true_eq, decide_eq_false_iff_not, min_comm e' e] at h ⊢
      omega

theorem Num.lt_eq_and_lt (x y : Num) : x.lt y = (!(x.isNaN || y.isNaN) && x.lt y) := by
  cases h : x.lt y
  · simp
  · simp [Num.not_isNaN_of_lt h]

theorem Num.eq_eq_neither_lt (x y : Num) : x.eq y = (!(x.isNaN || y.isNaN) && !x.lt y && !y.lt x) := by
  rw [Num.eq, Bool.not_or]

/-- Outside NaN, below or equal is the negation of the converse order: the order is asymmetric. -/
theorem Num.lt_or_eq_eq_not_lt (x y : Num) : (x.lt y || x.eq y) = (!(x.isNaN || y.isNaN) && !y.lt x) := by
  rw [Num.eq_eq_neither_lt]
  cases h : x.lt y
  · simp
  · simp [Num.not_isNaN_of_lt h, Num.not_lt_of_lt h]

/-- A compare writes 1 or 0 and raises NV for a signalling NaN (R28, R78). -/
theorem completes_of_floatCmp {i : Instr} {s : State} {d a b : SReg} {w : Bool} {x y : Num} {r : Bool}
    (f : Num → Num → Bool) (he : exec i s = floatCmp s w d a b f) (hx : scalarVal s.hart w a = x)
    (hy : scalarVal s.hart w b = y) (hr : f x y = r) :
    Completes i s (WritesSFlags s · d (if r then 1 else 0) (if x = .nan true ∨ y = .nan true then fNV else 0)) := by
  subst hx hy hr
  exact completes_of_finishFlags he rfl (Num.snan_or_snan _ _)

theorem scalarVal_eq (h : Hart) (w : Bool) (r : SReg) :
    scalarVal h w r = (scalarFormat w).decode h.ftz ((h.sreg r).toNat % 2 ^ (scalarFormat w).width) := by
  rw [scalarVal, scalarBits_eq]

/-- The condition by which R80 gives pattern `b` of format `f` the class bit `k`, in sign, exponent and fraction. -/
def IsClass (f : Ieee) (b k : Nat) : Prop :=
  let neg := b / 2 ^ (f.exp + f.frac) = 1
  let e := b / 2 ^ f.frac % 2 ^ f.exp
  let m := b % 2 ^ f.frac
  (k = 0 ∧ neg ∧ e = 2 ^ f.exp - 1 ∧ m = 0) ∨
    (k = 1 ∧ neg ∧ 0 < e ∧ e < 2 ^ f.exp - 1) ∨
    (k = 2 ∧ neg ∧ e = 0 ∧ m ≠ 0) ∨
    (k = 3 ∧ neg ∧ e = 0 ∧ m = 0) ∨
    (k = 4 ∧ ¬neg ∧ e = 0 ∧ m = 0) ∨
    (k = 5 ∧ ¬neg ∧ e = 0 ∧ m ≠ 0) ∨
    (k = 6 ∧ ¬neg ∧ 0 < e ∧ e < 2 ^ f.exp - 1) ∨
    (k = 7 ∧ ¬neg ∧ e = 2 ^ f.exp - 1 ∧ m = 0) ∨
    (k = 8 ∧ e = 2 ^ f.exp - 1 ∧ m ≠ 0 ∧ m < 2 ^ (f.frac - 1)) ∨
    (k = 9 ∧ e = 2 ^ f.exp - 1 ∧ 2 ^ (f.frac - 1) ≤ m)

/-- A pattern within its format has no bit above the sign, so the conditions of R80 decide `classBit`. -/
theorem classBit_eq_of_isClass {f : Ieee} {b k : Nat} (hexp : 0 < f.exp) (hb : b < 2 ^ f.width) (h : IsClass f b k) :
    classBit f b = k := by
  have hsign : b / 2 ^ (f.exp + f.frac) % 2 = b / 2 ^ (f.exp + f.frac) := by
    refine Nat.mod_eq_of_lt (Nat.div_lt_of_lt_mul ?_)
    rwa [Ieee.width, Nat.add_assoc, Nat.add_comm 1, Nat.pow_succ] at hb
  have htop : 1 < 2 ^ f.exp := Nat.one_lt_two_pow hexp.ne'
  have hquiet : 0 < 2 ^ (f.frac - 1) := Nat.two_pow_pos _
  simp only [classBit, hsign]
  rcases h with ⟨rfl, hn, he, hm⟩ | ⟨rfl, hn, he, ht⟩ | ⟨rfl, hn, he, hm⟩ | ⟨rfl, hn, he, hm⟩ | ⟨rfl, hn, he, hm⟩ | ⟨rfl, hn, he, hm⟩ |
    ⟨rfl, hn, he, ht⟩ | ⟨rfl, hn, he, hm⟩ | ⟨rfl, he, hm, hq⟩ | ⟨rfl, he, hq⟩
  · rw [if_pos he, if_pos hm, if_pos hn]
  · rw [if_neg (by omega), if_neg (by omega), if_pos hn]
  · rw [if_neg (by omega), if_pos he, if_neg hm, if_pos hn]
  · rw [if_neg (by omega), if_pos he, if_pos hm, if_pos hn]
  · rw [if_neg (by omega), if_pos he, if_pos hm, if_neg hn]
  · rw [if_neg (by omega), if_pos he, if_neg hm, if_neg hn]
  · rw [if_neg (by omega), if_neg (by omega), if_neg hn]
  · rw [if_pos he, if_pos hm, if_neg hn]
  · rw [if_pos he, if_neg hm, if_pos hq]
  · rw [if_pos he, if_neg (by omega), if_neg (by omega)]

/-- `fclass` of a pattern of class `k` writes the mask of bit `k` alone (R80). -/
theorem fclass_completes (s : State) (d a : SReg) (w : Bool) (k : Nat)
    (h : IsClass (scalarFormat w) ((s.hart.sreg a).toNat % 2 ^ (scalarFormat w).width) k) :
    Completes (.fclass d a w) s (WritesS s · d (word (2 ^ k))) := by
  refine completes_of_finishS rfl ?_
  rw [scalarBits_eq, classBit_eq_of_isClass (by cases w <;> decide) (Nat.mod_lt _ (Nat.two_pow_pos _)) h]

/-- Settles O9: the compares by the laws of the order of values, `fclass` by the class of the pattern in the format of its width. -/
theorem floatCompares : Obligations.FloatCompares := by
  refine ⟨?_, ?_⟩
  · intro s d a b wide h f v nan answers
    have ha : scalarVal h wide a = v a := scalarVal_eq h wide a
    have hb : scalarVal h wide b = v b := scalarVal_eq h wide b
    refine ⟨?_, ?_, ?_, ?_⟩
    · exact completes_of_floatCmp Num.eq rfl ha hb (Num.eq_eq_neither_lt _ _)
    · exact completes_of_floatCmp Num.lt rfl ha hb (Num.lt_eq_and_lt _ _)
    · exact completes_of_floatCmp (fun x y => x.lt y || x.eq y) rfl ha hb (Num.lt_or_eq_eq_not_lt _ _)
    · exact completes_of_floatCmp (fun x y => x.isNaN || y.isNaN) rfl ha hb rfl
  · intro s d a wide e m x neg ex fr k _ hk
    cases wide
    · exact fclass_completes s d a false k hk
    · exact fclass_completes s d a true k hk

/-! ## Transfers (R83 to R85) -/

@[simp] theorem Hart.goto_conv (h : Hart) (x : Word) : (h.goto x).conv = none := by
  unfold Hart.goto
  cases hc : h.conv
  · exact hc
  · rfl

theorem Hart.goto_convoy_of_some (h : Hart) (x : Word) (hc : h.conv ≠ none) : (h.goto x).convoy = 0 := by
  unfold Hart.goto
  cases h' : h.conv
  · exact absurd h' hc
  · rfl

theorem Hart.goto_convoy_of_none (h : Hart) (x : Word) (hc : h.conv = none) : (h.goto x).convoy = h.convoy := by
  unfold Hart.goto
  rw [hc]

@[simp] theorem Hart.goto_still (h : Hart) (x : Word) : (h.goto x).still = h.still := by
  unfold Hart.goto
  cases h.conv <;> rfl

/-- What a transfer does whose only other effect is on the registers, by what its change of the hart leaves (R83 to R87). -/
theorem completes_of_transfer {i : Instr} {s : State} {f : Hart → Hart} {link : Option (SReg × Word)} {pc pc' : Word}
    (he : exec i s = transfer s f pc) (hpc : pc = pc')
    (hregs : ∀ r, (f s.hart).sreg r = if link.map (·.1) = some r ∧ r ≠ 0 then (link.map (·.2)).getD 0 else s.hart.sreg r)
    (hconv : (f s.hart).conv = s.hart.conv) (hconvoy : (f s.hart).convoy = s.hart.convoy)
    (hrest : (f s.hart).still.lessS = s.hart.still.lessS) : Completes i s (GoesTo s · link pc') := by
  subst hpc
  refine ⟨_, he, ?_⟩
  constructor
  case only => exact onHart_onlyHart s _
  all_goals rw [State.hart_onHart]
  case pc => rfl
  case regs => intro r; rw [Hart.goto_sreg, hregs]
  case conv => exact Hart.goto_conv _ _
  case convoy => intro hc; exact Hart.goto_convoy_of_some _ _ (by rwa [hconv])
  case outside => intro hc; rw [Hart.goto_convoy_of_none _ _ (by rwa [hconv]), hconvoy]
  case rest => rw [Hart.goto_still, hrest]

/-- A transfer without a link register. -/
theorem completes_of_transfer_id {i : Instr} {s : State} {pc pc' : Word} (he : exec i s = transfer s id pc) (hpc : pc = pc') :
    Completes i s (GoesTo s · none pc') :=
  completes_of_transfer he hpc (fun r => by simp) rfl rfl rfl

/-- A transfer that writes a link register; s0 as one stays zero (R71). -/
theorem completes_of_transfer_link {i : Instr} {s : State} {d : SReg} {x pc pc' : Word}
    (he : exec i s = transfer s (fun h => h.setS d x) pc) (hpc : pc = pc') : Completes i s (GoesTo s · (some (d, x)) pc') := by
  refine completes_of_transfer he hpc (fun r => ?_) (Hart.setS_conv ..) (Hart.setS_convoy ..) (Hart.setS_still_lessS ..)
  rcases eq_or_ne r d with rfl | hd
  · by_cases h0 : r = 0
    · subst h0
      exact (if_neg (fun h => h.2 rfl)).symm
    · rw [Hart.sreg_setS_self _ _ h0, if_pos ⟨rfl, h0⟩]
      rfl
  · rw [Hart.sreg_setS_ne _ _ hd, if_neg (fun h => hd (Option.some.inj h.1).symm)]

/-- The address that a transfer's offset of words names from the PC. -/
theorem pc_add_signExtend_mul {w : Nat} (pc : Word) (o : BitVec w) : pc + o.signExtend 64 * 4 = pc + BitVec.ofInt 64 (o.toInt * 4) := by
  rw [BitVec.signExtend, BitVec.ofInt_mul]
  rfl

/-- A branch goes to its target where its condition holds, and on to the next word where not (R83). -/
theorem br_completes (s : State) (a b : SReg) (c : BrCond) (o : BitVec 11) (taken : Prop)
    (ht : branchTaken c (s.hart.sreg a) (s.hart.sreg b) = true ↔ taken) :
    (taken → Completes (.br a b c o) s (GoesTo s · none (s.hart.pc + BitVec.ofInt 64 (o.toInt * 4)))) ∧
    (¬taken → Completes (.br a b c o) s (WritesS s · 0 0)) := by
  rw [← ht]
  exact ⟨fun h => completes_of_transfer_id (if_pos h) (pc_add_signExtend_mul _ o), fun h => completes_of_finishHart_id (if_neg h)⟩

theorem branchTaken_iff (x y : Word) :
    (branchTaken .eq x y = true ↔ x = y) ∧ (branchTaken .ne x y = true ↔ x ≠ y) ∧
    (branchTaken .lt x y = true ↔ x.toInt < y.toInt) ∧ (branchTaken .ge x y = true ↔ y.toInt ≤ x.toInt) ∧
    (branchTaken .ltu x y = true ↔ x.toNat < y.toNat) ∧ (branchTaken .geu x y = true ↔ y.toNat ≤ x.toNat) := by
  simp [branchTaken, BitVec.slt, BitVec.ult]

/-- `jr` to an aligned canonical address goes there and writes its link register (R85). -/
theorem exec_jr_of_aligned_canonical (s : State) (d a : SReg) (k : BitVec 14) (h4 : (s.hart.sreg a + k.signExtend 64).toNat % 4 = 0)
    (hc : canonical (s.hart.sreg a + k.signExtend 64) = true) :
    exec (.jr d a k) s = transfer s (fun h => h.setS d (h.pc + 4)) (s.hart.sreg a + k.signExtend 64) := by
  show execJr d a k s = _
  rw [execJr, if_neg (by simpa using h4), if_neg (by simpa using hc)]

/-- Settles O10: each transfer through what a transfer with or without a link register does. -/
theorem transfersGo : Obligations.TransfersGo := by
  intro s a b d o j k x y branch
  obtain ⟨heq, hne, hlt, hge, hltu, hgeu⟩ := branchTaken_iff x y
  refine ⟨br_completes s a b _ o _ heq, br_completes s a b _ o _ hne, br_completes s a b _ o _ hlt, br_completes s a b _ o _ hge,
    br_completes s a b _ o _ hltu, br_completes s a b _ o _ hgeu, ?_, ?_, ?_⟩
  · exact completes_of_transfer_id rfl (pc_add_signExtend_mul _ j)
  · exact completes_of_transfer_link (i := .call j) rfl (pc_add_signExtend_mul _ j)
  · intro target h4 hc
    exact completes_of_transfer_link (exec_jr_of_aligned_canonical s d a k h4 hc) rfl

/-! ## Traps that are an instruction's whole effect (R22, R56, R86, R92) -/

/-- Every check of an access that fails puts the access's address in TRAPVAL (R72). -/
theorem checkAccess_error_val {s s' : State} {a : Access} {va : Word} {n : Nat} {t : Trap}
    (h : s.checkAccess a va n = (.error t, s')) : t.val = va := by
  unfold State.checkAccess at h
  repeat' split at h
  all_goals cases h
  all_goals rfl

/-- A fetch faults at a poisoned word, or at a check, which puts the fetch's address in TRAPVAL (R57, R334). -/
theorem fetchAt_fault_val {s s' : State} {pc : Word} {t : Trap} (h : s.fetchAt pc = (.fault t, s')) :
    t.cause = cMachine ∨ t.val = pc := by
  unfold State.fetchAt at h
  split at h
  next hcheck =>
    cases h
    exact .inr (checkAccess_error_val hcheck)
  next =>
    split at h
    · cases h
    split at h
    · cases h
      exact .inl rfl
    · cases h

theorem exec_fetchFault_of_fault {s s' : State} {t : Trap} (h : s.fetchAt s.hart.pc = (.fault t, s')) :
    exec .fetchFault s = raiseTrap s' t := by
  show execFetchFault s = _
  rw [execFetchFault, h]

/-- The instructions that only the supervisor may execute trap PRIVILEGE at user level (R22). -/
theorem exec_eq_raisePrivilege {s : State} {i : Instr} {a b : SReg} (hi : i ∈ [Instr.eret, .wfi, .tlbinv a b, .cinval a])
    (hs : s.hart.sup = false) : exec i s = raisePrivilege s i := by
  have hu : (!s.hart.sup) = true := by rw [hs]; rfl
  simp only [List.mem_cons, List.not_mem_nil, or_false] at hi
  rcases hi with rfl | rfl | rfl | rfl <;> exact if_pos hu

/-- Settles O17: each of these is a trap raised at once, with the TRAPVAL that its cause gives. -/
theorem trapsAreTaken : Obligations.TrapsAreTaken := by
  refine ⟨⟨?_, ?_, ?_⟩, ?_⟩
  · intro s hc
    exact ⟨completes_of_raiseTrap rfl hc, completes_of_raiseTrap rfl hc⟩
  · intro s w hc
    exact completes_of_raiseTrap rfl hc
  · intro s s' c v vec hc hf
    exact ⟨completes_of_raiseTrap (exec_fetchFault_of_fault hf) hc, fetchAt_fault_val hf⟩
  · intro s a b i w hi hw hs hc
    refine completes_of_raiseTrap ?_ hc
    rw [exec_eq_raisePrivilege hi hs, raisePrivilege, hw]
    rfl

end Sys2Proof.Machine
end
